-- ==== Sys2Proof/Word.lean ====
section
/-! DEFINITION. The words of the link and the chain, and fixed-size tables with total reads and writes. -/

namespace Sys2Proof

/-- One byte of the rack link (R173). -/
abbrev Byte := BitVec 8

/-- A 16-bit word: a card command (R49), a wrapping count (R35, R175), a CRC-16 (R174). -/
abbrev Word := BitVec 16

/-- A table of `n` slots. -/
abbrev Table (α : Type) (n : Nat) := Vector α n

namespace Table

variable {α β : Type} {n : Nat}

/-- The slot `i`, or `d` beyond the table. -/
def getD (t : Table α n) (i : Nat) (d : α) : α := t.toList.getD i d

/-- The table with slot `i` replaced; unchanged when `i` is beyond it. -/
def put (t : Table α n) (i : Nat) (x : α) : Table α n := t.setIfInBounds i x

/-- The table of `n` equal slots. -/
def fill (n : Nat) (x : α) : Table α n := Vector.replicate n x

/-- Every slot through a function of its number and content. -/
def mapIdx (f : Nat → α → β) (t : Table α n) : Table β n :=
  ⟨(t.toList.mapIdx f).toArray, by simp⟩

theorem getD_put (t : Table α n) (i j : Nat) (x d : α) :
    (t.put i x).getD j d = if i = j ∧ i < n then x else t.getD j d := by
  simp only [getD, put, Vector.toList_setIfInBounds, List.getD_eq_getElem?_getD, List.getElem?_set]
  by_cases h : i = j
  · subst h
    by_cases h' : i < n
    · simp [h']
    · simp [h']
  · simp [h]

@[simp] theorem getD_put_self (t : Table α n) {i : Nat} (x d : α) (h : i < n) :
    (t.put i x).getD i d = x := by simp [getD_put, h]

@[simp] theorem getD_put_ne (t : Table α n) {i j : Nat} (x d : α) (h : i ≠ j) :
    (t.put i x).getD j d = t.getD j d := by simp [getD_put, h]

@[simp] theorem getD_fill (x d : α) {i : Nat} (h : i < n) : (fill n x).getD i d = x := by
  simp [getD, fill, h]

theorem getD_mapIdx (f : Nat → α → β) (t : Table α n) {i : Nat} (d : α) (e : β) (h : i < n) :
    (t.mapIdx f).getD i e = f i (t.getD i d) := by
  simp [getD, mapIdx, List.getD_eq_getElem?_getD, h]

end Table

end Sys2Proof
end

