-- ==== Sys2Proof/Config.lean ====
section
/-! DEFINITION. What every MC48 has fixed (capacities, constants of the rules), and the free values the spec leaves open. -/

namespace Sys2Proof.Config

/-- Clock ticks in a millisecond: the clock counts half microseconds, so that every chain bit time of R29 is a whole
number of ticks. -/
def ticksPerMs : Nat := 2000

/-- Clock ticks in a microsecond (the gap G of R29 is given in microseconds). -/
def ticksPerUs : Nat := 2

/-- Clock ticks in a second. -/
def ticksPerSecond : Nat := 2000000

/-- 00_scope.md, "Numbering"; R181. -/
def maxCards : Nat := 16
def maxPositions : Nat := 256
def numValves : Nat := 106
def numBranches : Nat := 48
def numSegments : Nat := 4
def numMeters : Nat := 97
def numZones : Nat := 64
def numOwners : Nat := 53
def maxTargets : Nat := 8
def jobSlots : Nat := 16
def maxEntries : Nat := 16
def waitListMax : Nat := 64
def serviceQueueMax : Nat := 8
def windowMax : Nat := 32
def rxQueueMax : Nat := 4
def noticeObjects : Nat := 241

/-- R181: the family code and the revision. -/
def familyCode : Nat := 0x4A
def revision : Nat := 1

/-- R173: SYNC, and the two link rates in bit/s. -/
def sync : Byte := 0xC5
def baudLow : Nat := 115200
def baudHigh : Nat := 921600

/-- R175: the receive gap, in ms. -/
def rxGapMs : Nat := 5

/-- R177: a request is dispatched while fewer replies than this wait. -/
def dispatchLimit : Nat := 2

/-- R47, R48: the scan streak limit. -/
def streakMax : Nat := 8

/-- R171: the most frames a proving run sends. -/
def provingFrameMax : Nat := 16

/-- R90: the flow tick gate in ms; R92: the longest usable time difference in ms; R93: the largest trusted count step,
the rate constant and the top of the flow range. -/
def tickGateMs : Nat := 100
def maxDeltaMs : Nat := 5000
def maxDeltaCount : Nat := 240
def rateConstant : Nat := 600000
def maxFlow : Nat := 4000

/-- R68, R75: the age shown when no frame has been accepted, and its largest value. -/
def ageMax : Nat := 65535

/-- FREE VALUE (log 10): the bytes of the stored copy over which its CRC-32 runs. The spec names what the copy holds
(section 11.2) and not its byte layout, so the layout is left open. The argument is the copy's contents, field by field. -/
opaque storedCopyBytes : List Nat → List Byte

/-- FREE VALUE (log 20): 64 bits of a card register whose content the spec leaves open (R36: after a rejected frame; a
card's registers before any frame). Applied to the counter `freeCount`. -/
opaque freeCardWord : Nat → BitVec 64

end Sys2Proof.Config
end

