-- ==== Sys2Proof/Syntax.lean ====
section
/-! DEFINITION. The commands the part takes: one constructor per row of spec/opcode_table.json.

A request command carries the request's TAG and the fields of its BODY as they stand on the link (R173): a number is
the number the field holds, an enumeration is its code. What a code outside the enumeration does is the owner's check
(BAD_FIELD, R180). An event carries what the outside world gives it. -/

namespace Sys2Proof

/-- A unit of the manifold with a supply and a return valve (section 1.4). -/
inductive Owner where
  | branch (b : Nat)
  | segment (s : Nat)
  | main
  deriving DecidableEq, Repr

/-- What begins a warm start (R195). -/
inductive WarmCause where
  | resetRise      -- RESET_N rises after being held low
  | vmainReturn    -- VMAIN returns
  deriving DecidableEq, Repr

/-- How the write of a COMMIT ended (R191): the check agrees, or it disagrees and this CRC-32 was read back. -/
inductive WriteEnd where
  | agrees
  | disagrees (crc : BitVec 32)
  deriving DecidableEq, Repr

/-- The order in which the users of an accepted scan take their shares (R79 leaves it open): the valve checks of the move
scheduler, the drip samples of the zone monitor, the flow tick of the flow unit. -/
inductive ScanOrder where
  | valvesZonesFlow
  | valvesFlowZones
  | zonesValvesFlow
  | zonesFlowValves
  | flowValvesZones
  | flowZonesValves
  deriving DecidableEq, Repr

/-- Which spacing interval of R148 ends. -/
inductive Spacing where
  | segmentSame (s : Nat)   -- a segment's last-start time plus S_same
  | rackSame                -- the rack's last-start time plus S_same
  | rackOther               -- the rack's last-start time plus S_other
  deriving DecidableEq, Repr

/-- The commands. Bits on CDI (`cdi`) are the whole return of one frame, in clock order: the payload, most distant place
first, then the marker (R34). -/
inductive Instr where
  -- starts and supplies
  | coldStart (rateHigh : Bool)
  | warmStart (cause : WarmCause) (rateHigh : Bool)
  | resetNFall
  | vmainLoss
  | softStart (rateHigh : Bool)
  -- the link
  | frameReceived (bytes : List Byte)
  | gapDiscard
  | unknownKind (tag : Byte) (kind : Nat)
  | replyTransmit
  | notice
  -- requests
  | identify (tag : Byte)
  | readStatus (tag : Byte)
  | defineCard (tag : Byte) (card defined width : Nat)
  | mapPosition (tag : Byte) (card offset function number level : Nat)
  | defineValve (tag : Byte) (valve present stroke fail : Nat)
  | defineMeter (tag : Byte) (meter defined kFactor shift : Nat)
  | defineBranch (tag : Byte) (branch defined segment park nominal : Nat)
  | defineZone (tag : Byte) (zone defined kind confirm clear auto failsafe branch threshold minFlow : Nat)
  | setPlan (tag : Byte) (zone : Nat) (targets : List (Nat × Nat))
  | setLimits (tag : Byte) (budget reserve count window sSame sOther drain fill : Nat)
  | setPatterns (tag : Byte) (p0 p1 p2 p3 : Byte)
  | setScan (tag : Byte) (image attention interval priority rate gap holdOnWet : Nat)
  | setNotices (tag : Byte) (zone branch segment main valve job chain inputs : Nat)
  | activate (tag : Byte) (branch : Nat)
  | deactivate (tag : Byte) (branch : Nat)
  | hold (tag : Byte) (kind number : Nat)
  | unhold (tag : Byte) (kind number : Nat)
  | ackZone (tag : Byte) (zone declareDry : Nat)
  | ackZoneDeclareDry (tag : Byte) (zone : Nat)
  | releaseJob (tag : Byte) (zone : Nat)
  | clearFault (tag : Byte) (valve : Nat)
  | zoneEnable (tag : Byte) (zone setting : Nat)
  | valveMove (tag : Byte) (valve direction : Nat)
  | scanNow (tag : Byte)
  | service (tag : Byte) (card : Nat) (command : Word)
  | prove (tag : Byte) (format start count : Nat)
  | writeOutputs (tag : Byte) (entries : List (Nat × Nat))
  | readPositions (tag : Byte) (first count : Nat)
  | readObject (tag : Byte) (kind number : Nat)
  | readWindow (tag : Byte) (first count : Nat)
  | readMoves (tag : Byte) (first count : Nat)
  | readJobs (tag : Byte)
  | lock (tag : Byte) (lockTables lockPlan lockLimits : Nat)
  | commit (tag : Byte)
  | commitWriteEnd (result : WriteEnd)
  | restartRuntime (tag : Byte) (scope : Nat)
  | restartTables (tag : Byte)
  -- the chain
  | arbiterChoice
  | probe
  | scanAccepted (cdi : List Bool) (order : ScanOrder)
  | scanRejected (cdi : List Bool)
  | serviceCommandAccepted (cdi : List Bool)
  | serviceFetchAccepted (cdi : List Bool)
  | serviceFrameRejected (cdi : List Bool)
  | adoptionServiceAccepted (cdi : List Bool)
  | adoptionEchoAccepted (cdi : List Bool)
  | adoptionFrameRejected (cdi : List Bool)
  | probeAccepted (cdi : List Bool) (order : ScanOrder)
  | probeRejected (cdi : List Bool)
  | testFrameAccepted (cdi : List Bool)
  | reloadFrameAccepted (cdi : List Bool)
  | provingFrameRejected (cdi : List Bool)
  | frameEndUnchecked
  -- pins and timers
  | attention
  | periodic
  | strokeTimeArrival (valve : Nat)
  | strokeTimeout (valve : Nat)
  | drainTimerEnd (owner : Owner)
  | fillTimerEnd (owner : Owner)
  | windowAging
  | spacingEnd (which : Spacing)
  | framingError
  | vholdLoss
  deriving DecidableEq, Repr

end Sys2Proof
end

