-- ==== Sys2Proof/Decode.lean ====
section
/-! DEFINITION. Words of the opcode table, and the KIND codes of the rack link's requests. -/

namespace Sys2Proof

/-- The command that a word of spec/opcode_table.json spells. No row of the table gives any bits ("fields" is empty in
every row, and none has "fixed"), so no word spells a command. -/
def decodeTableWord (_nbits _w : Nat) : Option Instr := none

/-- The KIND codes of section 10.4 (R180). The link treats every other KIND as unknown (R177). -/
def requestKinds : List Nat :=
  [0x01, 0x02,
   0x10, 0x11, 0x12, 0x13, 0x14, 0x15, 0x16, 0x17, 0x18, 0x19, 0x1A,
   0x20, 0x21, 0x22, 0x23, 0x24, 0x25, 0x26, 0x27, 0x28,
   0x30, 0x31, 0x32, 0x33, 0x34,
   0x40, 0x41, 0x42, 0x43,
   0x50, 0x51, 0x52]

end Sys2Proof
end

