-- ==== Sys2Proof/Machine/State.lean ====
section
/-! DEFINITION. What the part holds: every register, table, queue, timer and flag the spec gives it, as plain data, and its
value at reset. Times are counted on `State.clock` (half microseconds) unless a field says "ms". -/

namespace Sys2Proof.Machine

/-! ## Names -/

/-- A valve's end position (R4). -/
inductive Pos where
  | opened
  | closed
  deriving DecidableEq, Repr

/-- Section 1.2. -/
inductive ValveState where
  | undefined | unknown | opened | closed | opening | closing | fault
  deriving DecidableEq, Repr

/-- Section 1.1, fault cause. -/
inductive FaultCause where
  | strokeTimeout | switchConflict | uncommanded
  deriving DecidableEq, Repr

/-- R5: what the switches of a valve show. -/
inductive Reading where
  | opened | closed | neither | both
  deriving DecidableEq, Repr

/-- R4: a move's direction. -/
inductive Dir where
  | openMove | closeMove | release
  deriving DecidableEq, Repr

/-- R3: a valve's class. -/
inductive ValveClass where
  | fast | normal | slow
  deriving DecidableEq, Repr

/-- Section 1.4: the states of branches, and of segments and the main. -/
inductive OwnerMode where
  | undefined | inactive | restoring | inService | suspended | isolating | isolated | parking | failed
  | noValves | opened
  deriving DecidableEq, Repr

/-- R14: how a branch is left when not in use. -/
inductive ParkAction where
  | close | release
  deriving DecidableEq, Repr

/-- Section 6.1. -/
inductive ZoneKind where
  | drip | balance
  deriving DecidableEq, Repr

/-- Section 6.2. -/
inductive ZoneState where
  | undefined | off | dry | suspect | wet | acked
  deriving DecidableEq, Repr

/-- Section 6.1, last wet cause. -/
inductive WetCause where
  | sense | balance | chainLoss | cardFault
  deriving DecidableEq, Repr

/-- Section 2.5. -/
inductive ChainState where
  | unconfigured | adopting | running | proving | broken
  deriving DecidableEq, Repr

/-- R29: the three kinds of chain frame. -/
inductive FrameKind where
  | scan | service | echo
  deriving DecidableEq, Repr

/-- R124. -/
inductive JobState where
  | active | contained | uncontained
  deriving DecidableEq, Repr

/-- R123. -/
inductive EntryStatus where
  | waiting | inProgress | done | failed
  deriving DecidableEq, Repr

/-- R182: the kind of the last start. -/
inductive StartKind where
  | cold | warm | restartRuntime | restartTables
  deriving DecidableEq, Repr

/-- R196. -/
inductive Scope where
  | runtime | tables
  deriving DecidableEq, Repr

/-- R180. -/
inductive Status where
  | ok | adjusted | aborted | badLength | unknownKind | badField | notDefined | conflict | full | locked | busy | held
  | notAcked | notOutput | chainDown
  deriving DecidableEq, Repr

/-- R185: the notice objects. -/
inductive Obj where
  | zone (z : Nat)
  | branch (b : Nat)
  | segment (s : Nat)
  | main
  | valve (v : Nat)
  | job (slot : Nat)
  | chain
  | inputs
  deriving DecidableEq, Repr

/-! ## The table store (11.2) -/

/-- Section 3.1: a function a position carries; NONE is the absence of an entry. -/
inductive MapFn where
  | drive (v : Nat)
  | openSw (v : Nat)
  | closedSw (v : Nat)
  | drip (z : Nat) (dryLevel : Bool)
  | flow (m : Nat)
  | cardOk (c : Nat) (goodLevel : Bool)
  | out (n : Nat)
  | inp (n : Nat)
  deriving DecidableEq, Repr

/-- R55: an entry of the position map, held as a card and an offset; a FLOW field is one entry at its lowest offset. -/
structure MapEntry where
  card : Nat
  offset : Nat
  fn : MapFn
  deriving DecidableEq, Repr

/-- R1: what the table store holds of a valve. -/
structure ValveDef where
  present : Bool
  stroke : Nat
  fail : Pos
  deriving DecidableEq, Repr

/-- R87: what the table store holds of a meter. -/
structure MeterDef where
  defined : Bool
  kFactor : Nat
  shift : Nat
  deriving DecidableEq, Repr

/-- R14, R18: what the table store holds of a branch. -/
structure BranchDef where
  defined : Bool
  segment : Nat
  activated : Bool
  park : ParkAction
  nominal : Nat
  deriving DecidableEq, Repr

/-- R101, R103: what the table store holds of a zone. -/
structure ZoneDef where
  defined : Bool
  kind : ZoneKind
  confirm : Nat
  clear : Nat
  auto : Bool
  failsafe : Bool
  branch : Nat
  threshold : Nat
  minFlow : Nat
  enabled : Bool
  deriving DecidableEq, Repr

/-- Section 8.6: the eight limits. -/
structure Limits where
  budget : Nat
  reserve : Nat
  count : Nat
  window : Nat
  sSame : Nat
  sOther : Nat
  drain : Nat
  fill : Nat
  deriving DecidableEq, Repr

/-- Section 4.3: the seven scan settings; the bit rate in kbit/s, the gap in microseconds, the interval in ms. -/
structure ScanSettings where
  image : Bool
  attention : Bool
  interval : Nat
  serviceFirst : Bool
  rate : Nat
  gap : Nat
  holdOnWet : Bool
  deriving DecidableEq, Repr

/-- R187: which notice kinds are on. -/
structure NoticeMask where
  zone : Bool
  branch : Bool
  segment : Bool
  main : Bool
  valve : Bool
  job : Bool
  chain : Bool
  inputs : Bool
  deriving DecidableEq, Repr

/-- Section 9.1: the four pattern slots. -/
structure Patterns where
  p0 : Byte
  p1 : Byte
  p2 : Byte
  p3 : Byte
  deriving DecidableEq, Repr

/-- The table store (11.2). -/
structure TableStore where
  /-- widths of the defined cards, card 0 first (R38: an unbroken run from 0) -/
  cards : List Nat
  map : List MapEntry
  valves : Table ValveDef 106
  meters : Table MeterDef 97
  branches : Table BranchDef 48
  zones : Table ZoneDef 64
  plans : Table (List Owner) 64
  limits : Limits
  scan : ScanSettings
  patterns : Patterns
  mask : NoticeMask
  deriving DecidableEq, Repr

/-- What a slot holds while its object is absent. DESIGN CHOICE, unsafe (log 15): the spec gives the state only. -/
def ValveDef.absent : ValveDef := { present := false, stroke := 100, fail := .opened }

/-- R100: an UNDEFINED meter has K-factor 1 and shift 2. -/
def MeterDef.absent : MeterDef := { defined := false, kFactor := 1, shift := 2 }

/-- DESIGN CHOICE, unsafe (log 15). -/
def BranchDef.absent : BranchDef :=
  { defined := false, segment := 0, activated := false, park := .close, nominal := 0 }

/-- K and C take the defaults of section 6.1; the rest is DESIGN CHOICE, unsafe (log 15). -/
def ZoneDef.absent : ZoneDef :=
  { defined := false, kind := .drip, confirm := 3, clear := 10, auto := false, failsafe := false, branch := 0,
    threshold := 1, minFlow := 0, enabled := false }

/-- The defaults of section 8.6. -/
def Limits.defaults : Limits :=
  { budget := 600, reserve := 200, count := 8, window := 2000, sSame := 200, sOther := 50, drain := 1500, fill := 1000 }

/-- The defaults of section 4.3. -/
def ScanSettings.defaults : ScanSettings :=
  { image := true, attention := true, interval := 20, serviceFirst := false, rate := 1000, gap := 50, holdOnWet := false }

/-- The defaults of section 9.1. -/
def Patterns.defaults : Patterns := { p0 := 0x00, p1 := 0xFF, p2 := 0x55, p3 := 0xAA }

/-- Every notice kind on (R193). -/
def NoticeMask.allOn : NoticeMask :=
  { zone := true, branch := true, segment := true, main := true, valve := true, job := true, chain := true, inputs := true }

/-- R193, step 3: the emptied table store with default settings. -/
def TableStore.empty : TableStore :=
  { cards := [], map := [], valves := Table.fill 106 ValveDef.absent, meters := Table.fill 97 MeterDef.absent,
    branches := Table.fill 48 BranchDef.absent, zones := Table.fill 64 ZoneDef.absent, plans := Table.fill 64 [],
    limits := Limits.defaults, scan := ScanSettings.defaults, patterns := Patterns.defaults, mask := NoticeMask.allOn }

/-! ## Power, locks, the stored copy -/

/-- The pins and supplies that stop the part (R115, R192). -/
structure Power where
  /-- RESET_N is held low -/
  resetLow : Bool
  /-- VMAIN is absent -/
  vmainLost : Bool
  /-- VHOLD has been lost since the last cold start: retained memory is gone -/
  retainedLost : Bool
  deriving DecidableEq, Repr

/-- R189: the three lock flags. -/
structure Locks where
  tables : Bool
  plan : Bool
  limits : Bool
  deriving DecidableEq, Repr

/-- The stored copy (11.2, R190, R191): never written; written whole, with its CRC-32; or spoiled by a failed or interrupted
write, with the CRC-32 read back when one was. -/
inductive StoredCopy where
  | never
  | whole (contents : TableStore) (crc : BitVec 32)
  | spoiled (crc : Option (BitVec 32))
  deriving DecidableEq, Repr

/-- R191: the COMMIT that runs. -/
structure CommitRun where
  tag : Byte
  snapshot : TableStore
  since : Nat
  deriving DecidableEq, Repr

/-! ## The rack link -/

/-- A complete frame in the receive queue (R176), as the link's own checks of R177 will take it: a request, a request KIND
whose BODY has the wrong length, or a KIND that is no request. -/
inductive Received where
  | request (c : Instr)
  | badLength (tag : Byte) (kind : Nat)
  | unknown (tag : Byte) (kind : Nat)
  deriving DecidableEq, Repr

/-- A reply in the reply queue (R178): the request's KIND and TAG, the STATUS and the BODY bytes after it. -/
structure Reply where
  kind : Nat
  tag : Byte
  status : Status
  fields : List Byte
  deriving DecidableEq, Repr

/-- The frame last begun on LTX, SYNC to CHECK, and when it began (R178, R186). -/
structure TxFrame where
  bytes : List Byte
  start : Nat
  deriving DecidableEq, Repr

/-- R179: how far a taken RESTART has come. -/
inductive RestartPhase where
  | none
  | answered (scope : Scope)
  | sending (scope : Scope)
  deriving DecidableEq, Repr

/-- The rack link (chapter 10). -/
structure Link where
  /-- the bytes collected after SYNC, or hunting (R175) -/
  rxBuf : Option (List Byte)
  lastByteAt : Nat
  lengthDiscards : Word
  checkDiscards : Word
  gapDiscards : Word
  overflowDiscards : Word
  rxQueue : List Received
  replies : List Reply
  tx : Option TxFrame
  notices : List Obj
  restart : RestartPhase
  deriving DecidableEq, Repr

/-- R188. -/
def Link.start (notices : List Obj) : Link :=
  { rxBuf := none, lastByteAt := 0, lengthDiscards := 0, checkDiscards := 0, gapDiscards := 0, overflowDiscards := 0,
    rxQueue := [], replies := [], tx := none, notices := notices, restart := .none }

/-! ## The chain -/

/-- Section 2.9: which frame a service transaction needs next. -/
inductive Stage where
  | command | fetch
  deriving DecidableEq, Repr

/-- Section 2.9: an entry of the service queue. -/
structure ServiceEntry where
  card : Nat
  command : Word
  tag : Byte
  stage : Stage
  deriving DecidableEq, Repr

/-- Whose frame is on the ring (R41, R45, R47, R50, R166). -/
inductive Purpose where
  | scan
  | command
  | fetch
  | adoptService
  | adoptEcho
  | probeScan
  | probeEcho
  | test (k : Nat)
  | reload (k : Nat)
  deriving DecidableEq, Repr

/-- The frame in flight (R29, R34). `payload` is indexed from chain position 0 (for a SERVICE frame from bit 0 of card 0's
word). -/
structure Frame where
  purpose : Purpose
  /-- the marker is 0x5A (else 0xA5) -/
  marker5A : Bool
  payload : List Bool
  selectAt : Nat
  /-- clock ticks in a bit time, at the rate the frame began with -/
  bitTicks : Nat
  /-- the card table changed while it was in flight: its end is not checked (R39) -/
  unchecked : Bool
  /-- the gap, in microseconds, that follows it: G as it stood at its select (R29, R78; log 32) -/
  gap : Nat
  deriving DecidableEq, Repr

/-- What proving has found of one card (R167, R168). -/
structure CardProof where
  mismatched : Nat
  firstFail : Option Nat
  latchMismatch : Nat
  pendingCount : Nat
  deriving DecidableEq, Repr

/-- The next frame of a run (R166): test frame `k`, or a reload frame of index `k` followed by test frame `next`. -/
inductive NextFrame where
  | test (k : Nat)
  | reload (k next : Nat)
  deriving DecidableEq, Repr

/-- R163, R164, R166: the proving session. -/
structure Session where
  tag : Byte
  staggered : Bool
  start : Nat
  count : Nat
  adjusted : Bool
  /-- phase FRAMES (else WAITING) -/
  frames : Bool
  /-- the head transaction that stood in the queue when the PROVE was taken has not ended -/
  waitHead : Bool
  next : NextFrame
  readback : Bool
  sent : Nat
  tested : Nat
  rejected : Nat
  /-- an ATTN_N edge fell while a frame was in flight (R171) -/
  abort : Bool
  cards : List CardProof
  deriving DecidableEq, Repr

/-- The chain master (chapters 2 and 9). -/
structure Chain where
  st : ChainState
  adopted : Bool
  rejects : Nat
  rejectTotal : Word
  queue : List ServiceEntry
  streak : Nat
  /-- the next marker is 0x5A (else 0xA5) -/
  marker5A : Bool
  /-- the adoption's SERVICE frame was accepted, its ECHO frame is next (R41) -/
  echoNext : Bool
  inFlight : Option Frame
  /-- the release of the last frame that has ended: its selects stay asserted until then (R29) -/
  heldUntil : Nat
  /-- no select before this time: the release of the last frame plus the gap (R29) -/
  idleAt : Nat
  lastSelectAt : Option Nat
  lastKind : Option FrameKind
  copyAtSelect : List Bool
  session : Option Session
  deriving DecidableEq, Repr

/-- R54. -/
def Chain.start (st : ChainState) : Chain :=
  { st := st, adopted := false, rejects := 0, rejectTotal := 0, queue := [], streak := 0, marker5A := false,
    echoNext := false, inFlight := none, heldUntil := 0, idleAt := 0, lastSelectAt := none, lastKind := none, copyAtSelect := [],
    session := none }

/-- Section 2.2: the four registers of one card. The output latch has one place for each of the card's places, and keeps what it
held beyond them when the card is redefined narrower; an accepted SCAN sets only its output places. -/
structure CardRegs where
  shift : List Bool
  latch : List Bool
  service : Word
  echo : List Bool
  deriving DecidableEq, Repr

/-- The image unit (chapter 3). -/
structure Image where
  out : List Bool
  copy : List Bool
  ret : List Bool
  cardGood : List Bool
  fresh : Bool
  lastFrameAt : Option Nat
  deriving DecidableEq, Repr

/-- R70: zeros over `len` positions, `cards` good cards. -/
def Image.start (len cards : Nat) : Image :=
  { out := List.replicate len false, copy := List.replicate len false, ret := List.replicate len false,
    cardGood := List.replicate cards true, fresh := false, lastFrameAt := none }

/-! ## Flow, zones, valves, owners, jobs -/

/-- Section 5.1: a meter's flow history; the previous tick time in ms. -/
structure MeterHist where
  prevCount : Option Nat
  prevTick : Option Nat
  lastRaw : Option Nat
  smooth : Nat
  valid : Bool
  overrange : Bool
  stale : Bool
  deriving DecidableEq, Repr

/-- R89: a lost history. -/
def MeterHist.lost : MeterHist :=
  { prevCount := none, prevTick := none, lastRaw := none, smooth := 0, valid := false, overrange := false, stale := false }

/-- The flow unit (chapter 5); the last flow tick time in ms. -/
structure Flow where
  meters : Table MeterHist 97
  lastTick : Option Nat
  deriving DecidableEq, Repr

/-- R100. -/
def Flow.start : Flow := { meters := Table.fill 97 MeterHist.lost, lastTick := none }

/-- Section 6.1: what changes of a zone; the time entered WET in ms. -/
structure ZoneRec where
  st : ZoneState
  wet : Nat
  dry : Nat
  cause : Option WetCause
  wetTime : Option Nat
  deriving DecidableEq, Repr

/-- A zone in state `st` with nothing counted (R102, R116). -/
def ZoneRec.fresh (st : ZoneState) : ZoneRec := { st := st, wet := 0, dry := 0, cause := none, wetTime := none }

/-- R154: a stroke timer that is not stopped. It counts `count` ticks up to `since`, and on from there; paused while
`since` is absent. `stroke` is the stroke time (ms) it started with. -/
structure StrokeTimer where
  count : Nat
  since : Option Nat
  stroke : Nat
  deriving DecidableEq, Repr

/-- Section 1.1: what changes of a valve. -/
structure ValveRec where
  st : ValveState
  cause : Option FaultCause
  target : Option Pos
  driveSent : Option Nat
  mismatch : Nat
  latest : Option Reading
  timer : Option StrokeTimer
  deriving DecidableEq, Repr

/-- R13: a valve in state `st` with nothing known. -/
def ValveRec.fresh (st : ValveState) : ValveRec :=
  { st := st, cause := none, target := none, driveSent := none, mismatch := 0, latest := none, timer := none }

/-- R21: a running phase timer: when it started and its length in ms. -/
structure PhaseTimer where
  start : Nat
  len : Nat
  deriving DecidableEq, Repr

/-- Section 1.4: what changes of an owner. -/
structure OwnerRec where
  mode : OwnerMode
  hostHold : Bool
  holds : Nat
  step : Option Nat
  /-- the first step was recorded as having needed a move (R21) -/
  needed : Bool
  phase : Option PhaseTimer
  /-- not waiting for the derivation that follows an adoption (R123) -/
  settled : Bool
  /-- the start-hold-pending flag (R194) -/
  startPending : Bool
  deriving DecidableEq, Repr

/-- R28: an owner's start values, holds cleared. -/
def OwnerRec.start (mode : OwnerMode) (settled : Bool) : OwnerRec :=
  { mode := mode, hostHold := false, holds := 0, step := none, needed := false, phase := none, settled := settled,
    startPending := true }

/-- Section 7.2: where an entry escalated to. -/
inductive Escalation where
  | absent
  | nothing
  | entry (i : Nat)
  deriving DecidableEq, Repr

/-- Section 7.2: an entry of a job's target list. `origin` is the index of the entry that escalated to it, absent for PLAN. -/
structure JobEntry where
  target : Owner
  origin : Option Nat
  esc : Escalation
  status : EntryStatus
  deriving DecidableEq, Repr

/-- Section 7.2: a job; the creation time in ms. -/
structure Job where
  zone : Nat
  created : Nat
  entries : List JobEntry
  st : JobState
  deriving DecidableEq, Repr

/-! ## The move scheduler -/

/-- Section 8.1: who asked for a move. -/
inductive Requester where
  | step (o : Owner) (k : Nat)
  | maintenance
  deriving DecidableEq, Repr

/-- Section 8.1: an entry of the move queue; the enqueue time in ms. -/
structure MoveEntry where
  valve : Nat
  dir : Dir
  urgent : Bool
  req : Requester
  time : Nat
  deriving DecidableEq, Repr

/-- Section 8.2: an entry of the shock window; the start in ms. -/
structure WindowEntry where
  valve : Nat
  urgent : Bool
  dir : Dir
  start : Nat
  cost : Nat
  deriving DecidableEq, Repr

/-- The move scheduler (chapter 8); the last-start times in ms. `lookDue` is the model's own mark that an event of R148
has happened within the event being taken (log 6). -/
structure Sched where
  queue : List MoveEntry
  window : List WindowEntry
  lastSeg : Table (Option Nat) 4
  lastRack : Option Nat
  lookDue : Bool
  deriving DecidableEq, Repr

/-- R161. -/
def Sched.start : Sched :=
  { queue := [], window := [], lastSeg := Table.fill 4 none, lastRack := none, lookDue := false }

/-! ## The state -/

/-- Why the machine would stop. The spec gives no command a fault of the part (INVENTORY.md, Faults), so there is none: no
meaning raises one. -/
inductive Fault where
  deriving DecidableEq, Repr

/-- Why a command would be refused by the model. -/
inductive Refusal where
  /-- Raised only by an arm of `exec` that has no meaning yet; there is none. Safe. -/
  | notModelled (mnemonic : String)
  deriving DecidableEq, Repr

/-- The MC48. -/
structure State where
  clock : Nat
  lastStart : StartKind
  power : Power
  rateHigh : Bool
  tables : TableStore
  locks : Locks
  stored : StoredCopy
  copyValid : Bool
  commit : Option CommitRun
  link : Link
  chain : Chain
  /-- the cards by place, those of places that have left the card table after them (R31; log 20) -/
  ring : List CardRegs
  image : Image
  scanDue : Bool
  periodicFrom : Option Nat
  flow : Flow
  zones : Table ZoneRec 64
  valves : Table ValveRec 106
  owners : Table OwnerRec 53
  jobs : Table (Option Job) 16
  waitList : List Nat
  activeJobs : Nat
  sched : Sched
  freeCount : Nat
  pending : List Instr
  deriving DecidableEq, Repr

/-- The 48 branches, 4 segments and the main with no table loaded (R28, R193). -/
def ownersEmpty : Table OwnerRec 53 :=
  Table.mapIdx (fun i _ => OwnerRec.start (if i < 48 then .undefined else .noValves) true) (Table.fill 53 ())

/-- The machine right after reset: its first cold start (R193), with storage that was never written (log 14). -/
def State.reset : State :=
  { clock := 0, lastStart := .cold, power := { resetLow := false, vmainLost := false, retainedLost := false },
    rateHigh := false, tables := TableStore.empty, locks := { tables := false, plan := false, limits := false },
    stored := .never, copyValid := false, commit := none, link := Link.start [.chain], chain := Chain.start .unconfigured,
    ring := [], image := Image.start 0 0, scanDue := false, periodicFrom := none, flow := Flow.start,
    zones := Table.fill 64 (ZoneRec.fresh .undefined), valves := Table.fill 106 (ValveRec.fresh .undefined),
    owners := ownersEmpty, jobs := Table.fill 16 none, waitList := [], activeJobs := 0, sched := Sched.start,
    freeCount := 0, pending := [] }

end Sys2Proof.Machine
end

