-- ==== Sys2Proof/Machine/Bytes.lean ====
section
/-! DEFINITION. Bytes: the field encodings of R173, the CRC-16 of R174, the CRC-32 of R190, and bits of a frame. -/

namespace Sys2Proof.Machine

/-! ## Fields (R173) -/

/-- A field of one byte. -/
def u8 (n : Nat) : List Byte := [BitVec.ofNat 8 n]

/-- A field of two bytes, high byte first. -/
def u16 (n : Nat) : List Byte := [BitVec.ofNat 8 (n / 256), BitVec.ofNat 8 n]

/-- A field of four bytes, high byte first: an ms count modulo 2^32 (R173). R173 has no row for the CRC-32 of a COMMIT reply (R191),
which is laid down in the same way: DESIGN CHOICE, unsafe (log 56). -/
def u32 (n : Nat) : List Byte :=
  [BitVec.ofNat 8 (n / 16777216), BitVec.ofNat 8 (n / 65536), BitVec.ofNat 8 (n / 256), BitVec.ofNat 8 n]

/-- A flag: yes and set are 1, no and clear 0. -/
def flag (b : Bool) : List Byte := [if b then 1 else 0]

/-- An optional field whose encoding takes `len` bytes: a presence byte, then the field, zeros when absent. -/
def opt {α : Type} (len : Nat) (enc : α → List Byte) : Option α → List Byte
  | none => 0 :: List.replicate len 0
  | some a => 1 :: enc a

/-- A list: an entry count, then the entries. -/
def encList {α : Type} (enc : α → List Byte) (l : List α) : List Byte := u8 l.length ++ l.flatMap enc

/-- A number of two bytes, from its bytes. -/
def pair16 (hi lo : Byte) : Nat := hi.toNat * 256 + lo.toNat

/-! ## Checks -/

/-- One step of a CRC register of 16 bits with polynomial x^16 + x^12 + x^5 + 1 (R174). -/
def crc16Bit (r : Word) : Word := if r.msb then (r <<< 1) ^^^ 0x1021 else r <<< 1

/-- One byte, most significant bit first (R174). -/
def crc16Byte (r : Word) (b : Byte) : Word :=
  (List.range 8).foldl (fun r _ => crc16Bit r) (r ^^^ (b.setWidth 16 <<< 8))

/-- The CHECK of a frame: from 0xFFFF, no final inversion (R174). -/
def crc16 (bytes : List Byte) : Word := bytes.foldl crc16Byte 0xFFFF

/-- One step of the CRC-32 register with polynomial 0x04C11DB7 (R190). -/
def crc32Bit (r : BitVec 32) : BitVec 32 := if r.msb then (r <<< 1) ^^^ 0x04C11DB7 else r <<< 1

/-- One byte, most significant bit first (R190). -/
def crc32Byte (r : BitVec 32) (b : Byte) : BitVec 32 :=
  (List.range 8).foldl (fun r _ => crc32Bit r) (r ^^^ (b.setWidth 32 <<< 24))

/-- The CRC-32 of the stored copy: from 0xFFFFFFFF, the result inverted (R190). -/
def crc32 (bytes : List Byte) : BitVec 32 := ~~~ (bytes.foldl crc32Byte 0xFFFFFFFF)

/-! ## Bits -/

/-- The bit at a place of a bit list, 0 beyond it. -/
def bitAt (l : List Bool) (i : Nat) : Bool := l.getD i false

/-- The `n` bits of a number, least significant first. -/
def bitsLow (n v : Nat) : List Bool := (List.range n).map fun i => v.testBit i

/-- The number whose bits, most significant first, are given. -/
def bitsNat (l : List Bool) : Nat := l.foldl (fun a b => 2 * a + (if b then 1 else 0)) 0

/-- The marker values of R35. -/
def markerByte (is5A : Bool) : Nat := if is5A then 0x5A else 0xA5

/-- A marker as it stands on the line, bit 7 first (R34). -/
def markerBits (is5A : Bool) : List Bool := (bitsLow 8 (markerByte is5A)).reverse

end Sys2Proof.Machine
end

