-- ==== Sys2Proof/Machine/Ops.lean ====
section
/-! DEFINITION. The shared operations: the clock, notices, replies, the position map, the output image, and one accessor for
each table. A block has no exception entry: taking a request (R177, R178) and letting time pass stand in its place. -/

namespace Sys2Proof

/-- An owner's place among the 53 (section 1.4): branches, then segments, then the main. -/
def Owner.index : Owner → Nat
  | .branch b => b
  | .segment s => 48 + s
  | .main => 52

/-- Valve numbers of section 1.1. -/
def Owner.supplyValve : Owner → Nat
  | .branch b => 2 * b
  | .segment s => 96 + 2 * s
  | .main => 104

def Owner.returnValve : Owner → Nat
  | .branch b => 2 * b + 1
  | .segment s => 97 + 2 * s
  | .main => 105

/-- The notice object of an owner. -/
def Owner.obj : Owner → Machine.Obj
  | .branch b => .branch b
  | .segment s => .segment s
  | .main => .main

end Sys2Proof

namespace Sys2Proof.Machine

/-! ## Time -/

/-- The part's ms count. -/
def State.ms (s : State) : Nat := s.clock / Config.ticksPerMs

/-- Time passes up to `t`; nothing when it has passed already (log 2). -/
def State.advanceTo (t : Nat) (s : State) : State := { s with clock := max s.clock t }

/-- The part runs: RESET_N is high, VMAIN is present, retained memory has not been lost (R115, R192; log 27). -/
def Power.running (p : Power) : Bool := !p.resetLow && !p.vmainLost && !p.retainedLost

/-- A command of a part that runs; while it is halted the command has no effect (R115, R192; log 27). -/
def State.whenRunning (s : State) (f : State → State) : State := if s.power.running then f s else s

/-! ## Table accessors: every read and write of a table slot goes through these -/

def State.valve (s : State) (v : Nat) : ValveRec := s.valves.getD v (ValveRec.fresh .undefined)
def State.zone (s : State) (z : Nat) : ZoneRec := s.zones.getD z (ZoneRec.fresh .undefined)
def State.job (s : State) (slot : Nat) : Option Job := s.jobs.getD slot none
def State.meter (s : State) (m : Nat) : MeterHist := s.flow.meters.getD m MeterHist.lost
def TableStore.valve (t : TableStore) (v : Nat) : ValveDef := t.valves.getD v ValveDef.absent
def TableStore.meter (t : TableStore) (m : Nat) : MeterDef := t.meters.getD m MeterDef.absent
def TableStore.branch (t : TableStore) (b : Nat) : BranchDef := t.branches.getD b BranchDef.absent
def TableStore.zone (t : TableStore) (z : Nat) : ZoneDef := t.zones.getD z ZoneDef.absent
def TableStore.plan (t : TableStore) (z : Nat) : List Owner := t.plans.getD z []

/-- The owners in that order. -/
def branchOwners : List Owner := (List.range 48).map .branch
def wideOwners : List Owner := (List.range 4).map .segment ++ [.main]

def State.owner (s : State) (o : Owner) : OwnerRec := s.owners.getD o.index (OwnerRec.start .undefined true)

/-- The owner a valve belongs to (section 1.1). -/
def valveOwner (v : Nat) : Owner :=
  if v < 96 then .branch (v / 2) else if v < 104 then .segment ((v - 96) / 2) else .main

/-! ## Notices (R185) -/

/-- Whether a notice kind is on. -/
def NoticeMask.on (m : NoticeMask) : Obj → Bool
  | .zone _ => m.zone
  | .branch _ => m.branch
  | .segment _ => m.segment
  | .main => m.main
  | .valve _ => m.valve
  | .job _ => m.job
  | .chain => m.chain
  | .inputs => m.inputs

/-- An object joins the notice pending set: not when its kind is off, not twice, else at the tail (R185). -/
def State.joinNotice (o : Obj) (s : State) : State :=
  if s.tables.mask.on o && !s.link.notices.contains o then
    { s with link := { s.link with notices := s.link.notices ++ [o] } }
  else s

/-! ## Replies (R178) -/

/-- A reply joins the reply queue at its tail. -/
def State.reply (kind : Nat) (tag : Byte) (status : Status) (fields : List Byte) (s : State) : State :=
  { s with link := { s.link with replies := s.link.replies ++ [{ kind := kind, tag := tag, status := status, fields := fields }] } }

/-- A refusal carries the STATUS alone. -/
def State.refuse (kind : Nat) (tag : Byte) (status : Status) (s : State) : State := s.reply kind tag status []

/-- R177: the link dispatches when nothing waits before the request, fewer than 2 replies wait and no RESTART is under way. -/
def State.canDispatch (s : State) : Bool :=
  s.link.rxQueue.isEmpty && s.link.replies.length < Config.dispatchLimit && s.link.restart == .none

/-- A complete frame joins the receive queue, or is discarded and counted when it is full (R176). -/
def State.enqueue (r : Received) (s : State) : State :=
  if s.link.rxQueue.length < Config.rxQueueMax then
    { s with link := { s.link with rxQueue := s.link.rxQueue ++ [r] } }
  else { s with link := { s.link with overflowDiscards := s.link.overflowDiscards + 1 } }

/-- A request completes at the link as a good frame (log 4): it is dispatched at once where R177 allows it, and `answer` is
then what its owner does; otherwise it joins the receive queue. -/
def State.request (c : Instr) (answer : State → State) (s : State) : State :=
  s.whenRunning fun s => if s.canDispatch then answer s else s.enqueue (.request c)

/-! ## The position map (R55) -/

/-- A FLOW field takes 8 positions, every other function one. -/
def MapFn.width : MapFn → Nat
  | .flow _ => 8
  | _ => 1

/-- An output function (section 3.1). -/
def MapFn.isOutput : MapFn → Bool
  | .drive _ | .out _ => true
  | _ => false

def MapEntry.covers (e : MapEntry) (card offset : Nat) : Bool :=
  e.card == card && e.offset ≤ offset && offset < e.offset + e.fn.width

/-- L, the sum of the card widths (section 2.4). -/
def TableStore.length (t : TableStore) : Nat := t.cards.sum

/-- A card's first position. -/
def TableStore.firstPos (t : TableStore) (card : Nat) : Nat := (t.cards.take card).sum

/-- The chain position of a card's offset. -/
def TableStore.posOf (t : TableStore) (card offset : Nat) : Nat := t.firstPos card + offset

/-- The card and offset at a distance `p` into cards numbered from `c`. -/
def locateFrom (c : Nat) : List Nat → Nat → Option (Nat × Nat)
  | [], _ => none
  | w :: ws, p => if p < w then some (c, p) else locateFrom (c + 1) ws (p - w)

/-- The card and offset of a chain position. -/
def TableStore.locate (t : TableStore) (p : Nat) : Option (Nat × Nat) := locateFrom 0 t.cards p

/-- The entry that covers a card's offset. -/
def TableStore.entryAt (t : TableStore) (card offset : Nat) : Option MapEntry :=
  t.map.find? fun e => e.covers card offset

/-- The entry that covers a chain position. -/
def TableStore.entryAtPos (t : TableStore) (p : Nat) : Option MapEntry :=
  (t.locate p).bind fun co => t.entryAt co.1 co.2

/-- The entry that carries a function satisfying `f`. -/
def TableStore.entryOf (t : TableStore) (f : MapFn → Bool) : Option MapEntry := t.map.find? fun e => f e.fn

/-- The chain position (lowest, for a FLOW field) of such an entry. -/
def TableStore.findPos (t : TableStore) (f : MapFn → Bool) : Option Nat :=
  (t.entryOf f).map fun e => t.posOf e.card e.offset

/-- R3: a valve's three position fields. -/
def TableStore.drivePos (t : TableStore) (v : Nat) : Option Nat := t.findPos (· == .drive v)
def TableStore.openPos (t : TableStore) (v : Nat) : Option Nat := t.findPos (· == .openSw v)
def TableStore.closedPos (t : TableStore) (v : Nat) : Option Nat := t.findPos (· == .closedSw v)

/-- The DRIP entries of a zone, at most 4 (R55). -/
def TableStore.dripEntries (t : TableStore) (z : Nat) : List MapEntry :=
  t.map.filter fun e => match e.fn with | .drip z' _ => z' == z | _ => false

/-- R3: a valve is complete when it is present and its drive position is mapped. -/
def TableStore.complete (t : TableStore) (v : Nat) : Bool := (t.valve v).present && (t.drivePos v).isSome

/-- R2, R15: a segment or the main has its valves when both are present and complete. -/
def TableStore.hasValves (t : TableStore) (o : Owner) : Bool := t.complete o.supplyValve && t.complete o.returnValve

/-- Whether a chain position carries an output function. -/
def TableStore.isOutputPos (t : TableStore) (p : Nat) : Bool :=
  match t.entryAtPos p with
  | some e => e.fn.isOutput
  | none => false

/-! ## The output image (R61, R62) -/

/-- R71: a trigger sets the scan-due flag. -/
def State.trigger (s : State) : State := { s with scanDue := true }

/-- R62: the image differs from the last-sent copy. -/
def Image.differs (i : Image) : Bool := i.out != i.copy

/-- R62, R73: the IMAGE trigger, given where the image differs and the trigger is enabled. -/
def State.imageTrigger (s : State) : State :=
  if s.image.differs && s.tables.scan.image then s.trigger else s

/-- A bit of the output image is written. When that changes it and the image then differs, an IMAGE trigger follows. -/
def State.writeImageBit (p : Nat) (b : Bool) (s : State) : State :=
  if bitAt s.image.out p == b then s
  else State.imageTrigger { s with image := { s.image with out := s.image.out.set p b } }

/-! ## Valve and owner records -/

/-- The fields of a valve's record that change (section 1.1). -/
def ValveRec.shown (r : ValveRec) : ValveState × Option FaultCause × Option Pos × Option Nat × Nat × Option Reading :=
  (r.st, r.cause, r.target, r.driveSent, r.mismatch, r.latest)

/-- A valve's record is replaced. The valve joins the notice pending set when its record changes (R1). -/
def State.setValve (v : Nat) (r : ValveRec) (s : State) : State :=
  let t : State := { s with valves := s.valves.put v r }
  if r.shown = (s.valve v).shown then t else t.joinNotice (.valve v)

/-- The fields of an owner's record that change (section 1.4). -/
def OwnerRec.shown (r : OwnerRec) : OwnerMode × Bool × Nat × Option Nat × Option PhaseTimer :=
  (r.mode, r.hostHold, r.holds, r.step, r.phase)

/-- An owner's record is replaced. The owner joins the notice pending set when its record changes (log 22). -/
def State.setOwner (o : Owner) (r : OwnerRec) (s : State) : State :=
  let t : State := { s with owners := s.owners.put o.index r }
  if r.shown = (s.owner o).shown then t else t.joinNotice o.obj

/-- A job slot is replaced. -/
def State.setJob (slot : Nat) (j : Option Job) (s : State) : State := { s with jobs := s.jobs.put slot j }

/-- A zone's record is replaced (the rules name its joins themselves, R114). -/
def State.setZone (z : Nat) (r : ZoneRec) (s : State) : State := { s with zones := s.zones.put z r }

/-- A change of the chain record of section 2.10. -/
def State.withChain (c : Chain) (s : State) : State := { s with chain := c }

/-- R48: any change of chain state sets the scan streak to 0. The chain joins the notice pending set (R53). -/
def State.setChainState (st : ChainState) (s : State) : State :=
  State.joinNotice .chain { s with chain := { s.chain with st := st, streak := if s.chain.st = st then s.chain.streak else 0 } }

/-! ## Drive bits and switch readings -/

/-- R4: where a valve goes with its drive bit at `b`. -/
def Pos.other : Pos → Pos
  | .opened => .closed
  | .closed => .opened

/-- R4: the position a drive bit commands. -/
def driveTarget (fail : Pos) (bit : Bool) : Pos := if bit then fail.other else fail

/-- R4: the drive bit and the target of a direction. -/
def Dir.target (fail : Pos) : Dir → Pos
  | .openMove => .opened
  | .closeMove => .closed
  | .release => fail

def Dir.driveBit (fail : Pos) (d : Dir) : Bool := d.target fail != fail

/-- R4: the commanded target, from the drive bit in the output image; absent while no drive is mapped. -/
def State.commandedTarget (s : State) (v : Nat) : Option Pos :=
  (s.tables.drivePos v).map fun p => driveTarget (s.tables.valve v).fail (bitAt s.image.out p)

/-- The card of a chain position read good at the last accepted frame (R64). -/
def State.goodAt (s : State) (p : Nat) : Bool :=
  match s.tables.locate p with
  | some (c, _) => s.image.cardGood.getD c true
  | none => true

def Pos.reading : Pos → Reading
  | .opened => .opened
  | .closed => .closed

/-- R5: the reading of a valve in the returned image; absent when it shows nothing. -/
def State.reading (s : State) (v : Nat) : Option Reading :=
  match s.tables.openPos v, s.tables.closedPos v with
  | none, none => none
  | some p, none => if s.goodAt p then some (if bitAt s.image.ret p then .opened else .closed) else none
  | none, some p => if s.goodAt p then some (if bitAt s.image.ret p then .closed else .opened) else none
  | some p, some q =>
    if s.goodAt p && s.goodAt q then
      some (match bitAt s.image.ret p, bitAt s.image.ret q with
        | true, true => .both
        | true, false => .opened
        | false, true => .closed
        | false, false => .neither)
    else none

/-- R3: neither switch is mapped. -/
def TableStore.switchless (t : TableStore) (v : Nat) : Bool := (t.openPos v).isNone && (t.closedPos v).isNone

/-- The state a valve idles in at a position, and moves in toward it. -/
def Pos.idle : Pos → ValveState
  | .opened => .opened
  | .closed => .closed

def Pos.moving : Pos → ValveState
  | .opened => .opening
  | .closed => .closing

def ValveState.isMoving : ValveState → Bool
  | .opening | .closing => true
  | _ => false

def ValveState.isIdle : ValveState → Bool
  | .opened | .closed => true
  | _ => false

/-! ## Free values -/

/-- `n` bits the spec leaves open (log 20), and the counter moved on. -/
def freeBits (count n : Nat) : List Bool :=
  (List.range n).map fun i => (Config.freeCardWord count).getLsbD i

end Sys2Proof.Machine
end

