-- ==== Sys2Proof/Machine/Operands.lean ====
section
/-! DEFINITION. The fields of a request: enumeration codes (R173: 0, 1, 2 … in the order the chapter lists the values; yes and
set are 1, no and clear 0; log 16), parameters brought into range, owners and map functions named by a request; and the
codes records carry back. -/

namespace Sys2Proof.Machine

/-! ## Parameters -/

/-- A parameter brought into `lo..hi`: a value outside is taken as the nearer end. -/
def clamp (lo hi n : Nat) : Nat := max lo (min hi n)

/-- The status of a taken request: ADJUSTED when a parameter was changed (R180). -/
def takenStatus (changed : Bool) : Status := if changed then .adjusted else .ok

/-! ## Enumerations -/

/-- no 0, yes 1. -/
def yesNo : Nat → Option Bool
  | 0 => some false
  | 1 => some true
  | _ => none

/-- on 0, off 1: "on or off" (R103, R187), in the order listed. -/
def onOff : Nat → Option Bool
  | 0 => some true
  | 1 => some false
  | _ => none

/-- enabled 0, disabled 1 (section 4.3). -/
def enabledDisabled : Nat → Option Bool := onOff

/-- off 0, on 1 (section 4.3, HOLD_ON_WET). -/
def offOn : Nat → Option Bool := yesNo

/-- leave 0, set 1 (R189; "set" is 1). -/
def setLeave : Nat → Option Bool := yesNo

/-- fail position OPEN 0, CLOSED 1 (R1). -/
def posOfCode : Nat → Option Pos
  | 0 => some .opened
  | 1 => some .closed
  | _ => none

/-- park action CLOSE 0, RELEASE 1 (R14). -/
def parkOfCode : Nat → Option ParkAction
  | 0 => some .close
  | 1 => some .release
  | _ => none

/-- kind DRIP 0, BALANCE 1 (R101). -/
def zoneKindOfCode : Nat → Option ZoneKind
  | 0 => some .drip
  | 1 => some .balance
  | _ => none

/-- direction OPEN 0, CLOSE 1, RELEASE 2 (R27). -/
def dirOfCode : Nat → Option Dir
  | 0 => some .openMove
  | 1 => some .closeMove
  | 2 => some .release
  | _ => none

/-- chain bit rate: the five rates in the order listed (section 4.3), in kbit/s. R77 calls it a choice from a set; R173 names no
encoding of it. It crosses the link as a one-byte enumeration, 0 to 4: DESIGN CHOICE, unsafe (log 59). -/
def rateOfCode : Nat → Option Nat
  | 0 => some 125
  | 1 => some 250
  | 2 => some 500
  | 3 => some 1000
  | 4 => some 2000
  | _ => none

/-- chain priority SCAN_FIRST 0, SERVICE_FIRST 1: whether it is SERVICE_FIRST. -/
def serviceFirstOfCode : Nat → Option Bool := yesNo

/-- format UNIFORM 0, STAGGERED 1: whether it is STAGGERED (section 9.2). -/
def staggeredOfCode : Nat → Option Bool := yesNo

/-- scope RUNTIME 0, TABLES 1 (R196). -/
def scopeOfCode : Nat → Option Scope
  | 0 => some .runtime
  | 1 => some .tables
  | _ => none

/-- An owner by kind BRANCH 0, SEGMENT 1, MAIN 2 and number; absent for a kind outside these or a number beyond the kind
(R17, R120). The number byte of a MAIN, given as 0 by R173, is not looked at: DESIGN CHOICE, unsafe (log 41). -/
def ownerOfCode (kind number : Nat) : Option Owner :=
  match kind with
  | 0 => if number < Config.numBranches then some (.branch number) else none
  | 1 => if number < Config.numSegments then some (.segment number) else none
  | 2 => some .main
  | _ => none

/-- The function of a MAP_POSITION by code (section 3.1, NONE 0 to IN 8) with its object number and level: absent for a
value outside its range (R56), else the function, itself absent for NONE. A number or level byte a function does not take, given as
0 by R173, is not looked at: DESIGN CHOICE, unsafe (log 49). -/
def mapFnOfCode (function number level : Nat) : Option (Option MapFn) :=
  match function with
  | 0 => some none
  | 1 => if number < 106 then some (some (.drive number)) else none
  | 2 => if number < 106 then some (some (.openSw number)) else none
  | 3 => if number < 106 then some (some (.closedSw number)) else none
  | 4 => if number < 64 then (yesNo level).map fun l => some (.drip number l) else none
  | 5 => if number < 97 then some (some (.flow number)) else none
  | 6 => if number < 16 then (yesNo level).map fun l => some (.cardOk number l) else none
  | 7 => if number < 32 then some (some (.out number)) else none
  | 8 => if number < 32 then some (some (.inp number)) else none
  | _ => none

/-! ## Codes of records and replies -/

/-- R180. -/
def Status.code : Status → Nat
  | .ok => 0x00
  | .adjusted => 0x01
  | .aborted => 0x02
  | .badLength => 0x10
  | .unknownKind => 0x11
  | .badField => 0x12
  | .notDefined => 0x20
  | .conflict => 0x21
  | .full => 0x22
  | .locked => 0x23
  | .busy => 0x24
  | .held => 0x25
  | .notAcked => 0x26
  | .notOutput => 0x27
  | .chainDown => 0x30

def Pos.code : Pos → Nat
  | .opened => 0
  | .closed => 1

def ValveClass.code : ValveClass → Nat
  | .fast => 0
  | .normal => 1
  | .slow => 2

def ValveState.code : ValveState → Nat
  | .undefined => 0
  | .unknown => 1
  | .opened => 2
  | .closed => 3
  | .opening => 4
  | .closing => 5
  | .fault => 6

def FaultCause.code : FaultCause → Nat
  | .strokeTimeout => 0
  | .switchConflict => 1
  | .uncommanded => 2

def Reading.code : Reading → Nat
  | .opened => 0
  | .closed => 1
  | .neither => 2
  | .both => 3

def Dir.code : Dir → Nat
  | .openMove => 0
  | .closeMove => 1
  | .release => 2

def ParkAction.code : ParkAction → Nat
  | .close => 0
  | .release => 1

/-- A branch's state, in the order section 1.4 lists it. -/
def OwnerMode.branchCode : OwnerMode → Nat
  | .undefined => 0
  | .inactive => 1
  | .restoring => 2
  | .inService => 3
  | .suspended => 4
  | .isolating => 5
  | .isolated => 6
  | .parking => 7
  | .failed => 8
  | .noValves => 9
  | .opened => 10

/-- A segment's or the main's state, in the order section 1.4 lists it. -/
def OwnerMode.wideCode : OwnerMode → Nat
  | .noValves => 0
  | .opened => 1
  | .isolating => 2
  | .isolated => 3
  | .restoring => 4
  | .failed => 5
  | .undefined => 6
  | .inactive => 7
  | .inService => 8
  | .suspended => 9
  | .parking => 10

/-- The code of an owner's state in its own record. -/
def ownerModeCode : Owner → OwnerMode → Nat
  | .branch _, m => m.branchCode
  | _, m => m.wideCode

/-- An owner as kind and number. -/
def encOwner : Owner → List Byte
  | .branch b => u8 0 ++ u8 b
  | .segment s => u8 1 ++ u8 s
  | .main => u8 2 ++ u8 0

def ZoneKind.code : ZoneKind → Nat
  | .drip => 0
  | .balance => 1

def ZoneState.code : ZoneState → Nat
  | .undefined => 0
  | .off => 1
  | .dry => 2
  | .suspect => 3
  | .wet => 4
  | .acked => 5

def WetCause.code : WetCause → Nat
  | .sense => 0
  | .balance => 1
  | .chainLoss => 2
  | .cardFault => 3

def ChainState.code : ChainState → Nat
  | .unconfigured => 0
  | .adopting => 1
  | .running => 2
  | .proving => 3
  | .broken => 4

/-- UNDEFINED 0 is a free slot (section 7.2). -/
def JobState.code : JobState → Nat
  | .active => 1
  | .contained => 2
  | .uncontained => 3

def EntryStatus.code : EntryStatus → Nat
  | .waiting => 0
  | .inProgress => 1
  | .done => 2
  | .failed => 3

def StartKind.code : StartKind → Nat
  | .cold => 0
  | .warm => 1
  | .restartRuntime => 2
  | .restartTables => 3

/-- The function codes of section 3.1; NONE is 0. -/
def MapFn.code : MapFn → Nat
  | .drive _ => 1
  | .openSw _ => 2
  | .closedSw _ => 3
  | .drip _ _ => 4
  | .flow _ => 5
  | .cardOk _ _ => 6
  | .out _ => 7
  | .inp _ => 8

/-- on 0, off 1. -/
def onOffCode (b : Bool) : List Byte := u8 (if b then 0 else 1)

/-- The code of a bit rate, one byte (log 59). -/
def rateCode (r : Nat) : Nat :=
  if r = 125 then 0 else if r = 250 then 1 else if r = 500 then 2 else if r = 1000 then 3 else 4

end Sys2Proof.Machine
end

