-- ==== Sys2Proof/Machine/Flags.lean ====
section
/-! DEFINITION. Flags and lines computed from the state: ALERT_N, staleness and card health, the INPUTS record, the age of
the returned image, the chain selects. -/

namespace Sys2Proof.Machine

/-! ## ALERT_N (R115) -/

/-- A zone is in WET; a job is UNCONTAINED; a valve is in FAULT. -/
def State.anyWet (s : State) : Bool := s.zones.toList.any fun z => z.st == .wet
def State.anyUncontained (s : State) : Bool :=
  s.jobs.toList.any fun j => match j with | some j => j.st == .uncontained | none => false
def State.anyFault (s : State) : Bool := s.valves.toList.any fun v => v.st == .fault

/-- The conditions of R115 in a part that runs. -/
def State.alertConditions (s : State) : Bool :=
  s.anyWet || s.chain.st == .broken || s.anyUncontained || s.anyFault

/-- ALERT_N is low (asserted): a condition holds, or the part is halted and has not started again (R115). -/
def State.alertAsserted (s : State) : Bool := !s.power.running || s.alertConditions

/-! ## The chain selects (R29): SELA for SCAN, SELB for SERVICE, both for ECHO, both released between frames -/

def Purpose.kind : Purpose → FrameKind
  | .scan | .probeScan => .scan
  | .command | .fetch | .adoptService => .service
  | .adoptEcho | .probeEcho | .test _ | .reload _ => .echo

/-- The kind of the frame whose selects are asserted: the frame in flight, or the one just ended within its select tail. -/
def State.selectedKind (s : State) : Option FrameKind :=
  match s.chain.inFlight with
  | some f => some f.purpose.kind
  | none => if s.clock < s.chain.heldUntil then s.chain.lastKind else none

def State.selA (s : State) : Bool := s.selectedKind == some .scan || s.selectedKind == some .echo
def State.selB (s : State) : Bool := s.selectedKind == some .service || s.selectedKind == some .echo

/-! ## Card health and staleness (R64, R65) -/

/-- R64: the card-good flags from a returned payload. -/
def State.cardGoodOf (s : State) (ret : List Bool) : List Bool :=
  (List.range s.tables.cards.length).map fun c =>
    match s.tables.entryOf (fun f => match f with | .cardOk c' _ => c' == c | _ => false) with
    | some e => match e.fn with
      | .cardOk _ level => bitAt ret (s.tables.posOf e.card e.offset) == level
      | _ => true
    | none => true

/-- R65: an input or NONE position is stale when the fresh flag is clear or its card is not-good. -/
def State.staleAt (s : State) (p : Nat) : Bool := !s.image.fresh || !s.goodAt p

/-! ## The INPUTS record (R69) -/

/-- For each number 0..31: absent when not mapped, else the returned value and the stale flag. -/
def State.inputsRecord (s : State) : List (Option (Bool × Bool)) :=
  (List.range 32).map fun n =>
    (s.tables.findPos (· == .inp n)).map fun p => (bitAt s.image.ret p, s.staleAt p)

/-- A number has turned stale, or has come to be mapped or unmapped, between two records. -/
def inputTurned : Option (Bool × Bool) → Option (Bool × Bool) → Bool
  | some a, some b => !a.2 && b.2
  | none, none => false
  | _, _ => true

/-- R69: INPUTS joins when the record differs from what it held in `before`. -/
def State.joinInputsIfChanged (s before : State) : State :=
  if before.inputsRecord = s.inputsRecord then s else s.joinNotice .inputs

/-- R69: INPUTS joins at an event that is no scan when a mapped IN position has turned stale since `before`, or when the map
itself changed (a table reload, log 21). -/
def State.joinInputsIfStale (s before : State) : State :=
  if (before.inputsRecord.zip s.inputsRecord).any fun x => inputTurned x.1 x.2 then s.joinNotice .inputs else s

/-! ## Age (R68, R75) -/

/-- The age of the returned image in ms, saturating. The time elapsed is rounded down to a whole ms: DESIGN CHOICE, unsafe
(log 42). -/
def State.age (s : State) : Nat :=
  match s.image.lastFrameAt with
  | some t => min Config.ageMax ((s.clock - t) / Config.ticksPerMs)
  | none => Config.ageMax

end Sys2Proof.Machine
end

