-- ==== Sys2Proof/Machine/Flow.lean ====
section
/-! DEFINITION. Flow and transient arithmetic (chapter 5): the update of a meter at a flow tick, the flow values of owners, the
cost of a move. Integer throughout; every division rounds as its rule says. -/

namespace Sys2Proof.Machine

/-! ## One meter at a flow tick -/

/-- R93: the count step, modulo 256. -/
def countStep (now before : Nat) : Nat := (now + 256 - before) % 256

/-- R93: the raw rate and whether it is OVERRANGE. -/
def rawRate (kFactor step delta : Nat) : Nat × Bool :=
  if Config.maxDeltaCount < step then (Config.maxFlow, true)
  else (min Config.maxFlow (step * Config.rateConstant / (kFactor * delta)), false)

/-- R94: a raw rate folded into the smoothed flow: the step is the difference divided by 2^s, truncated toward zero. -/
def smoothStep (shift smooth raw : Nat) : Nat :=
  if smooth ≤ raw then smooth + (raw - smooth) / 2 ^ shift else smooth - (smooth - raw) / 2 ^ shift

/-- R91: a tick that gives no count: STALE is set where VALID is, and is clear where it is not, a STALE set by R92 before
VALID included: DESIGN CHOICE, unsafe (log 44). -/
def MeterHist.noCount (h : MeterHist) : MeterHist := { h with stale := h.valid }

/-- R92, R93, R94: a tick at `now` (ms) that gives a count. -/
def MeterHist.counted (d : MeterDef) (now count : Nat) (h : MeterHist) : MeterHist :=
  match h.prevCount, h.prevTick with
  | some c, some t =>
    if Config.maxDeltaMs < now - t then { h with prevCount := some count, prevTick := some now, stale := true }
    else
      let r := rawRate d.kFactor (countStep count c) (now - t)
      { prevCount := some count, prevTick := some now, lastRaw := some r.1,
        smooth := if h.valid then smoothStep d.shift h.smooth r.1 else r.1,
        valid := true, overrange := r.2, stale := false }
  | _, _ => { h with prevCount := some count, prevTick := some now }

/-- R83: the count a tick gives a meter: the 8 bits of its FLOW field, most significant at the lowest offset; absent when no
field is mapped or its card is not-good. -/
def State.meterCount (s : State) (m : Nat) : Option Nat :=
  match s.tables.findPos (· == .flow m) with
  | some p => if s.goodAt p then some (bitsNat ((s.image.ret.drop p).take 8)) else none
  | none => none

/-- R90: what a tick at `now` makes of meter `m`. -/
def State.meterAfterTick (s : State) (now m : Nat) (h : MeterHist) : MeterHist :=
  if (s.tables.meter m).defined then
    match s.meterCount m with
    | some c => h.counted (s.tables.meter m) now c
    | none => h.noCount
  else h

/-- R90: a flow tick is due at an accepted scan. -/
def State.tickDue (s : State) : Bool :=
  match s.flow.lastTick with
  | some t => t + Config.tickGateMs ≤ s.ms
  | none => true

/-- R90: every meter is updated and the tick time kept. -/
def State.tickMeters (s : State) : State :=
  { s with flow := { meters := s.flow.meters.mapIdx fun m h => s.meterAfterTick s.ms m h, lastTick := some s.ms } }

/-- R89: every meter loses its history and the last flow tick time becomes absent. -/
def State.loseFlow (s : State) : State := { s with flow := Flow.start }

/-- R89: one meter loses its history. -/
def State.loseMeter (m : Nat) (s : State) : State :=
  { s with flow := { s.flow with meters := s.flow.meters.put m MeterHist.lost } }

/-! ## Flow values (R95, R96) -/

/-- A meter is DEFINED and VALID. -/
def State.meterValid (s : State) (m : Nat) : Bool := (s.tables.meter m).defined && (s.meter m).valid

/-- R95. -/
def State.branchFlow (s : State) (b : Nat) : Nat :=
  let d := s.tables.branch b
  if !d.defined then 0
  else if s.meterValid (2 * b) then (s.meter (2 * b)).smooth
  else if s.meterValid (2 * b + 1) then (s.meter (2 * b + 1)).smooth
  else if (s.owner (.branch b)).mode = .inService then d.nominal
  else 0

/-- R96: the sum over the defined branches of a segment, or of the rack, lowered to 4000. -/
def State.flowSum (s : State) (f : BranchDef → Bool) : Nat :=
  min Config.maxFlow
    (((List.range 48).filter fun b => (s.tables.branch b).defined && f (s.tables.branch b)).map s.branchFlow).sum

/-- R95, R96: the flow value of an owner. -/
def State.ownerFlow (s : State) : Owner → Nat
  | .branch b => s.branchFlow b
  | .segment g => s.flowSum fun d => d.segment == g
  | .main => if s.meterValid 96 then (s.meter 96).smooth else s.flowSum fun _ => true

/-! ## Cost (R98) -/

/-- R3: the class of a stroke time. -/
def classOf (stroke : Nat) : ValveClass := if stroke ≤ 1000 then .fast else if stroke ≤ 5000 then .normal else .slow

/-- R3: the cost multiplier M. -/
def ValveClass.multiplier : ValveClass → Nat
  | .fast => 64
  | .normal => 32
  | .slow => 8

/-- R98: a move's sense. R4 has an OPEN and a RELEASE of a fail-OPEN valve differ in the cost they are charged; R98 and its worked
table charge both as an opening. The model follows R98: DESIGN CHOICE, unsafe (log 62). -/
def Dir.isClosing (fail : Pos) (d : Dir) : Bool := d.target fail == .closed

/-- R98: flow times multiplier, divided by 256 for a closing and 512 for an opening, rounded up, at least 1. -/
def moveCost (flow multiplier : Nat) (closing : Bool) : Nat :=
  let divisor := if closing then 256 else 512
  max 1 ((flow * multiplier + (divisor - 1)) / divisor)

/-- R98, R99: what a move of valve `v` would be charged now. -/
def State.costOf (s : State) (v : Nat) (d : Dir) : Nat :=
  let def_ := s.tables.valve v
  moveCost (s.ownerFlow (valveOwner v)) (classOf def_.stroke).multiplier (d.isClosing def_.fail)

end Sys2Proof.Machine
end

