-- ==== Sys2Proof/Machine/Scheduler.lean ====
section
/-! DEFINITION. The move scheduler (chapter 8): the move queue, the shock window, admission. -/

namespace Sys2Proof.Machine

/-- An event of R148: a look is due at the end of the event being taken (log 6). -/
def State.wantLook (s : State) : State := { s with sched := { s.sched with lookDue := true } }

def State.hasUrgent (s : State) : Bool := s.sched.queue.any (·.urgent)

/-- R145: the entries satisfying `p` are withdrawn. When that removes the last URGENT entry a look is due. -/
def State.withdraw (p : MoveEntry → Bool) (s : State) : State :=
  let t : State := { s with sched := { s.sched with queue := s.sched.queue.filter fun e => !p e } }
  if s.hasUrgent && !t.hasUrgent then t.wantLook else t

/-- R143, R144: an entry joins at the tail of its class; an entry its valve already has is replaced. A look is due. -/
def State.joinMove (e : MoveEntry) (s : State) : State :=
  let rest := s.sched.queue.filter fun x => x.valve != e.valve
  let q := if e.urgent then rest.filter (·.urgent) ++ [e] ++ rest.filter (fun x => !x.urgent) else rest ++ [e]
  State.wantLook { s with sched := { s.sched with queue := q } }

/-- Whether a valve has an entry in the move queue. -/
def State.hasEntry (s : State) (v : Nat) : Bool := s.sched.queue.any fun e => e.valve == v

/-- R163: the condition PROVE reads: nothing is queued and nothing moves, and no job is ACTIVE. -/
def State.movesPending (s : State) : Bool :=
  !s.sched.queue.isEmpty || s.valves.toList.any fun v => v.st.isMoving

/-! ## The shock window -/

def State.windowSum (s : State) : Nat := (s.sched.window.map (·.cost)).sum

/-- The segment of a valve for the spacing test (R150, R151); absent for a main valve. -/
def State.valveSegment (s : State) (v : Nat) : Option Nat :=
  match valveOwner v with
  | .branch b => some (s.tables.branch b).segment
  | .segment g => some g
  | .main => none

/-! ## The three tests (R150) -/

def State.countTest (s : State) : Bool := s.sched.window.length < s.tables.limits.count

/-- The limit of the budget test: B for URGENT, B − R for ROUTINE. -/
def Limits.limitFor (l : Limits) (urgent : Bool) : Nat := if urgent then l.budget else l.budget - l.reserve

def State.budgetTest (s : State) (e : MoveEntry) : Bool :=
  let limit := s.tables.limits.limitFor e.urgent
  let cost := s.costOf e.valve e.dir
  if cost ≤ limit then s.windowSum + cost ≤ limit else s.sched.window.isEmpty

/-- An absent last-start time passes its part. -/
def spaced (now spacing : Nat) : Option Nat → Bool
  | some t => t + spacing ≤ now
  | none => true

def State.spacingTest (s : State) (e : MoveEntry) : Bool :=
  let l := s.tables.limits
  match s.valveSegment e.valve with
  | some g => spaced s.ms l.sSame (s.sched.lastSeg.getD g none) && spaced s.ms l.sOther s.sched.lastRack
  | none => spaced s.ms l.sSame s.sched.lastRack

def State.passes (s : State) (e : MoveEntry) : Bool := s.countTest && s.budgetTest e && s.spacingTest e

/-! ## The look (R148, R149) -/

/-- A taken PROVE waits to enter PROVING (R47, R163). -/
def State.proveWaiting (s : State) : Bool :=
  match s.chain.session with
  | some p => !p.frames
  | none => false

/-- Nothing is considered: the chain is not RUNNING, or a PROVE waits (R149). -/
def State.noneConsidered (s : State) : Bool := s.chain.st != .running || s.proveWaiting

/-- ROUTINE entries are withheld by HOLD_ON_WET (R149, R140). The flag of READ_WINDOW (R159) is this condition alone, also while the
chain is not RUNNING, a PROVE waits or URGENT entries wait, which R149 tests before it: DESIGN CHOICE, unsafe (log 60). -/
def State.withheld (s : State) : Bool := s.tables.scan.holdOnWet && 0 < s.activeJobs

/-- R149: the entries a look may consider, in queue order. -/
def State.considered (s : State) : List MoveEntry :=
  if s.noneConsidered then []
  else if s.hasUrgent then s.sched.queue.filter (·.urgent)
  else if s.withheld then []
  else s.sched.queue

/-- The last-start times after an admission at `now`: its segment, or every segment for a main valve (R151). -/
def startTimes (now : Nat) (segment : Option Nat) (t : Table (Option Nat) 4) : Table (Option Nat) 4 :=
  match segment with
  | some g => t.put g (some now)
  | none => Table.fill 4 (some now)

/-- R151: the valve is set moving: it loses its drive sent time, its mismatch run and its running stroke timer. -/
def ValveRec.admitted (target : Pos) (r : ValveRec) : ValveRec :=
  { r with st := target.moving, target := some target, driveSent := none, mismatch := 0, timer := none }

/-- R151: the admission of an entry. -/
def State.admitMove (e : MoveEntry) (s : State) : State :=
  let cost := s.costOf e.valve e.dir
  let def_ := s.tables.valve e.valve
  let s1 : State :=
    { s with sched := { s.sched with
        queue := s.sched.queue.filter fun x => x.valve != e.valve
        window := s.sched.window ++ [{ valve := e.valve, urgent := e.urgent, dir := e.dir, start := s.ms, cost := cost }]
        lastSeg := startTimes s.ms (s.valveSegment e.valve) s.sched.lastSeg
        lastRack := some s.ms } }
  let s2 := s1.setValve e.valve ((s1.valve e.valve).admitted (e.dir.target def_.fail))
  match s2.tables.drivePos e.valve with
  | some p => s2.writeImageBit p (e.dir.driveBit def_.fail)
  | none => s2

/-- R149, R150: the first considered entry that passes is admitted. -/
def State.lookOnce (s : State) : Option State := (s.considered.find? s.passes).map fun e => s.admitMove e

/-- R148: a look that admits is followed by another, until one admits nothing. -/
def lookLoop : Nat → State → State
  | 0, s => s
  | n + 1, s =>
    match s.lookOnce with
    | some t => lookLoop n t
    | none => s

/-- The end of an event: the looks it has made due (R148; log 6). Each admission takes an entry from the queue. -/
def State.settle (s : State) : State :=
  if s.sched.lookDue then
    let t := lookLoop s.sched.queue.length s
    { t with sched := { t.sched with lookDue := false } }
  else s

/-- R147: the entries that have reached their start plus W leave; a look is due when the queue holds an entry. -/
def State.ageWindow (s : State) : State :=
  let t : State := { s with sched := { s.sched with
    window := s.sched.window.filter fun w => s.ms < w.start + s.tables.limits.window } }
  if s.sched.queue.isEmpty then t else t.wantLook

end Sys2Proof.Machine
end

