-- ==== Sys2Proof/Machine/Owners.lean ====
section
/-! DEFINITION. Owners (chapter 1): evaluation, the isolate, restore and park sequences, failure, NO_VALVES, and the
derivation of owners after an adoption with its start hold (R194). -/

namespace Sys2Proof.Machine

/-! ## What an owner reads -/

/-- R19: OPEN or NO_VALVES counts as open. -/
def OwnerMode.countsOpen : OwnerMode → Bool
  | .opened | .noValves => true
  | _ => false

/-- R19: the segment of a branch and the main are both open. -/
def State.pathOpen (s : State) (b : Nat) : Bool :=
  (s.owner (.segment (s.tables.branch b).segment)).mode.countsOpen && (s.owner .main).mode.countsOpen

/-- R19: the four outcomes. -/
inductive Outcome where
  | isolate | restore | suspend | park
  deriving DecidableEq, Repr

/-- R19: the outcome of an owner's evaluation. -/
def State.outcome (s : State) (o : Owner) : Outcome :=
  if 0 < (s.owner o).holds then .isolate
  else match o with
    | .branch b =>
      if (s.tables.branch b).activated then (if s.pathOpen b then .restore else .suspend) else .park
    | _ => .restore

/-- R19: an owner already in the end state of the outcome, or running its sequence. -/
def OwnerMode.follows (m : OwnerMode) : Outcome → Bool
  | .isolate => m == .isolating || m == .isolated
  | .restore => m == .restoring || m == .inService || m == .opened
  | .suspend => m == .suspended
  | .park => m == .parking || m == .inactive

/-- R21: the state a sequence ends in. -/
def OwnerMode.endMode (o : Owner) : OwnerMode → OwnerMode
  | .isolating => .isolated
  | .restoring => match o with | .branch _ => .inService | _ => .opened
  | .parking => .inactive
  | m => m

/-- R21: the valve and direction of a step of the sequence an owner runs (section 1.7). -/
def State.stepMove (s : State) (o : Owner) (k : Nat) : Nat × Dir :=
  let first := k == 1
  match (s.owner o).mode with
  | .restoring => (if first then o.returnValve else o.supplyValve, .openMove)
  | .parking =>
    let d := match o with
      | .branch b => if (s.tables.branch b).park = .release then Dir.release else .closeMove
      | _ => .closeMove
    (if first then o.supplyValve else o.returnValve, d)
  | _ => (if first then o.supplyValve else o.returnValve, .closeMove)

/-- R21: only isolate moves are URGENT. -/
def OwnerMode.urgent (m : OwnerMode) : Bool := m == .isolating

/-- R21: the length of the timer step, Fd for a restore and D otherwise, as the limits stand. -/
def State.phaseLength (s : State) (o : Owner) : Nat :=
  if (s.owner o).mode = .restoring then s.tables.limits.fill else s.tables.limits.drain

/-! ## Failing and withdrawing -/

/-- An entry an owner placed for a step. -/
def MoveEntry.isOf (o : Owner) (e : MoveEntry) : Bool :=
  match e.req with
  | .step o' _ => o' == o
  | .maintenance => false

/-- A maintenance entry of one of an owner's valves. -/
def MoveEntry.isMaintenanceOf (o : Owner) (e : MoveEntry) : Bool :=
  e.req == .maintenance && (e.valve == o.supplyValve || e.valve == o.returnValve)

/-- R20: an owner abandons what it was doing: its entries are withdrawn, its phase timer stops, its step is cleared. When a
branch leaves INACTIVE its maintenance entries are withdrawn too (R27). -/
def State.abandon (o : Owner) (s : State) : State :=
  let r := s.owner o
  let s1 := s.withdraw (MoveEntry.isOf o)
  let s2 := if r.mode = .inactive then s1.withdraw (MoveEntry.isMaintenanceOf o) else s1
  s2.setOwner o { s2.owner o with step := none, phase := none, needed := false }

/-- R26: the owner becomes FAILED. -/
def State.failOwner (o : Owner) (s : State) : State :=
  let s1 := s.withdraw (MoveEntry.isOf o)
  s1.setOwner o { s1.owner o with mode := .failed, step := none, phase := none, needed := false }

/-! ## Steps (R21) -/

/-- What a valve step finds. -/
inductive StepView where
  | inPlace | awaited | needsMove | unknown | fault
  deriving DecidableEq, Repr

/-- R21: how a valve stands against the position a step asks for. -/
def ValveRec.view (r : ValveRec) (p : Pos) : StepView :=
  match r.st with
  | .fault => .fault
  | .unknown | .undefined => .unknown
  | st => if st = p.idle then .inPlace else if st = p.moving then .awaited else .needsMove

/-- R21: the step's move joins the queue; an entry the valve already has, this step's own included, is replaced (R143, R144;
log 7). -/
def State.askMove (o : Owner) (k : Nat) (v : Nat) (d : Dir) (s : State) : State :=
  s.joinMove { valve := v, dir := d, urgent := (s.owner o).mode.urgent, req := .step o k, time := s.ms }

/-- R21: step 3 completes: the owner enters its end state. -/
def State.endSequence (o : Owner) (s : State) : State :=
  let r := s.owner o
  s.setOwner o { r with mode := r.mode.endMode o, step := none, phase := none, needed := false }

/-- R21: a valve step takes the valve's state: it completes (`done`), waits, asks for a move, or fails. At its beginning
(`first`) the step records whether it needed a move. -/
def State.takeStep (o : Owner) (k : Nat) (first : Bool) (done : State → State) (s : State) : State :=
  let m := s.stepMove o k
  let r := s.owner o
  let mark (needed : Bool) (s : State) := s.setOwner o { s.owner o with step := some k, needed := needed, phase := none }
  match (s.valve m.1).view (m.2.target (s.tables.valve m.1).fail) with
  | .inPlace => done (mark (if first then false else r.needed) s)
  | .awaited => mark true s
  | .needsMove => (mark true s).askMove o k m.1 m.2
  | .unknown => mark false s
  | .fault => s.failOwner o

/-- R21, step 3. -/
def State.takeStep3 (o : Owner) (first : Bool) (s : State) : State :=
  s.takeStep o 3 first fun s => s.endSequence o

/-- R21, step 2: the timer runs when the first step needed a move and its length is not 0; else the step completes at once. -/
def State.beginTimer (o : Owner) (s : State) : State :=
  let r := s.owner o
  if r.needed && 0 < s.phaseLength o then
    s.setOwner o { r with step := some 2, phase := some { start := s.clock, len := s.phaseLength o } }
  else (s.setOwner o { r with step := some 2 }).takeStep3 o true

/-- R21, step 1. -/
def State.takeStep1 (o : Owner) (first : Bool) (s : State) : State :=
  s.takeStep o 1 first fun s => s.beginTimer o

/-- R20, R21: a sequence begins at its first step, from the valves as they stand. -/
def State.beginSequence (o : Owner) (mode : OwnerMode) (s : State) : State :=
  (s.setOwner o { s.owner o with mode := mode, step := some 1, phase := none, needed := false }).takeStep1 o true

/-- R19: the course of an outcome. -/
def State.beginOutcome (o : Owner) (out : Outcome) (s : State) : State :=
  match out with
  | .isolate => s.beginSequence o .isolating
  | .restore => s.beginSequence o .restoring
  | .suspend => s.setOwner o { s.owner o with mode := .suspended, step := none, phase := none, needed := false }
  | .park => s.beginSequence o .parking

/-- R19, R20: one owner re-evaluates. UNDEFINED, FAILED and NO_VALVES owners do not, and none does before it is derived
(R28). -/
def State.evaluateOne (o : Owner) (s : State) : State :=
  let r := s.owner o
  if !r.settled || r.mode = .undefined || r.mode = .failed || r.mode = .noValves then s
  else if r.mode.follows (s.outcome o) then s
  else (s.abandon o).beginOutcome o (s.outcome o)

/-! ## Derivation after an adoption (R28, R194) -/

/-- None of an owner's valves is UNKNOWN. -/
def State.valvesKnown (s : State) (o : Owner) : Bool :=
  (s.valve o.supplyValve).st != .unknown && (s.valve o.returnValve).st != .unknown

def State.anyValveFault (s : State) (o : Owner) : Bool :=
  (s.valve o.supplyValve).st == .fault || (s.valve o.returnValve).st == .fault

/-- Both valves stand at a position. -/
def State.bothAt (s : State) (o : Owner) (p : Pos) : Bool :=
  (s.valve o.supplyValve).st == p.idle && (s.valve o.returnValve).st == p.idle

/-- R194: a valve is found closed: its derived state is CLOSED or CLOSING, or its reading in the returned image as it stands at
the owner's derivation shows CLOSED (log 31). -/
def State.foundClosed (s : State) (v : Nat) : Bool :=
  (s.valve v).st == .closed || (s.valve v).st == .closing || s.reading v == some .closed

/-- R194: whether an owner receives the start hold at its derivation. -/
def State.startHoldDue (s : State) (o : Owner) : Bool :=
  let r := s.owner o
  r.startPending && !r.hostHold && r.holds == 0
    && (match o with
      | .branch b => (s.tables.branch b).activated
      | _ => s.tables.hasValves o)
    && (s.foundClosed o.supplyValve || s.foundClosed o.returnValve)

/-- R194: the start hold, where due, and the pending flag cleared. -/
def State.applyStartHold (o : Owner) (s : State) : State :=
  let r := s.owner o
  if s.startHoldDue o then s.setOwner o { r with hostHold := true, holds := 1, startPending := false }
  else s.setOwner o { r with startPending := false }

/-- The owner comes to rest in a state, with no step and no phase timer. -/
def State.restOwner (o : Owner) (m : OwnerMode) (s : State) : State :=
  s.setOwner o { s.owner o with mode := m, step := none, phase := none, needed := false }

/-- R28: an unheld, unactivated branch stays INACTIVE at its derivation. -/
def State.staysInactive (s : State) (o : Owner) : Bool :=
  match o with
  | .branch b => (s.owner o).holds == 0 && !(s.tables.branch b).activated
  | _ => false

/-- R28: the course of an owner that does not stay INACTIVE. -/
def State.beginCourse (o : Owner) (s : State) : State :=
  if s.anyValveFault o then s.restOwner o .failed
  else if 0 < (s.owner o).holds then (if s.bothAt o .closed then s.restOwner o .isolated else s.beginSequence o .isolating)
  else match o with
    | .branch b =>
      if !s.pathOpen b then s.restOwner o .suspended
      else if s.bothAt o .opened then s.restOwner o .inService else s.beginSequence o .restoring
    | _ => if s.bothAt o .opened then s.restOwner o .opened else s.beginSequence o .restoring

/-- R28: the course an owner is derived into. A branch that leaves INACTIVE loses its maintenance entries (R27, R145). -/
def State.deriveCourse (o : Owner) (s : State) : State :=
  if s.staysInactive o then s.restOwner o .inactive
  else if (s.owner o).mode = .inactive then (s.withdraw (MoveEntry.isMaintenanceOf o)).beginCourse o
  else s.beginCourse o

/-- R28, R194: an owner none of whose valves is UNKNOWN is derived. -/
def State.deriveOne (o : Owner) (s : State) : State :=
  let s1 := s.applyStartHold o
  let s2 := s1.setOwner o { s1.owner o with settled := true }
  s2.deriveCourse o

/-! ## Cascades: a segment or the main entering or leaving the open set (R20) -/

/-- The branches that read a segment or the main. -/
def State.readersOf (s : State) (o : Owner) : List Owner :=
  match o with
  | .branch _ => []
  | .segment g => branchOwners.filter fun b => match b with
    | .branch b => (s.tables.branch b).segment == g
    | _ => false
  | .main => branchOwners

/-- R20: an operation on an owner; when it moves a segment or the main in or out of the open set, each branch that reads it
re-evaluates, in ascending order (R144). -/
def State.ownerOp (o : Owner) (f : State → State) (s : State) : State :=
  let t := f s
  if (s.owner o).mode.countsOpen = (t.owner o).mode.countsOpen then t
  else (t.readersOf o).foldl (fun t b => t.evaluateOne b) t

/-- R20: an owner re-evaluates. -/
def State.evaluate (o : Owner) (s : State) : State := s.ownerOp o fun s => s.evaluateOne o

/-- R28. -/
def State.derive (o : Owner) (s : State) : State := s.ownerOp o fun s => s.deriveOne o

/-! ## NO_VALVES (R15) -/

/-- A segment or the main against its valves: it enters NO_VALVES at the event that takes a valve from it, and leaves it at
the first event at which it has both and neither is UNKNOWN. -/
def State.checkNoValves (o : Owner) (s : State) : State :=
  match o with
  | .branch _ => s
  | _ =>
    let r := s.owner o
    if s.tables.hasValves o then
      if r.mode = .noValves && s.valvesKnown o then s.derive o else s
    else if r.mode = .noValves then s
    else s.ownerOp o fun s =>
      let s1 := s.withdraw (MoveEntry.isOf o)
      s1.setOwner o { s1.owner o with mode := .noValves, step := none, phase := none, needed := false, settled := true }

/-! ## Reports of valves (R6, R21, R26) -/

/-- A valve has arrived or been derived into a position or motion: its owner takes the report. An owner not yet derived is
derived once none of its valves is UNKNOWN (R28), a FAILED owner leaves FAILED once none is in FAULT or UNKNOWN (R26), a
NO_VALVES owner is checked (R15), an owner whose step waits on the valve takes its state again (R21). -/
def State.valveReport (v : Nat) (s : State) : State :=
  let o := valveOwner v
  let r := s.owner o
  if r.mode = .undefined then s
  else if !r.settled then (if s.chain.adopted && s.valvesKnown o then s.derive o else s)
  else match r.mode with
    | .failed =>
      if s.valvesKnown o && !s.anyValveFault o then
        s.ownerOp o fun s => s.beginOutcome o (s.outcome o)
      else s
    | .noValves => s.checkNoValves o
    | .isolating | .restoring | .parking =>
      match r.step with
      | some 1 => if (s.stepMove o 1).1 = v then s.ownerOp o fun s => s.takeStep1 o false else s
      | some 3 => if (s.stepMove o 3).1 = v then s.ownerOp o fun s => s.takeStep3 o false else s
      | _ => s
    | _ => s

/-- A valve has entered FAULT: R26 decides whether its owner becomes FAILED. An owner not yet derived keeps its start value
until it is (R28; log 8). -/
def State.faultReport (v : Nat) (s : State) : State :=
  let o := valveOwner v
  let r := s.owner o
  if r.mode = .undefined then s
  else if !r.settled then (if s.chain.adopted && s.valvesKnown o then s.derive o else s)
  else match r.mode with
    | .inactive | .failed => s
    | .noValves => s.checkNoValves o
    | _ => s.ownerOp o fun s => s.failOwner o

/-! ## Valves arriving, faulting, derived -/

/-- R6: a valve arrives at its commanded target, and its owner is told. -/
def State.arrive (v : Nat) (s : State) : State :=
  let r := s.valve v
  match r.target with
  | some p => (s.setValve v { r with st := p.idle, timer := none }).valveReport v
  | none => s

/-- R10: a valve enters FAULT: its drive bit and drive sent time stay, its timer stops, its entry is withdrawn, its owner is
told. -/
def State.faultValve (v : Nat) (cause : FaultCause) (s : State) : State :=
  let r := s.valve v
  let s1 := s.setValve v { r with st := .fault, cause := some cause, mismatch := 0, timer := none }
  (s1.withdraw fun e => e.valve == v).faultReport v

/-- A stroke timer started from zero now, at the valve's stroke time (R154). -/
def State.freshTimer (s : State) (v : Nat) : StrokeTimer :=
  { count := 0, since := some s.clock, stroke := (s.tables.valve v).stroke }

/-- R11: what a derivation makes of a valve's record. The commanded target is taken from the drive bit first, and a reading is
kept. BOTH is a SWITCH_CONFLICT, whatever the target. A valve that shows nothing waits; so does one with no drive mapped, which
has no commanded target to be settled by (log 9). -/
def State.derivedValve (s : State) (v : Nat) : ValveRec :=
  let target := s.commandedTarget v
  let r := { s.valve v with target := target.or (s.valve v).target, latest := (s.reading v).or (s.valve v).latest }
  match s.reading v, target with
  | some .both, _ => { r with st := .fault, cause := some .switchConflict, mismatch := 0, timer := none }
  | some x, some p =>
    if x = p.reading then { r with st := p.idle }
    else { r with st := p.moving, driveSent := some s.clock, timer := some (s.freshTimer v) }
  | none, some p => if s.tables.switchless v then { r with st := p.idle } else r
  | _, none => r

/-- The valve becomes UNKNOWN; its commanded target follows its drive bit (R1, R59). R10 does not list these among the ways out of
FAULT; the model takes a valve in FAULT to UNKNOWN as well, its fault cause cleared: DESIGN CHOICE, unsafe (log 58). -/
def State.valveToUnknown (v : Nat) (s : State) : State :=
  s.setValve v { s.valve v with st := .unknown, cause := none, target := s.commandedTarget v, mismatch := 0, timer := none }

/-! ## Holds (R16) -/

/-- R16: the hold count of an owner rises by one; from 0 it re-evaluates. -/
def State.raiseHold (o : Owner) (s : State) : State :=
  let r := s.owner o
  let t := s.setOwner o { r with holds := r.holds + 1 }
  if r.holds = 0 then t.evaluate o else t

/-- R16: the hold count of an owner falls by one; at 0 it re-evaluates. -/
def State.lowerHold (o : Owner) (s : State) : State :=
  let r := s.owner o
  let t := s.setOwner o { r with holds := r.holds - 1 }
  if r.holds = 1 then t.evaluate o else t

end Sys2Proof.Machine
end

