-- ==== Sys2Proof/Machine/Isolation.lean ====
section
/-! DEFINITION. The isolation controller (chapter 7): entry statuses, escalation, job states, hand-off, the wait list, release;
and `finish`, the end of every event. -/

namespace Sys2Proof.Machine

/-! ## Statuses and job states (R123, R124) -/

/-- R123: the status of an entry, from its owner. -/
def State.entryStatus (s : State) (o : Owner) : EntryStatus :=
  let r := s.owner o
  if !r.settled then .waiting
  else match r.mode with
    | .isolating => .inProgress
    | .isolated => .done
    | .failed | .noValves => .failed
    | _ => .waiting

/-- R124: entry `i` is effective: its owner is ISOLATED, or it is FAILED and the entry it escalated to is effective. An
escalation chain is shorter than the list, so the list's length is fuel enough. -/
def effective (isolated : Owner → Bool) (l : List JobEntry) : Nat → Nat → Bool
  | 0, _ => false
  | fuel + 1, i =>
    match l[i]? with
    | none => false
    | some e => isolated e.target
      || (e.status == .failed && match e.esc with
          | .entry j => effective isolated l fuel j
          | _ => false)

/-- R124: entry `i` is dead: FAILED with nothing to escalate to, or FAILED and the entry it escalated to is dead. -/
def dead (l : List JobEntry) : Nat → Nat → Bool
  | 0, _ => false
  | fuel + 1, i =>
    match l[i]? with
    | none => false
    | some e => e.status == .failed && match e.esc with
        | .nothing => true
        | .entry j => dead l fuel j
        | .absent => false

/-- The indexes of the entries of origin PLAN. -/
def planIndexes (l : List JobEntry) : List Nat :=
  (List.range l.length).filter fun i => match l[i]? with | some e => e.origin.isNone | none => false

/-- R124: the state of a job, from its entries. -/
def jobStateOf (isolated : Owner → Bool) (l : List JobEntry) : JobState :=
  if (planIndexes l).all fun i => effective isolated l (l.length + 1) i then .contained
  else if (planIndexes l).any fun i => dead l (l.length + 1) i then .uncontained
  else .active

/-- R123, R124: a job with its entries' statuses and its state derived anew. -/
def State.rederived (s : State) (j : Job) : Job :=
  let es := j.entries.map fun e => { e with status := s.entryStatus e.target }
  { j with entries := es, st := jobStateOf (fun o => (s.owner o).mode == .isolated) es }

/-- A job slot derived anew. The job joins the notice pending set when a status, an entry or its state changes (R124). -/
def State.rederiveSlot (slot : Nat) (s : State) : State :=
  match s.job slot with
  | none => s
  | some j =>
    let j' := s.rederived j
    if j' = j then s else (s.setJob slot (some j')).joinNotice (.job slot)

def jobSlotNumbers : List Nat := List.range 16

/-- Every job derived anew, in slot order. -/
def State.rederiveJobs (s : State) : State := jobSlotNumbers.foldl (fun s k => s.rederiveSlot k) s

/-! ## Escalation (R130, R131) -/

/-- R130: a segment or the main that has its valves. -/
def State.ownerHasValves (s : State) (o : Owner) : Bool := (s.owner o).mode != .noValves

/-- R130: where a FAILED entry escalates to. -/
def State.escalationTarget (s : State) (o : Owner) : Option Owner :=
  let main := if s.ownerHasValves .main then some Owner.main else none
  match o with
  | .branch b =>
    let g := Owner.segment (s.tables.branch b).segment
    if s.ownerHasValves g then some g else main
  | .segment _ => main
  | .main => none

/-- The index of a target in a job's list. -/
def targetIndex (l : List JobEntry) (o : Owner) : Option Nat := l.findIdx? fun e => e.target == o

/-- R131: entry `i` of a job escalates: it names the entry that already holds the target, or a new entry is appended and its
owner held, or there is nothing to escalate to. -/
def State.escalate (slot i : Nat) (s : State) : State :=
  match s.job slot with
  | none => s
  | some j =>
    match j.entries[i]? with
    | none => s
    | some e =>
      let put (es : List JobEntry) (s : State) : State := (s.setJob slot (some { j with entries := es })).joinNotice (.job slot)
      match s.escalationTarget e.target with
      | none => put (j.entries.set i { e with esc := .nothing }) s
      | some o =>
        match targetIndex j.entries o with
        | some k => put (j.entries.set i { e with esc := .entry k }) s
        | none =>
          let es := j.entries.set i { e with esc := .entry j.entries.length }
            ++ [{ target := o, origin := some i, esc := .absent, status := .waiting }]
          (put es s).raiseHold o

/-- The first of the items whose key is the least. -/
def firstLeast {α : Type} (key : α → Nat) : List α → Option α
  | [] => none
  | a :: l =>
    match firstLeast key l with
    | some b => if key b < key a then some b else some a
    | none => some a

/-- R130: the FAILED entries whose escalation is absent, by slot and index, each with the place of its escalation target in the
order of valve numbers: nothing to escalate to, then the owners by their supply valves. -/
def State.dueEscalations (s : State) : List (Nat × Nat × Nat) :=
  jobSlotNumbers.flatMap fun slot =>
    match s.job slot with
    | none => []
    | some j => (j.entries.mapIdx fun i e => (i, e)).filterMap fun ie =>
        if ie.2.status == .failed && ie.2.esc == .absent then
          some ((match s.escalationTarget ie.2.target with | some o => o.supplyValve + 1 | none => 0), slot, ie.1)
        else none

/-- R130, R144: of the escalations due at an event, the one whose target has the lowest valve number goes first, so that the
owners' entries join in ascending order of valve number; then slot and index decide (log 40). -/
def State.dueEscalation (s : State) : Option (Nat × Nat) := (firstLeast (·.1) s.dueEscalations).map (·.2)

/-- R130: while an entry is FAILED with its escalation absent, it escalates and the statuses are derived anew. Each escalation
settles one entry of a job and appends at most one of the five wider owners, so with 16 jobs of 16 entries 336 are enough. -/
def escalateLoop : Nat → State → State
  | 0, s => s
  | n + 1, s =>
    match s.dueEscalation with
    | none => s
    | some d => escalateLoop n (s.escalate d.1 d.2).rederiveJobs

/-- The jobs in state ACTIVE. -/
def State.countActive (s : State) : Nat :=
  (s.jobs.toList.filter fun j => match j with | some j => j.st == .active | none => false).length

/-- R140: the number of ACTIVE jobs is kept. When it falls to 0 while HOLD_ON_WET is on, a look is due. The number is taken once, at
the end of the event: one that falls to 0 and rises again within the event (a RELEASE_JOB of the last ACTIVE job whose slot goes at
once to a waiting zone) has not fallen, and no release is handed over: DESIGN CHOICE, unsafe (log 55). -/
def State.keepActive (s : State) : State :=
  let t : State := { s with activeJobs := s.countActive }
  if 0 < s.activeJobs && t.activeJobs == 0 && s.tables.scan.holdOnWet then t.wantLook else t

/-- The jobs follow their owners (R123, R124, R130): statuses and states anew, and every escalation due. -/
def State.followJobs (s : State) : State := escalateLoop 512 s.rederiveJobs

/-- The isolation controller follows its owners (R123, R124, R130, R140). -/
def State.followOwners (s : State) : State := s.followJobs.keepActive

/-- The end of an event: the jobs follow their owners, then the scheduler looks where a look is due (log 6). -/
def State.finish (s : State) : State := s.followOwners.settle

/-! ## Hand-off and creation (R126, R127, R128) -/

/-- The slot of a zone's job. -/
def State.jobSlotOf (s : State) (z : Nat) : Option Nat :=
  jobSlotNumbers.find? fun k => match s.job k with | some j => j.zone == z | none => false

/-- The lowest-numbered free slot (R122). -/
def State.freeSlot (s : State) : Option Nat := jobSlotNumbers.find? fun k => (s.job k).isNone

/-- R127: a job is created in a slot from the zone's plan; its holds are placed in list order. -/
def State.createJob (slot z : Nat) (s : State) : State :=
  let plan := s.tables.plan z
  let entries := plan.map fun o => { target := o, origin := none, esc := .absent, status := .waiting : JobEntry }
  let s1 := (s.setJob slot (some { zone := z, created := s.ms, entries := entries, st := .active })).joinNotice (.job slot)
  plan.foldl (fun s o => s.raiseHold o) s1

/-- R126: a zone that has entered WET with auto-isolate set and a plan is handed over. -/
def State.handOff (z : Nat) (s : State) : State :=
  match s.jobSlotOf z with
  | some _ => s
  | none =>
    match s.freeSlot with
    | some slot => s.createJob slot z
    | none => if s.waitList.contains z then s else { s with waitList := s.waitList ++ [z] }

/-- R111, R129: a zone that has entered DRY leaves the wait list; its job, if any, stays. -/
def State.handDry (z : Nat) (s : State) : State := { s with waitList := s.waitList.filter fun x => x != z }

/-- R138: a freed slot goes to the head of the wait list: a job is created in it, the escalations of R127 included. -/
def State.offerSlot (slot : Nat) (s : State) : State :=
  match s.waitList with
  | [] => s
  | z :: rest => (State.createJob slot z { s with waitList := rest }).followJobs

/-- R137, step 2: the holds of a job come off in list order. -/
def State.dropHolds (l : List JobEntry) (s : State) : State := l.foldl (fun s e => s.lowerHold e.target) s

/-- R137: the number of owners whose hold count reaches 0 when the holds of these entries come off. A target list names no owner
twice (R122), so they are the entries whose owner has one hold. -/
def State.lastHolds (s : State) (l : List JobEntry) : Nat := (l.filter fun e => (s.owner e.target).holds == 1).length

/-- R137, R138: a job is released from its slot; the number of owners whose hold count reached 0. R138 has an owner that the
release lowers to 0 and the new job holds again (its escalations of R127 included) end as if its count had not moved: a phase timer
that runs goes on, an entry that waits keeps its place, no move is left queued. So the holds of the new job are placed before those
of the old one come off, and such an owner never stands at 0; a hold placed asks for URGENT moves alone and one lifted for ROUTINE
moves alone, so every other owner ends as in the order of R137. The joins and withdrawals of the evaluations that R138 gives such an
owner in between are events of R148: where they make a look due in the order of R137, one is due: DESIGN CHOICE, unsafe (log 52). -/
def State.releaseSlot (slot : Nat) (j : Job) (s : State) : Nat × State :=
  let free := s.setJob slot none
  let inOrder := (free.dropHolds j.entries).offerSlot slot
  let t := (free.offerSlot slot).dropHolds j.entries
  (s.lastHolds j.entries, (if inOrder.sched.lookDue then t.wantLook else t).joinNotice (.job slot))

end Sys2Proof.Machine
end

