-- ==== Sys2Proof/Machine/Zones.lean ====
section
/-! DEFINITION. The zone monitor (chapter 6): samples, confirmation, clearing, chain loss; and the samples formed at scans
(R82) and flow ticks (R97). -/

namespace Sys2Proof.Machine

/-- Section 6.1: enabled states. -/
def ZoneState.enabled : ZoneState → Bool
  | .dry | .suspect | .wet | .acked => true
  | _ => false

/-- R106: a zone enters WET and is handed to the isolation controller where it has auto-isolate set and a plan. -/
def State.enterWet (z : Nat) (cause : WetCause) (s : State) : State :=
  let s1 := (s.setZone z { st := .wet, wet := 0, dry := 0, cause := some cause, wetTime := some s.ms }).joinNotice (.zone z)
  if (s.tables.zone z).auto && !(s.tables.plan z).isEmpty then s1.handOff z else s1

/-- R111: a zone enters DRY from SUSPECT or ACKED (or WET, R110) and is handed over. R111 clears the counts, the last wet cause and
the time entered WET at an entry from ACKED; the model clears them at an entry from WET (R110) as well: DESIGN CHOICE, unsafe
(log 53). -/
def State.enterDry (z : Nat) (s : State) : State :=
  ((s.setZone z (ZoneRec.fresh .dry)).joinNotice (.zone z)).handDry z

/-- A change of the last wet cause joins the zone while it is WET or ACKED (R107, R109). -/
def State.recountZone (z : Nat) (r : ZoneRec) (s : State) : State :=
  let t := s.setZone z r
  if r.cause = (s.zone z).cause then t else t.joinNotice (.zone z)

/-- R104 to R109: a wet sample with its cause. -/
def State.wetSample (z : Nat) (cause : WetCause) (s : State) : State :=
  let r := s.zone z
  let d := s.tables.zone z
  match r.st with
  | .dry =>
    if d.confirm ≤ 1 then s.enterWet z cause
    else (s.setZone z { r with st := .suspect, wet := 1, cause := some cause }).joinNotice (.zone z)
  | .suspect =>
    if d.confirm ≤ r.wet + 1 then s.enterWet z cause
    else s.setZone z { r with wet := r.wet + 1, cause := some cause }
  | .wet | .acked => s.recountZone z { r with dry := 0, cause := some cause }
  | .undefined | .off => s

/-- R104 to R109: a dry sample. -/
def State.drySample (z : Nat) (s : State) : State :=
  let r := s.zone z
  let d := s.tables.zone z
  match r.st with
  | .suspect => s.enterDry z
  | .wet => s.setZone z { r with dry := min 255 (r.dry + 1) }
  | .acked =>
    if d.clear ≤ min 255 (r.dry + 1) then s.enterDry z else s.setZone z { r with dry := min 255 (r.dry + 1) }
  | .dry | .undefined | .off => s

/-- A sample: wet with a cause, or dry. -/
def State.takeSample (z : Nat) (sample : Option WetCause) (s : State) : State :=
  match sample with
  | some cause => s.wetSample z cause
  | none => s.drySample z

/-- R112: what the entry into BROKEN does to one zone. -/
def State.zoneChainLoss (z : Nat) (s : State) : State :=
  let r := s.zone z
  let d := s.tables.zone z
  if d.kind = .drip ∧ d.failsafe then
    match r.st with
    | .dry | .suspect => s.enterWet z .chainLoss
    | .wet | .acked => s.recountZone z { r with dry := 0, cause := some .chainLoss }
    | .undefined | .off => s
  else s

def zoneNumbers : List Nat := List.range 64

/-! ## Drip samples (R82) -/

/-- A DRIP entry usable at this scan, with the position's wetness. -/
def State.dripReading (s : State) (e : MapEntry) : Option Bool :=
  let p := s.tables.posOf e.card e.offset
  match e.fn with
  | .drip _ level => if s.goodAt p then some (bitAt s.image.ret p != level) else none
  | _ => none

/-- R82: the sample of a DRIP zone at this scan: absent for none, else wet with its cause or dry. -/
def State.dripSample (s : State) (z : Nat) : Option (Option WetCause) :=
  let es := s.tables.dripEntries z
  let usable := es.filterMap s.dripReading
  if es.isEmpty then none
  else if usable.isEmpty then (if (s.tables.zone z).failsafe then some (some .cardFault) else none)
  else if usable.any id then some (some .sense)
  else some none

/-- R82: one zone at an accepted scan; its consequences are an event of their own (R79). -/
def State.sampleDrip (z : Nat) (s : State) : State :=
  if (s.tables.zone z).kind = .drip && (s.zone z).st.enabled then
    match s.dripSample z with
    | some x => (s.takeSample z x).finish
    | none => s
  else s

/-- The zone monitor's share of a scan, in zone order. -/
def State.sampleZones (s : State) : State := zoneNumbers.foldl (fun s z => s.sampleDrip z) s

/-! ## Balance samples (R97) -/

/-- R97: the sample of a BALANCE zone at this tick. -/
def State.balanceSample (s : State) (z : Nat) : Option (Option WetCause) :=
  let d := s.tables.zone z
  let usable (m : Nat) := s.meterValid m && !(s.meter m).stale
  if (s.owner (.branch d.branch)).mode = .inService && usable (2 * d.branch) && usable (2 * d.branch + 1) then
    let supply := (s.meter (2 * d.branch)).smooth
    let back := (s.meter (2 * d.branch + 1)).smooth
    if d.threshold + back < supply && d.minFlow ≤ supply then some (some .balance) else some none
  else none

def State.sampleBalance (z : Nat) (s : State) : State :=
  if (s.tables.zone z).kind = .balance && (s.zone z).st.enabled then
    match s.balanceSample z with
    | some x => (s.takeSample z x).finish
    | none => s
  else s

/-- R83, R90: the flow unit's share of a scan: a tick where one is due, then the balance samples in zone order. -/
def State.flowTick (s : State) : State :=
  if s.tickDue then zoneNumbers.foldl (fun s z => s.sampleBalance z) s.tickMeters else s

end Sys2Proof.Machine
end

