-- ==== Sys2Proof/Machine/Frames.lean ====
section
/-! DEFINITION. Chain frames (sections 2.1 to 2.3): select, the bits sent and returned, the marker check, the end of a frame,
the counts of R35; and the registers of the cards (section 2.2, R31 to R33). -/

namespace Sys2Proof.Machine

/-! ## Times and bits of a frame (R29, R34) -/

/-- Clock ticks in a bit time at a rate in kbit/s. -/
def bitTicksOf (rate : Nat) : Nat := Config.ticksPerMs / rate

/-- The end of clocking: 2 bit times of lead and payload + 8 of clocking after the select. -/
def Frame.clockEnd (f : Frame) : Nat := f.selectAt + (f.payload.length + 10) * f.bitTicks

/-- The release: the tail of 2 bit times later. -/
def Frame.releaseAt (f : Frame) : Nat := f.selectAt + (f.payload.length + 12) * f.bitTicks

/-- What is sent on CDO, in clock order: the marker, bit 7 first, then the payload, most distant place first (R34). -/
def Frame.cdo (f : Frame) : List Bool := markerBits f.marker5A ++ f.payload.reverse

/-- R35: the last 8 bits returned equal the marker sent. -/
def Frame.accepts (f : Frame) (cdi : List Bool) : Bool :=
  cdi.length == f.payload.length + 8 && cdi.drop f.payload.length == markerBits f.marker5A

/-- R34: the returned payload, from chain position 0 (or bit 0 of card 0's word). -/
def Frame.returned (f : Frame) (cdi : List Bool) : List Bool := (cdi.take f.payload.length).reverse

/-- A SERVICE payload from the cards' words, card 0 first. -/
def wordsPayload (ws : List Word) : List Bool := ws.flatMap fun w => bitsLow 16 w.toNat

/-- Card `c`'s word in a SERVICE payload. -/
def wordOf (payload : List Bool) (c : Nat) : Word :=
  BitVec.ofNat 16 (bitsNat ((payload.drop (16 * c)).take 16).reverse)

/-! ## The cards (R31, R32, R33; log 20) -/

/-- A card's registers with nothing known of them: free bits. -/
def CardRegs.free (count w : Nat) : CardRegs :=
  { shift := freeBits count w, latch := freeBits (count + 1) w,
    service := (Config.freeCardWord (count + 2)).setWidth 16, echo := freeBits (count + 3) w }

/-- The free values a card takes from the counter. -/
def freePerCard : Nat := 4

/-- The bits of a card at `first`, of width `w`. -/
def sliceBits (l : List Bool) (first w : Nat) : List Bool := (List.range w).map fun i => bitAt l (first + i)

/-- A card at a select (R31, R32, R33). A SCAN or SERVICE: the echo register takes the SCAN load value, its latch at output
places and its live inputs, of which the part is not told (free), at the others; a SCAN loads the shift register with the same
bits, a SERVICE the service register with the card's reply (free). An ECHO: the shift path takes the echo register; the w-bit
shift register stands for that path here (DESIGN CHOICE, safe: log 20). -/
def State.cardLoaded (s : State) (kind : FrameKind) (c w : Nat) (r : CardRegs) : CardRegs :=
  let u := CardRegs.free (s.freeCount + freePerCard * c) w
  let load := (List.range w).map fun i => if s.tables.isOutputPos (s.tables.firstPos c + i) then bitAt r.latch i else bitAt u.shift i
  match kind with
  | .scan => { r with shift := load, echo := load }
  | .service => { r with service := u.service, echo := load }
  | .echo => { r with shift := r.echo }

/-- A card after an accepted frame (R31, R32, R33). A SCAN: what the card loaded is known from what came back; it holds its own
bits of the payload, and its latch takes them, whatever MAP_POSITION made of the map since the select (R59); at an input place, which
has no latch, the image carries 0 (R59). What the latch holds beyond the card's width stands. A SERVICE: it takes the word sent. An ECHO: it stores the bits sent, and they stand in the shift path; the w-bit shift register
stands for that path here (DESIGN CHOICE, safe: log 20). -/
def State.cardAfter (s : State) (kind : FrameKind) (payload ret : List Bool) (c w : Nat) (r : CardRegs) : CardRegs :=
  let first := s.tables.firstPos c
  match kind with
  | .scan =>
    { r with shift := sliceBits payload first w, echo := sliceBits ret first w,
             latch := sliceBits payload first w ++ r.latch.drop w }
  | .service => { r with service := wordOf payload c }
  | .echo => { r with shift := sliceBits payload first w, echo := sliceBits payload first w }

/-- A card after a frame that was rejected, whose end was not checked, or that a start cut off (R36, R54): a SCAN may have
written its latch, a SERVICE may have handed it a command, an ECHO may have altered its echo register. Each register the
clocking or the release may have reached is left open, at a place outside the table too, whose card may still stand on the ring;
what the card copied at the select stays. -/
def State.cardAfterBad (s : State) (kind : FrameKind) (c : Nat) (r : CardRegs) : CardRegs :=
  let n := r.shift.length
  let u := CardRegs.free (s.freeCount + freePerCard * c) (max n r.latch.length)
  match kind with
  | .scan => { r with shift := u.shift.take n, latch := u.latch }
  | .service => { r with service := u.service }
  | .echo => { r with shift := u.shift.take n, echo := u.echo.take n }

/-- A place outside the table at a select: whether its card stands on the ring is not told, so only its latch, which no select
changes (R31), is known (log 20). -/
def State.cardOutside (s : State) (c : Nat) (r : CardRegs) : CardRegs :=
  { CardRegs.free (s.freeCount + freePerCard * c) r.latch.length with latch := r.latch }

/-- Every place of the ring through a function of its number, its width in the card table (absent outside the table) and its
registers; the counter moves past the free values. -/
def State.mapRing (f : Nat → Option Nat → CardRegs → CardRegs) (s : State) : State :=
  { s with ring := s.ring.mapIdx fun c r => f c s.tables.cards[c]? r
           freeCount := s.freeCount + freePerCard * s.ring.length }

/-- The cards at the select of a frame of a kind. -/
def State.loadCards (kind : FrameKind) (s : State) : State :=
  s.mapRing fun c w r => match w with
    | some w => s.cardLoaded kind c w r
    | none => s.cardOutside c r

/-- The cards at the end of a frame the marker check took: a frame that comes back whole found the defined cards and no other
on the ring, so a place outside the table keeps what it holds (R31, R35). -/
def State.ringAccepted (kind : FrameKind) (payload ret : List Bool) (s : State) : State :=
  s.mapRing fun c w r => match w with
    | some w => s.cardAfter kind payload ret c w r
    | none => r

/-- The cards at the end of any other frame (R36, R39, R54). -/
def State.ringDisturbed (kind : FrameKind) (s : State) : State := s.mapRing fun c _ r => s.cardAfterBad kind c r

/-- R54: a start leaves no frame in flight. The selects of one that was are released, and its cards act on whatever stands in
them (R31, R32, R33). -/
def State.cutFrame (s : State) : State :=
  match s.chain.inFlight with
  | some f => s.ringDisturbed f.purpose.kind
  | none => s

/-- A card given the width `w`: one of that width already keeps its registers; of any other only the latch is known, which holds
(R31), with `u` for the rest. -/
def CardRegs.fitted (u : CardRegs) (w : Nat) (r : CardRegs) : CardRegs :=
  if r.shift.length = w then r else { u with latch := r.latch ++ u.latch.drop r.latch.length }

/-- The ring fitted to the card table. A latch holds at every time but the release of a SCAN frame, any start and any chain state
included (R31): a card that leaves the table or changes its width keeps it. A place that had no card holds one of which nothing
is known. -/
def State.fitRing (s : State) : State :=
  let places := max s.ring.length s.tables.cards.length
  { s with
    ring := (List.range places).map fun c =>
      let w := s.tables.cards.getD c 0
      let u := CardRegs.free (s.freeCount + freePerCard * c) w
      match s.ring[c]? with
      | some r => if c < s.tables.cards.length then u.fitted w r else r
      | none => u
    freeCount := s.freeCount + freePerCard * places }

/-! ## Select (R29, R35, R71) -/

/-- A frame's select: the cards load, the marker toggles, the select time and kind are kept, a SCAN clears the scan-due flag,
and the last-sent copy at the select of a SCAN or SERVICE frame is kept for the readback of R167. -/
def State.selectFrame (p : Purpose) (payload : List Bool) (s : State) : State :=
  let f : Frame :=
    { purpose := p, marker5A := s.chain.marker5A, payload := payload, selectAt := s.clock,
      bitTicks := bitTicksOf s.tables.scan.rate, unchecked := false, gap := s.tables.scan.gap }
  { s.loadCards p.kind with
    chain := { s.chain with
      marker5A := !s.chain.marker5A
      inFlight := some f
      lastSelectAt := some s.clock
      lastKind := some p.kind
      copyAtSelect := if p.kind = .echo then s.chain.copyAtSelect else s.image.copy }
    scanDue := if p.kind = .scan then false else s.scanDue }

/-- A SCAN frame's payload is the output image at its select (R61). -/
def State.selectScan (p : Purpose) (s : State) : State := s.selectFrame p s.image.out

/-- An all-zero ECHO frame (R41, R45). -/
def State.selectZeroEcho (p : Purpose) (s : State) : State :=
  s.selectFrame p (List.replicate s.tables.length false)

/-- A SERVICE frame carrying `word` for card `c` and the no-operation word for every other card (R41, R50). -/
def State.selectService (p : Purpose) (c : Nat) (word : Word) (s : State) : State :=
  s.selectFrame p (wordsPayload ((List.range s.tables.cards.length).map fun i => if i = c then word else 0))

/-! ## The end of a frame (R29, R35) -/

/-- The frame is over: the clock stands at the end of its clocking or later, its selects stay asserted until its release, and
the gap runs from there. -/
def State.endFrame (f : Frame) (s : State) : State :=
  let t := s.advanceTo f.clockEnd
  { t with chain := { t.chain with
      inFlight := none
      heldUntil := f.releaseAt
      idleAt := f.releaseAt + f.gap * Config.ticksPerUs } }

/-- R35: an accepted frame sets the consecutive-reject count to 0. -/
def State.countAccept (s : State) : State := { s with chain := { s.chain with rejects := 0 } }

/-- R35: a rejected frame raises both counts. -/
def State.countReject (s : State) : State :=
  { s with chain := { s.chain with rejects := min 3 (s.chain.rejects + 1), rejectTotal := s.chain.rejectTotal + 1 } }

/-- The end of the frame in flight, of a purpose `p` allows, with the marker check answering `good` (log 3: else nothing). -/
def State.atFrameEnd (p : Purpose → Bool) (good : Bool) (cdi : List Bool)
    (k : Frame → List Bool → State → State) (s : State) : State :=
  s.whenRunning fun s =>
    match s.chain.inFlight with
    | some f =>
      if !f.unchecked && p f.purpose && f.accepts cdi == good then
        let ret := f.returned cdi
        let t := s.endFrame f
        if good then
          k f ret (t.ringAccepted f.purpose.kind f.payload ret).countAccept
        else
          k f ret (t.ringDisturbed f.purpose.kind).countReject
      else s
    | none => s

/-! ## The entry into BROKEN (R44, R112, R155) -/

/-- R155: a running stroke timer pauses with its count kept; a paused one resumes. -/
def StrokeTimer.pause (now : Nat) (t : StrokeTimer) : StrokeTimer :=
  match t.since with
  | some c => { t with count := t.count + (now - c), since := none }
  | none => t

def StrokeTimer.resume (now : Nat) (t : StrokeTimer) : StrokeTimer :=
  match t.since with
  | some _ => t
  | none => { t with since := some now }

def State.mapTimers (f : StrokeTimer → StrokeTimer) (s : State) : State :=
  { s with valves := s.valves.mapIdx fun _ r => { r with timer := r.timer.map f } }

/-- R44: every transaction in the service queue is answered CHAIN_DOWN. -/
def State.dropService (s : State) : State :=
  let t := s.chain.queue.foldl (fun s e => s.refuse 0x31 e.tag .chainDown) s
  { t with chain := { t.chain with queue := [], streak := 0 } }

/-- R44, R171: a proving session ends with CHAIN_DOWN and no results. -/
def State.dropSession (s : State) : State :=
  match s.chain.session with
  | some p => State.refuse 0x32 p.tag .chainDown { s with chain := { s.chain with session := none } }
  | none => s

/-- R44: the chain enters BROKEN. -/
def State.enterBroken (s : State) : State :=
  let s1 := ((s.setChainState .broken).dropService).dropSession
  let s2 := (s1.mapTimers (StrokeTimer.pause s1.clock)).withChain { s1.chain with echoNext := false }
  zoneNumbers.foldl (fun s z => if (s.tables.zone z).kind = .drip && (s.tables.zone z).failsafe then (s.zoneChainLoss z).finish else s) s2

/-- R44: a rejection that is the third in a row takes the chain into BROKEN; otherwise `next` follows. -/
def State.afterReject (next : State → State) (s : State) : State :=
  if s.chain.rejects = 3 && s.chain.st != .broken then s.enterBroken else next s

end Sys2Proof.Machine
end

