-- ==== Sys2Proof/Machine/Scan.lean ====
section
/-! DEFINITION. What an accepted SCAN delivers (section 4.4): the image unit's share, the checks of each valve (R80, R81), the
samples and the flow tick, in the order the command gives; and the adoption's ECHO frame (R42, R66). -/

namespace Sys2Proof.Machine

/-! ## One valve at an accepted scan (R80, R81) -/

/-- R80: the drive of a moving valve is marked sent at this scan. -/
def State.driveSentNow (s : State) (v : Nat) : Bool :=
  let r := s.valve v
  r.st.isMoving && r.driveSent.isNone
    && match s.tables.drivePos v with
      | some p => bitAt s.image.copy p == bitAt s.image.out p
      | none => false

/-- R80, step 1 of R81: the drive sent time is the scan time and the stroke timer starts. -/
def State.markSent (v : Nat) (s : State) : State :=
  if s.driveSentNow v then s.setValve v { s.valve v with driveSent := some s.clock, timer := some (s.freshTimer v) } else s

/-- R11, step 6 of R81: an UNKNOWN valve is derived, and its owner is told unless the derivation waits. -/
def State.deriveValve (v : Nat) (s : State) : State :=
  let t := s.setValve v (s.derivedValve v)
  match (s.derivedValve v).st with
  | .unknown => t
  | .fault => t.faultValve v .switchConflict
  | _ => t.valveReport v

/-- R9, step 5 of R81: the mismatch run of an idle valve that reads `x`. -/
def State.checkMismatch (v : Nat) (at_ : Pos) (x : Reading) (s : State) : State :=
  let r := s.valve v
  if x = at_.other.reading then
    (if r.mismatch = 0 then s.setValve v { r with mismatch := 1 } else s.faultValve v .uncommanded)
  else s.setValve v { r with mismatch := 0 }

/-- Steps 3 to 7 of R81 for a valve that reads `x`; `sentNow` says that step 1 marked its drive at this scan. -/
def State.checkReading (v : Nat) (x : Reading) (sentNow : Bool) (s : State) : State :=
  let s1 := s.setValve v { s.valve v with latest := some x }
  let r := s1.valve v
  match r.st with
  | .fault | .undefined => s1
  | st =>
    if x = .both then s1.faultValve v .switchConflict
    else match st with
      | .opened => s1.checkMismatch v .opened x
      | .closed => s1.checkMismatch v .closed x
      | .unknown => s1.deriveValve v
      | _ =>
        match r.driveSent, r.target with
        | some t, some p => if !sentNow && t < s1.clock && x = p.reading then s1.arrive v else s1
        | _, _ => s1

/-- R81: the checks of one valve at an accepted scan. -/
def State.checkValve (v : Nat) (s : State) : State :=
  if (s.tables.valve v).present then
    let s1 := s.markSent v
    match s1.reading v with
    | some x => s1.checkReading v x (s.driveSentNow v)
    | none =>
      let s2 := if s.tables.switchless v then s1 else s1.setValve v { s1.valve v with mismatch := 0 }
      if (s2.valve v).st = .unknown then s2.deriveValve v else s2
  else s

def valveNumbers : List Nat := List.range 106

/-- The move scheduler's share of a scan, in valve order; each valve's consequences are an event of their own (R79). -/
def State.checkValves (s : State) : State :=
  valveNumbers.foldl (fun s v => if (s.tables.valve v).present then (s.checkValve v).finish else s) s

/-! ## The scan (R79) -/

/-- R79: the image unit's share: the returned image, the last-sent copy, the card-good flags, the fresh flag, the scan time;
the periodic timer restarts (R72); the IMAGE trigger of R62; the INPUTS record (R69). -/
def State.takeImage (payload ret : List Bool) (s : State) : State :=
  let t : State := { s with
    image := { s.image with ret := ret, copy := payload, cardGood := s.cardGoodOf ret, fresh := true, lastFrameAt := some s.clock }
    periodicFrom := some s.clock }
  (t.imageTrigger).joinInputsIfChanged s

/-- R79: the users take their shares in the order given. -/
def State.deliver (order : ScanOrder) (s : State) : State :=
  match order with
  | .valvesZonesFlow => s.checkValves.sampleZones.flowTick
  | .valvesFlowZones => s.checkValves.flowTick.sampleZones
  | .zonesValvesFlow => s.sampleZones.checkValves.flowTick
  | .zonesFlowValves => s.sampleZones.flowTick.checkValves
  | .flowValvesZones => s.flowTick.checkValves.sampleZones
  | .flowZonesValves => s.flowTick.sampleZones.checkValves

/-- R79: an accepted SCAN. -/
def State.acceptScan (f : Frame) (ret : List Bool) (order : ScanOrder) (s : State) : State :=
  ((s.takeImage f.payload ret).deliver order).finish

/-! ## Adoption (R42, R66) -/

/-- R66: the output image taken from the returned latches: the returned bit at output positions, 0 elsewhere. -/
def State.adoptedImage (s : State) (ret : List Bool) : List Bool :=
  (List.range s.tables.length).map fun p => s.tables.isOutputPos p && bitAt ret p

/-- R66: the image unit takes the adoption's ECHO frame. -/
def State.adoptImage (ret : List Bool) (s : State) : State :=
  let out := s.adoptedImage ret
  let t : State := { s with image :=
    { out := out, copy := out, ret := ret, cardGood := s.cardGoodOf ret, fresh := false, lastFrameAt := some s.clock } }
  t.joinInputsIfStale s

/-- R42, R11: every present valve is derived; their owners are derived after all of them. -/
def State.adoptValves (s : State) : State :=
  valveNumbers.foldl (fun s v => if (s.tables.valve v).present then s.setValve v (s.derivedValve v) else s) s

/-- R28: one owner at the end of an adoption. -/
def State.adoptOwner (o : Owner) (s : State) : State :=
  let r := s.owner o
  if r.mode = .undefined then s
  else if r.mode = .noValves then s.checkNoValves o
  else if !r.settled && s.valvesKnown o then s.derive o
  else s

/-- R28, R42: segments and the main are derived before the branches. -/
def State.adoptOwners (s : State) : State := (wideOwners ++ branchOwners).foldl (fun s o => s.adoptOwner o) s

/-- R42: the accepted ECHO frame of an adoption. -/
def State.adopt (ret : List Bool) (s : State) : State :=
  let s1 := s.adoptImage ret
  let s2 : State := { s1 with chain := { s1.chain with adopted := true, echoNext := false } }
  let s3 := (s2.loseFlow.adoptValves.adoptOwners).setChainState .running
  (s3.trigger.wantLook).finish

end Sys2Proof.Machine
end

