-- ==== Sys2Proof/Machine/Records.lean ====
section
/-! DEFINITION. The records of objects as bytes (R173, R183): each laid down field by field in the order its chapter lists its
fields (log 16). -/

namespace Sys2Proof.Machine

/-! ## Parts of records -/

/-- A time of an event, kept on the clock, as the ms count it fell at. -/
def msOf (t : Nat) : Nat := t / Config.ticksPerMs

/-- The time left of a phase timer, in ms. The spec gives no rounding: the elapsed time is rounded down to a whole ms, so the time
left is rounded up: DESIGN CHOICE, unsafe (log 48). -/
def PhaseTimer.left (now : Nat) (p : PhaseTimer) : Nat := p.len - (now - p.start) / Config.ticksPerMs

def optPos (p : Option Nat) : List Byte := opt 1 u8 p

/-- The last five fields of an owner's record (section 1.4). -/
def State.ownerTail (s : State) (o : Owner) : List Byte :=
  let r := s.owner o
  flag r.hostHold ++ u8 r.holds ++ u8 (ownerModeCode o r.mode) ++ opt 1 u8 r.step
    ++ opt 2 (fun p => u16 (p.left s.clock)) r.phase

/-! ## The records -/

/-- Section 1.1. -/
def State.valveRecord (s : State) (v : Nat) : List Byte :=
  let d := s.tables.valve v
  let r := s.valve v
  u8 v ++ flag d.present ++ u16 d.stroke ++ u8 d.fail.code ++ u8 (classOf d.stroke).code
    ++ optPos (s.tables.drivePos v) ++ optPos (s.tables.openPos v) ++ optPos (s.tables.closedPos v)
    ++ u8 r.st.code ++ opt 1 (fun c => u8 (FaultCause.code c)) r.cause ++ opt 1 (fun p => u8 (Pos.code p)) r.target
    ++ opt 4 (fun t => u32 (msOf t)) r.driveSent ++ u8 r.mismatch ++ opt 1 (fun x => u8 (Reading.code x)) r.latest

/-- Section 1.4, branch record. -/
def State.branchRecord (s : State) (b : Nat) : List Byte :=
  let d := s.tables.branch b
  u8 b ++ u8 d.segment ++ flag d.activated ++ u8 d.park.code ++ u16 d.nominal ++ s.ownerTail (.branch b)

/-- Section 1.4, segment and main record. -/
def State.wideRecord (s : State) (o : Owner) : List Byte := encOwner o ++ s.ownerTail o

/-- Section 6.1. Branch, T and Fmin are absent for a DRIP zone (R101). -/
def State.zoneRecord (s : State) (z : Nat) : List Byte :=
  let d := s.tables.zone z
  let r := s.zone z
  let balance (n : Nat) : Option Nat := if d.kind = .balance then some n else none
  u8 z ++ u8 d.kind.code ++ u8 d.confirm ++ u8 d.clear ++ flag d.auto ++ flag d.failsafe
    ++ opt 1 u8 (balance d.branch) ++ opt 2 u16 (balance d.threshold) ++ opt 2 u16 (balance d.minFlow)
    ++ u8 r.st.code ++ u8 r.wet ++ u8 r.dry ++ opt 1 (fun c => u8 (WetCause.code c)) r.cause ++ opt 4 u32 r.wetTime
    ++ u8 (s.tables.dripEntries z).length

/-- Section 7.2: an entry's origin, PLAN or ESCALATION of an entry. -/
def encOrigin : Option Nat → List Byte
  | none => u8 0 ++ u8 0
  | some i => u8 1 ++ u8 i

/-- Section 7.2: an entry's escalation: absent, or an entry, or NONE. -/
def encEscalation : Escalation → List Byte
  | .absent => u8 0 ++ u8 0 ++ u8 0
  | .entry i => u8 1 ++ u8 0 ++ u8 i
  | .nothing => u8 1 ++ u8 1 ++ u8 0

def encEntry (i : Nat) (e : JobEntry) : List Byte :=
  u8 i ++ encOwner e.target ++ encOrigin e.origin ++ encEscalation e.esc ++ u8 e.status.code

/-- The fields of a job slot that READ_JOBS shows: state, zone, creation time, entry count (R184). -/
def jobHead : Option Job → List Byte
  | none => u8 0 ++ opt 1 u8 none ++ opt 4 u32 none ++ u8 0
  | some j => u8 j.st.code ++ opt 1 u8 (some j.zone) ++ opt 4 u32 (some j.created) ++ u8 j.entries.length

/-- Section 7.2. -/
def State.jobRecord (s : State) (slot : Nat) : List Byte :=
  let es := match s.job slot with | some j => j.entries | none => []
  u8 slot ++ jobHead (s.job slot) ++ u8 es.length ++ (es.mapIdx encEntry).flatten

/-- Section 2.4: a card's record; an undefined card shows width and first position 0 (log 15). -/
def TableStore.cardRecord (t : TableStore) (c : Nat) : List Byte :=
  match t.cards[c]? with
  | some w => u8 c ++ flag true ++ u8 w ++ u8 (t.firstPos c)
  | none => u8 c ++ flag false ++ u8 0 ++ u8 0

/-- R53, followed by the sixteen card records (R183). -/
def State.chainRecord (s : State) : List Byte :=
  u8 s.chain.st.code ++ flag s.chain.adopted ++ u8 s.tables.cards.length ++ u16 s.tables.length ++ u8 s.chain.rejects
    ++ u16 s.chain.rejectTotal.toNat ++ u8 s.chain.queue.length ++ u8 s.chain.streak ++ u8 (markerByte s.chain.marker5A)
    ++ (List.range 16).flatMap s.tables.cardRecord

/-- R69: mapped, value and stale flag of each number; an unmapped number's value and stale flag are 0 bytes: DESIGN CHOICE, unsafe
(log 16). -/
def State.inputsBytes (s : State) : List Byte :=
  s.inputsRecord.flatMap fun x =>
    match x with
    | some (v, stale) => flag true ++ flag v ++ flag stale
    | none => flag false ++ flag false ++ flag false

/-- Section 5.1. -/
def State.meterRecord (s : State) (m : Nat) : List Byte :=
  let d := s.tables.meter m
  let h := s.meter m
  u8 m ++ flag d.defined ++ u16 d.kFactor ++ u8 d.shift ++ optPos (s.tables.findPos (· == .flow m))
    ++ opt 1 u8 h.prevCount ++ opt 4 u32 h.prevTick ++ opt 2 u16 h.lastRaw ++ u16 h.smooth
    ++ flag h.valid ++ flag h.overrange ++ flag h.stale

/-- Section 7.1: the plan record. -/
def TableStore.planRecord (t : TableStore) (z : Nat) : List Byte :=
  u8 z ++ u8 (t.plan z).length ++ encList encOwner (t.plan z)

/-- The eight limits (section 8.6). -/
def Limits.bytes (l : Limits) : List Byte :=
  u16 l.budget ++ u16 l.reserve ++ u8 l.count ++ u16 l.window ++ u16 l.sSame ++ u16 l.sOther ++ u16 l.drain ++ u16 l.fill

/-- The seven settings (section 4.3). -/
def ScanSettings.bytes (c : ScanSettings) : List Byte :=
  onOffCode c.image ++ onOffCode c.attention ++ u16 c.interval ++ flag c.serviceFirst ++ u8 (rateCode c.rate) ++ u16 c.gap
    ++ flag c.holdOnWet

/-- The four pattern slots (section 9.1). -/
def Patterns.bytes (p : Patterns) : List Byte := [p.p0, p.p1, p.p2, p.p3]

/-- The notice mask, one on or off for each kind in the order of R185. -/
def NoticeMask.bytes (m : NoticeMask) : List Byte :=
  onOffCode m.zone ++ onOffCode m.branch ++ onOffCode m.segment ++ onOffCode m.main ++ onOffCode m.valve ++ onOffCode m.job
    ++ onOffCode m.chain ++ onOffCode m.inputs

/-! ## Objects by kind and number (R183) -/

/-- The record of an object; absent for a kind outside the eleven or a number beyond the kind's numbering. -/
def State.objectRecord (s : State) (kind number : Nat) : Option (List Byte) :=
  match kind with
  | 0 => if number < 64 then some (s.zoneRecord number) else none
  | 1 => if number < 48 then some (s.branchRecord number) else none
  | 2 => if number < 4 then some (s.wideRecord (.segment number)) else none
  | 3 => if number = 0 then some (s.wideRecord .main) else none
  | 4 => if number < 106 then some (s.valveRecord number) else none
  | 5 => if number < 16 then some (s.jobRecord number) else none
  | 6 => if number = 0 then some s.chainRecord else none
  | 7 => if number = 0 then some s.inputsBytes else none
  | 8 => if number < 16 then some (s.tables.cardRecord number) else none
  | 9 => if number < 97 then some (s.meterRecord number) else none
  | 10 => if number < 64 then some (u8 (s.zone number).st.code ++ s.tables.planRecord number) else none
  | _ => none

/-- The kind and number of a notice object. -/
def Obj.kindNumber : Obj → Nat × Nat
  | .zone z => (0, z)
  | .branch b => (1, b)
  | .segment g => (2, g)
  | .main => (3, 0)
  | .valve v => (4, v)
  | .job k => (5, k)
  | .chain => (6, 0)
  | .inputs => (7, 0)

/-- R186: a notice's BODY. -/
def State.noticeBody (s : State) (o : Obj) : List Byte :=
  let kn := o.kindNumber
  u8 kn.1 ++ u8 kn.2 ++ (s.objectRecord kn.1 kn.2).getD []

end Sys2Proof.Machine
end

