-- ==== Sys2Proof/Machine/Proving.lean ====
section
/-! DEFINITION. Chain proving (chapter 9): the patterns, the comparisons, the end of a run, and the command families of proving
frames and of the attention line. -/

namespace Sys2Proof.Machine

/-! ## Patterns (R165) -/

/-- The slot of an index modulo 4. -/
def Patterns.slot (p : Patterns) (i : Nat) : Byte :=
  match i % 4 with
  | 0 => p.p0
  | 1 => p.p1
  | 2 => p.p2
  | _ => p.p3

/-- R165: the value card `c` gets in a frame of index `k`. -/
def Session.patternOf (p : Session) (slots : Patterns) (c k : Nat) : Byte :=
  slots.slot (p.start + k + (if p.staggered then c else 0))

/-- R165: one card's share of a frame: its byte's most significant bit at each offset 8j. -/
def patternBits (w : Nat) (b : Byte) : List Bool := (List.range w).map fun i => b.getLsbD (7 - i % 8)

/-- R165: the payload of a frame of index `k`. -/
def State.provingPayload (s : State) (p : Session) (k : Nat) : List Bool :=
  (s.tables.cards.mapIdx fun c w => patternBits w (p.patternOf s.tables.patterns c k)).flatten

/-! ## Comparisons (R167, R168) -/

def CardProof.start : CardProof := { mismatched := 0, firstFail := none, latchMismatch := 0, pendingCount := 0 }

/-- The positions of card `c`. -/
def TableStore.positionsOf (t : TableStore) (c : Nat) : List Nat :=
  (List.range (t.cards.getD c 0)).map fun i => t.firstPos c + i

/-- R167: test frame 0 of card `c`: an output position whose image bit differs from the last-sent copy is pending; any other
output position is compared with the copy as it stood at the select of the frame before the run. A latch mismatch makes frame 0 the
card's first failing frame, one with a later echo mismatch as well, of which R168 does not speak: DESIGN CHOICE, unsafe (log 61). -/
def State.readbackOf (s : State) (ret : List Bool) (c : Nat) (r : CardProof) : CardProof :=
  let outs := (s.tables.positionsOf c).filter fun p => s.tables.isOutputPos p
  let waiting := outs.filter fun p => bitAt s.image.out p != bitAt s.image.copy p
  let wrong := outs.filter fun p =>
    bitAt s.image.out p == bitAt s.image.copy p && bitAt ret p != bitAt s.chain.copyAtSelect p
  { r with
    latchMismatch := wrong.length
    pendingCount := waiting.length
    firstFail := if wrong.isEmpty then r.firstFail else r.firstFail.or (some 0) }

/-- R168: test frame `k` of card `c`, against the bits sent just before it. -/
def State.echoCheckOf (s : State) (sent ret : List Bool) (k c : Nat) (r : CardProof) : CardProof :=
  let wrong := (s.tables.positionsOf c).filter fun p => bitAt ret p != bitAt sent p
  { r with
    mismatched := r.mismatched + wrong.length
    firstFail := if wrong.isEmpty then r.firstFail else r.firstFail.or (some k) }

/-- R167, R168: the comparison an accepted test frame of index `k` makes. -/
def State.compareTest (s : State) (p : Session) (k : Nat) (ret : List Bool) : List CardProof :=
  if k = 0 then (if p.readback then p.cards.mapIdx (s.readbackOf ret) else p.cards)
  else p.cards.mapIdx (s.echoCheckOf (s.provingPayload p (k - 1)) ret k)

/-! ## Results (R172) -/

/-- R168: PASS 0, FAIL 1. -/
def CardProof.resultCode (r : CardProof) : Nat := if r.mismatched = 0 ∧ r.latchMismatch = 0 then 0 else 1

def CardProof.bytes (readback : Bool) (c : Nat) (r : CardProof) : List Byte :=
  let known (n : Nat) : Option Nat := if readback then some n else none
  u8 c ++ u8 r.resultCode ++ u16 r.mismatched ++ opt 1 u8 r.firstFail ++ opt 1 u8 (known r.latchMismatch)
    ++ opt 1 u8 (known r.pendingCount)

def Session.results (p : Session) : List Byte :=
  u8 (if p.staggered then 1 else 0) ++ u8 p.start ++ u8 p.count ++ u8 p.tested ++ u8 p.rejected ++ flag p.readback
    ++ u8 p.cards.length ++ (p.cards.mapIdx (CardProof.bytes p.readback)).flatten

/-! ## The session -/

def State.withSession (p : Option Session) (s : State) : State := { s with chain := { s.chain with session := p } }

/-- R164, R171: the session ends in phase WAITING, with the chain still RUNNING: no results; the scheduler looks. -/
def State.endWaiting (p : Session) (status : Status) (s : State) : State :=
  ((s.withSession none).refuse 0x32 p.tag status).wantLook

/-- R170, R171: a run ends: RUNNING with a scan due, the scheduler looks, the deferred reply carries the results. -/
def State.endRun (p : Session) (status : Status) (s : State) : State :=
  let s1 := (s.withSession none).setChainState .running
  ((s1.trigger.wantLook).reply 0x32 p.tag status p.results).finish

/-- R163, R164: what stands in the way of a run: an ACTIVE job, a queued entry, a moving valve. -/
def State.runBlocked (s : State) : Bool := 0 < s.activeJobs || s.movesPending

/-- R164: the last frame selected was a SCAN or SERVICE frame. -/
def State.readbackNow (s : State) : Bool := s.chain.lastKind == some .scan || s.chain.lastKind == some .service

/-- R164: the chain enters PROVING, the session phase FRAMES. -/
def State.enterProving (p : Session) (s : State) : State :=
  let s1 : State := { s with image := { s.image with fresh := false } }
  let s2 := (s1.joinInputsIfStale s).setChainState .proving
  s2.withSession (some { p with
    frames := true, next := .test 0, readback := s.readbackNow, sent := 0, tested := 0, rejected := 0, abort := false,
    cards := List.replicate s.tables.cards.length CardProof.start })

/-- R166: the next proving frame is sent. -/
def State.sendProving (p : Session) (s : State) : State :=
  let t := s.withSession (some { p with sent := p.sent + 1 })
  match p.next with
  | .test k => t.selectFrame (.test k) (s.provingPayload p k)
  | .reload k _ => t.selectFrame (.reload k) (s.provingPayload p k)

/-- R171: after a proving frame that does not end the run normally: it goes on, unless ATTN_N fell or 16 frames have gone. -/
def State.continueRun (p : Session) (s : State) : State :=
  if p.abort || Config.provingFrameMax ≤ p.sent then s.endRun p .aborted else s.withSession (some p)

/-- R166 to R171: an accepted test frame of index `k`. -/
def State.testAccepted (p : Session) (k : Nat) (ret : List Bool) (s : State) : State :=
  let q : Session := { p with cards := s.compareTest p k ret, tested := p.tested + 1, next := .test (k + 1) }
  if k + 1 = p.count && !p.abort then s.endRun q (takenStatus p.adjusted) else s.continueRun q

/-- R166: an accepted reload frame is followed by the test frame it was sent for. -/
def State.reloadAccepted (p : Session) (s : State) : State :=
  match p.next with
  | .reload _ n => s.continueRun { p with next := .test n }
  | .test _ => s.continueRun p

/-- R166: a rejected proving frame: a test frame is followed by the reload of the index before it (of index 0 for frame 0,
whose readback is lost), a reload frame by itself. -/
def Session.afterRejected (p : Session) : Session :=
  let q := { p with rejected := p.rejected + 1 }
  match p.next with
  | .test 0 => { q with next := .reload 0 1, readback := false }
  | .test (k + 1) => { q with next := .reload k (k + 1) }
  | .reload _ _ => q

/-! ## The commands -/

/-- TEST_FRAME_ACCEPTED (R166, R167, R168, R170). -/
def execTestFrameAccepted (cdi : List Bool) (s : State) : Host.Outcome State Fault Refusal :=
  .next (s.atFrameEnd (fun p => match p with | .test _ => true | _ => false) true cdi fun f ret s =>
    match s.chain.session, f.purpose with
    | some p, .test k => s.testAccepted p k ret
    | _, _ => s)

/-- RELOAD_FRAME_ACCEPTED (R166). -/
def execReloadFrameAccepted (cdi : List Bool) (s : State) : Host.Outcome State Fault Refusal :=
  .next (s.atFrameEnd (fun p => match p with | .reload _ => true | _ => false) true cdi fun _ _ s =>
    match s.chain.session with
    | some p => s.reloadAccepted p
    | none => s)

/-- PROVING_FRAME_REJECTED (R166, R171, R44). -/
def execProvingFrameRejected (cdi : List Bool) (s : State) : Host.Outcome State Fault Refusal :=
  .next (s.atFrameEnd (fun p => match p with | .test _ | .reload _ => true | _ => false) false cdi fun _ _ s =>
    s.afterReject fun s =>
      match s.chain.session with
      | some p => s.continueRun p.afterRejected
      | none => s)

/-- R171: a falling edge of ATTN_N at a session. -/
def State.abortSession (p : Session) (s : State) : State :=
  if !p.frames then ((s.endWaiting p .aborted).trigger).finish
  else if s.chain.inFlight.isSome then s.withSession (some { p with abort := true })
  else s.endRun p .aborted

/-- ATTENTION (R30, R74, R171). -/
def execAttention (s : State) : Host.Outcome State Fault Refusal :=
  .next (s.whenRunning fun s =>
    let t := if s.tables.scan.attention then s.trigger else s
    match t.chain.session with
    | some p => t.abortSession p
    | none => t)

end Sys2Proof.Machine
end

