-- ==== Sys2Proof/Machine/ChainEvents.lean ====
section
/-! DEFINITION. The chain master's commands (chapter 2): the arbiter's choice, probes, and the ends of scan, service, adoption
and probe frames. -/

namespace Sys2Proof.Machine

/-! ## The arbiter (R47, R48, R50) -/

/-- The chain is idle and the gap has passed: the clock stands there or later (R29). -/
def State.atIdle (s : State) : State := s.advanceTo s.chain.idleAt

/-- R50: the frame the head transaction needs next; the scan streak becomes 0 (R48). -/
def State.sendService (e : ServiceEntry) (s : State) : State :=
  let t : State := { s.atIdle with chain := { s.chain with streak := 0 } }
  match e.stage with
  | .command => t.selectService .command e.card e.command
  | .fetch => t.selectService .fetch e.card 0

/-- R47: a scan goes; it raises the scan streak while a service frame waits (R48). -/
def State.sendScan (s : State) : State :=
  let streak := if s.chain.queue.isEmpty then s.chain.streak else min Config.streakMax (s.chain.streak + 1)
  State.selectScan .scan { s.atIdle with chain := { s.chain with streak := streak } }

/-- R47, rules 2 and 3. -/
def State.ordinaryChoice (s : State) : State :=
  match s.scanDue, s.chain.queue with
  | true, [] => s.sendScan
  | true, e :: _ =>
    if s.tables.scan.serviceFirst || Config.streakMax ≤ s.chain.streak then s.sendService e else s.sendScan
  | false, e :: _ => s.sendService e
  | false, [] => s

/-- R47, rule 1, and R164: a session in phase WAITING. Entering PROVING is the whole of a choice (log 29). -/
def State.waitingChoice (p : Session) (s : State) : State :=
  if p.waitHead then
    match s.chain.queue with
    | e :: _ => s.sendService e
    | [] => s
  else if s.runBlocked then ((s.atIdle.endWaiting p .busy).finish).ordinaryChoice
  else s.atIdle.enterProving p

/-- R47: the choice, by chain state. -/
def State.choose (s : State) : State :=
  match s.chain.st with
  | .unconfigured | .broken => s
  | .adopting => if s.chain.echoNext then s.atIdle.selectZeroEcho .adoptEcho else s.atIdle.selectService .adoptService 0 0
  | .proving =>
    match s.chain.session with
    | some p => s.atIdle.sendProving p
    | none => s
  | .running =>
    match s.chain.session with
    | some p => s.waitingChoice p
    | none => s.ordinaryChoice

/-- ARBITER_CHOICE (R47). -/
def execArbiterChoice (s : State) : Host.Outcome State Fault Refusal :=
  .next (s.whenRunning fun s => if s.chain.inFlight.isNone then s.choose else s)

/-! ## Probes (R45, R46) -/

/-- R45: one periodic interval after the select of the previous frame. -/
def State.probeDue (s : State) : Nat :=
  (match s.chain.lastSelectAt with
    | some t => t + s.tables.scan.interval * Config.ticksPerMs
    | none => 0)

/-- PROBE (R45). -/
def execProbe (s : State) : Host.Outcome State Fault Refusal :=
  .next (s.whenRunning fun s =>
    if s.chain.inFlight.isNone && s.chain.st == .broken then
      let t := s.atIdle.advanceTo s.probeDue
      if s.chain.adopted then t.selectScan .probeScan else t.selectZeroEcho .probeEcho
    else s)

/-- R46: an accepted probe ends BROKEN. R46 and R85 order the scheduler's look nowhere against the probe's delivery: it is marked
before the delivery, so it is made at the end of the first valve's or zone's event of the delivery, before the checks of the
valves that follow: DESIGN CHOICE, unsafe (log 50). -/
def State.endBroken (f : Frame) (ret : List Bool) (order : ScanOrder) (s : State) : State :=
  if f.purpose = .probeScan then
    let t := (s.setChainState .running).mapTimers (StrokeTimer.resume s.clock)
    (t.loseFlow.wantLook).acceptScan f ret order
  else
    let t := s.setChainState .adopting
    t.withChain { t.chain with echoNext := false }

/-- PROBE_ACCEPTED (R46). -/
def execProbeAccepted (cdi : List Bool) (order : ScanOrder) (s : State) : Host.Outcome State Fault Refusal :=
  .next (s.atFrameEnd (fun p => p == .probeScan || p == .probeEcho) true cdi fun f ret s => s.endBroken f ret order)

/-- PROBE_REJECTED (R45): the chain stays BROKEN; a probe SCAN is still owed (R71, R84). -/
def execProbeRejected (cdi : List Bool) (s : State) : Host.Outcome State Fault Refusal :=
  .next (s.atFrameEnd (fun p => p == .probeScan || p == .probeEcho) false cdi fun f _ s =>
    if f.purpose = .probeScan then s.trigger else s)

/-! ## Scans (R79, R84) -/

/-- SCAN_ACCEPTED (R79). -/
def execScanAccepted (cdi : List Bool) (order : ScanOrder) (s : State) : Host.Outcome State Fault Refusal :=
  .next (s.atFrameEnd (fun p => p == .scan) true cdi fun f ret s => s.acceptScan f ret order)

/-- SCAN_REJECTED (R84): the scan is still owed; the third rejection in a row breaks the chain (R44). -/
def execScanRejected (cdi : List Bool) (s : State) : Host.Outcome State Fault Refusal :=
  .next (s.atFrameEnd (fun p => p == .scan) false cdi fun _ _ s => s.trigger.afterReject id)

/-! ## Service frames (R50, R51) -/

/-- The stage of the head transaction is set. -/
def State.setHeadStage (g : Stage) (s : State) : State :=
  match s.chain.queue with
  | e :: es => s.withChain { s.chain with queue := { e with stage := g } :: es }
  | [] => s

/-- SERVICE_COMMAND_ACCEPTED (R50). -/
def execServiceCommandAccepted (cdi : List Bool) (s : State) : Host.Outcome State Fault Refusal :=
  .next (s.atFrameEnd (fun p => p == .command) true cdi fun _ _ s => s.setHeadStage .fetch)

/-- R50: the head transaction ends with its card's reply. The emptying of the queue sets the streak to 0 (R48). -/
def State.endService (ret : List Bool) (s : State) : State :=
  match s.chain.queue with
  | e :: es =>
    let t := s.withChain { s.chain with
      queue := es
      streak := if es.isEmpty then 0 else s.chain.streak
      session := s.chain.session.map fun p => { p with waitHead := false } }
    t.reply 0x31 e.tag .ok (u16 (wordOf ret e.card).toNat)
  | [] => s

/-- SERVICE_FETCH_ACCEPTED (R50). -/
def execServiceFetchAccepted (cdi : List Bool) (s : State) : Host.Outcome State Fault Refusal :=
  .next (s.atFrameEnd (fun p => p == .fetch) true cdi fun _ ret s => s.endService ret)

/-- SERVICE_FRAME_REJECTED (R51): a rejected fetch frame sends the transaction back to COMMAND. -/
def execServiceFrameRejected (cdi : List Bool) (s : State) : Host.Outcome State Fault Refusal :=
  .next (s.atFrameEnd (fun p => p == .command || p == .fetch) false cdi fun _ _ s =>
    s.afterReject fun s => s.setHeadStage .command)

/-! ## Adoption (R41, R42, R43) -/

/-- ADOPTION_SERVICE_ACCEPTED (R41). -/
def execAdoptionServiceAccepted (cdi : List Bool) (s : State) : Host.Outcome State Fault Refusal :=
  .next (s.atFrameEnd (fun p => p == .adoptService) true cdi fun _ _ s => s.withChain { s.chain with echoNext := true })

/-- ADOPTION_ECHO_ACCEPTED (R42). -/
def execAdoptionEchoAccepted (cdi : List Bool) (s : State) : Host.Outcome State Fault Refusal :=
  .next (s.atFrameEnd (fun p => p == .adoptEcho) true cdi fun _ ret s => s.adopt ret)

/-- ADOPTION_FRAME_REJECTED (R41, R43): the pair starts again from the SERVICE frame. -/
def execAdoptionFrameRejected (cdi : List Bool) (s : State) : Host.Outcome State Fault Refusal :=
  .next (s.atFrameEnd (fun p => p == .adoptService || p == .adoptEcho) false cdi fun _ _ s =>
    s.afterReject fun s => s.withChain { s.chain with echoNext := false })

/-! ## A frame overtaken by a card table change (R39) -/

/-- FRAME_END_UNCHECKED (R39): its marker is checked for no one; the scan it carried is owed (R71). -/
def execFrameEndUnchecked (s : State) : Host.Outcome State Fault Refusal :=
  .next (s.whenRunning fun s =>
    match s.chain.inFlight with
    | some f =>
      if f.unchecked then
        let t := (s.endFrame f).ringDisturbed f.purpose.kind
        if f.purpose.kind = .scan then t.trigger else t
      else s
    | none => s)

end Sys2Proof.Machine
end

