-- ==== Sys2Proof/Machine/TimerEvents.lean ====
section
/-! DEFINITION. The timers' commands: the periodic timer (R72), stroke timers (R154), drain and fill timers (R21), window aging
(R147) and spacing (R148). Each stands at its due time or later (log 2). -/

namespace Sys2Proof.Machine

/-- PERIODIC (R72): an expiry gives a PERIODIC trigger and restarts the timer. -/
def execPeriodic (s : State) : Host.Outcome State Fault Refusal :=
  .next (s.whenRunning fun s =>
    match s.periodicFrom with
    | some t =>
      let u := s.advanceTo (t + s.tables.scan.interval * Config.ticksPerMs)
      State.trigger { u with periodicFrom := some u.clock }
    | none => s)

/-- R154: when a running stroke timer reaches `ms`. -/
def StrokeTimer.reaches (t : StrokeTimer) (ms : Nat) : Option Nat :=
  t.since.map fun c => c + (ms * Config.ticksPerMs - t.count)

/-- An expiry of a moving valve's stroke timer, at `times` its stroke time, where `p` allows it for the valve (R154). -/
def State.strokeExpiry (v times : Nat) (p : Bool) (f : State → State) (s : State) : State :=
  match (s.valve v).timer.bind fun t => t.reaches (times * t.stroke) with
  | some due => if p && (s.valve v).st.isMoving then (f (s.advanceTo due)).finish else s
  | none => s

/-- STROKE_TIME_ARRIVAL (R6): a switchless valve arrives at its stroke time. -/
def execStrokeTimeArrival (v : Nat) (s : State) : Host.Outcome State Fault Refusal :=
  .next (s.whenRunning fun s => s.strokeExpiry v 1 (s.tables.switchless v) fun s => s.arrive v)

/-- STROKE_TIMEOUT (R7): a valve with switches faults at twice its stroke time. -/
def execStrokeTimeout (v : Nat) (s : State) : Host.Outcome State Fault Refusal :=
  .next (s.whenRunning fun s => s.strokeExpiry v 2 (!s.tables.switchless v) fun s => s.faultValve v .strokeTimeout)

/-- R21: the phase timer of an owner ends; its sequence takes step 3. -/
def State.endPhase (o : Owner) (p : OwnerMode → Bool) (s : State) : State :=
  match (s.owner o).phase with
  | some t =>
    if p (s.owner o).mode then
      ((s.advanceTo (t.start + t.len * Config.ticksPerMs)).ownerOp o fun s => s.takeStep3 o true).finish
    else s
  | none => s

/-- DRAIN_TIMER_END (R21, R22, R24). -/
def execDrainTimerEnd (o : Owner) (s : State) : Host.Outcome State Fault Refusal :=
  .next (s.whenRunning fun s => s.endPhase o fun m => m == .isolating || m == .parking)

/-- FILL_TIMER_END (R21, R23). -/
def execFillTimerEnd (o : Owner) (s : State) : Host.Outcome State Fault Refusal :=
  .next (s.whenRunning fun s => s.endPhase o fun m => m == .restoring)

/-- The earliest start in the shock window. -/
def earliest : List WindowEntry → Option Nat
  | [] => none
  | w :: ws =>
    match earliest ws with
    | some t => some (min w.start t)
    | none => some w.start

/-- WINDOW_AGING (R147). -/
def execWindowAging (s : State) : Host.Outcome State Fault Refusal :=
  .next (s.whenRunning fun s =>
    match earliest s.sched.window with
    | some t => (s.advanceTo ((t + s.tables.limits.window) * Config.ticksPerMs)).ageWindow.finish
    | none => s)

/-- R148: when a spacing interval ends, in ms. -/
def State.spacingDue (s : State) (w : Spacing) : Option Nat :=
  let l := s.tables.limits
  match w with
  | .segmentSame g => (s.sched.lastSeg.getD g none).map (· + l.sSame)
  | .rackSame => s.sched.lastRack.map (· + l.sSame)
  | .rackOther => s.sched.lastRack.map (· + l.sOther)

/-- SPACING_END (R148): while the queue holds an entry, the scheduler looks. -/
def execSpacingEnd (w : Spacing) (s : State) : Host.Outcome State Fault Refusal :=
  .next (s.whenRunning fun s =>
    match s.spacingDue w with
    | some t => if s.sched.queue.isEmpty then s else ((s.advanceTo (t * Config.ticksPerMs)).wantLook).finish
    | none => s)

end Sys2Proof.Machine
end

