-- ==== Sys2Proof/Machine/Define.lean ====
section
/-! DEFINITION. The requests that define the tables and settings: DEFINE_CARD, MAP_POSITION, DEFINE_VALVE, DEFINE_METER,
DEFINE_BRANCH, DEFINE_ZONE, SET_PLAN, SET_LIMITS, SET_PATTERNS, SET_SCAN, SET_NOTICES. Each checks in the order its rule
lists; the first check that fails gives the refusal. -/

namespace Sys2Proof.Machine

/-! ## Checks in order -/

/-- The first check that fails gives the refusal (its STATUS alone); a request that passes them all is taken. -/
def State.checked (kind : Nat) (tag : Byte) (checks : List (Bool × Status)) (taken : State → State) (s : State) : State :=
  match checks.find? (·.1) with
  | some c => s.refuse kind tag c.2
  | none => taken s

/-- The two checks every locked table request makes after its BAD_FIELD checks: its lock, then a running COMMIT. -/
def State.lockChecks (s : State) (lock : Bool) : List (Bool × Status) :=
  [(lock, .locked), (s.commit.isSome, .busy)]

def State.anyJob (s : State) : Bool := s.jobs.toList.any (·.isSome)
def TableStore.anyActivated (t : TableStore) : Bool := t.branches.toList.any fun b => b.defined && b.activated
def State.withTables (t : TableStore) (s : State) : State := { s with tables := t }

/-! ## The values owners and valves start with (R13, R28) -/

/-- R28: the state an owner starts in. -/
def TableStore.startMode (t : TableStore) (o : Owner) : OwnerMode :=
  match o with
  | .branch b => if (t.branch b).defined then .inactive else .undefined
  | _ => if t.hasValves o then .opened else .noValves

/-- R28: an owner's start value; its host-hold flag, hold count and start-hold-pending flag as they stand. An owner with
nothing to derive is settled (R123). -/
def TableStore.startOwner (t : TableStore) (o : Owner) (r : OwnerRec) : OwnerRec :=
  let m := t.startMode o
  { r with mode := m, step := none, needed := false, phase := none, settled := m == .undefined || m == .noValves }

/-- R13: a valve's start value. -/
def TableStore.startValve (t : TableStore) (v : Nat) : ValveRec :=
  ValveRec.fresh (if (t.valve v).present then .unknown else .undefined)

/-- The 53 owners in number order. -/
def allOwners : List Owner := branchOwners ++ wideOwners

/-! ## DEFINE_CARD (R37, R38, R39) -/

/-- R37: the width taken. -/
def takenWidth (w : Nat) : Nat := (clamp 8 64 w + 7) / 8 * 8

/-- The widths after a taken DEFINE_CARD. -/
def cardsAfter (cards : List Nat) (card : Nat) (defined : Bool) (width : Nat) : List Nat :=
  if defined then (if card < cards.length then cards.set card width else cards ++ [width]) else cards.dropLast

/-- R39: the chain state after a card table change that leaves `n` cards. -/
def ChainState.afterCards (st : ChainState) (n : Nat) : ChainState :=
  if n = 0 then .unconfigured else if st = .broken then .broken else .adopting

/-- R39: the chain master at a card table change. -/
def State.recardChain (s : State) : State :=
  let t := s.setChainState (s.chain.st.afterCards s.tables.cards.length)
  t.withChain { t.chain with
    adopted := false, rejects := 0, echoNext := false,
    inFlight := t.chain.inFlight.map fun f => { f with unchecked := true } }

/-- R70, R86, R100: the image unit, the scanning unit and the flow unit at a card table change. The time of the last accepted
SCAN or adoption ECHO stands, since only a start forgets it (R68, R75). -/
def State.recardImage (s : State) : State :=
  let t : State := { s with
    image := { Image.start s.tables.length s.tables.cards.length with lastFrameAt := s.image.lastFrameAt }
    scanDue := false, periodicFrom := none, flow := Flow.start }
  t.fitRing

/-- A valve's position fields (R3). -/
def TableStore.posFields (t : TableStore) (v : Nat) : Option Nat × Option Nat × Option Nat :=
  (t.drivePos v, t.openPos v, t.closedPos v)

/-- R39, R70: a valve at a card table change; it joins when its record or its position fields change. -/
def State.recardValve (before : TableStore) (v : Nat) (s : State) : State :=
  let t := if (s.tables.valve v).present then
      (s.setValve v (ValveRec.fresh .unknown)).withdraw fun e => e.valve == v
    else s
  if before.posFields v = s.tables.posFields v then t else t.joinNotice (.valve v)

/-- R39: an owner at a card table change. -/
def State.recardOwner (o : Owner) (s : State) : State := s.setOwner o (s.tables.startOwner o (s.owner o))

/-- R39: the card table changes. -/
def State.changeCards (cards : List Nat) (s : State) : State :=
  let s1 := s.withTables { s.tables with cards := cards }
  let s2 := (s1.recardChain.recardImage).joinInputsIfStale s
  let s3 := valveNumbers.foldl (fun t v => t.recardValve s.tables v) s2
  (allOwners.foldl (fun t o => t.recardOwner o) s3).finish

/-- R37, R38: a DEFINE_CARD whose fields are in range. -/
def State.defineCard (tag : Byte) (card : Nat) (defined : Bool) (width : Nat) (s : State) : State :=
  let n := s.tables.cards.length
  let w := takenWidth width
  let cards := cardsAfter s.tables.cards card defined w
  s.checked 0x10 tag
    (s.lockChecks s.locks.tables ++
      [(s.tables.anyActivated || s.anyJob || s.chain.session.isSome || !s.chain.queue.isEmpty, .busy),
       (defined && n < card, .notDefined),
       (!defined && n ≤ card, .notDefined),
       (!defined && card + 1 != n, .conflict),
       (!defined && s.tables.map.any (·.card == card), .conflict),
       (defined && s.tables.map.any (fun e => e.card == card && w < e.offset + e.fn.width), .conflict),
       (defined && Config.maxPositions < cards.sum, .full)])
    fun s =>
      let t := s.changeCards cards
      t.reply 0x10 tag (takenStatus (defined && w != width)) (t.tables.cardRecord card ++ u16 t.tables.length)

def answerDefineCard (tag : Byte) (card defined width : Nat) (s : State) : State :=
  match yesNo defined with
  | some d => if Config.maxCards ≤ card then s.refuse 0x10 tag .badField else s.defineCard tag card d width
  | none => s.refuse 0x10 tag .badField

/-- DEFINE_CARD (R37). -/
def execDefineCard (tag : Byte) (card defined width : Nat) (s : State) : Host.Outcome State Fault Refusal :=
  .next (s.request (.defineCard tag card defined width) (answerDefineCard tag card defined width))

/-! ## MAP_POSITION (R56 to R60) -/

/-- R2, R58: the state of an owner and its valve forbids a change of a present valve. `removal`: the valve is removed. -/
def State.valveBusy (s : State) (v : Nat) (removal : Bool) : Bool :=
  let r := s.owner (valveOwner v)
  (match valveOwner v with
    | .branch _ => !(r.mode == .undefined || (r.mode == .inactive && !removal))
    | _ => !(r.mode == .noValves || (r.mode == .opened && r.holds == 0)))
  || (s.valve v).st.isMoving || s.hasEntry v

/-- The valve a function belongs to. -/
def MapFn.valve : MapFn → Option Nat
  | .drive v | .openSw v | .closedSw v => some v
  | _ => none

def MapFn.isDrive : MapFn → Bool
  | .drive _ => true
  | _ => false

/-- R58: mapping or removing a function is refused BUSY. -/
def State.mapBusy (s : State) (fn : MapFn) (removal : Bool) : Bool :=
  match fn with
  | .drip z _ => !((s.zone z).st == .off || (s.zone z).st == .undefined)
  | _ =>
    match fn.valve with
    | some v => (s.tables.valve v).present && (s.valveBusy v false || (removal && fn.isDrive))
    | none => false

/-- R57: two functions name one object that may be mapped once. -/
def MapFn.sameObject : MapFn → MapFn → Bool
  | .drive v, .drive w | .openSw v, .openSw w | .closedSw v, .closedSw w => v == w
  | .flow m, .flow n | .out m, .out n | .inp m, .inp n => m == n
  | .cardOk c _, .cardOk d _ => c == d
  | _, _ => false

/-- R57: the offset taken: a FLOW field starts at a multiple of 8. -/
def MapFn.offsetTaken (fn : MapFn) (offset : Nat) : Nat :=
  match fn with
  | .flow _ => offset / 8 * 8
  | _ => offset

/-- R57: the conflicts of a new entry, in order. -/
def TableStore.mapConflicts (t : TableStore) (e : MapEntry) : List (Bool × Status) :=
  [((List.range e.fn.width).any fun i => (t.entryAt e.card (e.offset + i)).isSome, .conflict),
   (t.map.any fun x => x.fn.sameObject e.fn, .conflict),
   ((match e.fn with | .cardOk c _ => c != e.card | _ => false), .conflict),
   ((match e.fn with | .drip z _ => 4 ≤ (t.dripEntries z).length | _ => false), .full)]

/-- R59: the output image bits of an entry's positions become 0. -/
def State.clearField (e : MapEntry) (s : State) : State :=
  (List.range e.fn.width).foldl (fun s i => s.writeImageBit (s.tables.posOf e.card e.offset + i) false) s

/-- R59: what follows a change of the map at an entry. -/
def State.afterMap (e : MapEntry) (s : State) : State :=
  let s1 := s.clearField e
  match e.fn with
  | .flow m => s1.loseMeter m
  | .inp _ => s1.joinNotice .inputs
  | fn =>
    match fn.valve with
    | some v =>
      let s2 := if (s1.tables.valve v).present then s1.valveToUnknown v else s1
      (s2.joinNotice (.valve v)).checkNoValves (valveOwner v)
    | none => s1

/-- R56: the reply: card, offset, chain position number and function. -/
def State.mapReply (tag : Byte) (status : Status) (card offset : Nat) (s : State) : State :=
  let code := match s.tables.entryAt card offset with | some e => e.fn.code | none => 0
  s.reply 0x11 tag status (u8 card ++ u8 offset ++ u8 (s.tables.posOf card offset) ++ u8 code)

/-- R57, R58, R59: an entry is mapped. A request for what stands already changes nothing. -/
def State.mapEntry (tag : Byte) (e : MapEntry) (status : Status) (s : State) : State :=
  if s.tables.map.contains e then s.mapReply tag .ok e.card e.offset
  else s.checked 0x11 tag (s.tables.mapConflicts e ++ [(s.mapBusy e.fn false, .busy)]) fun s =>
    (((s.withTables { s.tables with map := s.tables.map ++ [e] }).afterMap e).finish).mapReply tag status e.card e.offset

/-- R60: the function at a position is removed. -/
def State.unmapAt (tag : Byte) (card offset : Nat) (s : State) : State :=
  match s.tables.entryAt card offset with
  | none => s.mapReply tag .ok card offset
  | some e =>
    s.checked 0x11 tag [(s.mapBusy e.fn true, .busy)] fun s =>
      (((s.withTables { s.tables with map := s.tables.map.erase e }).afterMap e).finish).mapReply tag .ok e.card e.offset

def answerMapPosition (tag : Byte) (card offset function number level : Nat) (s : State) : State :=
  match mapFnOfCode function number level with
  | none => s.refuse 0x11 tag .badField
  | some fn =>
    s.checked 0x11 tag
      ([((Config.maxCards ≤ card : Bool), Status.badField), ((s.tables.cards.getD card 0 ≤ offset : Bool), Status.notDefined)] ++ s.lockChecks s.locks.tables)
      fun s =>
        match fn with
        | none => s.unmapAt tag card offset
        | some fn =>
          let used := fn.offsetTaken offset
          s.mapEntry tag { card := card, offset := used, fn := fn } (takenStatus (used != offset))

/-- MAP_POSITION (R56). -/
def execMapPosition (tag : Byte) (card offset function number level : Nat) (s : State) : Host.Outcome State Fault Refusal :=
  .next (s.request (.mapPosition tag card offset function number level)
    (answerMapPosition tag card offset function number level))

/-! ## DEFINE_VALVE (R1, R2, R3) -/

def State.putValveDef (v : Nat) (d : ValveDef) (s : State) : State :=
  s.withTables { s.tables with valves := s.tables.valves.put v d }

/-- R1: the effect of a taken DEFINE_VALVE on the valve. -/
def State.redefineValve (v : Nat) (d : ValveDef) (s : State) : State :=
  let old := s.tables.valve v
  let s1 := s.putValveDef v d
  let s2 :=
    if !d.present then s1.setValve v (ValveRec.fresh .undefined)
    else if !old.present then s1.setValve v { ValveRec.fresh .unknown with target := s1.commandedTarget v }
    else if old.fail != d.fail then s1.valveToUnknown v
    else s1
  (if old = d then s2 else s2.joinNotice (.valve v)).checkNoValves (valveOwner v)

/-- R1: a DEFINE_VALVE whose fields are in range. A stroke time outside its range is clamped and answered ADJUSTED, at a removal
too (log 30). -/
def State.defineValve (tag : Byte) (v : Nat) (present : Bool) (stroke : Nat) (fail : Pos) (s : State) : State :=
  let taken := clamp 100 30000 stroke
  let changed := taken != stroke
  s.checked 0x12 tag
    (s.lockChecks s.locks.tables ++ [(s.valveBusy v (!present), .busy)])
    fun s =>
      ((s.redefineValve v (if present then { present := true, stroke := taken, fail := fail } else ValveDef.absent)).finish).reply
        0x12 tag (takenStatus changed) (if changed then u16 taken else [])

def answerDefineValve (tag : Byte) (valve present stroke fail : Nat) (s : State) : State :=
  match yesNo present, posOfCode fail with
  | some p, some f => if Config.numValves ≤ valve then s.refuse 0x12 tag .badField else s.defineValve tag valve p stroke f
  | _, _ => s.refuse 0x12 tag .badField

/-- DEFINE_VALVE (R1). -/
def execDefineValve (tag : Byte) (valve present stroke fail : Nat) (s : State) : Host.Outcome State Fault Refusal :=
  .next (s.request (.defineValve tag valve present stroke fail) (answerDefineValve tag valve present stroke fail))

/-! ## DEFINE_METER (R87, R88) -/

def State.putMeterDef (m : Nat) (d : MeterDef) (s : State) : State :=
  s.withTables { s.tables with meters := s.tables.meters.put m d }

/-- R87: a BALANCE zone that names the meter's branch is enabled. -/
def State.meterInUse (s : State) (m : Nat) : Bool :=
  m < 96 && zoneNumbers.any fun z =>
    (s.tables.zone z).kind == .balance && (s.tables.zone z).branch == m / 2 && (s.zone z).st.enabled

/-- R88: the effect of a taken DEFINE_METER. -/
def State.redefineMeter (m : Nat) (d : MeterDef) (s : State) : State :=
  let old := s.tables.meter m
  let t := s.putMeterDef m d
  if old.defined && d.defined && old.kFactor == d.kFactor then t else t.loseMeter m

/-- R87: a DEFINE_METER whose fields are in range. R14, R56 and R101 give an order among refusals, R87 gives none: they are
checked in the order it lists them, LOCKED, BUSY for a COMMIT, NOT_DEFINED, BUSY for a zone in use: DESIGN CHOICE, unsafe (log
63). -/
def State.defineMeter (tag : Byte) (m : Nat) (defined : Bool) (kFactor shift : Nat) (s : State) : State :=
  let k := clamp 1 4000 kFactor
  let sh := min 4 shift
  s.checked 0x13 tag
    (s.lockChecks s.locks.tables ++
      [(!defined && !(s.tables.meter m).defined, .notDefined), (!defined && s.meterInUse m, .busy)])
    fun s =>
      let t := s.redefineMeter m (if defined then { defined := true, kFactor := k, shift := sh } else MeterDef.absent)
      t.reply 0x13 tag (takenStatus (defined && (k != kFactor || sh != shift))) (t.meterRecord m)

def answerDefineMeter (tag : Byte) (meter defined kFactor shift : Nat) (s : State) : State :=
  match yesNo defined with
  | some d => if Config.numMeters ≤ meter then s.refuse 0x13 tag .badField else s.defineMeter tag meter d kFactor shift
  | none => s.refuse 0x13 tag .badField

/-- DEFINE_METER (R87). -/
def execDefineMeter (tag : Byte) (meter defined kFactor shift : Nat) (s : State) : Host.Outcome State Fault Refusal :=
  .next (s.request (.defineMeter tag meter defined kFactor shift) (answerDefineMeter tag meter defined kFactor shift))

/-! ## DEFINE_BRANCH (R14) -/

def State.putBranchDef (b : Nat) (d : BranchDef) (s : State) : State :=
  s.withTables { s.tables with branches := s.tables.branches.put b d }

/-- R14, R119: a branch is a target in some zone's plan. -/
def TableStore.planned (t : TableStore) (o : Owner) : Bool := t.plans.toList.any fun p => p.contains o

/-- R14: the effect of a taken DEFINE_BRANCH; a branch newly defined is derived by the next adoption, and is settled where
the chain is adopted (log 24). -/
def State.redefineBranch (b : Nat) (defined : Bool) (segment : Nat) (park : ParkAction) (nominal : Nat) (s : State) : State :=
  let old := s.tables.branch b
  let r := s.owner (.branch b)
  let t :=
    if !defined then
      (s.putBranchDef b BranchDef.absent).setOwner (.branch b) { OwnerRec.start .undefined true with startPending := r.startPending }
    else if old.defined then s.putBranchDef b { old with segment := segment, park := park, nominal := nominal }
    else
      (s.putBranchDef b { defined := true, segment := segment, activated := false, park := park, nominal := nominal }).setOwner
        (.branch b) { OwnerRec.start .inactive s.chain.adopted with startPending := r.startPending }
  t.joinNotice (.branch b)

/-- R14: a DEFINE_BRANCH whose fields are in range. A nominal flow above 4000 is clamped and answered ADJUSTED, at a removal too
(log 30). -/
def State.defineBranch (tag : Byte) (b : Nat) (defined : Bool) (segment : Nat) (park : ParkAction) (nominal : Nat)
    (s : State) : State :=
  let taken := min 4000 nominal
  let changed := taken != nominal
  let mode := (s.owner (.branch b)).mode
  let valveBusy (v : Nat) := (s.valve v).st.isMoving || s.hasEntry v
  s.checked 0x14 tag
    (s.lockChecks s.locks.tables ++
      [(!(mode == .undefined || mode == .inactive), .busy),
       (defined && !s.tables.hasValves (.branch b), .notDefined),
       (!defined && (s.tables.planned (.branch b) || valveBusy (2 * b) || valveBusy (2 * b + 1)), .busy)])
    fun s =>
      ((s.redefineBranch b defined segment park taken).finish).reply 0x14 tag (takenStatus changed)
        (if changed then u16 taken else [])

def answerDefineBranch (tag : Byte) (branch defined segment park nominal : Nat) (s : State) : State :=
  match yesNo defined, parkOfCode park with
  | some d, some p =>
    if Config.numBranches ≤ branch ∨ Config.numSegments ≤ segment then s.refuse 0x14 tag .badField
    else s.defineBranch tag branch d segment p nominal
  | _, _ => s.refuse 0x14 tag .badField

/-- DEFINE_BRANCH (R14). -/
def execDefineBranch (tag : Byte) (branch defined segment park nominal : Nat) (s : State) : Host.Outcome State Fault Refusal :=
  .next (s.request (.defineBranch tag branch defined segment park nominal)
    (answerDefineBranch tag branch defined segment park nominal))

/-! ## DEFINE_ZONE (R101, R102) -/

def State.putZoneDef (z : Nat) (d : ZoneDef) (s : State) : State :=
  s.withTables { s.tables with zones := s.tables.zones.put z d }

def State.putPlan (z : Nat) (p : List Owner) (s : State) : State :=
  s.withTables { s.tables with plans := s.tables.plans.put z p }

/-- R101: the parameters taken, in OFF. A DRIP zone keeps no branch, T or Fmin; a BALANCE zone is not failsafe. -/
def zoneTaken (kind : ZoneKind) (confirm clear : Nat) (auto failsafe : Bool) (branch threshold minFlow : Nat) : ZoneDef :=
  let d : ZoneDef := { ZoneDef.absent with
    defined := true, kind := kind, confirm := clamp 1 15 confirm, clear := clamp 1 255 clear, auto := auto }
  match kind with
  | .drip => { d with failsafe := failsafe }
  | .balance => { d with branch := branch, threshold := clamp 1 500 threshold, minFlow := min 4000 minFlow }

/-- R101: a parameter in use was changed. -/
def zoneAdjusted (d : ZoneDef) (confirm clear threshold minFlow : Nat) : Bool :=
  d.confirm != confirm || d.clear != clear
    || (d.kind == .balance && (d.threshold != threshold || d.minFlow != minFlow))

/-- R102: the effect of a taken DEFINE_ZONE. -/
def State.redefineZone (z : Nat) (d : Option ZoneDef) (s : State) : State :=
  (match d with
    | some d => (s.putZoneDef z d).setZone z (ZoneRec.fresh .off)
    | none => ((s.putZoneDef z ZoneDef.absent).putPlan z []).setZone z (ZoneRec.fresh .undefined)).joinNotice (.zone z)

/-- R101: a DEFINE_ZONE whose fields are in range; `d` is absent at a removal (log 30). -/
def State.defineZone (tag : Byte) (z : Nat) (d : Option ZoneDef) (adjusted : Bool) (s : State) : State :=
  s.checked 0x15 tag
    (s.lockChecks s.locks.plan ++
      [(d.isNone && (s.zone z).st == .undefined, .notDefined), ((s.zone z).st.enabled, .busy)])
    fun s =>
      let t := s.redefineZone z d
      t.reply 0x15 tag (takenStatus adjusted) (t.zoneRecord z)

/-- R101: the fields as their codes give them. The check table refuses a flag other than yes or no BAD_FIELD, the text after it has the
failsafe field of a BALANCE zone ignored; the model refuses such a failsafe byte for both kinds: DESIGN CHOICE, unsafe (log 54). -/
def answerDefineZone (tag : Byte) (zone defined kind confirm clear auto failsafe branch threshold minFlow : Nat)
    (s : State) : State :=
  match yesNo defined, zoneKindOfCode kind, yesNo auto, yesNo failsafe with
  | some d, some k, some a, some f =>
    if Config.numZones ≤ zone ∨ (k = .balance ∧ Config.numBranches ≤ branch) then s.refuse 0x15 tag .badField
    else
      let taken := zoneTaken k confirm clear a f branch threshold minFlow
      s.defineZone tag zone (if d then some taken else none) (zoneAdjusted taken confirm clear threshold minFlow)
  | _, _, _, _ => s.refuse 0x15 tag .badField

/-- DEFINE_ZONE (R101). -/
def execDefineZone (tag : Byte) (zone defined kind confirm clear auto failsafe branch threshold minFlow : Nat) (s : State) :
    Host.Outcome State Fault Refusal :=
  .next (s.request (.defineZone tag zone defined kind confirm clear auto failsafe branch threshold minFlow)
    (answerDefineZone tag zone defined kind confirm clear auto failsafe branch threshold minFlow))

/-! ## SET_PLAN (R120, R121) -/

/-- The owners a list of kinds and numbers names; absent where one names none (R120). -/
def ownersOf : List (Nat × Nat) → Option (List Owner)
  | [] => some []
  | kn :: rest =>
    match ownerOfCode kn.1 kn.2, ownersOf rest with
    | some o, some os => some (o :: os)
    | _, _ => none

/-- R17, R120: an owner that is an UNDEFINED branch. -/
def State.ownerUndefined (s : State) (o : Owner) : Bool :=
  match o with
  | .branch b => !(s.tables.branch b).defined
  | _ => false

/-- R120: a zone has a job in the job table or a place on the wait list. -/
def State.zoneEngaged (s : State) (z : Nat) : Bool := (s.jobSlotOf z).isSome || s.waitList.contains z

def answerSetPlan (tag : Byte) (zone : Nat) (targets : List (Nat × Nat)) (s : State) : State :=
  match ownersOf targets with
  | none => s.refuse 0x16 tag .badField
  | some os =>
    s.checked 0x16 tag
      ([((Config.numZones ≤ zone : Bool), Status.badField), ((Config.maxTargets < os.length : Bool), Status.full)]
        ++ s.lockChecks s.locks.plan ++
        [((s.zone zone).st == .undefined || os.any s.ownerUndefined, Status.notDefined),
         (!decide os.Nodup, Status.conflict),
         (s.zoneEngaged zone, Status.busy)])
      fun s =>
        let t := s.putPlan zone os
        t.reply 0x16 tag .ok (t.tables.planRecord zone)

/-- SET_PLAN (R120, R121). -/
def execSetPlan (tag : Byte) (zone : Nat) (targets : List (Nat × Nat)) (s : State) : Host.Outcome State Fault Refusal :=
  .next (s.request (.setPlan tag zone targets) (answerSetPlan tag zone targets))

/-! ## SET_LIMITS (R157, R158) -/

/-- R157: the eight limits brought into range, R by B as already adjusted. -/
def limitsTaken (l : Limits) : Limits :=
  let b := clamp 1 2000 l.budget
  { budget := b, reserve := min b l.reserve, count := clamp 1 32 l.count, window := clamp 100 10000 l.window,
    sSame := min 5000 l.sSame, sOther := min 5000 l.sOther, drain := min 10000 l.drain, fill := min 10000 l.fill }

/-- B, R, N_max and W. -/
def Limits.windowPart (l : Limits) : Nat × Nat × Nat × Nat := (l.budget, l.reserve, l.count, l.window)

/-- The six admission limits. -/
def Limits.admissionPart (l : Limits) : (Nat × Nat × Nat × Nat) × Nat × Nat := (l.windowPart, l.sSame, l.sOther)

def State.setLimits (tag : Byte) (l : Limits) (s : State) : State :=
  let taken := limitsTaken l
  let old := s.tables.limits
  s.checked 0x17 tag
    (s.lockChecks s.locks.limits ++ [(!s.sched.window.isEmpty && old.windowPart != taken.windowPart, .busy)])
    fun s =>
      let t := s.withTables { s.tables with limits := taken }
      let u := (if old.admissionPart = taken.admissionPart then t else t.wantLook).finish
      u.reply 0x17 tag (takenStatus (taken != l)) taken.bytes

def answerSetLimits (tag : Byte) (budget reserve count window sSame sOther drain fill : Nat) (s : State) : State :=
  s.setLimits tag { budget := budget, reserve := reserve, count := count, window := window, sSame := sSame,
                    sOther := sOther, drain := drain, fill := fill }

/-- SET_LIMITS (R157, R158). -/
def execSetLimits (tag : Byte) (budget reserve count window sSame sOther drain fill : Nat) (s : State) :
    Host.Outcome State Fault Refusal :=
  .next (s.request (.setLimits tag budget reserve count window sSame sOther drain fill)
    (answerSetLimits tag budget reserve count window sSame sOther drain fill))

/-! ## SET_PATTERNS (R162) -/

/-- R162 gives no order among its refusals: they are checked in the order it lists them, LOCKED, then BUSY: DESIGN CHOICE, unsafe
(log 63). -/
def answerSetPatterns (tag p0 p1 p2 p3 : Byte) (s : State) : State :=
  s.checked 0x18 tag (s.lockChecks s.locks.limits ++ [(s.chain.session.isSome, .busy)]) fun s =>
    let t := s.withTables { s.tables with patterns := { p0 := p0, p1 := p1, p2 := p2, p3 := p3 } }
    t.reply 0x18 tag .ok t.tables.patterns.bytes

/-- SET_PATTERNS (R162). -/
def execSetPatterns (tag p0 p1 p2 p3 : Byte) (s : State) : Host.Outcome State Fault Refusal :=
  .next (s.request (.setPatterns tag p0 p1 p2 p3) (answerSetPatterns tag p0 p1 p2 p3))

/-! ## SET_SCAN (R77, R78) -/

/-- R78: a changed periodic interval is counted from the timer's last restart; where that much time has passed the timer
expires at once. -/
def State.newInterval (old : ScanSettings) (s : State) : State :=
  match s.periodicFrom with
  | some t =>
    if old.interval != s.tables.scan.interval && t + s.tables.scan.interval * Config.ticksPerMs ≤ s.clock then
      State.trigger { s with periodicFrom := some s.clock }
    else s
  | none => s

/-- R78: a taken SET_SCAN. -/
def State.storeScan (c : ScanSettings) (s : State) : State :=
  let old := s.tables.scan
  let s1 := (s.withTables { s.tables with scan := c }).newInterval old
  let s2 := if !old.image && c.image then s1.imageTrigger else s1
  (if old.holdOnWet && !c.holdOnWet then s2.wantLook else s2).finish

def State.setScan (tag : Byte) (c : ScanSettings) (adjusted : Bool) (s : State) : State :=
  s.checked 0x19 tag (s.lockChecks s.locks.limits) fun s =>
    (s.storeScan c).reply 0x19 tag (takenStatus adjusted) c.bytes

def answerSetScan (tag : Byte) (image attention interval priority rate gap holdOnWet : Nat) (s : State) : State :=
  match enabledDisabled image, enabledDisabled attention, serviceFirstOfCode priority, rateOfCode rate, offOn holdOnWet with
  | some i, some a, some p, some r, some h =>
    let n := clamp 5 1000 interval
    let g := clamp 10 1000 gap
    s.setScan tag { image := i, attention := a, interval := n, serviceFirst := p, rate := r, gap := g, holdOnWet := h }
      (n != interval || g != gap)
  | _, _, _, _, _ => s.refuse 0x19 tag .badField

/-- SET_SCAN (R77, R78). -/
def execSetScan (tag : Byte) (image attention interval priority rate gap holdOnWet : Nat) (s : State) :
    Host.Outcome State Fault Refusal :=
  .next (s.request (.setScan tag image attention interval priority rate gap holdOnWet)
    (answerSetScan tag image attention interval priority rate gap holdOnWet))

/-! ## SET_NOTICES (R187) -/

/-- The mask eight settings give; absent where one is neither on nor off. -/
def maskOf (zone branch segment main valve job chain inputs : Nat) : Option NoticeMask :=
  match onOff zone, onOff branch, onOff segment, onOff main, onOff valve, onOff job, onOff chain, onOff inputs with
  | some a, some b, some c, some d, some e, some f, some g, some h =>
    some { zone := a, branch := b, segment := c, main := d, valve := e, job := f, chain := g, inputs := h }
  | _, _, _, _, _, _, _, _ => none

/-- R187: the mask is stored; objects of a kind now off leave the set. -/
def State.storeMask (m : NoticeMask) (s : State) : State :=
  { s with tables := { s.tables with mask := m }, link := { s.link with notices := s.link.notices.filter m.on } }

def answerSetNotices (tag : Byte) (zone branch segment main valve job chain inputs : Nat) (s : State) : State :=
  match maskOf zone branch segment main valve job chain inputs with
  | none => s.refuse 0x1A tag .badField
  | some m => s.checked 0x1A tag [(s.commit.isSome, .busy)] fun s => (s.storeMask m).reply 0x1A tag .ok m.bytes

/-- SET_NOTICES (R187). -/
def execSetNotices (tag : Byte) (zone branch segment main valve job chain inputs : Nat) (s : State) :
    Host.Outcome State Fault Refusal :=
  .next (s.request (.setNotices tag zone branch segment main valve job chain inputs)
    (answerSetNotices tag zone branch segment main valve job chain inputs))

end Sys2Proof.Machine
end

