-- ==== Sys2Proof/Machine/Command.lean ====
section
/-! DEFINITION. The requests that command: ACTIVATE, DEACTIVATE, HOLD, UNHOLD, ACK_ZONE, RELEASE_JOB, CLEAR_FAULT, ZONE_ENABLE,
VALVE_MOVE, SCAN_NOW, SERVICE, PROVE, WRITE_OUTPUTS. None is locked. -/

namespace Sys2Proof.Machine

/-! ## ACTIVATE, DEACTIVATE (R18) -/

/-- R18: the activated flag of a branch is set as asked; when it changes, the branch re-evaluates. -/
def State.setActivated (b : Nat) (on : Bool) (s : State) : State :=
  let d := s.tables.branch b
  if d.activated = on then s
  else (((s.putBranchDef b { d with activated := on }).joinNotice (.branch b)).evaluate (.branch b)).finish

def State.activation (kind : Nat) (tag : Byte) (b : Nat) (on : Bool) (s : State) : State :=
  s.checked kind tag
    [((Config.numBranches ≤ b : Bool), .badField), (!(s.tables.branch b).defined, .notDefined)] fun s =>
      let t := s.setActivated b on
      t.reply kind tag .ok (u8 (t.owner (.branch b)).mode.branchCode)

def answerActivate (tag : Byte) (branch : Nat) (s : State) : State := s.activation 0x20 tag branch true
def answerDeactivate (tag : Byte) (branch : Nat) (s : State) : State := s.activation 0x21 tag branch false

/-- ACTIVATE (R18). -/
def execActivate (tag : Byte) (branch : Nat) (s : State) : Host.Outcome State Fault Refusal :=
  .next (s.request (.activate tag branch) (answerActivate tag branch))

/-- DEACTIVATE (R18). -/
def execDeactivate (tag : Byte) (branch : Nat) (s : State) : Host.Outcome State Fault Refusal :=
  .next (s.request (.deactivate tag branch) (answerDeactivate tag branch))

/-! ## HOLD, UNHOLD (R16, R17) -/

/-- R17: the host-hold flag is set and the hold count rises. -/
def State.placeHostHold (o : Owner) (s : State) : State :=
  ((s.setOwner o { s.owner o with hostHold := true }).raiseHold o).finish

/-- R17: the host-hold flag is cleared and the hold count falls. -/
def State.liftHostHold (o : Owner) (s : State) : State :=
  ((s.setOwner o { s.owner o with hostHold := false }).lowerHold o).finish

/-- R17: the reply to a taken HOLD or UNHOLD: the owner's hold count and state. -/
def State.holdReply (kind : Nat) (tag : Byte) (o : Owner) (s : State) : State :=
  s.reply kind tag .ok (u8 (s.owner o).holds ++ u8 (ownerModeCode o (s.owner o).mode))

def answerHold (tag : Byte) (kind number : Nat) (s : State) : State :=
  match ownerOfCode kind number with
  | none => s.refuse 0x22 tag .badField
  | some o =>
    s.checked 0x22 tag [(s.ownerUndefined o, .notDefined), ((s.owner o).hostHold, .held)] fun s =>
      (s.placeHostHold o).holdReply 0x22 tag o

/-- HOLD (R17). -/
def execHold (tag : Byte) (kind number : Nat) (s : State) : Host.Outcome State Fault Refusal :=
  .next (s.request (.hold tag kind number) (answerHold tag kind number))

def answerUnhold (tag : Byte) (kind number : Nat) (s : State) : State :=
  match ownerOfCode kind number with
  | none => s.refuse 0x23 tag .badField
  | some o =>
    s.checked 0x23 tag [(s.ownerUndefined o, .notDefined), (!(s.owner o).hostHold, .busy)] fun s =>
      (s.liftHostHold o).holdReply 0x23 tag o

/-- UNHOLD (R17). -/
def execUnhold (tag : Byte) (kind number : Nat) (s : State) : Host.Outcome State Fault Refusal :=
  .next (s.request (.unhold tag kind number) (answerUnhold tag kind number))

/-! ## ACK_ZONE (R108, R110) -/

def State.zoneReply (kind : Nat) (tag : Byte) (z : Nat) (s : State) : State := s.reply kind tag .ok (s.zoneRecord z)

/-- R108: a zone in WET enters ACKED; its dry run, last wet cause and time entered WET are kept. -/
def State.acknowledge (z : Nat) (s : State) : State :=
  (s.setZone z { s.zone z with st := .acked }).joinNotice (.zone z)

/-- R108: declare-dry no. -/
def State.ackZone (tag : Byte) (z : Nat) (s : State) : State :=
  s.checked 0x24 tag
    [((Config.numZones ≤ z : Bool), .badField), ((s.zone z).st == .undefined, .notDefined), ((s.zone z).st != .wet, .busy)]
    fun s => (s.acknowledge z).zoneReply 0x24 tag z

/-- R110: declare-dry yes may be taken. -/
def State.mayDeclareDry (s : State) (z : Nat) : Bool :=
  (s.tables.zone z).kind == .balance && ((s.zone z).st == .wet || (s.zone z).st == .acked)
    && (s.owner (.branch (s.tables.zone z).branch)).mode != .inService

/-- R110: declare-dry yes. -/
def State.declareDry (tag : Byte) (z : Nat) (s : State) : State :=
  s.checked 0x24 tag
    [((Config.numZones ≤ z : Bool), .badField), ((s.zone z).st == .undefined, .notDefined), (!s.mayDeclareDry z, .busy)]
    fun s => ((s.enterDry z).finish).zoneReply 0x24 tag z

def answerAckZone (tag : Byte) (zone declareDry : Nat) (s : State) : State :=
  match yesNo declareDry with
  | none => s.refuse 0x24 tag .badField
  | some false => s.ackZone tag zone
  | some true => s.declareDry tag zone

/-- ACK_ZONE (R108). -/
def execAckZone (tag : Byte) (zone declareDry : Nat) (s : State) : Host.Outcome State Fault Refusal :=
  .next (s.request (.ackZone tag zone declareDry) (answerAckZone tag zone declareDry))

def answerAckZoneDeclareDry (tag : Byte) (zone : Nat) (s : State) : State := s.declareDry tag zone

/-- ACK_ZONE_DECLARE_DRY (R110). -/
def execAckZoneDeclareDry (tag : Byte) (zone : Nat) (s : State) : Host.Outcome State Fault Refusal :=
  .next (s.request (.ackZoneDeclareDry tag zone) (answerAckZoneDeclareDry tag zone))

/-! ## RELEASE_JOB (R136, R137) -/

/-- R137: a job is released; the reply carries the number of owners whose count reached 0, and the slot. -/
def State.releaseJob (tag : Byte) (slot : Nat) (j : Job) (s : State) : State :=
  let r := s.releaseSlot slot j
  (r.2.finish).reply 0x25 tag .ok (u8 r.1 ++ u8 slot)

def answerReleaseJob (tag : Byte) (zone : Nat) (s : State) : State :=
  if Config.numZones ≤ zone then s.refuse 0x25 tag .badField
  else match s.jobSlotOf zone with
    | none => s.refuse 0x25 tag .notDefined
    | some slot =>
      match s.job slot with
      | none => s.refuse 0x25 tag .notDefined
      | some j =>
        s.checked 0x25 tag [((s.zone zone).st == .undefined, .notDefined), ((s.zone zone).st != .dry, .notAcked)] fun s =>
          s.releaseJob tag slot j

/-- RELEASE_JOB (R136, R137). -/
def execReleaseJob (tag : Byte) (zone : Nat) (s : State) : Host.Outcome State Fault Refusal :=
  .next (s.request (.releaseJob tag zone) (answerReleaseJob tag zone))

/-! ## CLEAR_FAULT (R12) -/

/-- R12: a valve in FAULT becomes UNKNOWN; its fault cause, mismatch run and latest reading are cleared. -/
def State.clearFault (v : Nat) (s : State) : State :=
  s.setValve v { s.valve v with st := .unknown, cause := none, mismatch := 0, latest := none }

def answerClearFault (tag : Byte) (valve : Nat) (s : State) : State :=
  s.checked 0x26 tag
    [((Config.numValves ≤ valve : Bool), .badField), (!(s.tables.valve valve).present, .notDefined),
     ((s.valve valve).st != .fault, .busy)]
    fun s => (s.clearFault valve).reply 0x26 tag .ok []

/-- CLEAR_FAULT (R12). -/
def execClearFault (tag : Byte) (valve : Nat) (s : State) : Host.Outcome State Fault Refusal :=
  .next (s.request (.clearFault tag valve) (answerClearFault tag valve))

/-! ## ZONE_ENABLE (R103, R112) -/

/-- R103: an OFF zone enters DRY; a failsafe DRIP zone enabled while the chain is BROKEN goes on to WET (R112). -/
def State.enableZone (z : Nat) (s : State) : State :=
  let s1 := (s.putZoneDef z { s.tables.zone z with enabled := true }).setZone z (ZoneRec.fresh .dry)
  let s2 := s1.joinNotice (.zone z)
  (if s2.chain.st = .broken then s2.zoneChainLoss z else s2).finish

/-- R103: a zone enters OFF. -/
def State.disableZone (z : Nat) (s : State) : State :=
  ((s.putZoneDef z { s.tables.zone z with enabled := false }).setZone z (ZoneRec.fresh .off)).joinNotice (.zone z)

/-- R103: what turns a ZONE_ENABLE off away. -/
def State.offBusy (s : State) (z : Nat) : Bool :=
  match (s.zone z).st with
  | .dry | .suspect => s.zoneEngaged z
  | .wet | .acked => true
  | .off | .undefined => false

def State.zoneSetting (tag : Byte) (z : Nat) (on : Bool) (s : State) : State :=
  s.checked 0x27 tag
    [((Config.numZones ≤ z : Bool), .badField), ((s.zone z).st == .undefined, .notDefined), (!on && s.offBusy z, .busy)]
    fun s =>
      (if on then (if (s.zone z).st = .off then s.enableZone z else s)
       else (if (s.zone z).st = .off then s else s.disableZone z)).zoneReply 0x27 tag z

def answerZoneEnable (tag : Byte) (zone setting : Nat) (s : State) : State :=
  match onOff setting with
  | none => s.refuse 0x27 tag .badField
  | some on => s.zoneSetting tag zone on

/-- ZONE_ENABLE (R103). -/
def execZoneEnable (tag : Byte) (zone setting : Nat) (s : State) : Host.Outcome State Fault Refusal :=
  .next (s.request (.zoneEnable tag zone setting) (answerZoneEnable tag zone setting))

/-! ## VALVE_MOVE (R27, R144) -/

/-- R27: the owner and the valve forbid a maintenance move. -/
def State.moveBusy (s : State) (v : Nat) : Bool :=
  (match valveOwner v with
    | .branch b => (s.owner (.branch b)).mode != .inactive
    | _ => true)
  || (s.valve v).st == .unknown || (s.valve v).st == .fault

/-- R27, R144: a valve that stands where the direction commands, or moves there, loses its entry; any other gets one. -/
def State.maintain (v : Nat) (d : Dir) (s : State) : State :=
  let p := d.target (s.tables.valve v).fail
  let st := (s.valve v).st
  (if st = p.idle ∨ st = p.moving then s.withdraw fun e => e.valve == v
   else s.joinMove { valve := v, dir := d, urgent := false, req := .maintenance, time := s.ms }).finish

def answerValveMove (tag : Byte) (valve direction : Nat) (s : State) : State :=
  match dirOfCode direction with
  | none => s.refuse 0x28 tag .badField
  | some d =>
    s.checked 0x28 tag
      [((Config.numValves ≤ valve : Bool), .badField), (!(s.tables.valve valve).present, .notDefined), (s.moveBusy valve, .busy)]
      fun s => (s.maintain valve d).reply 0x28 tag .ok []

/-- VALVE_MOVE (R27). -/
def execValveMove (tag : Byte) (valve direction : Nat) (s : State) : Host.Outcome State Fault Refusal :=
  .next (s.request (.valveMove tag valve direction) (answerValveMove tag valve direction))

/-! ## SCAN_NOW (R75) -/

/-- R75: a SCAN is in flight. One that a card table change overtook (R39) is none of the unit's any more: the change leaves the unit
with no scan in flight: DEDUCED from R86, unsafe (log 43). -/
def State.scanInFlight (s : State) : Bool :=
  match s.chain.inFlight with
  | some f => f.purpose.kind == .scan && !f.unchecked
  | none => false

def answerScanNow (tag : Byte) (s : State) : State :=
  let t := s.trigger
  t.reply 0x30 tag .ok (u8 t.chain.st.code ++ flag t.scanDue ++ flag s.scanInFlight ++ u16 t.age)

/-- SCAN_NOW (R75). -/
def execScanNow (tag : Byte) (s : State) : Host.Outcome State Fault Refusal :=
  .next (s.request (.scanNow tag) (answerScanNow tag))

/-! ## SERVICE (R49) -/

def State.joinService (e : ServiceEntry) (s : State) : State :=
  s.withChain { s.chain with queue := s.chain.queue ++ [e] }

/-- R49 gives no order between its refusals; they are checked as it lists them, so a SERVICE for an undefined card in BROKEN is answered
NOT_DEFINED: DESIGN CHOICE, unsafe (log 57). -/
def answerService (tag : Byte) (card : Nat) (command : Word) (s : State) : State :=
  s.checked 0x31 tag
    [((Config.maxCards ≤ card : Bool), .badField), ((s.tables.cards.length ≤ card : Bool), .notDefined),
     (s.chain.st == .broken, .chainDown), ((Config.serviceQueueMax ≤ s.chain.queue.length : Bool), .full)]
    fun s => s.joinService { card := card, command := command, tag := tag, stage := .command }

/-- SERVICE (R49): its reply is deferred (R179). -/
def execService (tag : Byte) (card : Nat) (command : Word) (s : State) : Host.Outcome State Fault Refusal :=
  .next (s.request (.service tag card command) (answerService tag card command))

/-! ## PROVE (R163) -/

/-- R163: the session of a taken PROVE, in phase WAITING. -/
def State.newSession (s : State) (tag : Byte) (staggered : Bool) (start count : Nat) : Session :=
  { tag := tag, staggered := staggered, start := start, count := clamp 2 8 count, adjusted := clamp 2 8 count != count,
    frames := false, waitHead := !s.chain.queue.isEmpty, next := .test 0, readback := false, sent := 0, tested := 0,
    rejected := 0, abort := false, cards := [] }

def answerProve (tag : Byte) (format start count : Nat) (s : State) : State :=
  match staggeredOfCode format with
  | none => s.refuse 0x32 tag .badField
  | some f =>
    s.checked 0x32 tag
      [((4 ≤ start : Bool), .badField), (s.chain.st != .running, .busy), (s.chain.session.isSome, .busy), (s.runBlocked, .busy)]
      fun s => s.withSession (some (s.newSession tag f start count))

/-- PROVE (R163): its reply is deferred (R179). -/
def execProve (tag : Byte) (format start count : Nat) (s : State) : Host.Outcome State Fault Refusal :=
  .next (s.request (.prove tag format start count) (answerProve tag format start count))

/-! ## WRITE_OUTPUTS (R67) -/

/-- The OUT number a position carries. -/
def TableStore.outNumber (t : TableStore) (p : Nat) : Option Nat :=
  match t.entryAtPos p with
  | some e => match e.fn with | .out n => some n | _ => none
  | none => none

/-- R67: every named value is written into the output image. -/
def writeBits (out : List Bool) (entries : List (Nat × Nat)) : List Bool :=
  entries.foldl (fun l e => l.set e.1 (e.2 == 1)) out

/-- R67, R62: a taken WRITE_OUTPUTS; where a bit changed and the image differs from the copy, an IMAGE trigger follows. -/
def State.writeOutputs (entries : List (Nat × Nat)) (s : State) : State :=
  let out := writeBits s.image.out entries
  if out = s.image.out then s else State.imageTrigger { s with image := { s.image with out := out } }

/-- R67: for each entry the OUT number and the value now in the image. -/
def State.outputsReply (s : State) (entries : List (Nat × Nat)) : List Byte :=
  encList (fun e => u8 ((s.tables.outNumber e.1).getD 0) ++ flag (bitAt s.image.out e.1)) entries

def answerWriteOutputs (tag : Byte) (entries : List (Nat × Nat)) (s : State) : State :=
  s.checked 0x33 tag
    [(entries.isEmpty || decide (32 < entries.length), .badLength),
     (entries.any (fun e => 1 < e.2), .badField),
     (entries.any (fun e => s.tables.length ≤ e.1), .notDefined),
     (!decide (entries.map (·.1)).Nodup, .conflict),
     (entries.any (fun e => (s.tables.outNumber e.1).isNone), .notOutput),
     (!s.chain.adopted || s.chain.st == .proving, .busy)]
    fun s =>
      let t := s.writeOutputs entries
      t.reply 0x33 tag .ok (t.outputsReply entries)

/-- WRITE_OUTPUTS (R67). -/
def execWriteOutputs (tag : Byte) (entries : List (Nat × Nat)) (s : State) : Host.Outcome State Fault Refusal :=
  .next (s.request (.writeOutputs tag entries) (answerWriteOutputs tag entries))

end Sys2Proof.Machine
end

