-- ==== Sys2Proof/Machine/Read.lean ====
section
/-! DEFINITION. The requests that read: IDENTIFY, READ_STATUS, READ_POSITIONS, READ_OBJECT, READ_WINDOW, READ_MOVES, READ_JOBS.
They change nothing but the reply queue. -/

namespace Sys2Proof.Machine

/-! ## IDENTIFY (R181) -/

/-- R181: the capacities, in the order listed. -/
def capacities : List Byte :=
  u8 Config.maxCards ++ u16 Config.maxPositions ++ u8 Config.numValves ++ u8 Config.numBranches ++ u8 Config.numSegments
    ++ u8 Config.numMeters ++ u8 Config.numZones ++ u8 Config.maxTargets ++ u8 Config.jobSlots ++ u8 Config.maxEntries
    ++ u8 Config.waitListMax ++ u8 Config.serviceQueueMax ++ u8 Config.numValves ++ u8 Config.windowMax
    ++ u8 Config.rxQueueMax ++ u8 Config.noticeObjects

def answerIdentify (tag : Byte) (s : State) : State :=
  s.reply 0x01 tag .ok (u8 Config.familyCode ++ u8 Config.revision ++ flag s.rateHigh ++ capacities)

/-- IDENTIFY (R181). -/
def execIdentify (tag : Byte) (s : State) : Host.Outcome State Fault Refusal :=
  .next (s.request (.identify tag) (answerIdentify tag))

/-! ## READ_STATUS (R182) -/

def State.countZones (s : State) (st : ZoneState) : Nat := (s.zones.toList.filter fun z => z.st == st).length
def State.countJobs (s : State) (st : JobState) : Nat :=
  (s.jobs.toList.filter fun j => match j with | some j => j.st == st | none => false).length
def State.countValves (s : State) (st : ValveState) : Nat := (s.valves.toList.filter fun v => v.st == st).length
def State.countOwners (s : State) (m : OwnerMode) : Nat := (s.owners.toList.filter fun o => o.mode == m).length

/-- R182: the deferred requests outstanding: SERVICE transactions, a proving session, a COMMIT (R178). -/
def State.deferred (s : State) : Nat :=
  s.chain.queue.length + (if s.chain.session.isSome then 1 else 0) + (if s.commit.isSome then 1 else 0)

/-- The three lock flags (R189). -/
def Locks.bytes (l : Locks) : List Byte := flag l.tables ++ flag l.plan ++ flag l.limits

/-- R182. -/
def State.statusBytes (s : State) : List Byte :=
  u32 s.ms ++ u8 s.lastStart.code ++ flag (!s.alertAsserted) ++ u8 s.chain.st.code ++ flag s.chain.adopted
    ++ u8 (s.countZones .wet) ++ u8 (s.countZones .acked)
    ++ u8 (s.countJobs .active) ++ u8 (s.countJobs .contained) ++ u8 (s.countJobs .uncontained) ++ u8 s.waitList.length
    ++ u8 (s.countValves .fault) ++ u8 (s.countOwners .failed)
    ++ s.locks.bytes ++ flag s.copyValid ++ flag s.commit.isSome
    ++ s.tables.scan.bytes ++ s.tables.mask.bytes ++ u8 s.link.notices.length ++ u8 s.deferred
    ++ u16 s.link.lengthDiscards.toNat ++ u16 s.link.checkDiscards.toNat ++ u16 s.link.gapDiscards.toNat
    ++ u16 s.link.overflowDiscards.toNat

def answerReadStatus (tag : Byte) (s : State) : State := s.reply 0x02 tag .ok s.statusBytes

/-- READ_STATUS (R182). -/
def execReadStatus (tag : Byte) (s : State) : Host.Outcome State Fault Refusal :=
  .next (s.request (.readStatus tag) (answerReadStatus tag))

/-! ## READ_POSITIONS (R68) -/

/-- R68: one position. -/
def State.positionEntry (s : State) (p : Nat) : List Byte :=
  let code := match s.tables.entryAtPos p with | some e => e.fn.code | none => 0
  if s.tables.isOutputPos p then
    u8 code ++ flag (bitAt s.image.out p) ++ flag (bitAt s.image.out p != bitAt s.image.copy p) ++ flag false
  else u8 code ++ flag (bitAt s.image.ret p) ++ flag false ++ flag (s.staleAt p)

/-- R68: the count taken, from a first position below L. -/
def positionsTaken (length first count : Nat) : Nat := min (clamp 1 58 count) (length - first)

def answerReadPositions (tag : Byte) (first count : Nat) (s : State) : State :=
  s.checked 0x34 tag [((s.tables.length ≤ first : Bool), .notDefined)] fun s =>
    let n := positionsTaken s.tables.length first count
    s.reply 0x34 tag (takenStatus (n != count))
      (u8 s.chain.st.code ++ flag s.chain.adopted ++ u16 s.age
        ++ encList (fun i => s.positionEntry (first + i)) (List.range n))

/-- READ_POSITIONS (R68). -/
def execReadPositions (tag : Byte) (first count : Nat) (s : State) : Host.Outcome State Fault Refusal :=
  .next (s.request (.readPositions tag first count) (answerReadPositions tag first count))

/-! ## READ_OBJECT (R183) -/

def answerReadObject (tag : Byte) (kind number : Nat) (s : State) : State :=
  match s.objectRecord kind number with
  | some r => s.reply 0x40 tag .ok r
  | none => s.refuse 0x40 tag .badField

/-- READ_OBJECT (R183). -/
def execReadObject (tag : Byte) (kind number : Nat) (s : State) : Host.Outcome State Fault Refusal :=
  .next (s.request (.readObject tag kind number) (answerReadObject tag kind number))

/-! ## READ_WINDOW (R159) -/

/-- URGENT 0, ROUTINE 1. -/
def classCode (urgent : Bool) : Nat := if urgent then 0 else 1

/-- R159: a window entry with the time in ms until it ages out. -/
def State.windowEntry (s : State) (w : WindowEntry) : List Byte :=
  u8 w.valve ++ u8 (classCode w.urgent) ++ u8 w.dir.code ++ u32 w.start ++ u16 w.cost
    ++ u16 (w.start + s.tables.limits.window - s.ms)

def answerReadWindow (tag : Byte) (first count : Nat) (s : State) : State :=
  s.checked 0x41 tag [((Config.windowMax ≤ first : Bool), .badField)] fun s =>
    let n := clamp 1 16 count
    s.reply 0x41 tag (takenStatus (n != count))
      (u8 s.sched.window.length ++ u16 s.windowSum ++ s.tables.limits.bytes
        ++ s.sched.lastSeg.toList.flatMap (opt 4 u32) ++ opt 4 u32 s.sched.lastRack ++ flag s.withheld
        ++ encList s.windowEntry ((s.sched.window.drop first).take n))

/-- READ_WINDOW (R159). -/
def execReadWindow (tag : Byte) (first count : Nat) (s : State) : Host.Outcome State Fault Refusal :=
  .next (s.request (.readWindow tag first count) (answerReadWindow tag first count))

/-! ## READ_MOVES (R160) -/

/-- R160: the first standing that applies. -/
inductive Standing where
  | chain | urgentAhead | holdOnWet | count | budget | spacing | ready
  deriving DecidableEq, Repr

def Standing.code : Standing → Nat
  | .chain => 0
  | .urgentAhead => 1
  | .holdOnWet => 2
  | .count => 3
  | .budget => 4
  | .spacing => 5
  | .ready => 6

def State.standing (s : State) (e : MoveEntry) : Standing :=
  if s.noneConsidered then .chain
  else if !e.urgent && s.hasUrgent then .urgentAhead
  else if !e.urgent && s.withheld then .holdOnWet
  else if !s.countTest then .count
  else if !s.budgetTest e then .budget
  else if !s.spacingTest e then .spacing
  else .ready

/-- A requester: an owner's kind, number and step, or MAINTENANCE. -/
def encRequester : Requester → List Byte
  | .step o k => encOwner o ++ u8 k
  | .maintenance => u8 3 ++ u8 0 ++ u8 0

/-- R160: a queue entry with its cost now and its standing. -/
def State.moveEntry (s : State) (e : MoveEntry) : List Byte :=
  u8 e.valve ++ u8 e.dir.code ++ u8 (classCode e.urgent) ++ encRequester e.req ++ u32 e.time
    ++ u16 (s.costOf e.valve e.dir) ++ u8 (s.standing e).code

def answerReadMoves (tag : Byte) (first count : Nat) (s : State) : State :=
  s.checked 0x42 tag [((Config.numValves ≤ first : Bool), .badField)] fun s =>
    let n := clamp 1 16 count
    s.reply 0x42 tag (takenStatus (n != count))
      (u8 s.sched.queue.length ++ u8 (s.sched.queue.filter (·.urgent)).length ++ u8 s.activeJobs
        ++ encList s.moveEntry ((s.sched.queue.drop first).take n))

/-- READ_MOVES (R160). -/
def execReadMoves (tag : Byte) (first count : Nat) (s : State) : Host.Outcome State Fault Refusal :=
  .next (s.request (.readMoves tag first count) (answerReadMoves tag first count))

/-! ## READ_JOBS (R184) -/

def answerReadJobs (tag : Byte) (s : State) : State :=
  s.reply 0x43 tag .ok (u8 s.activeJobs ++ s.jobs.toList.flatMap jobHead ++ encList u8 s.waitList)

/-- READ_JOBS (R184). -/
def execReadJobs (tag : Byte) (s : State) : Host.Outcome State Fault Refusal :=
  .next (s.request (.readJobs tag) (answerReadJobs tag))

end Sys2Proof.Machine
end

