-- ==== Sys2Proof/Machine/Store.lean ====
section
/-! DEFINITION. Locks, the stored copy and RESTART as requests (sections 11.1, 11.2, 11.6): LOCK, COMMIT and the end of its write,
RESTART. -/

namespace Sys2Proof.Machine

/-! ## LOCK (R189) -/

/-- R189: every lock named as set is set; none is cleared. -/
def Locks.set (l : Locks) (tables plan limits : Bool) : Locks :=
  { tables := l.tables || tables, plan := l.plan || plan, limits := l.limits || limits }

def answerLock (tag : Byte) (lockTables lockPlan lockLimits : Nat) (s : State) : State :=
  match setLeave lockTables, setLeave lockPlan, setLeave lockLimits with
  | some a, some b, some c =>
    let t : State := { s with locks := s.locks.set a b c }
    t.reply 0x50 tag .ok t.locks.bytes
  | _, _, _ => s.refuse 0x50 tag .badField

/-- LOCK (R189). -/
def execLock (tag : Byte) (lockTables lockPlan lockLimits : Nat) (s : State) : Host.Outcome State Fault Refusal :=
  .next (s.request (.lock tag lockTables lockPlan lockLimits) (answerLock tag lockTables lockPlan lockLimits))

/-! ## The stored copy's contents, field by field (11.2) -/

def optNat : Option Nat → List Nat
  | none => [0]
  | some n => [1, n]

def boolNat (b : Bool) : Nat := if b then 1 else 0

def ownerFields : Owner → List Nat
  | .branch b => [0, b]
  | .segment g => [1, g]
  | .main => [2, 0]

def MapFn.fields : MapFn → List Nat
  | .drive v => [1, v, 0]
  | .openSw v => [2, v, 0]
  | .closedSw v => [3, v, 0]
  | .drip z l => [4, z, boolNat l]
  | .flow m => [5, m, 0]
  | .cardOk c l => [6, c, boolNat l]
  | .out n => [7, n, 0]
  | .inp n => [8, n, 0]

/-- What the CRC-32 of the stored copy runs over: every table and setting of section 11.2, in the order it lists them. -/
def TableStore.fields (t : TableStore) : List Nat :=
  t.cards.length :: t.cards
    ++ t.map.length :: t.map.flatMap (fun e => [e.card, e.offset] ++ e.fn.fields)
    ++ t.valves.toList.flatMap (fun v => [boolNat v.present, v.stroke, v.fail.code])
    ++ t.meters.toList.flatMap (fun m => [boolNat m.defined, m.kFactor, m.shift])
    ++ t.branches.toList.flatMap (fun b => [boolNat b.defined, b.segment, boolNat b.activated, b.park.code, b.nominal])
    ++ t.zones.toList.flatMap (fun z => [boolNat z.defined, z.kind.code, z.confirm, z.clear, boolNat z.auto,
        boolNat z.failsafe, z.branch, z.threshold, z.minFlow, boolNat z.enabled])
    ++ t.plans.toList.flatMap (fun p => p.length :: p.flatMap ownerFields)
    ++ [t.limits.budget, t.limits.reserve, t.limits.count, t.limits.window, t.limits.sSame, t.limits.sOther,
        t.limits.drain, t.limits.fill]
    ++ [boolNat t.scan.image, boolNat t.scan.attention, t.scan.interval, boolNat t.scan.serviceFirst, t.scan.rate,
        t.scan.gap, boolNat t.scan.holdOnWet]
    ++ t.patterns.bytes.map (·.toNat)
    ++ [boolNat t.mask.zone, boolNat t.mask.branch, boolNat t.mask.segment, boolNat t.mask.main, boolNat t.mask.valve,
        boolNat t.mask.job, boolNat t.mask.chain, boolNat t.mask.inputs]

/-- R190: the CRC-32 of a table store's contents, over the bytes its copy has in storage (log 10). -/
def TableStore.crc (t : TableStore) : BitVec 32 := crc32 (Config.storedCopyBytes t.fields)

/-- R190: the contents of a valid stored copy; absent when the copy is invalid or was never written. -/
def StoredCopy.load : StoredCopy → Option TableStore
  | .whole t crc => if t.crc = crc then some t else none
  | .never | .spoiled _ => none

/-! ## COMMIT (R191) -/

def answerCommit (tag : Byte) (s : State) : State :=
  s.checked 0x51 tag [(s.commit.isSome, .busy)] fun s =>
    { s with commit := some { tag := tag, snapshot := s.tables, since := s.clock }, copyValid := false }

/-- COMMIT (R191): its reply is deferred (R179). -/
def execCommit (tag : Byte) (s : State) : Host.Outcome State Fault Refusal :=
  .next (s.request (.commit tag) (answerCommit tag))

/-- R191: the end of a COMMIT's write: the copy as it then stands, its flag, and the deferred reply with the CRC-32 and the
time taken in ms. R173 has no row for a CRC-32: four bytes, high byte first, DESIGN CHOICE, unsafe (log 56). The time is the
elapsed half microseconds rounded down to a whole ms, not the difference of two ms counts: DESIGN CHOICE, unsafe (log 51). -/
def State.endCommit (r : CommitRun) (copy : StoredCopy) (crc : BitVec 32) (ok : Bool) (s : State) : State :=
  State.reply 0x51 r.tag (if ok then .ok else .aborted) (u32 crc.toNat ++ u16 (msOf (s.clock - r.since)))
    { s with commit := none, stored := copy, copyValid := ok }

/-- COMMIT_WRITE_END (R191). -/
def execCommitWriteEnd (result : WriteEnd) (s : State) : Host.Outcome State Fault Refusal :=
  .next (s.whenRunning fun s =>
    match s.commit with
    | none => s
    | some r =>
      match result with
      | .agrees => s.endCommit r (.whole r.snapshot r.snapshot.crc) r.snapshot.crc true
      | .disagrees crc => s.endCommit r (.spoiled (some crc)) crc false)

/-! ## RESTART (R179, R196) -/

/-- R179: a taken RESTART is answered OK; the link dispatches nothing further. -/
def State.takeRestart (tag : Byte) (scope : Scope) (s : State) : State :=
  State.reply 0x52 tag .ok [] { s with link := { s.link with restart := .answered scope } }

/-- R196: scope TABLES. -/
def answerRestartTables (tag : Byte) (s : State) : State :=
  s.checked 0x52 tag
    [(s.commit.isSome, .busy), (s.anyJob || s.tables.anyActivated, .busy), (!s.copyValid, .notDefined)]
    fun s => s.takeRestart tag .tables

/-- RESTART_TABLES (R196). -/
def execRestartTables (tag : Byte) (s : State) : Host.Outcome State Fault Refusal :=
  .next (s.request (.restartTables tag) (answerRestartTables tag))

/-- R196: the scope of a RESTART decides its course. -/
def answerRestartRuntime (tag : Byte) (scope : Nat) (s : State) : State :=
  match scopeOfCode scope with
  | none => s.refuse 0x52 tag .badField
  | some .runtime => s.takeRestart tag .runtime
  | some .tables => answerRestartTables tag s

/-- RESTART_RUNTIME (R196). -/
def execRestartRuntime (tag : Byte) (scope : Nat) (s : State) : Host.Outcome State Fault Refusal :=
  .next (s.request (.restartRuntime tag scope) (answerRestartRuntime tag scope))

end Sys2Proof.Machine
end

