-- ==== Sys2Proof/Machine/Starts.lean ====
section
/-! DEFINITION. Starts and supplies (chapter 11): the pins, the values every start gives, COLD_START, WARM_START, SOFT_START. -/

namespace Sys2Proof.Machine

/-! ## The pins (R115, R192) -/

/-- RESET_N_FALL (R115, R195): the part is held. -/
def execResetNFall (s : State) : Host.Outcome State Fault Refusal :=
  .next { s with power := { s.power with resetLow := true } }

/-- VMAIN_LOSS (R115, R192). -/
def execVmainLoss (s : State) : Host.Outcome State Fault Refusal :=
  .next { s with power := { s.power with vmainLost := true } }

/-- VHOLD_LOSS (R192): retained memory is lost; the next start is a cold start (log 12). -/
def execVholdLoss (s : State) : Host.Outcome State Fault Refusal :=
  .next { s with power := { s.power with retainedLost := true } }

/-! ## The values every start gives (R13, R28, R54, R70, R86, R100, R161, R188) -/

/-- The owner of a place among the 53. -/
def ownerAt (i : Nat) : Owner := if i < 48 then .branch i else if i < 52 then .segment (i - 48) else .main

/-- Every block takes its start values from the table store as it stands; the chain alone is in the notice set (R188, R195). -/
def State.startBlocks (s : State) : State :=
  { s with
    link := Link.start (if s.tables.mask.chain then [.chain] else [])
    chain := Chain.start (if s.tables.cards.isEmpty then .unconfigured else .adopting)
    image := Image.start s.tables.length s.tables.cards.length
    scanDue := false
    periodicFrom := none
    flow := Flow.start
    valves := s.valves.mapIdx fun v _ => s.tables.startValve v
    owners := s.owners.mapIdx fun i r => s.tables.startOwner (ownerAt i) r
    sched := Sched.start }

/-- R191: a start ends a running COMMIT with no reply and leaves the copy invalid (log 11). -/
def State.cutCommit (s : State) : State :=
  match s.commit with
  | some _ => { s with commit := none, stored := .spoiled none, copyValid := false }
  | none => s

/-- A valve's record is the same in two states, its table fields and position fields included (R1, R3). -/
def State.sameValve (a b : State) (v : Nat) : Bool :=
  (a.valve v).shown == (b.valve v).shown && a.tables.valve v == b.tables.valve v
    && a.tables.posFields v == b.tables.posFields v

/-- An owner's record is the same in two states, the table fields of a branch included (section 1.4). -/
def State.sameOwner (a b : State) (o : Owner) : Bool :=
  (a.owner o).shown == (b.owner o).shown
    && (match o with
      | .branch b' => a.tables.branch b' == b.tables.branch b'
      | _ => true)

/-- What a warm or soft start changed joins: INPUTS, valves, owners, zones, and every job (log 21). -/
def State.joinStartNotices (s before : State) : State :=
  let s1 := s.joinInputsIfStale before
  let s2 := valveNumbers.foldl (fun t v => if before.sameValve s v then t else t.joinNotice (.valve v)) s1
  let s3 := allOwners.foldl (fun t o => if before.sameOwner s o then t else t.joinNotice o.obj) s2
  let s4 := zoneNumbers.foldl
    (fun t z => if (before.zone z).st = (s.zone z).st then t else t.joinNotice (.zone z)) s3
  jobSlotNumbers.foldl (fun t k => if (s.job k).isSome then t.joinNotice (.job k) else t) s4

/-! ## Zones at starts (R116, R117, R118) -/

/-- R116: the start value of a zone. -/
def ZoneDef.startRec (d : ZoneDef) : ZoneRec :=
  ZoneRec.fresh (if !d.defined then .undefined else if d.enabled then .dry else .off)

/-- R117: a zone at a warm start and at RESTART with scope RUNTIME. -/
def ZoneRec.warm (r : ZoneRec) : ZoneRec :=
  match r.st with
  | .wet | .acked => { r with wet := 0, dry := 0 }
  | .suspect => ZoneRec.fresh .dry
  | st => ZoneRec.fresh st

/-- R118: a zone at RESTART with scope TABLES, from its record and its definition before and after. -/
def ZoneRec.reloaded (before after : ZoneDef) (r : ZoneRec) : ZoneRec :=
  if (r.st = .wet ∨ r.st = .acked) ∧ after.defined ∧ after.enabled ∧ after.kind = before.kind then
    { r with wet := 0, dry := 0 }
  else after.startRec

/-! ## COLD_START (R193) -/

/-- R193, steps 1 and 2: the strap, the ms count, locks, jobs, holds. A cold start that begins while RESET_N is still low ends the
hold of the pins as well: DESIGN CHOICE, unsafe (log 45). -/
def State.coldClear (rateHigh : Bool) (s : State) : State :=
  { s with
    clock := 0, lastStart := .cold, power := { resetLow := false, vmainLost := false, retainedLost := false },
    rateHigh := rateHigh, locks := { tables := false, plan := false, limits := false },
    owners := Table.fill 53 (OwnerRec.start .undefined true), jobs := Table.fill 16 none, waitList := [], activeJobs := 0 }

/-- R193, step 3: the table store from the stored copy, or emptied. -/
def State.coldLoad (s : State) : State :=
  { s with tables := s.stored.load.getD TableStore.empty, copyValid := s.stored.load.isSome }

/-- R193. Nothing is known of the time before it, so INPUTS joins where the loaded map maps any IN function (R69; log 21). -/
def State.coldStart (rateHigh : Bool) (s : State) : State :=
  let t := ((s.cutFrame.cutCommit.coldClear rateHigh).coldLoad).startBlocks
  (State.fitRing { t with zones := t.zones.mapIdx fun z _ => (t.tables.zone z).startRec }).joinInputsIfStale State.reset

/-- COLD_START (R193). -/
def execColdStart (rateHigh : Bool) (s : State) : Host.Outcome State Fault Refusal := .next (s.coldStart rateHigh)

/-! ## WARM_START (R195) -/

/-- R195 and R196, scope RUNTIME: a start with retained memory kept whole. -/
def State.warmStart (kind : StartKind) (rateHigh : Bool) (s : State) : State :=
  let t := State.startBlocks { s.cutFrame.cutCommit with lastStart := kind, rateHigh := rateHigh }
  let u := State.fitRing { t with zones := t.zones.mapIdx fun _ r => r.warm }
  (u.joinStartNotices s).finish

/-- The pins after a warm cause ends. -/
def Power.after (p : Power) : WarmCause → Power
  | .resetRise => { p with resetLow := false }
  | .vmainReturn => { p with vmainLost := false }

/-- The part is halted by this cause, with retained memory kept. -/
def Power.haltedBy (p : Power) (c : WarmCause) : Bool :=
  !p.retainedLost && (match c with | .resetRise => p.resetLow | .vmainReturn => p.vmainLost)

/-- WARM_START (R195): the start begins once neither cause holds the part (log 26). -/
def execWarmStart (cause : WarmCause) (rateHigh : Bool) (s : State) : Host.Outcome State Fault Refusal :=
  .next (if s.power.haltedBy cause then
      let t : State := { s with power := s.power.after cause }
      if t.power.running then t.warmStart .warm rateHigh else t
    else s)

/-! ## SOFT_START (R179, R196) -/

/-- R196, scope TABLES: the table store from the stored copy where it is valid, else as retained. -/
def State.reloadTables (s : State) : State :=
  { s with tables := s.stored.load.getD s.tables, copyValid := s.stored.load.isSome }

/-- R196: a branch the reload leaves UNDEFINED loses its host-hold flag and its hold count. -/
def TableStore.keptHolds (t : TableStore) (o : Owner) (r : OwnerRec) : OwnerRec :=
  match o with
  | .branch b => if (t.branch b).defined then r else { r with hostHold := false, holds := 0 }
  | _ => r

/-- R118: a zone kept WET is handed over where it now has auto-isolate set and a plan. -/
def State.handKept (z : Nat) (before s : State) : State :=
  if (before.zone z).st = .wet ∧ (s.zone z).st = .wet ∧ (s.tables.zone z).auto ∧ s.tables.plan z ≠ [] then s.handOff z
  else s

/-- R196, scope TABLES. A job created between the request and this start is kept, with its holds: DESIGN CHOICE, unsafe (log 46).
The zones kept WET are handed over in ascending order: DESIGN CHOICE, unsafe (log 47). -/
def State.tablesStart (rateHigh : Bool) (s : State) : State :=
  let t0 := State.reloadTables { s.cutFrame.cutCommit with lastStart := .restartTables, rateHigh := rateHigh }
  let t1 : State := { t0 with owners := t0.owners.mapIdx fun i r => t0.tables.keptHolds (ownerAt i) r }
  let t2 := t1.startBlocks
  let t3 := State.fitRing { t2 with
    zones := t2.zones.mapIdx fun z r => r.reloaded (s.tables.zone z) (t2.tables.zone z) }
  (zoneNumbers.foldl (fun t z => State.handKept z s t) (t3.joinStartNotices s)).finish

/-- Clock ticks a frame of `bytes` bytes takes on the link: 10 bit times a byte, rounded up (R173; log 35). -/
def linkTicks (rateHigh : Bool) (bytes : Nat) : Nat :=
  let baud := if rateHigh then Config.baudHigh else Config.baudLow
  (bytes * 10 * Config.ticksPerSecond + (baud - 1)) / baud

/-- When the frame last begun on LTX has been sent to its last byte. -/
def State.txEnd (s : State) : Nat :=
  match s.link.tx with
  | some f => f.start + linkTicks s.rateHigh f.bytes.length
  | none => 0

/-- SOFT_START (R179, R196): it begins when the RESTART reply has been sent to its last byte. -/
def execSoftStart (rateHigh : Bool) (s : State) : Host.Outcome State Fault Refusal :=
  .next (s.whenRunning fun s =>
    match s.link.restart with
    | .sending .runtime => (s.advanceTo s.txEnd).warmStart .restartRuntime rateHigh
    | .sending .tables => (s.advanceTo s.txEnd).tablesStart rateHigh
    | _ => s)

end Sys2Proof.Machine
end

