-- ==== Sys2Proof/Machine/Link.lean ====
section
/-! DEFINITION. The rack link (chapter 10): reception byte by byte, the requests frames spell, dispatch, replies and notices. -/

namespace Sys2Proof.Machine

/-! ## Requests from frames (R173, R177) -/

/-- A list of pairs of bytes. -/
def pairsOf : List Byte → Option (List (Nat × Nat))
  | [] => some []
  | [_] => none
  | a :: b :: rest => (pairsOf rest).map fun l => (a.toNat, b.toNat) :: l

/-- A list field: a count, then that many pairs (R173; log 34). -/
def listOf : List Byte → Option (List (Nat × Nat))
  | [] => none
  | n :: rest =>
    match pairsOf rest with
    | some l => if l.length = n.toNat then some l else none
    | none => none

/-- The request a KIND of section 10.4 and a BODY spell; absent when the BODY's length does not fit the kind. -/
def requestOf (kind : Nat) (tag : Byte) (body : List Byte) : Option Instr :=
  match kind, body with
  | 0x01, [] => some (.identify tag)
  | 0x02, [] => some (.readStatus tag)
  | 0x10, [a, b, c] => some (.defineCard tag a.toNat b.toNat c.toNat)
  | 0x11, [a, b, c, d, e] => some (.mapPosition tag a.toNat b.toNat c.toNat d.toNat e.toNat)
  | 0x12, [a, b, c, d, e] => some (.defineValve tag a.toNat b.toNat (pair16 c d) e.toNat)
  | 0x13, [a, b, c, d, e] => some (.defineMeter tag a.toNat b.toNat (pair16 c d) e.toNat)
  | 0x14, [a, b, c, d, e, f] => some (.defineBranch tag a.toNat b.toNat c.toNat d.toNat (pair16 e f))
  | 0x15, [a, b, c, d, e, f, g, h, i, j, k, l] =>
    some (.defineZone tag a.toNat b.toNat c.toNat d.toNat e.toNat f.toNat g.toNat h.toNat (pair16 i j) (pair16 k l))
  | 0x16, z :: rest => (listOf rest).map fun l => .setPlan tag z.toNat l
  | 0x17, [a, b, c, d, e, f, g, h, i, j, k, l, m, n, o] =>
    some (.setLimits tag (pair16 a b) (pair16 c d) e.toNat (pair16 f g) (pair16 h i) (pair16 j k) (pair16 l m) (pair16 n o))
  | 0x18, [a, b, c, d] => some (.setPatterns tag a b c d)
  | 0x19, [a, b, c, d, e, f, g, h, i] =>
    some (.setScan tag a.toNat b.toNat (pair16 c d) e.toNat f.toNat (pair16 g h) i.toNat)
  | 0x1A, [a, b, c, d, e, f, g, h] =>
    some (.setNotices tag a.toNat b.toNat c.toNat d.toNat e.toNat f.toNat g.toNat h.toNat)
  | 0x20, [a] => some (.activate tag a.toNat)
  | 0x21, [a] => some (.deactivate tag a.toNat)
  | 0x22, [a, b] => some (.hold tag a.toNat b.toNat)
  | 0x23, [a, b] => some (.unhold tag a.toNat b.toNat)
  | 0x24, [a, b] => some (.ackZone tag a.toNat b.toNat)
  | 0x25, [a] => some (.releaseJob tag a.toNat)
  | 0x26, [a] => some (.clearFault tag a.toNat)
  | 0x27, [a, b] => some (.zoneEnable tag a.toNat b.toNat)
  | 0x28, [a, b] => some (.valveMove tag a.toNat b.toNat)
  | 0x30, [] => some (.scanNow tag)
  | 0x31, [a, b, c] => some (.service tag a.toNat (b ++ c))
  | 0x32, [a, b, c] => some (.prove tag a.toNat b.toNat c.toNat)
  | 0x33, body => (listOf body).map fun l => .writeOutputs tag l
  | 0x34, [a, b] => some (.readPositions tag a.toNat b.toNat)
  | 0x40, [a, b] => some (.readObject tag a.toNat b.toNat)
  | 0x41, [a, b] => some (.readWindow tag a.toNat b.toNat)
  | 0x42, [a, b] => some (.readMoves tag a.toNat b.toNat)
  | 0x43, [] => some (.readJobs tag)
  | 0x50, [a, b, c] => some (.lock tag a.toNat b.toNat c.toNat)
  | 0x51, [] => some (.commit tag)
  | 0x52, [a] => some (.restartRuntime tag a.toNat)
  | _, _ => none

/-- R177: the link's own checks of a complete frame. -/
def receivedOf (kind : Nat) (tag : Byte) (body : List Byte) : Received :=
  if requestKinds.contains kind then
    match requestOf kind tag body with
    | some c => .request c
    | none => .badLength tag kind
  else .unknown tag kind

/-! ## Dispatch (R177) -/

/-- What the owner of a request does with it; a command that is no request has no owner. -/
def answerOf (c : Instr) : State → State :=
  match c with
  | .identify tag => answerIdentify tag
  | .readStatus tag => answerReadStatus tag
  | .defineCard tag a b c => answerDefineCard tag a b c
  | .mapPosition tag a b c d e => answerMapPosition tag a b c d e
  | .defineValve tag a b c d => answerDefineValve tag a b c d
  | .defineMeter tag a b c d => answerDefineMeter tag a b c d
  | .defineBranch tag a b c d e => answerDefineBranch tag a b c d e
  | .defineZone tag a b c d e f g h i j => answerDefineZone tag a b c d e f g h i j
  | .setPlan tag z l => answerSetPlan tag z l
  | .setLimits tag a b c d e f g h => answerSetLimits tag a b c d e f g h
  | .setPatterns tag a b c d => answerSetPatterns tag a b c d
  | .setScan tag a b c d e f g => answerSetScan tag a b c d e f g
  | .setNotices tag a b c d e f g h => answerSetNotices tag a b c d e f g h
  | .activate tag b => answerActivate tag b
  | .deactivate tag b => answerDeactivate tag b
  | .hold tag k n => answerHold tag k n
  | .unhold tag k n => answerUnhold tag k n
  | .ackZone tag z d => answerAckZone tag z d
  | .ackZoneDeclareDry tag z => answerAckZoneDeclareDry tag z
  | .releaseJob tag z => answerReleaseJob tag z
  | .clearFault tag v => answerClearFault tag v
  | .zoneEnable tag z x => answerZoneEnable tag z x
  | .valveMove tag v d => answerValveMove tag v d
  | .scanNow tag => answerScanNow tag
  | .service tag c w => answerService tag c w
  | .prove tag a b c => answerProve tag a b c
  | .writeOutputs tag l => answerWriteOutputs tag l
  | .readPositions tag a b => answerReadPositions tag a b
  | .readObject tag a b => answerReadObject tag a b
  | .readWindow tag a b => answerReadWindow tag a b
  | .readMoves tag a b => answerReadMoves tag a b
  | .readJobs tag => answerReadJobs tag
  | .lock tag a b c => answerLock tag a b c
  | .commit tag => answerCommit tag
  | .restartRuntime tag x => answerRestartRuntime tag x
  | .restartTables tag => answerRestartTables tag
  | _ => id

/-- R177: a frame at the head of the receive queue is dispatched. -/
def State.dispatch (r : Received) (s : State) : State :=
  match r with
  | .request c => answerOf c s
  | .badLength tag kind => s.refuse kind tag .badLength
  | .unknown tag kind => s.refuse kind tag .unknownKind

/-- R177: requests are dispatched while the queue holds one, fewer than 2 replies wait and no RESTART is under way. -/
def dispatchLoop : Nat → State → State
  | 0, s => s
  | n + 1, s =>
    match s.link.rxQueue with
    | [] => s
    | r :: rest =>
      if s.link.replies.length < Config.dispatchLimit ∧ s.link.restart = .none then
        dispatchLoop n (State.dispatch r { s with link := { s.link with rxQueue := rest } })
      else s

/-- Every dispatch leaves a shorter receive queue, so its length is fuel enough. -/
def State.dispatchAll (s : State) : State := dispatchLoop s.link.rxQueue.length s

/-- UNKNOWN_KIND (R177): a complete frame whose KIND is no request kind. -/
def execUnknownKind (tag : Byte) (kind : Nat) (s : State) : Host.Outcome State Fault Refusal :=
  .next (s.whenRunning fun s =>
    if requestKinds.contains kind then s
    else if s.canDispatch then s.refuse kind tag .unknownKind
    else s.enqueue (.unknown tag kind))

/-! ## Reception (R175, R176) -/

/-- What the bytes after SYNC make of a frame. -/
inductive RxVerdict where
  | more
  | badLen
  | badCheck
  | complete (r : Received)
  deriving DecidableEq, Repr

/-- R175: the bytes collected after SYNC: LEN, then LEN + 2 further bytes. -/
def rxVerdict (buf : List Byte) : RxVerdict :=
  match buf with
  | [] => .more
  | len :: _ =>
    let n := len.toNat
    if n < 2 ∨ 242 < n then .badLen
    else if buf.length < n + 3 then .more
    else
      match buf.drop 1, buf.drop (n + 1) with
      | kind :: tag :: rest, [hi, lo] =>
        if crc16 (buf.take (n + 1)) = hi ++ lo then .complete (receivedOf kind.toNat tag (rest.take (n - 2))) else .badCheck
      | _, _ => .badCheck

def State.withRx (buf : Option (List Byte)) (s : State) : State := { s with link := { s.link with rxBuf := buf } }

/-- One byte at the receiver: the bytes to search again, and the state (R175). -/
def State.takeByte (b : Byte) (s : State) : List Byte × State :=
  match s.link.rxBuf with
  | none => ([], if b = Config.sync then s.withRx (some []) else s)
  | some buf =>
    match rxVerdict (buf ++ [b]) with
    | .more => ([], s.withRx (some (buf ++ [b])))
    | .badLen =>
      (buf ++ [b], { s with link := { s.link with rxBuf := none, lengthDiscards := s.link.lengthDiscards + 1 } })
    | .badCheck =>
      (buf ++ [b], { s with link := { s.link with rxBuf := none, checkDiscards := s.link.checkDiscards + 1 } })
    | .complete r => ([], ((s.withRx none).enqueue r).dispatchAll)

/-- R175: bytes at the receiver in order; the bytes of a discarded frame are searched again before any new byte. Each discard
drops a SYNC, and a byte is searched again at most once for every byte of a frame's length before it. -/
def rxLoop : Nat → List Byte → State → State
  | 0, _, s => s
  | _, [], s => s
  | n + 1, b :: rest, s =>
    let r := s.takeByte b
    rxLoop n (r.1 ++ rest) r.2

/-- Fuel for `n` bytes behind at most 246 collected ones. -/
def rxFuel (n : Nat) : Nat := 247 * (n + 247)

/-- R175: more than 5 ms have passed since the last byte of a frame being collected. -/
def State.gapPassed (s : State) : Bool :=
  s.link.rxBuf.isSome && s.link.lastByteAt + Config.rxGapMs * Config.ticksPerMs < s.clock

/-- R175: a gap abandons the frame; its bytes are not searched again. -/
def State.abandonFrame (s : State) : State :=
  { s with link := { s.link with rxBuf := none, gapDiscards := s.link.gapDiscards + 1 } }

/-- FRAME_RECEIVED (R175): these bytes arrive on LRX, after a gap where more than 5 ms have passed (log 18). No byte, no change. -/
def execFrameReceived (bytes : List Byte) (s : State) : Host.Outcome State Fault Refusal :=
  .next (s.whenRunning fun s =>
    if bytes.isEmpty then s
    else
      let t := if s.gapPassed then s.abandonFrame else s
      rxLoop (rxFuel bytes.length) bytes { t with link := { t.link with lastByteAt := t.clock } })

/-- GAP_DISCARD (R175): more than 5 ms pass within a frame. -/
def execGapDiscard (s : State) : Host.Outcome State Fault Refusal :=
  .next (s.whenRunning fun s =>
    if s.link.rxBuf.isSome then
      (s.advanceTo (s.link.lastByteAt + Config.rxGapMs * Config.ticksPerMs + 1)).abandonFrame
    else s)

/-- FRAMING_ERROR (R173): within a frame it abandons the frame as at a gap (log 17); outside one the byte is dropped. -/
def execFramingError (s : State) : Host.Outcome State Fault Refusal :=
  .next (s.whenRunning fun s => if s.link.rxBuf.isSome then s.abandonFrame else s)

/-! ## Transmission (R173, R174, R178, R186) -/

/-- R173, R174: a frame from its KIND, TAG and BODY. -/
def frameBytes (kind : Nat) (tag : Byte) (body : List Byte) : List Byte :=
  let covered := u8 (body.length + 2) ++ u8 kind ++ [tag] ++ body
  [Config.sync] ++ covered ++ u16 (crc16 covered).toNat

/-- R178: the KIND of a reply frame: the request's plus 0x80, or 0xFF for UNKNOWN_KIND. -/
def Reply.frameKind (r : Reply) : Nat := if r.status = .unknownKind then 0xFF else r.kind + 0x80

def Reply.frame (r : Reply) : List Byte := frameBytes r.frameKind r.tag (u8 r.status.code ++ r.fields)

/-- The RESTART reply has begun (R179). -/
def RestartPhase.afterReply (p : RestartPhase) (r : Reply) : RestartPhase :=
  match p with
  | .answered scope => if r.kind = 0x52 ∧ r.status = .ok then .sending scope else p
  | p => p

/-- The transmitter may begin a frame: the RESTART reply is not the one being sent (R179). -/
def State.mayTransmit (s : State) : Bool :=
  match s.link.restart with
  | .sending _ => false
  | _ => true

/-- R178: the transmitter, idle, begins the reply at the head. -/
def State.sendReply (r : Reply) (rest : List Reply) (s : State) : State :=
  let t := s.advanceTo s.txEnd
  { t with link := { t.link with
      replies := rest
      tx := some { bytes := r.frame, start := t.clock }
      restart := t.link.restart.afterReply r } }

/-- REPLY_TRANSMIT (R178): a reply leaves the reply queue, and the link may dispatch again (R177). -/
def execReplyTransmit (s : State) : Host.Outcome State Fault Refusal :=
  .next (s.whenRunning fun s =>
    match s.link.replies with
    | r :: rest => if s.mayTransmit then (s.sendReply r rest).dispatchAll else s
    | [] => s)

/-- R186: a notice's frame: KIND 0xE0, TAG 0. -/
def State.noticeFrame (s : State) (o : Obj) : List Byte := frameBytes 0xE0 0 (s.noticeBody o)

/-- R186: the transmitter, idle with no reply waiting, begins the notice of the object at the head of the set. -/
def State.sendNotice (o : Obj) (rest : List Obj) (s : State) : State :=
  let t := s.advanceTo s.txEnd
  { t with link := { t.link with notices := rest, tx := some { bytes := t.noticeFrame o, start := t.clock } } }

/-- NOTICE (R186). -/
def execNotice (s : State) : Host.Outcome State Fault Refusal :=
  .next (s.whenRunning fun s =>
    match s.link.notices with
    | o :: rest => if s.link.replies.isEmpty && s.mayTransmit then s.sendNotice o rest else s
    | [] => s)

end Sys2Proof.Machine
end

