-- ==== Sys2Proof/Machine/Dispatch.lean ====
section
/-! DEFINITION. One arm per command: a direct call of its meaning. -/

namespace Sys2Proof.Machine

def exec (i : Instr) (s : State) : Host.Outcome State Fault Refusal :=
  match i with
  | .coldStart rateHigh => Sys2Proof.Machine.execColdStart rateHigh s
  | .warmStart cause rateHigh => Sys2Proof.Machine.execWarmStart cause rateHigh s
  | .resetNFall => Sys2Proof.Machine.execResetNFall s
  | .vmainLoss => Sys2Proof.Machine.execVmainLoss s
  | .softStart rateHigh => Sys2Proof.Machine.execSoftStart rateHigh s
  | .frameReceived bytes => Sys2Proof.Machine.execFrameReceived bytes s
  | .gapDiscard => Sys2Proof.Machine.execGapDiscard s
  | .unknownKind tag kind => Sys2Proof.Machine.execUnknownKind tag kind s
  | .replyTransmit => Sys2Proof.Machine.execReplyTransmit s
  | .notice => Sys2Proof.Machine.execNotice s
  | .identify tag => Sys2Proof.Machine.execIdentify tag s
  | .readStatus tag => Sys2Proof.Machine.execReadStatus tag s
  | .defineCard tag card defined width => Sys2Proof.Machine.execDefineCard tag card defined width s
  | .mapPosition tag card offset function number level => Sys2Proof.Machine.execMapPosition tag card offset function number level s
  | .defineValve tag valve present stroke fail => Sys2Proof.Machine.execDefineValve tag valve present stroke fail s
  | .defineMeter tag meter defined kFactor shift => Sys2Proof.Machine.execDefineMeter tag meter defined kFactor shift s
  | .defineBranch tag branch defined segment park nominal => Sys2Proof.Machine.execDefineBranch tag branch defined segment park nominal s
  | .defineZone tag zone defined kind confirm clear auto failsafe branch threshold minFlow => Sys2Proof.Machine.execDefineZone tag zone defined kind confirm clear auto failsafe branch threshold minFlow s
  | .setPlan tag zone targets => Sys2Proof.Machine.execSetPlan tag zone targets s
  | .setLimits tag budget reserve count window sSame sOther drain fill => Sys2Proof.Machine.execSetLimits tag budget reserve count window sSame sOther drain fill s
  | .setPatterns tag p0 p1 p2 p3 => Sys2Proof.Machine.execSetPatterns tag p0 p1 p2 p3 s
  | .setScan tag image attention interval priority rate gap holdOnWet => Sys2Proof.Machine.execSetScan tag image attention interval priority rate gap holdOnWet s
  | .setNotices tag zone branch segment main valve job chain inputs => Sys2Proof.Machine.execSetNotices tag zone branch segment main valve job chain inputs s
  | .activate tag branch => Sys2Proof.Machine.execActivate tag branch s
  | .deactivate tag branch => Sys2Proof.Machine.execDeactivate tag branch s
  | .hold tag kind number => Sys2Proof.Machine.execHold tag kind number s
  | .unhold tag kind number => Sys2Proof.Machine.execUnhold tag kind number s
  | .ackZone tag zone declareDry => Sys2Proof.Machine.execAckZone tag zone declareDry s
  | .ackZoneDeclareDry tag zone => Sys2Proof.Machine.execAckZoneDeclareDry tag zone s
  | .releaseJob tag zone => Sys2Proof.Machine.execReleaseJob tag zone s
  | .clearFault tag valve => Sys2Proof.Machine.execClearFault tag valve s
  | .zoneEnable tag zone setting => Sys2Proof.Machine.execZoneEnable tag zone setting s
  | .valveMove tag valve direction => Sys2Proof.Machine.execValveMove tag valve direction s
  | .scanNow tag => Sys2Proof.Machine.execScanNow tag s
  | .service tag card command => Sys2Proof.Machine.execService tag card command s
  | .prove tag format start count => Sys2Proof.Machine.execProve tag format start count s
  | .writeOutputs tag entries => Sys2Proof.Machine.execWriteOutputs tag entries s
  | .readPositions tag first count => Sys2Proof.Machine.execReadPositions tag first count s
  | .readObject tag kind number => Sys2Proof.Machine.execReadObject tag kind number s
  | .readWindow tag first count => Sys2Proof.Machine.execReadWindow tag first count s
  | .readMoves tag first count => Sys2Proof.Machine.execReadMoves tag first count s
  | .readJobs tag => Sys2Proof.Machine.execReadJobs tag s
  | .lock tag lockTables lockPlan lockLimits => Sys2Proof.Machine.execLock tag lockTables lockPlan lockLimits s
  | .commit tag => Sys2Proof.Machine.execCommit tag s
  | .commitWriteEnd result => Sys2Proof.Machine.execCommitWriteEnd result s
  | .restartRuntime tag scope => Sys2Proof.Machine.execRestartRuntime tag scope s
  | .restartTables tag => Sys2Proof.Machine.execRestartTables tag s
  | .arbiterChoice => Sys2Proof.Machine.execArbiterChoice s
  | .probe => Sys2Proof.Machine.execProbe s
  | .scanAccepted cdi order => Sys2Proof.Machine.execScanAccepted cdi order s
  | .scanRejected cdi => Sys2Proof.Machine.execScanRejected cdi s
  | .serviceCommandAccepted cdi => Sys2Proof.Machine.execServiceCommandAccepted cdi s
  | .serviceFetchAccepted cdi => Sys2Proof.Machine.execServiceFetchAccepted cdi s
  | .serviceFrameRejected cdi => Sys2Proof.Machine.execServiceFrameRejected cdi s
  | .adoptionServiceAccepted cdi => Sys2Proof.Machine.execAdoptionServiceAccepted cdi s
  | .adoptionEchoAccepted cdi => Sys2Proof.Machine.execAdoptionEchoAccepted cdi s
  | .adoptionFrameRejected cdi => Sys2Proof.Machine.execAdoptionFrameRejected cdi s
  | .probeAccepted cdi order => Sys2Proof.Machine.execProbeAccepted cdi order s
  | .probeRejected cdi => Sys2Proof.Machine.execProbeRejected cdi s
  | .testFrameAccepted cdi => Sys2Proof.Machine.execTestFrameAccepted cdi s
  | .reloadFrameAccepted cdi => Sys2Proof.Machine.execReloadFrameAccepted cdi s
  | .provingFrameRejected cdi => Sys2Proof.Machine.execProvingFrameRejected cdi s
  | .frameEndUnchecked => Sys2Proof.Machine.execFrameEndUnchecked s
  | .attention => Sys2Proof.Machine.execAttention s
  | .periodic => Sys2Proof.Machine.execPeriodic s
  | .strokeTimeArrival valve => Sys2Proof.Machine.execStrokeTimeArrival valve s
  | .strokeTimeout valve => Sys2Proof.Machine.execStrokeTimeout valve s
  | .drainTimerEnd owner => Sys2Proof.Machine.execDrainTimerEnd owner s
  | .fillTimerEnd owner => Sys2Proof.Machine.execFillTimerEnd owner s
  | .windowAging => Sys2Proof.Machine.execWindowAging s
  | .spacingEnd which => Sys2Proof.Machine.execSpacingEnd which s
  | .framingError => Sys2Proof.Machine.execFramingError s
  | .vholdLoss => Sys2Proof.Machine.execVholdLoss s

end Sys2Proof.Machine
end

