-- ==== Sys2Proof/Machine/Step.lean ====
section
/-! DEFINITION. A step: the command at the front of the queue; on an empty queue one tick of the clock (log 1). -/

namespace Sys2Proof.Machine

/-- One tick of the clock, half a microsecond (log 1). The ms count runs on VHOLD, through VMAIN loss and RESET_N low, and
stops when VHOLD is lost (R192). -/
def State.tick (s : State) : State := if s.power.retainedLost then s else { s with clock := s.clock + 1 }

/-- The state with a queue of waiting commands. -/
def State.withPending (q : List Instr) (s : State) : State := { s with pending := q }

/-- The command at the front of the queue runs on the state with the queue's rest. -/
def step (s : State) : Host.Outcome State Fault Refusal :=
  match s.pending with
  | c :: rest => exec c (s.withPending rest)
  | [] => .next s.tick

/-- The state with the command a word spells at the front of its queue; unchanged where the word spells none. -/
def State.withFetchWord (s : State) (nbits w : Nat) : State :=
  match decodeTableWord nbits w with
  | some c => s.withPending (c :: s.pending)
  | none => s

end Sys2Proof.Machine
end

