-- ==== Sys2Proof/WellFormed.lean ====
section
/-! DEFINITION. Which command terms stand for a command that can occur: every number fits its field on the link (R173),
a list fits one BODY, an event names something that exists. -/

namespace Sys2Proof

namespace WellFormed

/-- A field of one byte, and of two (R173). -/
def byte (n : Nat) : Bool := n < 256
def half (n : Nat) : Bool := n < 65536

/-- A list of pairs of bytes that fits a BODY of 240 bytes behind `used` other bytes and its count (R173). -/
def pairs (used : Nat) (l : List (Nat × Nat)) : Bool :=
  used + 1 + 2 * l.length ≤ 240 && l.all fun p => byte p.1 && byte p.2

/-- An owner of section 1.4. -/
def owner : Owner → Bool
  | .branch b => b < Config.numBranches
  | .segment s => s < Config.numSegments
  | .main => true

/-- The bits a frame returns: the 8 marker bits and a payload of at most 256 (R34). -/
def cdi (l : List Bool) : Bool := 8 ≤ l.length && l.length ≤ 264

/-- The check of one command. -/
def check : Instr → Bool
  | .coldStart _ | .warmStart _ _ | .resetNFall | .vmainLoss | .softStart _ | .vholdLoss => true
  | .frameReceived bytes => !bytes.isEmpty
  | .gapDiscard | .framingError | .replyTransmit | .notice => true
  | .unknownKind _ kind => byte kind && !requestKinds.contains kind
  | .identify _ | .readStatus _ | .scanNow _ | .readJobs _ | .commit _ | .restartTables _ => true
  | .defineCard _ a b c => byte a && byte b && byte c
  | .mapPosition _ a b c d e => byte a && byte b && byte c && byte d && byte e
  | .defineValve _ a b c d => byte a && byte b && half c && byte d
  | .defineMeter _ a b c d => byte a && byte b && half c && byte d
  | .defineBranch _ a b c d e => byte a && byte b && byte c && byte d && half e
  | .defineZone _ a b c d e f g h i j =>
    byte a && byte b && byte c && byte d && byte e && byte f && byte g && byte h && half i && half j
  | .setPlan _ zone targets => byte zone && pairs 1 targets
  | .setLimits _ a b c d e f g h => half a && half b && byte c && half d && half e && half f && half g && half h
  | .setPatterns _ _ _ _ _ => true
  | .setScan _ a b c d e f g => byte a && byte b && half c && byte d && byte e && half f && byte g
  | .setNotices _ a b c d e f g h =>
    byte a && byte b && byte c && byte d && byte e && byte f && byte g && byte h
  | .activate _ b | .deactivate _ b => byte b
  | .hold _ k n | .unhold _ k n => byte k && byte n
  | .ackZone _ z d => byte z && byte d && d != 1
  | .ackZoneDeclareDry _ z | .releaseJob _ z => byte z
  | .clearFault _ v => byte v
  | .zoneEnable _ z x => byte z && byte x
  | .valveMove _ v d => byte v && byte d
  | .service _ c _ => byte c
  | .prove _ a b c => byte a && byte b && byte c
  | .writeOutputs _ entries => pairs 0 entries
  | .readPositions _ a b | .readObject _ a b | .readWindow _ a b | .readMoves _ a b => byte a && byte b
  | .lock _ a b c => byte a && byte b && byte c
  | .commitWriteEnd _ => true
  | .restartRuntime _ scope => byte scope && scope != 1
  | .arbiterChoice | .probe | .frameEndUnchecked | .attention | .periodic | .windowAging => true
  | .scanAccepted l _ | .probeAccepted l _ => cdi l
  | .scanRejected l | .serviceCommandAccepted l | .serviceFetchAccepted l | .serviceFrameRejected l
  | .adoptionServiceAccepted l | .adoptionEchoAccepted l | .adoptionFrameRejected l | .probeRejected l
  | .testFrameAccepted l | .reloadFrameAccepted l | .provingFrameRejected l => cdi l
  | .strokeTimeArrival v | .strokeTimeout v => v < Config.numValves
  | .drainTimerEnd o | .fillTimerEnd o => owner o
  | .spacingEnd (.segmentSame s) => s < Config.numSegments
  | .spacingEnd .rackSame | .spacingEnd .rackOther => true

end WellFormed

/-- A well-formed command. -/
abbrev Instr.WellFormed (i : Instr) : Prop := WellFormed.check i = true

end Sys2Proof
end

