-- ==== Sys2Proof/Safety.lean ====
section
/-! DEFINITION. The words the statements are made of: when a request is dispatched at once, what the consequences of an event
leave alone, and the invariants a step keeps. -/

namespace Sys2Proof.Machine

/-! ## Requests and frames -/

/-- The part runs and the link dispatches a request at once (R177). -/
def State.Ready (s : State) : Prop := s.power.running = true ∧ s.canDispatch = true

/-- The lock of a request's group is clear and no COMMIT runs (R189, R191). -/
def State.Unlocked (s : State) (lock : Bool) : Prop := lock = false ∧ s.commit = none

/-- No job stands in the job table. -/
def State.NoJobs (s : State) : Prop := ∀ k, s.job k = none

/-- A frame of purpose `p` is in flight, its end still checked (R39), in a part that runs. -/
def State.Flies (s : State) (p : Purpose) (f : Frame) : Prop :=
  s.power.running = true ∧ s.chain.inFlight = some f ∧ f.purpose = p ∧ f.unchecked = false

/-- What the consequences of an event (owners, jobs, the scheduler) leave alone: everything but valves, owners, jobs, the
wait list, the scheduler, the output image, the scan-due flag and the notice pending set. -/
structure Spared (s t : State) : Prop where
  clock : t.clock = s.clock
  lastStart : t.lastStart = s.lastStart
  power : t.power = s.power
  rateHigh : t.rateHigh = s.rateHigh
  tables : t.tables = s.tables
  locks : t.locks = s.locks
  stored : t.stored = s.stored
  copyValid : t.copyValid = s.copyValid
  commit : t.commit = s.commit
  link : { t.link with notices := s.link.notices } = s.link
  chain : t.chain = s.chain
  ring : t.ring = s.ring
  image : { t.image with out := s.image.out } = s.image
  periodicFrom : t.periodicFrom = s.periodicFrom
  flow : t.flow = s.flow
  freeCount : t.freeCount = s.freeCount
  pending : t.pending = s.pending

/-- `t` is `s` but for what joined or left the notice pending set. -/
def State.SameButNotices (s t : State) : Prop := { t with link := { t.link with notices := s.link.notices } } = s

/-- R185: the notice pending set at an event at which an object joins: as it stands where the object's kind is masked or the
object is in it, else with the object at its tail. -/
def State.noticesWith (s : State) (o : Obj) : List Obj :=
  if s.tables.mask.on o = true ∧ o ∉ s.link.notices then s.link.notices ++ [o] else s.link.notices

/-- R185: an object that has joined stands in the notice pending set, unless its kind is masked. -/
def State.Noticed (t : State) (o : Obj) : Prop := t.tables.mask.on o = true → o ∈ t.link.notices

/-- R65, R69: what the INPUTS record shows of position `p`: the returned value, and whether it is stale. -/
def State.inputAt (s : State) (p : Nat) : Bool × Bool := (bitAt s.image.ret p, !s.image.fresh || !s.goodAt p)

/-- R69: from `s` to `t` the value or the stale flag of a mapped IN position has changed. -/
def State.InputsChange (s t : State) : Prop :=
  ∃ n ≤ 31, ∃ p, s.tables.findPos (· == .inp n) = some p ∧ t.inputAt p ≠ s.inputAt p

/-- R69: a mapped IN position is not stale, so an event that clears the fresh flag turns it stale. -/
def State.InputsFresh (s : State) : Prop := ∃ n ≤ 31, ∃ p, s.tables.findPos (· == .inp n) = some p ∧ (s.inputAt p).2 = false

/-! ## Owners' sequences (section 1.7) -/

/-- Section 1.7: the sequence owner `o` runs in a mode: the valve of step 1, the valve of step 3, and the direction of both. -/
def State.sequence (s : State) (o : Owner) (m : OwnerMode) : Nat × Nat × Dir :=
  match m with
  | .restoring => (o.returnValve, o.supplyValve, .openMove)
  | .parking => (o.supplyValve, o.returnValve,
      match o with
      | .branch b => if (s.tables.branch b).park = .release then .release else .closeMove
      | _ => .closeMove)
  | _ => (o.supplyValve, o.returnValve, .closeMove)

/-- R143, R144: a move queue after an entry has joined it: at the tail of its class, in place of the entry its valve had. -/
def MoveEntry.joining (e : MoveEntry) (q : List MoveEntry) : List MoveEntry :=
  let rest := q.filter fun x => x.valve != e.valve
  if e.urgent then rest.filter (fun x => x.urgent) ++ [e] ++ rest.filter (fun x => !x.urgent) else rest ++ [e]

/-- R21: from `s` to `t` owner `o` takes step `k` of the sequence of mode `m`, which asks that valve `a` stand at `p`; `q` is the move
queue as the step finds it. In place at step 3 the owner enters its end state; a valve that stands or moves elsewhere gets an entry,
URGENT for an isolate; one that moves there, or is not yet known, is awaited; one in FAULT makes the owner FAILED (R26). -/
structure State.StepTaken (s t : State) (o : Owner) (m : OwnerMode) (k a : Nat) (d : Dir) (p : Pos) (q : List MoveEntry) :
    Prop where
  inPlace : (s.valve a).st = p.idle → k = 3 → (t.owner o).mode = m.endMode o ∧ (t.owner o).step = none
  goesOn : (s.valve a).st ≠ p.idle → (s.valve a).st ≠ .fault → (t.owner o).mode = m ∧ (t.owner o).step = some k
    ∧ (t.owner o).needed = ((s.valve a).st != .unknown && (s.valve a).st != .undefined)
    ∧ t.sched.queue = if (s.valve a).st = p.other.idle ∨ (s.valve a).st = p.other.moving
        then MoveEntry.joining ⟨a, d, m == .isolating, .step o k, s.ms⟩ q else q
  fault : (s.valve a).st = .fault → (t.owner o).mode = .failed ∧ (t.owner o).step = none
    ∧ t.sched.queue = q.filter fun e => !e.isOf o
  phase : ((s.valve a).st = p.idle → k = 3) → (t.owner o).phase = none

/-- R19, R21, R25: from `s` to `t` owner `o` begins the course of an outcome from its valves as they stand, over the move queue `q`: it
is suspended, or it comes to the first step of the sequence whose valve is not in place, to step 3 where both are. -/
structure State.Begins (s t : State) (o : Owner) (out : Outcome) (q : List MoveEntry) : Prop where
  suspended : out = .suspend →
    (t.owner o).mode = .suspended ∧ (t.owner o).step = none ∧ (t.owner o).phase = none ∧ t.sched.queue = q
  sequence : ∀ m v w d p r, (out, m) ∈ [(.isolate, .isolating), (.restore, .restoring), (.park, .parking)] →
    s.sequence o m = (v, w, d) → p = d.target (s.tables.valve v).fail → r = d.target (s.tables.valve w).fail →
    if (s.valve v).st = p.idle then s.StepTaken t o m 3 w d r q else s.StepTaken t o m 1 v d p q

/-- R6, R10, R11: between `s` and `t` valve `v` takes record `r` and its owner is told of it; a valve in FAULT loses its queue entry. -/
def State.Tells (s t : State) (v : Nat) (r : ValveRec) : Prop :=
  ∃ x : State, State.SameButNotices { s with valves := s.valves.put v r, sched := x.sched } x
    ∧ x.sched = { s.sched with queue := x.sched.queue, lookDue := x.sched.lookDue }
    ∧ x.sched.queue = (if r.st = .fault then s.sched.queue.filter fun e => e.valve != v else s.sched.queue)
    ∧ t = if r.st = .fault then x.faultReport v else x.valveReport v

/-! ## Starts -/

/-- What a start that keeps retained memory gives every block, from the tables as they then stand (R13, R28, R54, R70, R86, R100,
R161, R188). -/
structure State.StartValues (u : State) : Prop where
  valves : ∀ v < 106, u.valve v = ValveRec.fresh (if (u.tables.valve v).present then .unknown else .undefined)
  branches : ∀ b < 48, (u.owner (.branch b)).mode = if (u.tables.branch b).defined then .inactive else .undefined
  wide : ∀ o, o = .main ∨ (∃ g < 4, o = .segment g) →
    (u.owner o).mode = if u.tables.hasValves o = true then .opened else .noValves
  steps : ∀ o, WellFormed.owner o = true → (u.owner o).step = none ∧ (u.owner o).phase = none
    ∧ ((u.owner o).settled = true ↔ (u.owner o).mode = .undefined ∨ (u.owner o).mode = .noValves)
  image : u.image = Image.start u.tables.length u.tables.cards.length
  scans : u.scanDue = false ∧ u.periodicFrom = none
  chain : u.chain = Chain.start (if u.tables.cards = [] then .unconfigured else .adopting)
  sched : u.sched = Sched.start
  flow : u.flow = Flow.start
  link : u.link = Link.start u.link.notices
  commit : u.commit = none

/-- R188, R195 (log 21): what a warm or soft start from `s` to `u` changed: the chain; the INPUTS, where a mapped IN turns stale or
an IN comes to be mapped or unmapped by a reload; a valve or branch whose record, its table fields included, differs; a zone
whose state differs; and every job. -/
def State.StartChanges (s u : State) : Obj → Prop
  | .chain => True
  | .inputs => ∃ n ≤ 31, ∃ a b, a = s.tables.findPos (· == .inp n) ∧ b = u.tables.findPos (· == .inp n)
      ∧ (a.isSome ≠ b.isSome ∨ ∃ p q, a = some p ∧ b = some q ∧ (s.inputAt p).2 = false ∧ (u.inputAt q).2 = true)
  | .valve v => v ≤ 105 ∧ ((u.valve v).shown ≠ (s.valve v).shown ∨ u.tables.valve v ≠ s.tables.valve v
      ∨ u.tables.drivePos v ≠ s.tables.drivePos v ∨ u.tables.openPos v ≠ s.tables.openPos v
      ∨ u.tables.closedPos v ≠ s.tables.closedPos v)
  | .branch b => b ≤ 47 ∧ ((u.owner (.branch b)).shown ≠ (s.owner (.branch b)).shown ∨ u.tables.branch b ≠ s.tables.branch b)
  | .segment g => g ≤ 3 ∧ (u.owner (.segment g)).shown ≠ (s.owner (.segment g)).shown
  | .main => (u.owner .main).shown ≠ (s.owner .main).shown
  | .zone z => z ≤ 63 ∧ (u.zone z).st ≠ (s.zone z).st
  | .job k => k ≤ 15 ∧ (u.job k).isSome = true

/-- R31: every latch of `s` holds in `t`. -/
def State.LatchesHeld (s t : State) : Prop :=
  ∀ (c : Nat) (r : CardRegs), s.ring[c]? = some r →
    ∃ r', t.ring[c]? = some r' ∧ ∀ i < r.latch.length, bitAt r'.latch i = bitAt r.latch i

/-! ## Jobs and holds (R16, R124, R130, R131) -/

/-- R124: entry `i` of a list is effective. -/
inductive Effective (isolated : Owner → Prop) (l : List JobEntry) : Nat → Prop where
  | own (i : Nat) (e : JobEntry) : l[i]? = some e → isolated e.target → Effective isolated l i
  | through (i k : Nat) (e : JobEntry) : l[i]? = some e → e.status = .failed → e.esc = .entry k → Effective isolated l k →
      Effective isolated l i

/-- R124: entry `i` of a list is dead. -/
inductive Dead (l : List JobEntry) : Nat → Prop where
  | nothing (i : Nat) (e : JobEntry) : l[i]? = some e → e.status = .failed → e.esc = .nothing → Dead l i
  | through (i k : Nat) (e : JobEntry) : l[i]? = some e → e.status = .failed → e.esc = .entry k → Dead l k → Dead l i

/-- How a job goes on at an event, its owners as they stand in `s` (R122, R130, R131): each entry keeps its place, target and
origin, and an escalation once set stays. An escalation newly set is that of a FAILED entry, and leads to the entry of its
target, or nowhere where there is none. An appended entry is the escalation of the entry its origin names, its target held by no
entry before it. -/
structure State.JobGoesOn (s : State) (j j' : Job) : Prop where
  zone : j'.zone = j.zone
  created : j'.created = j.created
  kept : ∀ (i : Nat) (e : JobEntry), j.entries[i]? = some e →
    ∃ e', j'.entries[i]? = some e' ∧ e'.target = e.target ∧ e'.origin = e.origin ∧ (e.esc ≠ .absent → e'.esc = e.esc)
  escalated : ∀ (i : Nat) (e' : JobEntry), j'.entries[i]? = some e' → e'.esc ≠ .absent →
    (∃ e, j.entries[i]? = some e ∧ e.esc = e'.esc)
    ∨ (e'.status = .failed ∧ e'.esc = .nothing ∧ s.escalationTarget e'.target = none)
    ∨ (e'.status = .failed ∧ ∃ k x, e'.esc = .entry k ∧ j'.entries[k]? = some x ∧ s.escalationTarget e'.target = some x.target)
  appended : ∀ (i : Nat) (e' : JobEntry), j.entries.length ≤ i → j'.entries[i]? = some e' →
    ∃ k x, e'.origin = some k ∧ j'.entries[k]? = some x ∧ x.esc = .entry i ∧ s.escalationTarget x.target = some e'.target
      ∧ ∀ (n : Nat) (y : JobEntry), n < i → j'.entries[n]? = some y → y.target ≠ e'.target

/-- R16: from `s` to `t` the hold count of an owner becomes `n`. The owner joins the notice pending set where that changes it, and
re-evaluates (`evaluate`, which HostHolds states) where the count leaves 0 or reaches it. -/
def State.HoldMoves (s t : State) (o : Owner) (n : Nat) : Prop :=
  ∃ x : State, State.SameButNotices { s with owners := s.owners.put o.index { s.owner o with holds := n } } x
    ∧ x.link.notices = (if n = (s.owner o).holds then s.link.notices else s.noticesWith o.obj)
    ∧ t = if (s.owner o).holds = 0 ↔ n = 0 then x else x.evaluate o

/-- R16, R127, R137: the hold counts of a list of owners move by `f`, one owner after the other. -/
def State.HoldsMove (f : Nat → Nat) : List Owner → State → State → Prop
  | [], s, t => t = s
  | o :: l, s, t => ∃ u : State, s.HoldMoves u o (f (s.owner o).holds) ∧ State.HoldsMove f l u t

/-- R130, R131: from `s` to `t` entry `i` of the job of a slot escalates. It names the entry that holds its target, or that there is
nothing to escalate to; where no entry holds the target, one is appended and its owner's hold count rises. The slot joins the notice
pending set. -/
def State.Escalates (s t : State) (slot i : Nat) : Prop :=
  ∃ (j : Job) (e : JobEntry) (l : List JobEntry) (x : State), s.job slot = some j ∧ j.entries[i]? = some e
    ∧ e.status = .failed ∧ e.esc = .absent
    ∧ State.SameButNotices { s with jobs := s.jobs.put slot (some { j with entries := l }) } x
    ∧ x.link.notices = s.noticesWith (.job slot)
    ∧ (s.escalationTarget e.target = none → l = j.entries.set i { e with esc := .nothing } ∧ t = x)
    ∧ (∀ k y, s.escalationTarget e.target = some y.target → j.entries[k]? = some y →
        (∀ n z, n < k → j.entries[n]? = some z → z.target ≠ y.target) →
        l = j.entries.set i { e with esc := .entry k } ∧ t = x)
    ∧ (∀ o, s.escalationTarget e.target = some o → (∀ y ∈ j.entries, y.target ≠ o) →
        l = j.entries.set i { e with esc := .entry j.entries.length } ++ [⟨o, some i, .absent, .waiting⟩]
        ∧ x.HoldMoves t o ((x.owner o).holds + 1))

/-- R130: escalations one after the other, the statuses derived anew after each. -/
inductive State.Escalations : State → State → Prop where
  | done (s : State) : State.Escalations s s
  | next (s t u : State) (slot i : Nat) : s.Escalates t slot i → State.Escalations t.rederiveJobs u → State.Escalations s u

/-- R148: looks that admit, one after the other. -/
inductive State.Looks : State → State → Prop where
  | done (s : State) : State.Looks s s
  | next (s t u : State) : s.lookOnce = some t → State.Looks t u → State.Looks s u

/-- The entries between `s` and `t` appended to the job of slot `k` for an owner. -/
def State.appendedFor (s t : State) (o : Owner) (k : Nat) : Nat :=
  match s.job k, t.job k with
  | some j, some j' => ((j'.entries.drop j.entries.length).filter fun e => e.target == o).length
  | _, _ => 0

/-! ## Holds that move within one event (R138) -/

/-- R123: an owner is held and on its isolate course. -/
def State.Isolates (s : State) (o : Owner) : Prop :=
  0 < (s.owner o).holds ∧ ((s.owner o).mode = .isolating ∨ (s.owner o).mode = .isolated)

/-- R143: an entry of a class that an owner placed for one of its own valves. -/
def MoveEntry.ownOf (o : Owner) (urgent : Bool) (e : MoveEntry) : Bool :=
  e.isOf o && (e.valve == o.supplyValve || e.valve == o.returnValve) && e.urgent == urgent

/-- R138: from `s` to `t` an owner goes on as if its hold count had not moved: its state, step and phase timer stand, the entries for
its valves stand in their order, and no move of its own is queued. -/
structure State.CourseKept (s t : State) (o : Owner) : Prop where
  course : t.owner o = { s.owner o with holds := (t.owner o).holds }
  entries : ∀ urgent, t.sched.queue.filter (MoveEntry.ownOf o urgent) = s.sched.queue.filter (MoveEntry.ownOf o urgent)
  fresh : ∀ e ∈ t.sched.queue, e.isOf o = true → e ∈ s.sched.queue

/-! ## Chain frames -/

/-- The bits back end in the marker sent (R35). -/
def State.Returns (s : State) (p : Purpose) (f : Frame) (cdi : List Bool) (good : Bool) : Prop :=
  s.Flies p f ∧ f.accepts cdi = good

/-- What the end of frame `f` leaves whatever follows it (R29): the clock at the end of clocking or later, no frame in flight,
the selects asserted until the release, the gap of its select running from there. What the cards then hold is as in `t`. -/
def State.frameOver (s : State) (f : Frame) (t : State) : State :=
  { s with
    clock := max s.clock f.clockEnd
    ring := t.ring
    freeCount := t.freeCount
    chain := { s.chain with inFlight := none, heldUntil := f.releaseAt, idleAt := f.releaseAt + f.gap * 2 } }

/-- R35: the end of an accepted frame, and of a rejected one. -/
def State.acceptedEnd (s : State) (f : Frame) (t : State) : State :=
  let u := s.frameOver f t
  { u with chain := { u.chain with rejects := 0 } }

def State.rejectedEnd (s : State) (f : Frame) (t : State) : State :=
  let u := s.frameOver f t
  { u with chain := { u.chain with rejects := min 3 (s.chain.rejects + 1), rejectTotal := s.chain.rejectTotal + 1 } }

/-- R164, R170, R171: `s` with its proving session `p` over, before the consequences of the event: the chain in state `st`, its
scan streak 0 where that changes it (R48), a look due, the deferred reply at the tail of the reply queue. -/
def State.sessionOver (s : State) (p : Session) (st : ChainState) (status : Status) (fields : List Byte) : State :=
  State.reply 0x32 p.tag status fields { s with
    chain := { s.chain with st := st, session := none, streak := if s.chain.st = st then s.chain.streak else 0 }
    sched := { s.sched with lookDue := true } }

/-- R170, R171: from `s` to `t` a run ends: its session over with the results of `p`, the chain RUNNING and in the notice pending
set, a scan due; then the consequences of the event. -/
def State.RunOver (s t : State) (p : Session) (status : Status) : Prop :=
  ∃ u : State, t = u.finish ∧ State.SameButNotices { s.sessionOver p .running status p.results with scanDue := true } u
    ∧ u.link.notices = s.noticesWith .chain

/-- The command of the table that reports a frame of a purpose as rejected. -/
def rejectionOf (cdi : List Bool) : Purpose → Instr
  | .scan => .scanRejected cdi
  | .command | .fetch => .serviceFrameRejected cdi
  | .adoptService | .adoptEcho => .adoptionFrameRejected cdi
  | .probeScan | .probeEcho => .probeRejected cdi
  | .test _ | .reload _ => .provingFrameRejected cdi

/-- Between `s` and `t` a frame was selected at time `at_` (R29, R35): it carries the next marker, the bit rate and the gap as
they stand, the marker toggles, the cards load (R31 to R33), the select's time and kind are kept (R45, R164), and so is the last-sent
copy at the select of a SCAN or SERVICE frame (R167). Otherwise only the clock, for a SCAN the scan-due flag, for a scan or service
frame the scan streak, and for a proving frame the session change. -/
structure Sent (s t : State) (at_ : Nat) (p : Purpose) (payload : List Bool) : Prop where
  chain : t.chain = { s.chain with
    inFlight := some ⟨p, s.chain.marker5A, payload, at_, 2000 / s.tables.scan.rate, false, s.tables.scan.gap⟩
    marker5A := !s.chain.marker5A
    lastSelectAt := some at_
    lastKind := some p.kind
    copyAtSelect := if p.kind = .echo then s.chain.copyAtSelect else s.image.copy
    streak := t.chain.streak
    session := t.chain.session }
  streak : p ≠ .scan → p ≠ .command → p ≠ .fetch → t.chain.streak = s.chain.streak
  session : (∀ k, p ≠ .test k ∧ p ≠ .reload k) → t.chain.session = s.chain.session
  due : t.scanDue = (s.scanDue && p.kind != .scan)
  rest : t = { s.loadCards p.kind with clock := at_, chain := t.chain, scanDue := t.scanDue }

/-- A SERVICE payload over the cards of `s` that carries a word to each (R50). -/
def State.Carries (s : State) (payload : List Bool) (word : Nat → Word) : Prop :=
  payload.length = 16 * s.tables.cards.length ∧ ∀ c < s.tables.cards.length, wordOf payload c = word c

/-! ## Invariants -/

/-- R157, R77: limits and scan settings within their ranges. -/
def Limits.InRange (l : Limits) : Prop :=
  1 ≤ l.budget ∧ l.budget ≤ 2000 ∧ l.reserve ≤ l.budget ∧ 1 ≤ l.count ∧ l.count ≤ 32 ∧ 100 ≤ l.window ∧ l.window ≤ 10000
    ∧ l.sSame ≤ 5000 ∧ l.sOther ≤ 5000 ∧ l.drain ≤ 10000 ∧ l.fill ≤ 10000

def ScanSettings.InRange (c : ScanSettings) : Prop :=
  5 ≤ c.interval ∧ c.interval ≤ 1000 ∧ 10 ≤ c.gap ∧ c.gap ≤ 1000 ∧ c.rate ∈ [125, 250, 500, 1000, 2000]

/-- Section 2.4: card widths in range and L at most 256. -/
def CardsInRange (cards : List Nat) : Prop :=
  cards.length ≤ 16 ∧ cards.sum ≤ 256 ∧ ∀ w ∈ cards, 8 ≤ w ∧ w ≤ 64 ∧ w % 8 = 0

/-- R55: no place of a card is covered by two entries. -/
def MapDisjoint (m : List MapEntry) : Prop :=
  m.Pairwise fun a b => ∀ card offset, ¬ (a.covers card offset = true ∧ b.covers card offset = true)

/-- R56, R57: the places of every entry lie on its card. -/
def MapInside (cards : List Nat) (m : List MapEntry) : Prop := ∀ e ∈ m, e.offset + e.fn.width ≤ cards.getD e.card 0

/-- A table store whose settings, cards and map are as the requests leave them. -/
def TableStore.Sound (t : TableStore) : Prop :=
  t.limits.InRange ∧ t.scan.InRange ∧ CardsInRange t.cards ∧ MapDisjoint t.map ∧ MapInside t.cards t.map

/-- Every table store the part keeps: its own, a COMMIT's snapshot, the stored copy's. -/
def State.TablesSound (s : State) : Prop :=
  s.tables.Sound ∧ (∀ r, s.commit = some r → r.snapshot.Sound) ∧ (∀ t crc, s.stored = .whole t crc → t.Sound)

/-- R185: the notice pending set holds no object twice. -/
def State.NoticesOnce (s : State) : Prop := s.link.notices.Nodup

/-- R146: the shock window holds at most N_max entries. -/
def State.WindowCounted (s : State) : Prop := s.sched.window.length ≤ s.tables.limits.count

/-- R146: the window sum is at most B, except where the window holds exactly one entry. -/
def State.WindowBudgeted (s : State) : Prop :=
  s.windowSum ≤ s.tables.limits.budget ∨ s.sched.window.length = 1

/-- R176, R49, R35, section 2.8: the bounded queues and counts. -/
def State.Bounded (s : State) : Prop :=
  s.link.rxQueue.length ≤ 4 ∧ s.chain.queue.length ≤ 8 ∧ s.chain.rejects ≤ 3 ∧ s.chain.streak ≤ 8

/-- R189: every lock set in `a` is set in `b`. -/
def Locks.Within (a b : Locks) : Prop :=
  (a.tables = true → b.tables = true) ∧ (a.plan = true → b.plan = true) ∧ (a.limits = true → b.limits = true)

/-- The commands that begin or end the power of the part (R115, R192, R193, R195). -/
def powerCommand : Instr → Bool
  | .coldStart _ | .warmStart _ _ | .resetNFall | .vmainLoss | .vholdLoss => true
  | _ => false

/-- The commands that are requests of section 10.4 (R180); UNKNOWN_KIND is the frame of no request. -/
def requestCommand : Instr → Bool
  | .identify _ | .readStatus _ | .defineCard .. | .mapPosition .. | .defineValve .. | .defineMeter .. | .defineBranch ..
  | .defineZone .. | .setPlan .. | .setLimits .. | .setPatterns .. | .setScan .. | .setNotices .. | .activate .. | .deactivate ..
  | .hold .. | .unhold .. | .ackZone .. | .ackZoneDeclareDry .. | .releaseJob .. | .clearFault .. | .zoneEnable ..
  | .valveMove .. | .scanNow _ | .service .. | .prove .. | .writeOutputs .. | .readPositions .. | .readObject .. | .readWindow ..
  | .readMoves .. | .readJobs _ | .lock .. | .commit _ | .restartRuntime .. | .restartTables _ => true
  | _ => false

end Sys2Proof.Machine
end

