-- ==== Sys2Proof/Certificates/Slice0/Obligations.lean ====
section
/-! DEFINITION. The statements for the provers. A statement that gives a command's result says that `exec` answers a next state,
under hypotheses on the state and the operands alone. Where a rule sets off further events (owners stepping, jobs following,
the scheduler looking), the result is written as `u.finish`: `u` is the state the command's own effect leaves, and
`ConsequencesSpare` says what `finish` leaves alone. `Spared u t` says that `t` is `u` but for what those events may change. -/

open Sys2Proof Sys2Proof.Machine

/-! ## The step -/

/-- A step runs exactly the command at the front of the queue, on the state with the queue's rest. -/
def Obligations.StepRunsFrontCommand : Prop :=
  ∀ (c : Instr) (rest : List Instr) (s : State), step (s.withPending (c :: rest)) = exec c (s.withPending rest)

/-- On an empty queue a step is one tick of the clock; a part that has lost VHOLD stands still. The ms count is the clock's, 2000
ticks a ms. The tick is the model's own (log 1). -/
def Obligations.EmptyQueueTicks : Prop :=
  ∀ s : State, s.ms = s.clock / 2000 ∧ (s.pending = [] →
    (s.power.retainedLost = false → step s = .next { s with clock := s.clock + 1 })
    ∧ (s.power.retainedLost = true → step s = .next s))

/-! ## Reset and starts -/

/-- What the machine holds right after its first cold start with storage never written (R193, step 3 and the defaults of
sections 4.3, 8.6 and 9.1; log 14). -/
def Obligations.ResetState : Prop :=
  State.reset.clock = 0 ∧ State.reset.lastStart = .cold ∧ State.reset.locks = ⟨false, false, false⟩
  ∧ State.reset.tables.cards = [] ∧ State.reset.tables.map = []
  ∧ (∀ v < 106, (State.reset.valve v).st = .undefined) ∧ (∀ z < 64, (State.reset.zone z).st = .undefined)
  ∧ (∀ b < 48, (State.reset.owner (.branch b)).mode = .undefined) ∧ (∀ z < 64, State.reset.tables.plan z = [])
  ∧ (∀ m < 97, (State.reset.tables.meter m).defined = false)
  ∧ State.reset.tables.limits = ⟨600, 200, 8, 2000, 200, 50, 1500, 1000⟩
  ∧ State.reset.tables.scan = ⟨true, true, 20, false, 1000, 50, false⟩
  ∧ State.reset.tables.patterns = ⟨0x00, 0xFF, 0x55, 0xAA⟩
  ∧ State.reset.tables.mask = ⟨true, true, true, true, true, true, true, true⟩
  ∧ State.reset.chain.st = .unconfigured ∧ State.reset.chain.adopted = false ∧ State.reset.chain.marker5A = false
  ∧ (∀ k < 16, State.reset.job k = none) ∧ State.reset.waitList = [] ∧ State.reset.alertAsserted = false
  ∧ State.reset.pending = []

/-- Every invariant below holds right after reset. -/
def Obligations.ResetIsSound : Prop :=
  State.reset.TablesSound ∧ State.reset.NoticesOnce ∧ State.reset.WindowCounted ∧ State.reset.WindowBudgeted
  ∧ State.reset.Bounded

/-- RESET_N low, VMAIN lost and VHOLD lost each hold the part, keep everything else as it stands, and assert ALERT_N. A part so
held takes no command but those of its power (log 27): it runs with RESET_N high and neither supply lost, and is halted with
retained memory kept while RESET_N is low or VMAIN lost, VHOLD not. That the loss of VHOLD alone holds the part and asserts
ALERT_N is the model's (log 12); what it has lost is rebuilt by the cold start that must follow. -/
def Obligations.PinsHoldThePart : Prop :=
  (∀ s : State, ∃ a b c : State,
    exec .resetNFall s = .next a ∧ a = { s with power := { s.power with resetLow := true } } ∧ a.alertAsserted = true
    ∧ exec .vmainLoss s = .next b ∧ b = { s with power := { s.power with vmainLost := true } } ∧ b.alertAsserted = true
    ∧ exec .vholdLoss s = .next c ∧ c = { s with power := { s.power with retainedLost := true } } ∧ c.alertAsserted = true)
  ∧ (∀ (c : Instr) (s : State), powerCommand c = false → s.power.running = false → exec c s = .next s)
  ∧ (∀ p : Power, (p.running = true ↔ p.resetLow = false ∧ p.vmainLost = false ∧ p.retainedLost = false)
    ∧ (∀ c, p.haltedBy c = true ↔ p.retainedLost = false ∧ (c = .resetRise → p.resetLow = true) ∧ (c = .vmainReturn → p.vmainLost = true))
    ∧ p.after .resetRise = { p with resetLow := false } ∧ p.after .vmainReturn = { p with vmainLost := false })

/-- A cold start clears the locks, the jobs, the wait list and every hold, sets every start-hold-pending flag, starts the ms count
from 0, and loads the stored copy where it is valid (a copy whose COMMIT was cut off is not), else an empty table store. It
depends on nothing the part did before but the stored copy, a running COMMIT, what the cards hold and a frame it cuts off. Owners
take their start modes with no step and no phase timer, no scan is due and the periodic timer is stopped (`StartValues`), and the
number of ACTIVE jobs is 0. The start values of the chain (first marker 0xA5), the image, the link, the valves, the zones, the
scheduler and the meters are written out. The notice pending set then holds the chain, and INPUTS where an IN function is mapped,
as far as their kinds are not masked (log 21). (That it ends every hold of the pins, a RESET_N still low included, is the model's
choice, log 45.) -/
def Obligations.ColdStartSequence : Prop :=
  (∀ (rate : Bool) (s : State), ∃ t : State, exec (.coldStart rate) s = .next t
    ∧ t.clock = 0 ∧ t.lastStart = .cold ∧ t.rateHigh = rate ∧ t.power = ⟨false, false, false⟩
    ∧ t.locks = ⟨false, false, false⟩ ∧ (∀ k, t.job k = none) ∧ t.waitList = []
    ∧ (∀ o, (t.owner o).hostHold = false ∧ (t.owner o).holds = 0 ∧ (t.owner o).startPending = true)
    ∧ (∀ T, s.commit = none → s.stored.load = some T → t.tables = T ∧ t.copyValid = true)
    ∧ ((s.commit ≠ none ∨ s.stored.load = none) → t.tables = TableStore.empty ∧ t.copyValid = false)
    ∧ t.chain = Chain.start (if t.tables.cards = [] then .unconfigured else .adopting)
    ∧ t.image = Image.start t.tables.length t.tables.cards.length
    ∧ (∀ v < 106, t.valve v = ValveRec.fresh (if (t.tables.valve v).present then .unknown else .undefined))
    ∧ (∀ z < 64, t.zone z = ZoneRec.fresh (if (t.tables.zone z).defined then
        (if (t.tables.zone z).enabled then .dry else .off) else .undefined))
    ∧ t.link.rxQueue = [] ∧ t.link.replies = [] ∧ t.commit = none ∧ t.sched = Sched.start ∧ t.flow = Flow.start
    ∧ t.StartValues ∧ t.activeJobs = 0
    ∧ (∀ o, o ∈ t.link.notices ↔ t.tables.mask.on o = true
        ∧ (o = .chain ∨ (o = .inputs ∧ ∃ n ≤ 31, ∃ p, t.tables.findPos (· == .inp n) = some p))))
  ∧ (∀ (rate : Bool) (s t : State), s.stored = t.stored → s.commit.isSome = t.commit.isSome → s.ring = t.ring →
    s.freeCount = t.freeCount → s.chain.inFlight = t.chain.inFlight → s.pending = t.pending → exec (.coldStart rate) s = exec (.coldStart rate) t)
  ∧ (∀ (st : ChainState) (c : Chain), c = Chain.start st → c.st = st ∧ c.adopted = false ∧ c.rejects = 0 ∧ c.rejectTotal = 0
    ∧ c.queue = [] ∧ c.streak = 0 ∧ c.marker5A = false ∧ c.inFlight = none ∧ c.lastSelectAt = none ∧ c.session = none
    ∧ c.echoNext = false ∧ c.lastKind = none ∧ c.copyAtSelect = [])
  ∧ (∀ (n k : Nat) (i : Image), i = Image.start n k → i.out = List.replicate n false ∧ i.copy = i.out ∧ i.ret = i.out
    ∧ i.cardGood = List.replicate k true ∧ i.fresh = false ∧ i.lastFrameAt = none)
  ∧ (∀ (notices : List Obj) (l : Link), l = Link.start notices → l.notices = notices ∧ l.rxBuf = none ∧ l.rxQueue = []
    ∧ l.replies = [] ∧ l.tx = none ∧ l.restart = .none ∧ l.lengthDiscards = 0 ∧ l.checkDiscards = 0 ∧ l.gapDiscards = 0
    ∧ l.overflowDiscards = 0)
  ∧ (∀ st, ValveRec.fresh st = ⟨st, none, none, none, 0, none, none⟩) ∧ (∀ st, ZoneRec.fresh st = ⟨st, 0, 0, none, none⟩)
  ∧ Sched.start.queue = [] ∧ Sched.start.window = [] ∧ (∀ g < 4, Sched.start.lastSeg.getD g none = none)
  ∧ Sched.start.lastRack = none ∧ Flow.start.lastTick = none
  ∧ (∀ m < 97, Flow.start.meters.getD m MeterHist.lost = ⟨none, none, none, 0, false, false, false⟩)

/-- A warm start keeps retained memory: the table store, the locks, the jobs with their zones, creation times, entries, origins
and escalations, the wait list, the hold counts, host-hold and start-hold-pending flags, and the ms count. Working state takes its
start values: valves, owners, the image, the chain, flow history, the link's queues and the scheduler. A running COMMIT ends with
no reply and leaves the copy invalid, WET and ACKED zones stay, a SUSPECT zone returns to DRY. A card's latch holds unless a SCAN
frame was cut off. The notice pending set is emptied; then the chain joins it and whatever else the start changed
(`StartChanges`), as far as its kind is not masked (log 21). (`u` is the state the start leaves; the jobs then follow their
owners, `ConsequencesSpare`.) -/
def Obligations.WarmStartKeepsRetained : Prop :=
  ∀ (cause : WarmCause) (rate : Bool) (s : State), s.power.haltedBy cause = true → (s.power.after cause).running = true →
    ∃ t u : State, exec (.warmStart cause rate) s = .next t ∧ t = u.finish
    ∧ u.power = s.power.after cause ∧ u.lastStart = .warm ∧ u.rateHigh = rate ∧ u.clock = s.clock ∧ u.tables = s.tables
    ∧ u.locks = s.locks ∧ u.jobs = s.jobs ∧ u.waitList = s.waitList
    ∧ (∀ o, WellFormed.owner o = true →
        (u.owner o).holds = (s.owner o).holds ∧ (u.owner o).hostHold = (s.owner o).hostHold
        ∧ (u.owner o).startPending = (s.owner o).startPending ∧ (u.owner o).step = none ∧ (u.owner o).phase = none)
    ∧ (∀ b < 48, (u.owner (.branch b)).mode = if (s.tables.branch b).defined then .inactive else .undefined)
    ∧ (∀ o, o = .main ∨ (∃ g < 4, o = .segment g) →
        (u.owner o).mode = if s.tables.hasValves o = true then .opened else .noValves)
    ∧ (∀ v < 106, u.valve v = ValveRec.fresh (if (s.tables.valve v).present then .unknown else .undefined))
    ∧ u.image = Image.start s.tables.length s.tables.cards.length ∧ u.scanDue = false ∧ u.periodicFrom = none
    ∧ u.sched = Sched.start ∧ u.flow = Flow.start ∧ u.commit = none ∧ u.link = Link.start u.link.notices
    ∧ (∀ o, o ∈ u.link.notices ↔ s.tables.mask.on o = true ∧ s.StartChanges u o)
    ∧ u.chain = Chain.start (if s.tables.cards = [] then .unconfigured else .adopting)
    ∧ (s.commit = none → u.copyValid = s.copyValid ∧ u.stored = s.stored)
    ∧ (s.commit ≠ none → u.copyValid = false ∧ u.stored.load = none)
    ∧ (∀ z, (s.zone z).st = .wet ∨ (s.zone z).st = .acked → u.zone z = { s.zone z with wet := 0, dry := 0 })
    ∧ (∀ z, (s.zone z).st = .suspect → u.zone z = ZoneRec.fresh .dry)
    ∧ (∀ (c : Nat) (r : CardRegs), s.ring[c]? = some r → s.tables.cards[c]? = some r.shift.length →
        ∃ r', u.ring[c]? = some r' ∧ (s.chain.inFlight = none → r' = r)
          ∧ ((∀ f, s.chain.inFlight = some f → f.purpose.kind ≠ .scan) → r'.latch = r.latch))
    ∧ Spared u t ∧ t.zones = u.zones ∧ t.waitList = s.waitList
    ∧ (∀ k, (t.job k).map (fun j => (j.zone, j.created)) = (s.job k).map (fun j => (j.zone, j.created)))
    ∧ (∀ o, (t.owner o).hostHold = (u.owner o).hostHold ∧ (t.owner o).startPending = (u.owner o).startPending)

/-- The soft start begins when the RESTART reply has been sent to its last byte: scope RUNTIME keeps the table store, scope TABLES
loads it from the stored copy where that is valid; neither touches the locks. Both give every block its start values and end a
running COMMIT. RUNTIME keeps jobs, wait list, hold counts, host-hold and start-hold-pending flags, and takes zones as a warm
start does: WET and ACKED stay with a dry run of 0, SUSPECT returns to DRY. TABLES takes host-hold flag and hold count from a
branch the reload leaves UNDEFINED and keeps every other's (`x` is the state then); a zone stays WET or ACKED where its reloaded
record is defined, enabled and of the same kind, and takes its start value otherwise; a zone kept WET whose reloaded auto-isolate
is set and whose plan is not empty is handed over (`u` is the state then). No valve moves and no owner changes its state at the
consequences; a card's latch holds unless a SCAN frame was cut off. The notice pending set is emptied; then the chain joins it and
whatever else the start changed (`StartChanges`), as far as its kind is not masked (log 21); what the consequences change joins
behind. (A soft start taken late stands at the clock, log 2; the reply's end is rounded up to a tick, log 35. That a job created
since the request was taken is kept with its holds is log 46, that the zones kept WET are handed over in ascending number log 47.)
-/
def Obligations.SoftStartByScope : Prop :=
  ∀ (rate : Bool) (s : State), s.power.running = true →
    (s.link.restart = .sending .runtime → ∃ t u : State, exec (.softStart rate) s = .next t ∧ t = u.finish
      ∧ t.lastStart = .restartRuntime
      ∧ t.tables = s.tables ∧ t.locks = s.locks ∧ t.clock = max s.clock s.txEnd ∧ t.link.restart = .none
      ∧ t.chain = Chain.start (if s.tables.cards = [] then .unconfigured else .adopting) ∧ t.rateHigh = rate
      ∧ u.StartValues ∧ Spared u t ∧ t.valves = u.valves
      ∧ (∀ o, o ∈ u.link.notices ↔ s.tables.mask.on o = true ∧ s.StartChanges u o)
      ∧ (s.commit = none → t.copyValid = s.copyValid ∧ t.stored = s.stored)
      ∧ (s.commit ≠ none → t.copyValid = false ∧ t.stored.load = none)
      ∧ u.jobs = s.jobs ∧ t.waitList = s.waitList
      ∧ (∀ k, (t.job k).map (fun j => (j.zone, j.created)) = (s.job k).map (fun j => (j.zone, j.created)))
      ∧ (∀ o, WellFormed.owner o = true →
          (u.owner o).holds = (s.owner o).holds ∧ (t.owner o).hostHold = (s.owner o).hostHold
          ∧ (t.owner o).startPending = (s.owner o).startPending ∧ (t.owner o).mode = (u.owner o).mode)
      ∧ (∀ z, ((s.zone z).st = .wet ∨ (s.zone z).st = .acked → t.zone z = { s.zone z with wet := 0, dry := 0 })
          ∧ ((s.zone z).st = .suspect → t.zone z = ZoneRec.fresh .dry)
          ∧ ((s.zone z).st = .dry ∨ (s.zone z).st = .off ∨ (s.zone z).st = .undefined → t.zone z = ZoneRec.fresh (s.zone z).st))
      ∧ ((∀ f, s.chain.inFlight = some f → f.purpose.kind ≠ .scan) → s.LatchesHeld t))
    ∧ (s.link.restart = .sending .tables → ∃ t u x : State, exec (.softStart rate) s = .next t ∧ t = u.finish
      ∧ t.lastStart = .restartTables
      ∧ t.locks = s.locks ∧ t.clock = max s.clock s.txEnd ∧ t.link.restart = .none ∧ t.rateHigh = rate
      ∧ t.chain = Chain.start (if t.tables.cards = [] then .unconfigured else .adopting)
      ∧ (∀ T, s.commit = none → s.stored.load = some T → t.tables = T ∧ t.copyValid = true)
      ∧ (s.commit ≠ none ∨ s.stored.load = none → t.tables = s.tables ∧ t.copyValid = false)
      ∧ u = (List.range 64).foldl (fun y z => if (s.zone z).st = .wet ∧ (y.zone z).st = .wet ∧ (y.tables.zone z).auto = true
          ∧ y.tables.plan z ≠ [] then y.handOff z else y) x
      ∧ (∀ o, o ∈ x.link.notices ↔ x.tables.mask.on o = true ∧ s.StartChanges x o) ∧ x.link.notices <+: u.link.notices
      ∧ x.StartValues ∧ Spared x t ∧ t.valves = x.valves ∧ t.zones = x.zones ∧ x.jobs = s.jobs ∧ x.waitList = s.waitList
      ∧ (∀ o, WellFormed.owner o = true →
          ((∀ b, o = .branch b → (x.tables.branch b).defined = true) →
            (x.owner o).holds = (s.owner o).holds ∧ (t.owner o).hostHold = (s.owner o).hostHold)
          ∧ (∀ b, o = .branch b → (x.tables.branch b).defined = false →
              (x.owner o).holds = 0 ∧ (t.owner o).hostHold = false)
          ∧ (t.owner o).startPending = (s.owner o).startPending ∧ (t.owner o).mode = (x.owner o).mode)
      ∧ (∀ z ≤ 63, x.zone z =
          if ((s.zone z).st = .wet ∨ (s.zone z).st = .acked) ∧ (x.tables.zone z).defined = true ∧ (x.tables.zone z).enabled = true
            ∧ (x.tables.zone z).kind = (s.tables.zone z).kind then { s.zone z with wet := 0, dry := 0 }
          else ZoneRec.fresh (if (x.tables.zone z).defined then (if (x.tables.zone z).enabled then .dry else .off) else .undefined))
      ∧ (∀ z ≤ 63, (s.zone z).st = .wet → (t.zone z).st = .wet → (t.tables.zone z).auto = true → t.tables.plan z ≠ [] →
          (t.jobSlotOf z).isSome = true ∨ z ∈ t.waitList)
      ∧ (∀ k j, s.job k = some j → ∃ j', t.job k = some j' ∧ j'.zone = j.zone ∧ j'.created = j.created)
      ∧ (∀ k j, s.job k = none → t.job k = some j → (s.zone j.zone).st = .wet ∧ (t.zone j.zone).st = .wet
          ∧ (t.tables.zone j.zone).auto = true ∧ t.tables.plan j.zone ≠ [] ∧ j.created = t.ms)
      ∧ ((∀ f, s.chain.inFlight = some f → f.purpose.kind ≠ .scan) → s.LatchesHeld t))

/-! ## Invariants every step keeps -/

/-- Limits, scan settings, card widths and the position map stay as the requests leave them, in the table store, in a COMMIT's
snapshot and in the stored copy. -/
def Obligations.StepKeepsTablesSound : Prop :=
  ∀ s t : State, step s = .next t → s.TablesSound → t.TablesSound

/-- The notice pending set never holds an object twice. -/
def Obligations.StepKeepsNoticesOnce : Prop :=
  ∀ s t : State, step s = .next t → s.NoticesOnce → t.NoticesOnce

/-- The shock window stays within N_max, and within B except where it holds exactly one entry. -/
def Obligations.StepKeepsWindowLimited : Prop :=
  ∀ s t : State, step s = .next t → s.WindowCounted ∧ s.WindowBudgeted → t.WindowCounted ∧ t.WindowBudgeted

/-- The receive queue, the service queue, the consecutive-reject count and the scan streak stay within their bounds. -/
def Obligations.StepKeepsQueuesBounded : Prop :=
  ∀ s t : State, step s = .next t → s.Bounded → t.Bounded

/-- A lock that is set stays set until a cold start. -/
def Obligations.LocksStaySet : Prop :=
  ∀ s t : State, step s = .next t → (∀ rate, s.pending.head? ≠ some (.coldStart rate)) → s.locks.Within t.locks

/-! ## The rack link -/

/-- Every frame the transmitter's layout gives (KIND, TAG, BODY of at most 240 bytes) is received, by a part that is hunting, as
exactly that KIND, TAG and BODY: it joins the receive queue (or overflows it) and the link dispatches what it may. The layout is
SYNC, LEN, KIND, TAG, BODY and the check over all after SYNC, high byte first. The check is a register of 16 bits with generator
x^16 + x^12 + x^5 + 1 that starts at 0xFFFF and takes each byte most significant bit first; over the bytes 0x31 to 0x39 it is
0x29B1. -/
def Obligations.FrameRoundTrip : Prop :=
  ∀ (s : State) (kind : Nat) (tag : Byte) (body : List Byte), s.power.running = true → s.link.rxBuf = none → kind < 256 →
    body.length ≤ 240 →
    exec (.frameReceived (frameBytes kind tag body)) s =
      .next ((State.enqueue (receivedOf kind tag body) { s with link := { s.link with lastByteAt := s.clock } }).dispatchAll)
    ∧ (∀ covered, covered = [BitVec.ofNat 8 (body.length + 2), BitVec.ofNat 8 kind, tag] ++ body →
        frameBytes kind tag body = [0xC5] ++ covered ++ u16 (crc16 covered).toNat)
    ∧ crc16 [0x31, 0x32, 0x33, 0x34, 0x35, 0x36, 0x37, 0x38, 0x39] = 0x29B1
    ∧ (∀ register : List Bool → Word, register [] = 0xFFFF →
        (∀ l x, register (l ++ [x]) = (register l <<< 1) ^^^ (if (register l).msb = x then 0 else 0x1021)) →
        crc16 body = register (body.flatMap fun b => (List.range 8).map fun i => b.getLsbD (7 - i)))

/-- What the BODY of a frame spells, for every KIND of section 10.4: its fields in the chapter's order, a number of two bytes high
byte first, a list as its count and that many entries. A BODY of any other length is no request of its KIND, and a KIND outside
the table is unknown. (That a list whose count disagrees with its bytes is a BODY of the wrong length is the model's reading, log
34; that the bit rate of a SET_SCAN is one byte is log 59.) -/
def Obligations.FramesSpellRequests : Prop :=
  requestKinds = [0x01, 0x02, 0x10, 0x11, 0x12, 0x13, 0x14, 0x15, 0x16, 0x17, 0x18, 0x19, 0x1A, 0x20, 0x21, 0x22, 0x23, 0x24, 0x25,
    0x26, 0x27, 0x28, 0x30, 0x31, 0x32, 0x33, 0x34, 0x40, 0x41, 0x42, 0x43, 0x50, 0x51, 0x52]
  ∧ (∀ hi lo : Byte, pair16 hi lo = hi.toNat * 256 + lo.toNat)
  ∧ (∀ tag a b c d e f g h i j k l m n o : Byte,
    receivedOf 0x01 tag [] = .request (.identify tag)
    ∧ receivedOf 0x02 tag [] = .request (.readStatus tag)
    ∧ receivedOf 0x10 tag [a, b, c] = .request (.defineCard tag a.toNat b.toNat c.toNat)
    ∧ receivedOf 0x11 tag [a, b, c, d, e] = .request (.mapPosition tag a.toNat b.toNat c.toNat d.toNat e.toNat)
    ∧ receivedOf 0x12 tag [a, b, c, d, e] = .request (.defineValve tag a.toNat b.toNat (pair16 c d) e.toNat)
    ∧ receivedOf 0x13 tag [a, b, c, d, e] = .request (.defineMeter tag a.toNat b.toNat (pair16 c d) e.toNat)
    ∧ receivedOf 0x14 tag [a, b, c, d, e, f] = .request (.defineBranch tag a.toNat b.toNat c.toNat d.toNat (pair16 e f))
    ∧ receivedOf 0x15 tag [a, b, c, d, e, f, g, h, i, j, k, l] = .request (.defineZone tag a.toNat b.toNat c.toNat d.toNat e.toNat
        f.toNat g.toNat h.toNat (pair16 i j) (pair16 k l))
    ∧ receivedOf 0x17 tag [a, b, c, d, e, f, g, h, i, j, k, l, m, n, o] =
        .request (.setLimits tag (pair16 a b) (pair16 c d) e.toNat (pair16 f g) (pair16 h i) (pair16 j k) (pair16 l m) (pair16 n o))
    ∧ receivedOf 0x18 tag [a, b, c, d] = .request (.setPatterns tag a b c d)
    ∧ receivedOf 0x19 tag [a, b, c, d, e, f, g, h, i] =
        .request (.setScan tag a.toNat b.toNat (pair16 c d) e.toNat f.toNat (pair16 g h) i.toNat)
    ∧ receivedOf 0x1A tag [a, b, c, d, e, f, g, h] =
        .request (.setNotices tag a.toNat b.toNat c.toNat d.toNat e.toNat f.toNat g.toNat h.toNat)
    ∧ receivedOf 0x20 tag [a] = .request (.activate tag a.toNat)
    ∧ receivedOf 0x21 tag [a] = .request (.deactivate tag a.toNat)
    ∧ receivedOf 0x22 tag [a, b] = .request (.hold tag a.toNat b.toNat)
    ∧ receivedOf 0x23 tag [a, b] = .request (.unhold tag a.toNat b.toNat)
    ∧ receivedOf 0x24 tag [a, b] = .request (.ackZone tag a.toNat b.toNat)
    ∧ receivedOf 0x25 tag [a] = .request (.releaseJob tag a.toNat)
    ∧ receivedOf 0x26 tag [a] = .request (.clearFault tag a.toNat)
    ∧ receivedOf 0x27 tag [a, b] = .request (.zoneEnable tag a.toNat b.toNat)
    ∧ receivedOf 0x28 tag [a, b] = .request (.valveMove tag a.toNat b.toNat)
    ∧ receivedOf 0x30 tag [] = .request (.scanNow tag)
    ∧ receivedOf 0x31 tag [a, b, c] = .request (.service tag a.toNat (b ++ c))
    ∧ receivedOf 0x32 tag [a, b, c] = .request (.prove tag a.toNat b.toNat c.toNat)
    ∧ receivedOf 0x34 tag [a, b] = .request (.readPositions tag a.toNat b.toNat)
    ∧ receivedOf 0x40 tag [a, b] = .request (.readObject tag a.toNat b.toNat)
    ∧ receivedOf 0x41 tag [a, b] = .request (.readWindow tag a.toNat b.toNat)
    ∧ receivedOf 0x42 tag [a, b] = .request (.readMoves tag a.toNat b.toNat)
    ∧ receivedOf 0x43 tag [] = .request (.readJobs tag)
    ∧ receivedOf 0x50 tag [a, b, c] = .request (.lock tag a.toNat b.toNat c.toNat)
    ∧ receivedOf 0x51 tag [] = .request (.commit tag)
    ∧ receivedOf 0x52 tag [a] = .request (.restartRuntime tag a.toNat))
  ∧ (∀ (tag z : Byte) (l : List (Byte × Byte)) (entries : List Byte), l.length ≤ 255 →
      entries = l.flatMap (fun p => [p.1, p.2]) →
      receivedOf 0x16 tag (z :: u8 l.length ++ entries) = .request (.setPlan tag z.toNat (l.map fun p => (p.1.toNat, p.2.toNat)))
      ∧ receivedOf 0x33 tag (u8 l.length ++ entries) = .request (.writeOutputs tag (l.map fun p => (p.1.toNat, p.2.toNat))))
  ∧ (∀ (tag : Byte) (body : List Byte) (kind n : Nat),
      (kind, n) ∈ [(0x01, 0), (0x02, 0), (0x10, 3), (0x11, 5), (0x12, 5), (0x13, 5), (0x14, 6), (0x15, 12), (0x17, 15), (0x18, 4),
        (0x19, 9), (0x1A, 8), (0x20, 1), (0x21, 1), (0x22, 2), (0x23, 2), (0x24, 2), (0x25, 1), (0x26, 1), (0x27, 2), (0x28, 2),
        (0x30, 0), (0x31, 3), (0x32, 3), (0x34, 2), (0x40, 2), (0x41, 2), (0x42, 2), (0x43, 0), (0x50, 3), (0x51, 0), (0x52, 1)] →
      body.length ≠ n → receivedOf kind tag body = .badLength tag kind)
  ∧ (∀ (tag z n : Byte) (entries : List Byte), entries.length ≠ 2 * n.toNat →
      receivedOf 0x16 tag (z :: n :: entries) = .badLength tag 0x16 ∧ receivedOf 0x33 tag (n :: entries) = .badLength tag 0x33
      ∧ receivedOf 0x16 tag [z] = .badLength tag 0x16 ∧ receivedOf 0x16 tag [] = .badLength tag 0x16
      ∧ receivedOf 0x33 tag [] = .badLength tag 0x33)
  ∧ (∀ (tag : Byte) (body : List Byte) (kind : Nat), kind ∉ requestKinds → receivedOf kind tag body = .unknown tag kind)

/-- A request that completes while the link may not dispatch waits at the tail of the receive queue; while the queue holds 4 it
is lost without a reply and counted. A frame whose KIND is no request kind is answered UNKNOWN_KIND, in a frame of KIND 0xFF. A
request is dispatched as it completes where no RESTART is under way, nothing waits before it and fewer than 2 replies wait; those
that wait are dispatched from the head, one at a time, while no RESTART is under way and fewer than 2 replies wait, each as it would
have been at once, a BODY of the wrong length answered BAD_LENGTH. -/
def Obligations.RequestsWaitTheirTurn : Prop :=
  (∀ (c : Instr) (s : State), requestCommand c = true → s.power.running = true → s.canDispatch = false →
    (s.link.rxQueue.length < 4 →
      exec c s = .next { s with link := { s.link with rxQueue := s.link.rxQueue ++ [.request c] } })
    ∧ (4 ≤ s.link.rxQueue.length →
      exec c s = .next { s with link := { s.link with overflowDiscards := s.link.overflowDiscards + 1 } }))
  ∧ (∀ (s : State) (tag : Byte) (kind : Nat), s.Ready → kind ∉ requestKinds →
    ∃ r : Reply, exec (.unknownKind tag kind) s = .next { s with link := { s.link with replies := s.link.replies ++ [r] } }
      ∧ r.status = .unknownKind ∧ r.frame = frameBytes 0xFF tag [0x11])
  ∧ (∀ s : State, s.canDispatch = true ↔ s.link.restart = .none ∧ s.link.rxQueue = [] ∧ s.link.replies.length < 2)
  ∧ (∀ (s : State) (r : Received) (rest : List Received),
    (s.link.rxQueue = [] ∨ 2 ≤ s.link.replies.length ∨ s.link.restart ≠ .none → s.dispatchAll = s)
    ∧ (s.link.rxQueue = r :: rest → s.link.replies.length < 2 → s.link.restart = .none →
      s.dispatchAll = (State.dispatch r { s with link := { s.link with rxQueue := rest } }).dispatchAll))
  ∧ (∀ (s : State) (tag : Byte) (kind : Nat), s.dispatch (.badLength tag kind) = s.refuse kind tag .badLength
    ∧ s.dispatch (.unknown tag kind) = s.refuse kind tag .unknownKind)
  ∧ (∀ (c : Instr) (s : State), requestCommand c = true → s.Ready → exec c s = .next (s.dispatch (.request c)))

/-- While hunting, bytes that are not SYNC are dropped. A frame with a bad LEN, and one whose check disagrees, whatever its LEN and
BODY, are discarded without a reply and counted, and the bytes collected after the discarded SYNC are searched again before any
new byte: the receiver goes on as if they had arrived, the SYNC gone. With no SYNC among them it is left hunting. A gap of more
than 5 ms, and a framing error, within a frame abandon it, its bytes dropped unsearched. (That a framing error is counted as a gap
discard is the model's, log 17; that GAP_DISCARD stands at the first tick after 5 ms, or at the clock where that is later, is log 18
and log 2.) -/
def Obligations.FramesDiscarded : Prop :=
  (∀ (s : State) (len hi lo : Byte) (bytes more : List Byte), s.power.running = true → s.link.rxBuf = none →
    (bytes ≠ [] → 0xC5 ∉ bytes →
      exec (.frameReceived bytes) s = .next { s with link := { s.link with lastByteAt := s.clock } })
    ∧ (len.toNat < 2 ∨ 242 < len.toNat →
      exec (.frameReceived (0xC5 :: len :: more)) s =
        exec (.frameReceived (len :: more)) { s with link := { s.link with lengthDiscards := s.link.lengthDiscards + 1 } }
      ∧ exec (.frameReceived [0xC5, len]) s =
        .next { s with link := { s.link with lastByteAt := s.clock, lengthDiscards := s.link.lengthDiscards + 1 } })
    ∧ (2 ≤ len.toNat → len.toNat ≤ 242 → bytes.length = len.toNat → crc16 (len :: bytes) ≠ hi ++ lo →
      exec (.frameReceived (0xC5 :: len :: bytes ++ [hi, lo] ++ more)) s =
        exec (.frameReceived (len :: bytes ++ [hi, lo] ++ more))
          { s with link := { s.link with checkDiscards := s.link.checkDiscards + 1 } }
      ∧ (0xC5 ∉ len :: bytes ++ [hi, lo] → exec (.frameReceived (0xC5 :: len :: bytes ++ [hi, lo])) s =
        .next { s with link := { s.link with lastByteAt := s.clock, checkDiscards := s.link.checkDiscards + 1 } })))
  ∧ (∀ s : State, s.power.running = true →
    (∀ buf, s.link.rxBuf = some buf →
      exec .gapDiscard s = .next { s with
        clock := max s.clock (s.link.lastByteAt + 10001)
        link := { s.link with rxBuf := none, gapDiscards := s.link.gapDiscards + 1 } }
      ∧ exec .framingError s = .next { s with
        link := { s.link with rxBuf := none, gapDiscards := s.link.gapDiscards + 1 } })
    ∧ (s.link.rxBuf = none → exec .framingError s = .next s))

/-- The reply at the head leaves the reply queue when the idle transmitter begins to send it; its frame carries the request's KIND
plus 0x80, the request's TAG, then STATUS and the reply's fields. The link then dispatches what it may. With no reply waiting, the
object at the head of the notice pending set leaves it, and its current record is sent in a frame of KIND 0xE0, TAG 0, its BODY
the object's kind and number and its record (log 16 gives the kinds' codes and the number 0). While the RESTART reply is being
sent nothing else begins, nor does a notice while a reply waits: the command then changes nothing (log 3). A byte takes 10 bit
times at the rate of the strap. (A transmission stands at the end of the frame before it, which is rounded up to a tick, or at the
clock where that is later: the model's choices, logs 35 and 2.) -/
def Obligations.TransmitterSends : Prop :=
  (∀ (s : State) (r : Reply) (rest : List Reply), s.power.running = true → s.link.replies = r :: rest →
    s.mayTransmit = true →
    ∃ u : State, exec .replyTransmit s = .next u.dispatchAll
      ∧ u = { s with clock := max s.clock s.txEnd, link := { s.link with
          replies := rest, tx := some { bytes := r.frame, start := max s.clock s.txEnd },
          restart := s.link.restart.afterReply r } }
      ∧ (r.status ≠ .unknownKind → r.frame = frameBytes (r.kind + 0x80) r.tag (u8 r.status.code ++ r.fields))
      ∧ (s.link.rxQueue = [] → u.dispatchAll = u))
  ∧ (∀ (s : State) (o : Obj) (rest : List Obj), s.power.running = true → s.link.notices = o :: rest → s.link.replies = [] →
    s.mayTransmit = true →
    ∃ u : State, u = { s with clock := max s.clock s.txEnd }
      ∧ exec .notice s = .next { u with link := { u.link with
          notices := rest, tx := some { bytes := frameBytes 0xE0 0 (u.noticeBody o), start := u.clock } } })
  ∧ (∀ s : State, s.power.running = true →
    (s.mayTransmit = false ∨ s.link.replies = [] → exec .replyTransmit s = .next s)
    ∧ (s.mayTransmit = false ∨ s.link.replies ≠ [] ∨ s.link.notices = [] → exec .notice s = .next s))
  ∧ (∀ s : State, (s.mayTransmit = true ↔ ∀ scope, s.link.restart ≠ .sending scope)
    ∧ (s.link.tx = none → s.txEnd = 0)
    ∧ (∀ f baud, s.link.tx = some f → baud = (if s.rateHigh = true then 921600 else 115200) →
        s.txEnd = f.start + (f.bytes.length * 10 * 2000000 + (baud - 1)) / baud))
  ∧ (∀ (p : RestartPhase) (r : Reply), p.afterReply r = match p with
      | .answered scope => if r.kind = 0x52 ∧ r.status = .ok then .sending scope else p
      | _ => p)
  ∧ (∀ (s : State) (n : Nat),
    (n < 64 → s.noticeBody (.zone n) = u8 0 ++ u8 n ++ s.zoneRecord n)
    ∧ (n < 48 → s.noticeBody (.branch n) = u8 1 ++ u8 n ++ s.branchRecord n)
    ∧ (n < 4 → s.noticeBody (.segment n) = u8 2 ++ u8 n ++ s.wideRecord (.segment n))
    ∧ s.noticeBody .main = u8 3 ++ u8 0 ++ s.wideRecord .main
    ∧ (n < 106 → s.noticeBody (.valve n) = u8 4 ++ u8 n ++ s.valveRecord n)
    ∧ (n < 16 → s.noticeBody (.job n) = u8 5 ++ u8 n ++ s.jobRecord n)
    ∧ s.noticeBody .chain = u8 6 ++ u8 0 ++ s.chainRecord ∧ s.noticeBody .inputs = u8 7 ++ u8 0 ++ s.inputsBytes)

/-! ## Reads -/

/-- The requests that read add one reply and change nothing else. IDENTIFY carries the family, the revision, the link rate and the
capacities, READ_STATUS the status. READ_JOBS carries the ACTIVE count, the head of each slot and the wait list; READ_WINDOW the
window's count and sum, the limits, the last-start times, the withholding and the entries named; READ_MOVES the queue's count and
its URGENT count, the ACTIVE count and the entries named; READ_POSITIONS the chain state, the adopted flag, the age and the
positions named. READ_OBJECT returns the record of any object of the eleven kinds, defined or not; any other kind or number is
refused BAD_FIELD. A count brought into its range is answered ADJUSTED. Then what each of these holds, field by field in the
chapters' order, the code of every enumeration they carry, and how fields of one, two and four bytes, flags, optional fields and
lists are laid down. (The link rate as 0 or 1, the next marker as its byte value, the ALERT level as 0 when low, the encoding of
origins, escalations, requesters and unmapped inputs, and the order of fields are log 16; the bit rate as a code of one byte is
log 59; the age rounded down to a ms is log 42, a phase timer's time left rounded up log 48; what an undefined card's record shows
is log 15; that the withholding is shown whatever the chain state, a waiting PROVE and the queue is log 60.) -/
def Obligations.ReadsOnlyReply : Prop :=
  (∀ (s : State) (tag : Byte) (first count number : Nat), s.Ready →
      exec (.identify tag) s = .next (s.reply 0x01 tag .ok
        [0x4A, 1, if s.rateHigh then 1 else 0, 16, 1, 0, 106, 48, 4, 97, 64, 8, 16, 16, 64, 8, 106, 32, 4, 241])
      ∧ exec (.readStatus tag) s = .next (s.reply 0x02 tag .ok s.statusBytes)
      ∧ exec (.readJobs tag) s = .next (s.reply 0x43 tag .ok
          (u8 s.activeJobs ++ s.jobs.toList.flatMap jobHead ++ encList u8 s.waitList))
      ∧ (∀ n, n = max 1 (min 16 count) →
        (first ≤ 31 → exec (.readWindow tag first count) s = .next (s.reply 0x41 tag (if n = count then .ok else .adjusted)
          (u8 s.sched.window.length ++ u16 s.windowSum ++ s.tables.limits.bytes ++ s.sched.lastSeg.toList.flatMap (opt 4 u32)
            ++ opt 4 u32 s.sched.lastRack ++ flag (s.tables.scan.holdOnWet && decide (0 < s.activeJobs))
            ++ encList s.windowEntry ((s.sched.window.drop first).take n))))
        ∧ (first ≤ 105 → exec (.readMoves tag first count) s = .next (s.reply 0x42 tag (if n = count then .ok else .adjusted)
          (u8 s.sched.queue.length ++ u8 (s.sched.queue.filter (·.urgent)).length ++ u8 s.activeJobs
            ++ encList s.moveEntry ((s.sched.queue.drop first).take n)))))
      ∧ (31 < first → exec (.readWindow tag first count) s = .next (s.refuse 0x41 tag .badField))
      ∧ (105 < first → exec (.readMoves tag first count) s = .next (s.refuse 0x42 tag .badField))
      ∧ (∀ n, n = min (max 1 (min 58 count)) (s.tables.length - first) → first < s.tables.length →
        exec (.readPositions tag first count) s = .next (s.reply 0x34 tag (if n = count then .ok else .adjusted)
          (u8 s.chain.st.code ++ flag s.chain.adopted ++ u16 s.age
            ++ encList (fun i => s.positionEntry (first + i)) (List.range n))))
      ∧ (s.tables.length ≤ first → exec (.readPositions tag first count) s = .next (s.refuse 0x34 tag .notDefined))
      ∧ (number < 64 → exec (.readObject tag 0 number) s = .next (s.reply 0x40 tag .ok (s.zoneRecord number)))
      ∧ (number < 48 → exec (.readObject tag 1 number) s = .next (s.reply 0x40 tag .ok (s.branchRecord number)))
      ∧ (number < 4 → exec (.readObject tag 2 number) s = .next (s.reply 0x40 tag .ok (s.wideRecord (.segment number))))
      ∧ exec (.readObject tag 3 0) s = .next (s.reply 0x40 tag .ok (s.wideRecord .main))
      ∧ (number < 106 → exec (.readObject tag 4 number) s = .next (s.reply 0x40 tag .ok (s.valveRecord number)))
      ∧ (number < 16 → exec (.readObject tag 5 number) s = .next (s.reply 0x40 tag .ok (s.jobRecord number)))
      ∧ exec (.readObject tag 6 0) s = .next (s.reply 0x40 tag .ok s.chainRecord)
      ∧ exec (.readObject tag 7 0) s = .next (s.reply 0x40 tag .ok s.inputsBytes)
      ∧ (number < 16 → exec (.readObject tag 8 number) s = .next (s.reply 0x40 tag .ok (s.tables.cardRecord number)))
      ∧ (number < 97 → exec (.readObject tag 9 number) s = .next (s.reply 0x40 tag .ok (s.meterRecord number)))
      ∧ (number < 64 → exec (.readObject tag 10 number) s =
          .next (s.reply 0x40 tag .ok (u8 (s.zone number).st.code ++ s.tables.planRecord number)))
      ∧ (∀ kind, (∀ n, (kind, n) ∈ [(0, 64), (1, 48), (2, 4), (3, 1), (4, 106), (5, 16), (6, 1), (7, 1), (8, 16), (9, 97),
            (10, 64)] → n ≤ number) →
          exec (.readObject tag kind number) s = .next (s.refuse 0x40 tag .badField)))
  ∧ (∀ s : State,
    s.statusBytes = u32 (s.clock / 2000) ++ u8 s.lastStart.code ++ flag (!s.alertAsserted) ++ u8 s.chain.st.code
      ++ flag s.chain.adopted
      ++ u8 (s.zones.toList.filter fun z => z.st = .wet).length ++ u8 (s.zones.toList.filter fun z => z.st = .acked).length
      ++ u8 (s.jobs.toList.filter fun j => j.map (·.st) = some .active).length
      ++ u8 (s.jobs.toList.filter fun j => j.map (·.st) = some .contained).length
      ++ u8 (s.jobs.toList.filter fun j => j.map (·.st) = some .uncontained).length ++ u8 s.waitList.length
      ++ u8 (s.valves.toList.filter fun v => v.st = .fault).length ++ u8 (s.owners.toList.filter fun o => o.mode = .failed).length
      ++ flag s.locks.tables ++ flag s.locks.plan ++ flag s.locks.limits ++ flag s.copyValid ++ flag s.commit.isSome
      ++ s.tables.scan.bytes ++ s.tables.mask.bytes ++ u8 s.link.notices.length
      ++ u8 (s.chain.queue.length + s.chain.session.toList.length + s.commit.toList.length)
      ++ u16 s.link.lengthDiscards.toNat ++ u16 s.link.checkDiscards.toNat ++ u16 s.link.gapDiscards.toNat
      ++ u16 s.link.overflowDiscards.toNat
    ∧ (s.alertAsserted = true ↔ s.power.running = false ∨ s.chain.st = .broken ∨ (∃ z ∈ s.zones.toList, z.st = .wet)
        ∨ (∃ j, some j ∈ s.jobs.toList ∧ j.st = .uncontained) ∨ (∃ v ∈ s.valves.toList, v.st = .fault)))
  ∧ (∀ (s : State) (n : Nat) (o : Owner),
    s.valveRecord n = u8 n ++ flag (s.tables.valve n).present ++ u16 (s.tables.valve n).stroke ++ u8 (s.tables.valve n).fail.code
      ++ u8 (if (s.tables.valve n).stroke ≤ 1000 then 0 else if (s.tables.valve n).stroke ≤ 5000 then 1 else 2)
      ++ opt 1 u8 (s.tables.drivePos n) ++ opt 1 u8 (s.tables.openPos n) ++ opt 1 u8 (s.tables.closedPos n)
      ++ u8 (s.valve n).st.code ++ opt 1 (fun c => u8 c.code) (s.valve n).cause ++ opt 1 (fun p => u8 p.code) (s.valve n).target
      ++ opt 4 (fun t => u32 (t / 2000)) (s.valve n).driveSent ++ u8 (s.valve n).mismatch
      ++ opt 1 (fun x => u8 x.code) (s.valve n).latest
    ∧ s.branchRecord n = u8 n ++ u8 (s.tables.branch n).segment ++ flag (s.tables.branch n).activated
      ++ u8 (s.tables.branch n).park.code ++ u16 (s.tables.branch n).nominal ++ s.ownerTail (.branch n)
    ∧ s.wideRecord o = encOwner o ++ s.ownerTail o
    ∧ s.ownerTail o = flag (s.owner o).hostHold ++ u8 (s.owner o).holds ++ u8 (ownerModeCode o (s.owner o).mode)
      ++ opt 1 u8 (s.owner o).step
      ++ opt 2 (fun p => u16 (p.len - (s.clock - p.start) / 2000)) (s.owner o).phase
    ∧ s.zoneRecord n = u8 n ++ u8 (s.tables.zone n).kind.code ++ u8 (s.tables.zone n).confirm ++ u8 (s.tables.zone n).clear
      ++ flag (s.tables.zone n).auto ++ flag (s.tables.zone n).failsafe
      ++ (if (s.tables.zone n).kind = .balance then
          [1] ++ u8 (s.tables.zone n).branch ++ [1] ++ u16 (s.tables.zone n).threshold ++ [1] ++ u16 (s.tables.zone n).minFlow
        else [0, 0, 0, 0, 0, 0, 0, 0])
      ++ u8 (s.zone n).st.code ++ u8 (s.zone n).wet ++ u8 (s.zone n).dry ++ opt 1 (fun c => u8 c.code) (s.zone n).cause
      ++ opt 4 u32 (s.zone n).wetTime
      ++ u8 (s.tables.map.filter fun e => match e.fn with | .drip z _ => z = n | _ => false).length
    ∧ s.meterRecord n = u8 n ++ flag (s.tables.meter n).defined ++ u16 (s.tables.meter n).kFactor ++ u8 (s.tables.meter n).shift
      ++ opt 1 u8 (s.tables.findPos (· == .flow n)) ++ opt 1 u8 (s.meter n).prevCount ++ opt 4 u32 (s.meter n).prevTick
      ++ opt 2 u16 (s.meter n).lastRaw ++ u16 (s.meter n).smooth ++ flag (s.meter n).valid ++ flag (s.meter n).overrange
      ++ flag (s.meter n).stale
    ∧ s.tables.planRecord n = u8 n ++ u8 (s.tables.plan n).length ++ encList encOwner (s.tables.plan n)
    ∧ s.tables.cardRecord n = u8 n ++ (match s.tables.cards[n]? with
        | some w => [1] ++ u8 w ++ u8 (s.tables.cards.take n).sum
        | none => [0, 0, 0])
    ∧ s.chainRecord = u8 s.chain.st.code ++ flag s.chain.adopted ++ u8 s.tables.cards.length ++ u16 s.tables.cards.sum
      ++ u8 s.chain.rejects ++ u16 s.chain.rejectTotal.toNat ++ u8 s.chain.queue.length ++ u8 s.chain.streak
      ++ u8 (if s.chain.marker5A then 0x5A else 0xA5) ++ (List.range 16).flatMap (fun c => s.tables.cardRecord c)
    ∧ s.inputsBytes = (List.range 32).flatMap (fun i => match s.tables.findPos (· == .inp i) with
        | some p => [1] ++ flag (bitAt s.image.ret p) ++ flag (!s.image.fresh || !s.goodAt p)
        | none => [0, 0, 0])
    ∧ (s.job n = none → jobHead (s.job n) = [0, 0, 0, 0, 0, 0, 0, 0, 0] ∧ s.jobRecord n = u8 n ++ jobHead none ++ [0])
    ∧ (∀ j, s.job n = some j →
      jobHead (s.job n) = u8 j.st.code ++ [1] ++ u8 j.zone ++ [1] ++ u32 j.created ++ u8 j.entries.length
      ∧ s.jobRecord n = u8 n ++ jobHead (some j) ++ u8 j.entries.length ++ (j.entries.mapIdx encEntry).flatten)
    ∧ (∀ e : JobEntry, encEntry n e = u8 n ++ encOwner e.target
      ++ (match e.origin with | none => [0, 0] | some i => [1] ++ u8 i)
      ++ (match e.esc with | .absent => [0, 0, 0] | .entry i => [1, 0] ++ u8 i | .nothing => [1, 1, 0]) ++ u8 e.status.code)
    ∧ s.positionEntry n = (match s.tables.entryAtPos n with | some e => u8 e.fn.code | none => [0])
      ++ (if s.tables.isOutputPos n then flag (bitAt s.image.out n) ++ flag (bitAt s.image.out n != bitAt s.image.copy n) ++ [0]
        else flag (bitAt s.image.ret n) ++ [0] ++ flag (!s.image.fresh || !s.goodAt n))
    ∧ s.age = (match s.image.lastFrameAt with | some t => min 65535 ((s.clock - t) / 2000) | none => 65535))
  ∧ (∀ (s : State) (w : WindowEntry) (e : MoveEntry),
    s.windowEntry w = u8 w.valve ++ u8 (if w.urgent then 0 else 1) ++ u8 w.dir.code ++ u32 w.start ++ u16 w.cost
      ++ u16 (w.start + s.tables.limits.window - s.ms)
    ∧ s.moveEntry e = u8 e.valve ++ u8 e.dir.code ++ u8 (if e.urgent then 0 else 1)
      ++ (match e.req with | .step o k => encOwner o ++ u8 k | .maintenance => [3, 0, 0]) ++ u32 e.time
      ++ u16 (s.costOf e.valve e.dir)
      ++ u8 (if s.chain.st ≠ .running ∨ s.proveWaiting = true then 0
        else if e.urgent = false ∧ (∃ x ∈ s.sched.queue, x.urgent = true) then 1
        else if e.urgent = false ∧ s.tables.scan.holdOnWet = true ∧ 0 < s.activeJobs then 2
        else if s.countTest = false then 3 else if s.budgetTest e = false then 4 else if s.spacingTest e = false then 5 else 6))
  ∧ (∀ (l : Limits) (c : ScanSettings) (m : NoticeMask),
    l.bytes = u16 l.budget ++ u16 l.reserve ++ u8 l.count ++ u16 l.window ++ u16 l.sSame ++ u16 l.sOther ++ u16 l.drain ++ u16 l.fill
    ∧ c.bytes = flag (!c.image) ++ flag (!c.attention) ++ u16 c.interval ++ flag c.serviceFirst ++ u8 (rateCode c.rate)
      ++ u16 c.gap ++ flag c.holdOnWet
    ∧ m.bytes = [m.zone, m.branch, m.segment, m.main, m.valve, m.job, m.chain, m.inputs].flatMap fun on => flag (!on))
  ∧ (∀ n, u8 n = [BitVec.ofNat 8 n] ∧ u16 n = [BitVec.ofNat 8 (n / 256), BitVec.ofNat 8 n]
    ∧ u32 n = [BitVec.ofNat 8 (n / 16777216), BitVec.ofNat 8 (n / 65536), BitVec.ofNat 8 (n / 256), BitVec.ofNat 8 n])
  ∧ flag true = [1] ∧ flag false = [0]
  ∧ (∀ (enc : Nat → List Byte) (n x : Nat) (l : List Nat), opt n enc none = 0 :: List.replicate n 0 ∧ opt n enc (some x) = 1 :: enc x
    ∧ encList enc l = u8 l.length ++ l.flatMap enc)
  ∧ [.ok, .adjusted, .aborted, .badLength, .unknownKind, .badField, .notDefined, .conflict, .full, .locked, .busy, .held, .notAcked,
      .notOutput, .chainDown].map Status.code =
    [0x00, 0x01, 0x02, 0x10, 0x11, 0x12, 0x20, 0x21, 0x22, 0x23, 0x24, 0x25, 0x26, 0x27, 0x30]
  ∧ [.cold, .warm, .restartRuntime, .restartTables].map StartKind.code = [0, 1, 2, 3]
  ∧ [.unconfigured, .adopting, .running, .proving, .broken].map ChainState.code = [0, 1, 2, 3, 4]
  ∧ [.undefined, .unknown, .opened, .closed, .opening, .closing, .fault].map ValveState.code = [0, 1, 2, 3, 4, 5, 6]
  ∧ [.strokeTimeout, .switchConflict, .uncommanded].map FaultCause.code = [0, 1, 2]
  ∧ [.opened, .closed, .neither, .both].map Reading.code = [0, 1, 2, 3] ∧ [.opened, .closed].map Pos.code = [0, 1]
  ∧ [.openMove, .closeMove, .release].map Dir.code = [0, 1, 2] ∧ [.close, .release].map ParkAction.code = [0, 1]
  ∧ (∀ b, [.undefined, .inactive, .restoring, .inService, .suspended, .isolating, .isolated, .parking, .failed].map
      (ownerModeCode (.branch b)) = [0, 1, 2, 3, 4, 5, 6, 7, 8])
  ∧ (∀ o, (∀ b, o ≠ .branch b) →
      [.noValves, .opened, .isolating, .isolated, .restoring, .failed].map (ownerModeCode o) = [0, 1, 2, 3, 4, 5])
  ∧ (∀ n, [Owner.branch n, .segment n, .main].map encOwner = [[0] ++ u8 n, [1] ++ u8 n, [2, 0]])
  ∧ [.drip, .balance].map ZoneKind.code = [0, 1]
  ∧ [.undefined, .off, .dry, .suspect, .wet, .acked].map ZoneState.code = [0, 1, 2, 3, 4, 5]
  ∧ [.sense, .balance, .chainLoss, .cardFault].map WetCause.code = [0, 1, 2, 3]
  ∧ [.active, .contained, .uncontained].map JobState.code = [1, 2, 3]
  ∧ [.waiting, .inProgress, .done, .failed].map EntryStatus.code = [0, 1, 2, 3]
  ∧ [125, 250, 500, 1000, 2000].map rateCode = [0, 1, 2, 3, 4]
  ∧ (∀ n l, [MapFn.drive n, .openSw n, .closedSw n, .drip n l, .flow n, .cardOk n l, .out n, .inp n].map MapFn.code =
      [1, 2, 3, 4, 5, 6, 7, 8])

/-! ## Definitions and settings -/

/-- What the consequences of an event leave alone, for the end of every event: everything outside valves, owners, jobs, the wait
list, the scheduler, the output image, the scan-due flag and the notice pending set; and, among the owners, host-hold and
start-hold-pending flags; zones; a set scan-due flag; a FAULT, UNKNOWN or UNDEFINED valve that has no queue entry, and an output
image bit that drives no other valve. Objects only join the notice pending set there, and hold counts only rise; with no job in
the job table no owner changes at all. What they do to the jobs: every entry takes the status of its owner (WAITING while that is
not settled), and every job its state: CONTAINED where every PLAN entry is effective, else UNCONTAINED where one is dead, else
ACTIVE; the number of ACTIVE jobs is kept. Every FAILED entry whose escalation is absent escalates (`JobGoesOn`), a branch to its
segment where that has its valves, a branch or a segment else to the main where that has its valves, and no such entry is left;
each appended entry raises its owner's hold count by one, and where that leaves 0 the owner re-evaluates there and then
(`Escalates`, `HoldMoves`; what an evaluation does is `HostHolds`). A job whose state, entries or statuses change joins the notice
pending set. Where a look is due, or the ACTIVE count falls to 0 under HOLD_ON_WET, the scheduler has looked until no move was
admitted. Nothing else happens at the end of an event: the statuses are derived anew, escalations follow, then looks. (That the
jobs follow and the look is made at the end of the event is log 6; the order of several escalations is log 40; that the ACTIVE
count is taken once, at the end of the event, so that one that falls to 0 and rises within it makes no look, is log 55.) -/
def Obligations.ConsequencesSpare : Prop :=
  (∀ s : State, Spared s s.finish ∧ s.finish.zones = s.zones ∧ (s.scanDue = true → s.finish.scanDue = true)
    ∧ (∀ o, (s.finish.owner o).hostHold = (s.owner o).hostHold ∧ (s.finish.owner o).startPending = (s.owner o).startPending
        ∧ (s.owner o).holds ≤ (s.finish.owner o).holds)
    ∧ (∀ k, (s.finish.job k).isSome = (s.job k).isSome) ∧ s.finish.waitList = s.waitList
    ∧ (∀ v, (s.valve v).st = .fault ∨ (s.valve v).st = .unknown ∨ (s.valve v).st = .undefined → s.hasEntry v = false →
        s.finish.valve v = s.valve v ∧ s.finish.hasEntry v = false)
    ∧ (∀ p, (∀ v, s.tables.drivePos v = some p → s.hasEntry v = false
          ∧ ((s.valve v).st = .fault ∨ (s.valve v).st = .unknown ∨ (s.valve v).st = .undefined)) →
        bitAt s.finish.image.out p = bitAt s.image.out p)
    ∧ s.link.notices <+: s.finish.link.notices
    ∧ (s.NoJobs → s.finish.owners = s.owners ∧ s.finish.jobs = s.jobs))
  ∧ (∀ s : State,
    (∀ k j, s.finish.job k = some j →
      (∀ e ∈ j.entries, e.status = s.finish.entryStatus e.target)
      ∧ (∀ contained : Prop, contained = (∀ i e, j.entries[i]? = some e → e.origin = none →
            Effective (fun o => (s.finish.owner o).mode = .isolated) j.entries i) →
          (j.st = .contained ↔ contained)
          ∧ (j.st = .uncontained ↔ ¬ contained ∧ ∃ i e, j.entries[i]? = some e ∧ e.origin = none ∧ Dead j.entries i)))
    ∧ (∀ o, s.entryStatus o = if (s.owner o).settled = false then .waiting else match (s.owner o).mode with
        | .isolating => .inProgress
        | .isolated => .done
        | .failed | .noValves => .failed
        | _ => .waiting)
    ∧ s.finish.activeJobs = (s.finish.jobs.toList.filter fun j => j.map (·.st) = some .active).length
    ∧ (s.sched.lookDue = true ∨ (0 < s.activeJobs ∧ s.finish.activeJobs = 0 ∧ s.tables.scan.holdOnWet = true) →
        s.finish.lookOnce = none)
    ∧ s.finish.sched.lookDue = false
    ∧ (∀ k j j', s.job k = some j → s.finish.job k = some j' → j' ≠ j → s.finish.Noticed (.job k)))
  ∧ (∀ s : State, ∃ (u x : State) (due : Bool),
    State.SameButNotices { s with jobs := s.rederiveJobs.jobs } s.rederiveJobs
    ∧ (∀ k, s.rederiveJobs.job k = none ↔ s.job k = none)
    ∧ (∀ k j, s.job k = some j → ∃ st, s.rederiveJobs.job k =
        some ⟨j.zone, j.created, j.entries.map fun e => { e with status := s.entryStatus e.target }, st⟩)
    ∧ State.Escalations s.rederiveJobs u
    ∧ State.Looks { u with activeJobs := s.finish.activeJobs, sched := { u.sched with lookDue := due } } x
    ∧ s.finish = { x with sched := { x.sched with lookDue := false } })
  ∧ (∀ (s : State) (main : Option Owner), main = (if (s.owner .main).mode = .noValves then none else some .main) →
    (∀ b g, g = (s.tables.branch b).segment →
        s.escalationTarget (.branch b) = if (s.owner (.segment g)).mode = .noValves then main else some (.segment g))
    ∧ (∀ g, s.escalationTarget (.segment g) = main) ∧ s.escalationTarget .main = none)
  ∧ (∀ s : State, (∀ b, (s.tables.branch b).segment ≤ 3) → (∀ k j, s.job k = some j → j.entries.length ≤ 16) →
    (∀ k j, s.job k = some j → ∃ j', s.finish.job k = some j' ∧ s.JobGoesOn j j')
    ∧ (∀ k j, s.finish.job k = some j → ∀ e ∈ j.entries, e.status = .failed → e.esc ≠ .absent)
    ∧ (∀ o, WellFormed.owner o = true → (s.finish.owner o).holds =
        (s.owner o).holds + ((List.range 16).map fun k => s.appendedFor s.finish o k).sum))

/-- The width DEFINE_CARD takes is w below 8 raised to 8, above 64 lowered to 64, otherwise rounded up to a multiple of 8. A taken
DEFINE_CARD changes the card table at that event: the adopted flag is cleared, the consecutive-reject count is 0, the images hold
zeros, flow history is lost, every present valve is UNKNOWN, owners take their start values with their holds kept (a branch
INACTIVE or UNDEFINED, a segment or the main OPEN or NO_VALVES by its valves, no step, no phase timer, not derived yet), and the
chain goes to ADOPTING, or stays BROKEN, or with no card left to UNCONFIGURED. An adoption starts afresh, the marker toggle and
the rejected-frame total stand, and a frame in flight will not be checked. The queue entries of present valves are withdrawn; the
others, the shock window and the last-start times stand, and nothing is admitted. The age of the returned image runs on from the
last accepted frame. The cards' latches hold, that of a card that leaves the table or changes its width too. The chain joins the
notice pending set, and INPUTS where a mapped IN position turns stale. -/
def Obligations.DefineCardTaken : Prop :=
  (∀ w : Nat, 8 ≤ takenWidth w ∧ takenWidth w ≤ 64 ∧ takenWidth w % 8 = 0
    ∧ (w ≤ 8 → takenWidth w = 8) ∧ (64 ≤ w → takenWidth w = 64)
    ∧ (8 ≤ w → w ≤ 64 → w ≤ takenWidth w ∧ takenWidth w < w + 8))
  ∧ (∀ (s : State) (tag : Byte) (card width defined : Nat) (cards : List Nat) (st : Status), s.Ready → s.Unlocked s.locks.tables →
    card ≤ 15 → s.tables.anyActivated = false → s.NoJobs → s.chain.session = none → s.chain.queue = [] →
    (defined = 1 ∧ card ≤ s.tables.cards.length ∧ (∀ e ∈ s.tables.map, e.card = card → e.offset + e.fn.width ≤ takenWidth width)
        ∧ cards = (if card < s.tables.cards.length then s.tables.cards.set card (takenWidth width)
            else s.tables.cards ++ [takenWidth width])
        ∧ cards.sum ≤ 256 ∧ st = (if takenWidth width = width then .ok else .adjusted))
      ∨ (defined = 0 ∧ card + 1 = s.tables.cards.length ∧ (∀ e ∈ s.tables.map, e.card ≠ card)
        ∧ cards = s.tables.cards.dropLast ∧ st = .ok) →
    ∃ t : State, exec (.defineCard tag card defined width) s = .next t
      ∧ Spared (State.reply 0x10 tag st (t.tables.cardRecord card ++ u16 cards.sum)
          { s with tables := { s.tables with cards := cards }, chain := t.chain, image := t.image, ring := t.ring,
                   freeCount := t.freeCount, flow := Flow.start, periodicFrom := none }) t
      ∧ t.chain = { s.chain with
          st := t.chain.st, streak := t.chain.streak, adopted := false, rejects := 0, echoNext := false
          inFlight := s.chain.inFlight.map fun f => { f with unchecked := true } }
      ∧ (t.chain.st ≠ s.chain.st → t.chain.streak = 0)
      ∧ t.sched = { s.sched with queue := s.sched.queue.filter (fun e => !(s.tables.valve e.valve).present), lookDue := false }
      ∧ t.chain.st = (if cards = [] then .unconfigured else if s.chain.st = .broken then .broken else .adopting)
      ∧ t.image = { Image.start cards.sum cards.length with lastFrameAt := s.image.lastFrameAt } ∧ t.scanDue = false
      ∧ (∀ v < 106, (s.tables.valve v).present = true → t.valve v = ValveRec.fresh .unknown)
      ∧ (∀ b < 48, (t.owner (.branch b)).mode = if (s.tables.branch b).defined then .inactive else .undefined)
      ∧ (∀ o, o = .main ∨ (∃ g < 4, o = .segment g) →
          (t.owner o).mode = if s.tables.hasValves o = true then .opened else .noValves)
      ∧ (∀ o, WellFormed.owner o = true → (t.owner o).step = none ∧ (t.owner o).phase = none
          ∧ ((t.owner o).settled = true ↔ (t.owner o).mode = .undefined ∨ (t.owner o).mode = .noValves))
      ∧ (∀ o, (t.owner o).holds = (s.owner o).holds ∧ (t.owner o).hostHold = (s.owner o).hostHold)
      ∧ t.zones = s.zones ∧ t.jobs = s.jobs ∧ t.waitList = s.waitList ∧ s.LatchesHeld t ∧ t.Noticed .chain
      ∧ (s.InputsFresh → t.Noticed .inputs))

/-- A MAP_POSITION that no check of R56, R57 and R58 turns away enters its function in the map, and one with function NONE removes
the function at the position; nothing else of the table store changes. The output image bit of every position mapped or removed is
0 afterwards (over tables the requests can leave, and for a DRIVE of an absent valve that is UNDEFINED with nothing queued). A
present valve whose function is mapped or removed is UNKNOWN afterwards, and a meter whose FLOW field is loses its history; the
valve, and INPUTS for an IN, join the notice pending set. One that asks for what stands already is answered OK and changes nothing
(the OK where its offset is rounded as well is the model's, log 37; that a valve in FAULT goes to UNKNOWN too is log 58). Then the
functions by code, number and level (a number or level byte its function does not take, and both of a NONE, are not looked at,
whatever they hold: log 49); the places an entry covers and the positions of functions; what makes a CONFLICT or FULL, and what
makes BUSY, each refused with that status in that order, after BAD_FIELD for a field out of range and NOT_DEFINED for a place that
is not: a DRIP zone enabled, or a present valve whose owner and motion forbid it, or the removal of a present valve's DRIVE. -/
def Obligations.MapPositionTaken : Prop :=
  (∀ (s : State) (tag : Byte) (card offset function number level : Nat), s.Ready → s.Unlocked s.locks.tables → card ≤ 15 →
    offset < s.tables.cards.getD card 0 →
    (∀ fn e, mapFnOfCode function number level = some (some fn) →
      e = (⟨card, fn.offsetTaken offset, fn⟩ : MapEntry) → e ∉ s.tables.map →
      (∀ c ∈ s.tables.mapConflicts e, c.1 = false) → s.mapBusy fn false = false →
      ∃ t : State, exec (.mapPosition tag card offset function number level) s = .next t
        ∧ Spared (State.reply 0x11 tag (if e.offset = offset then .ok else .adjusted)
            (u8 card ++ u8 e.offset ++ u8 (s.tables.posOf card e.offset) ++ u8 function)
            { s with tables := { s.tables with map := s.tables.map ++ [e] }, flow := t.flow }) t
        ∧ t.zones = s.zones ∧ (∀ m, fn ≠ .flow m → t.meter m = s.meter m)
        ∧ (∀ m ≤ 96, fn = .flow m → t.meter m = MeterHist.lost)
        ∧ (∀ v ≤ 105, fn.valve = some v → (s.tables.valve v).present = true → (t.valve v).st = .unknown)
        ∧ (s.tables.Sound → (∀ v, fn = .drive v →
            (s.tables.valve v).present = true ∨ (s.valve v).st = .undefined ∧ s.hasEntry v = false) →
          ∀ i < fn.width, bitAt t.image.out (s.tables.posOf card e.offset + i) = false)
        ∧ (∀ v, fn.valve = some v → t.Noticed (.valve v)) ∧ (∀ n, fn = .inp n → t.Noticed .inputs))
    ∧ (∀ fn e, mapFnOfCode function number level = some (some fn) →
      e = (⟨card, fn.offsetTaken offset, fn⟩ : MapEntry) → e ∈ s.tables.map →
      exec (.mapPosition tag card offset function number level) s = .next (s.reply 0x11 tag .ok
        (u8 card ++ u8 e.offset ++ u8 (s.tables.posOf card e.offset)
          ++ u8 (((s.tables.entryAt card e.offset).map fun x => x.fn.code).getD 0))))
    ∧ (∀ e, function = 0 → s.tables.entryAt card offset = some e → s.mapBusy e.fn true = false →
      ∃ t : State, exec (.mapPosition tag card offset function number level) s = .next t
        ∧ Spared (State.reply 0x11 tag .ok
            (u8 card ++ u8 e.offset ++ u8 (s.tables.posOf card e.offset)
              ++ u8 (((t.tables.entryAt card e.offset).map fun x => x.fn.code).getD 0))
            { s with tables := { s.tables with map := s.tables.map.erase e }, flow := t.flow }) t
        ∧ t.zones = s.zones
        ∧ (∀ m ≤ 96, e.fn = .flow m → t.meter m = MeterHist.lost)
        ∧ (∀ v ≤ 105, e.fn.valve = some v → (s.tables.valve v).present = true → (t.valve v).st = .unknown)
        ∧ (s.tables.Sound → ∀ i < e.fn.width, bitAt t.image.out (s.tables.posOf card e.offset + i) = false)
        ∧ (∀ v, e.fn.valve = some v → t.Noticed (.valve v)) ∧ (∀ n, e.fn = .inp n → t.Noticed .inputs))
    ∧ (function = 0 → s.tables.entryAt card offset = none →
      exec (.mapPosition tag card offset function number level) s = .next (s.reply 0x11 tag .ok
        (u8 card ++ u8 offset ++ u8 (s.tables.posOf card offset) ++ u8 0)))
    ∧ (∀ (fn : MapFn) (e : MapEntry) (conflict full : Prop), mapFnOfCode function number level = some (some fn) →
      e = ⟨card, fn.offsetTaken offset, fn⟩ → e ∉ s.tables.map →
      conflict = ((∃ x ∈ s.tables.map, ∃ i < fn.width, x.covers card (e.offset + i) = true)
        ∨ (∃ x ∈ s.tables.map, x.fn.sameObject fn = true) ∨ (∃ c l, fn = .cardOk c l ∧ c ≠ card)) →
      full = (∃ z l, fn = .drip z l ∧ 4 ≤ (s.tables.map.filter fun x => match x.fn with | .drip y _ => y == z | _ => false).length) →
      (conflict → exec (.mapPosition tag card offset function number level) s = .next (s.refuse 0x11 tag .conflict))
      ∧ (¬ conflict → full → exec (.mapPosition tag card offset function number level) s = .next (s.refuse 0x11 tag .full))
      ∧ (¬ conflict → ¬ full → s.mapBusy fn false = true →
          exec (.mapPosition tag card offset function number level) s = .next (s.refuse 0x11 tag .busy)))
    ∧ (∀ e, function = 0 → s.tables.entryAt card offset = some e → s.mapBusy e.fn true = true →
      exec (.mapPosition tag card offset function number level) s = .next (s.refuse 0x11 tag .busy)))
  ∧ (∀ (s : State) (tag : Byte) (card offset function number level : Nat), s.Ready →
    (15 < card ∨ mapFnOfCode function number level = none →
      exec (.mapPosition tag card offset function number level) s = .next (s.refuse 0x11 tag .badField))
    ∧ (card ≤ 15 → mapFnOfCode function number level ≠ none → s.tables.cards.getD card 0 ≤ offset →
      exec (.mapPosition tag card offset function number level) s = .next (s.refuse 0x11 tag .notDefined)))
  ∧ (∀ n l : Nat, mapFnOfCode 0 n l = some none
    ∧ mapFnOfCode 1 n l = (if n ≤ 105 then some (some (.drive n)) else none)
    ∧ mapFnOfCode 2 n l = (if n ≤ 105 then some (some (.openSw n)) else none)
    ∧ mapFnOfCode 3 n l = (if n ≤ 105 then some (some (.closedSw n)) else none)
    ∧ mapFnOfCode 4 n l = (if n ≤ 63 ∧ l ≤ 1 then some (some (.drip n (l == 1))) else none)
    ∧ mapFnOfCode 5 n l = (if n ≤ 96 then some (some (.flow n)) else none)
    ∧ mapFnOfCode 6 n l = (if n ≤ 15 ∧ l ≤ 1 then some (some (.cardOk n (l == 1))) else none)
    ∧ mapFnOfCode 7 n l = (if n ≤ 31 then some (some (.out n)) else none)
    ∧ mapFnOfCode 8 n l = (if n ≤ 31 then some (some (.inp n)) else none)
    ∧ (∀ function, 8 < function → mapFnOfCode function n l = none))
  ∧ (∀ (t : TableStore) (e : MapEntry) (card offset : Nat),
    e.fn.width = (match e.fn with | .flow _ => 8 | _ => 1)
    ∧ e.fn.offsetTaken offset = (match e.fn with | .flow _ => offset / 8 * 8 | _ => offset)
    ∧ (e.covers card offset = true ↔ e.card = card ∧ e.offset ≤ offset ∧ offset < e.offset + e.fn.width)
    ∧ t.posOf card offset = (t.cards.take card).sum + offset
    ∧ t.entryAt card offset = t.map.find? (fun x => x.covers card offset)
    ∧ (∀ w, t.cards[card]? = some w → offset < w → t.entryAtPos (t.posOf card offset) = t.entryAt card offset)
    ∧ (∀ p, t.length ≤ p → t.entryAtPos p = none) ∧ t.length = t.cards.sum
    ∧ (∀ p, t.isOutputPos p = true ↔ ∃ x, t.entryAtPos p = some x ∧ ∃ n, x.fn = .drive n ∨ x.fn = .out n)
    ∧ (∀ fn, (∀ x ∈ t.map, x.fn ≠ fn) → t.findPos (· == fn) = none)
    ∧ (e ∈ t.map → (∀ x ∈ t.map, x.fn = e.fn → x = e) → t.findPos (· == e.fn) = some (t.posOf e.card e.offset))
    ∧ (∀ v, t.drivePos v = t.findPos (· == .drive v) ∧ t.openPos v = t.findPos (· == .openSw v)
        ∧ t.closedPos v = t.findPos (· == .closedSw v))
    ∧ (∀ o, t.hasValves o = true ↔ ∀ v, v = o.supplyValve ∨ v = o.returnValve →
        (t.valve v).present = true ∧ ∃ x ∈ t.map, x.fn = .drive v)
    ∧ ((∀ c ∈ t.mapConflicts e, c.1 = false) ↔
        (∀ x ∈ t.map, ∀ i < e.fn.width, x.covers e.card (e.offset + i) = false)
        ∧ (∀ x ∈ t.map, x.fn.sameObject e.fn = false) ∧ (∀ c l, e.fn = .cardOk c l → c = e.card)
        ∧ (∀ z l, e.fn = .drip z l →
            (t.map.filter fun x => match x.fn with | .drip y _ => y == z | _ => false).length < 4))
    ∧ (∀ a b : MapFn, a.sameObject b = true ↔
        (a = b ∧ ∀ z l, a ≠ .drip z l) ∨ ∃ c l m, a = .cardOk c l ∧ b = .cardOk c m))
  ∧ (∀ (s : State) (removal : Bool),
    (∀ z l, s.mapBusy (.drip z l) removal = true ↔ (s.zone z).st ≠ .off ∧ (s.zone z).st ≠ .undefined)
    ∧ (∀ v fn, fn ∈ [MapFn.drive v, .openSw v, .closedSw v] → (s.mapBusy fn removal = true ↔
        (s.tables.valve v).present = true ∧ (s.valveBusy v false = true ∨ (removal = true ∧ fn = .drive v))))
    ∧ (∀ n l fn, fn ∈ [MapFn.flow n, .cardOk n l, .out n, .inp n] → s.mapBusy fn removal = false))

/-- A taken DEFINE_VALVE stores the stroke time, clamped to 100..30000 ms, and the fail position, or makes the valve absent. A
valve newly present is UNKNOWN with nothing else recorded but its target, which its drive bit gives where its drive is mapped; one
whose fail position changes is UNKNOWN with the target its drive bit gives then. A change of the stroke time alone leaves the
valve's record as it is: state, target, drive sent time, timer and readings stand (also through the end of the event, with no job
in the table and a segment or the main in NO_VALVES where it lacks a valve and, where it has both, only while one is UNKNOWN). A
valve made absent is UNDEFINED with nothing recorded. A valve whose definition changes joins the notice pending set. A stroke time
brought into its range is answered ADJUSTED with the value taken, at a removal too (log 30; log 15 gives what an absent valve's
slot holds; that a valve in FAULT whose fail position changes goes to UNKNOWN is log 58). A segment or the main that loses a valve
is in NO_VALVES. A field out of range is refused BAD_FIELD (of a present byte above 1 that is the model's reading of section 10.4,
log 33). The request is refused BUSY while the owner is a branch neither UNDEFINED nor, but for a removal, INACTIVE, or a segment
or the main neither in NO_VALVES nor OPEN and unheld, while the valve moves, and while it has a queue entry. -/
def Obligations.DefineValveTaken : Prop :=
  (∀ (s : State) (tag : Byte) (v stroke fail taken : Nat) (p : Pos), s.Ready → s.Unlocked s.locks.tables → v ≤ 105 → posOfCode fail = some p →
    taken = max 100 (min 30000 stroke) →
    (s.valveBusy v false = false →
      ∃ t : State, exec (.defineValve tag v 1 stroke fail) s = .next t
        ∧ Spared (State.reply 0x12 tag (if taken = stroke then .ok else .adjusted) (if taken = stroke then [] else u16 taken)
            { s with tables := { s.tables with valves := s.tables.valves.put v ⟨true, taken, p⟩ } }) t
        ∧ ((s.tables.valve v).present = false ∨ (s.tables.valve v).fail ≠ p → (t.valve v).st = .unknown
            ∧ (t.valve v).target = (s.tables.drivePos v).map fun x => driveTarget p (bitAt s.image.out x))
        ∧ ((s.tables.valve v).present = false → t.valve v = { ValveRec.fresh .unknown with target := (t.valve v).target })
        ∧ ((s.tables.valve v).present = true → (s.tables.valve v).fail = p →
            (∃ u : State, t = u.finish.reply 0x12 tag (if taken = stroke then .ok else .adjusted)
              (if taken = stroke then [] else u16 taken) ∧ u.valves = s.valves)
            ∧ (s.NoJobs → (∀ o, o = valveOwner v → (∀ b, o ≠ .branch b) →
                if s.tables.hasValves o = true then (s.owner o).mode = .noValves → s.valvesKnown o = false
                else (s.owner o).mode = .noValves) → t.valve v = s.valve v))
        ∧ (s.tables.valve v ≠ ⟨true, taken, p⟩ → t.Noticed (.valve v))
        ∧ t.zones = s.zones)
    ∧ (s.valveBusy v true = false →
      ∃ t : State, exec (.defineValve tag v 0 stroke fail) s = .next t
        ∧ Spared (State.reply 0x12 tag (if taken = stroke then .ok else .adjusted) (if taken = stroke then [] else u16 taken)
            { s with tables := { s.tables with valves := s.tables.valves.put v ValveDef.absent } }) t
        ∧ (t.tables.valve v).present = false ∧ t.valve v = ValveRec.fresh .undefined
        ∧ (s.tables.valve v ≠ ValveDef.absent → t.Noticed (.valve v)) ∧ t.zones = s.zones
        ∧ (96 ≤ v → ∀ o, o = valveOwner v → (t.owner o).mode = .noValves ∧ (t.owner o).step = none ∧ (t.owner o).phase = none))
    ∧ (s.valveBusy v false = true → exec (.defineValve tag v 1 stroke fail) s = .next (s.refuse 0x12 tag .busy))
    ∧ (s.valveBusy v true = true → exec (.defineValve tag v 0 stroke fail) s = .next (s.refuse 0x12 tag .busy)))
  ∧ (∀ (s : State) (tag : Byte) (v present stroke fail : Nat), s.Ready → 105 < v ∨ 1 < present ∨ 1 < fail →
    exec (.defineValve tag v present stroke fail) s = .next (s.refuse 0x12 tag .badField))
  ∧ (∀ (s : State) (v : Nat) (removal : Bool) (o : Owner), o = valveOwner v →
    (s.valveBusy v removal = true ↔
      (∀ b, o = .branch b → (s.owner o).mode ≠ .undefined ∧ ((s.owner o).mode ≠ .inactive ∨ removal = true))
        ∧ ((∀ b, o ≠ .branch b) → (s.owner o).mode ≠ .noValves ∧ ((s.owner o).mode ≠ .opened ∨ (s.owner o).holds ≠ 0))
      ∨ (s.valve v).st = .opening ∨ (s.valve v).st = .closing ∨ ∃ e ∈ s.sched.queue, e.valve = v))
  ∧ posOfCode 0 = some .opened ∧ posOfCode 1 = some .closed ∧ (∀ n, 1 < n → posOfCode n = none)

/-- DEFINE_METER stores the K-factor and the shift taken; flow history is lost when the meter is defined, removed or given another
K-factor, and kept when only the shift changes. A meter whose branch an enabled BALANCE zone names is in use: its removal is
refused BUSY, that of an UNDEFINED meter NOT_DEFINED, a field out of range BAD_FIELD (of a defined byte above 1 that is the
model's reading of section 10.4, log 33; that a lock and a COMMIT come before the two is log 63). -/
def Obligations.DefineMeterTaken : Prop :=
  (∀ (s : State) (tag : Byte) (m defined k shift : Nat), s.Ready → 96 < m ∨ 1 < defined →
    exec (.defineMeter tag m defined k shift) s = .next (s.refuse 0x13 tag .badField))
  ∧ ∀ (s : State) (tag : Byte) (m k shift : Nat), s.Ready → s.Unlocked s.locks.tables → m ≤ 96 →
    (∃ t : State, exec (.defineMeter tag m 1 k shift) s = .next t
      ∧ t.tables = { s.tables with meters := s.tables.meters.put m ⟨true, max 1 (min 4000 k), min 4 shift⟩ }
      ∧ t = State.reply 0x13 tag (if 1 ≤ k ∧ k ≤ 4000 ∧ shift ≤ 4 then .ok else .adjusted) (t.meterRecord m)
          { s with tables := t.tables, flow := t.flow }
      ∧ t.flow.lastTick = s.flow.lastTick
      ∧ ((s.tables.meter m).defined = true → (s.tables.meter m).kFactor = max 1 (min 4000 k) → t.meter m = s.meter m)
      ∧ ((s.tables.meter m).defined = false ∨ (s.tables.meter m).kFactor ≠ max 1 (min 4000 k) → t.meter m = MeterHist.lost)
      ∧ (∀ n, n ≠ m → t.meter n = s.meter n))
    ∧ ((s.tables.meter m).defined = true → s.meterInUse m = false →
      ∃ t : State, exec (.defineMeter tag m 0 k shift) s = .next t
        ∧ t.tables = { s.tables with meters := s.tables.meters.put m MeterDef.absent }
        ∧ t = State.reply 0x13 tag .ok (t.meterRecord m) { s with tables := t.tables, flow := t.flow }
        ∧ t.meter m = MeterHist.lost)
    ∧ ((s.tables.meter m).defined = false → exec (.defineMeter tag m 0 k shift) s = .next (s.refuse 0x13 tag .notDefined))
    ∧ ((s.tables.meter m).defined = true → s.meterInUse m = true →
      exec (.defineMeter tag m 0 k shift) s = .next (s.refuse 0x13 tag .busy))
    ∧ (s.meterInUse m = true ↔ m ≤ 95 ∧ ∃ z ≤ 63, (s.tables.zone z).kind = .balance ∧ (s.tables.zone z).branch = m / 2
        ∧ (s.zone z).st.enabled = true)

/-- A taken definition of an UNDEFINED branch whose valves are complete stores its fields and puts it in INACTIVE, deactivated and
unheld, with no step and no phase timer, moving no valve, its start-hold-pending flag as it was; a redefinition of an INACTIVE
branch replaces segment, park action and nominal flow. A removal, taken when no plan names the branch and its valves are at rest,
leaves it UNDEFINED. No other owner changes. A branch neither UNDEFINED nor INACTIVE, and a removal that a plan or a valve
forbids, is refused BUSY, a definition without its valves NOT_DEFINED. The branch joins the notice pending set. A nominal flow
above 4000 is taken as 4000 and answered ADJUSTED, at a removal too (log 30; log 15 gives what an UNDEFINED branch's slot holds).
-/
def Obligations.DefineBranchTaken : Prop :=
  (∀ (s : State) (tag : Byte) (b defined segment park nominal : Nat), s.Ready → s.Unlocked s.locks.tables → b ≤ 47 → defined ≤ 1 →
    segment ≤ 3 → park ≤ 1 → (s.owner (.branch b)).mode ≠ .undefined → (s.owner (.branch b)).mode ≠ .inactive →
    exec (.defineBranch tag b defined segment park nominal) s = .next (s.refuse 0x14 tag .busy))
  ∧ ∀ (s : State) (tag : Byte) (b segment park nominal : Nat) (p : ParkAction), s.Ready → s.Unlocked s.locks.tables → b ≤ 47 → segment ≤ 3 →
    parkOfCode park = some p → (s.owner (.branch b)).mode = .undefined ∨ (s.owner (.branch b)).mode = .inactive →
    (s.tables.hasValves (.branch b) = true →
      ∃ u : State, exec (.defineBranch tag b 1 segment park nominal) s =
          .next (u.finish.reply 0x14 tag (if nominal ≤ 4000 then .ok else .adjusted) (if nominal ≤ 4000 then [] else u16 4000))
        ∧ (∀ d : BranchDef,
            d = ⟨true, segment, (s.tables.branch b).defined && (s.tables.branch b).activated, p, min 4000 nominal⟩ →
            State.SameButNotices
              { s with owners := u.owners, tables := { s.tables with branches := s.tables.branches.put b d } } u)
        ∧ ((s.tables.branch b).defined = false → (u.owner (.branch b)).mode = .inactive ∧ (u.owner (.branch b)).holds = 0
            ∧ (u.owner (.branch b)).hostHold = false ∧ (u.owner (.branch b)).step = none ∧ (u.owner (.branch b)).phase = none
            ∧ (u.owner (.branch b)).startPending = (s.owner (.branch b)).startPending)
        ∧ (∀ o, o ≠ .branch b → u.owner o = s.owner o)
        ∧ ((s.tables.branch b).defined = true → u.owners = s.owners) ∧ u.link.notices = s.noticesWith (.branch b))
    ∧ (s.tables.planned (.branch b) = false → (∀ v, v / 2 = b → (s.valve v).st.isMoving = false ∧ s.hasEntry v = false) →
      ∃ u : State, exec (.defineBranch tag b 0 segment park nominal) s =
          .next (u.finish.reply 0x14 tag (if nominal ≤ 4000 then .ok else .adjusted) (if nominal ≤ 4000 then [] else u16 4000))
        ∧ State.SameButNotices
            { s with owners := u.owners, tables := { s.tables with branches := s.tables.branches.put b BranchDef.absent } } u
        ∧ (u.owner (.branch b)).mode = .undefined ∧ (u.owner (.branch b)).holds = 0 ∧ (u.owner (.branch b)).hostHold = false
        ∧ (u.owner (.branch b)).step = none ∧ (u.owner (.branch b)).phase = none
        ∧ (u.owner (.branch b)).startPending = (s.owner (.branch b)).startPending
        ∧ (∀ o, o ≠ .branch b → u.owner o = s.owner o)
        ∧ u.link.notices = s.noticesWith (.branch b))
    ∧ (s.tables.hasValves (.branch b) = false →
      exec (.defineBranch tag b 1 segment park nominal) s = .next (s.refuse 0x14 tag .notDefined))
    ∧ (s.tables.planned (.branch b) = true ∨ (∃ v, v / 2 = b ∧ ((s.valve v).st.isMoving = true ∨ s.hasEntry v = true)) →
      exec (.defineBranch tag b 0 segment park nominal) s = .next (s.refuse 0x14 tag .busy))
    ∧ (∀ o, s.tables.planned o = true ↔ ∃ z ≤ 63, o ∈ s.tables.plan z)
    ∧ parkOfCode 0 = some .close ∧ parkOfCode 1 = some .release ∧ (∀ n, 1 < n → parkOfCode n = none)

/-- A taken DEFINE_ZONE stores the parameters brought into range and leaves the zone OFF, with nothing counted; a removal leaves
it UNDEFINED with an empty plan, its parameters brought into range for the STATUS alone (log 30). A BALANCE zone is not failsafe;
a DRIP zone keeps no branch, T or Fmin (log 15 gives what its slot then holds). The zone joins the notice pending set. An enabled
zone is refused BUSY, the removal of an UNDEFINED one NOT_DEFINED. -/
def Obligations.DefineZoneTaken : Prop :=
  (∀ (s : State) (tag : Byte) (z confirm clear branch threshold minFlow : Nat) (defined balance auto failsafe : Bool), s.Ready →
    s.Unlocked s.locks.plan → z ≤ 63 → branch ≤ 47 →
    ((s.zone z).st.enabled = true →
      exec (.defineZone tag z defined.toNat balance.toNat confirm clear auto.toNat failsafe.toNat branch threshold minFlow) s =
        .next (s.refuse 0x15 tag .busy))
    ∧ ((s.zone z).st = .undefined →
      exec (.defineZone tag z 0 balance.toNat confirm clear auto.toNat failsafe.toNat branch threshold minFlow) s =
        .next (s.refuse 0x15 tag .notDefined)))
  ∧ ∀ (s : State) (tag : Byte) (z confirm clear branch threshold minFlow : Nat) (auto failsafe : Bool), s.Ready → s.Unlocked s.locks.plan →
    z ≤ 63 → (s.zone z).st = .off ∨ (s.zone z).st = .undefined →
    (∀ d : ZoneDef,
      d = ⟨true, .drip, max 1 (min 15 confirm), max 1 (min 255 clear), auto, failsafe, 0, 1, 0, false⟩ →
      ∃ t : State, exec (.defineZone tag z 1 0 confirm clear auto.toNat failsafe.toNat branch threshold minFlow) s = .next t
        ∧ State.SameButNotices (State.reply 0x15 tag
            (if d.confirm = confirm ∧ d.clear = clear then .ok else .adjusted) (t.zoneRecord z)
            { s with zones := s.zones.put z (ZoneRec.fresh .off),
                     tables := { s.tables with zones := s.tables.zones.put z d } }) t
        ∧ t.link.notices = s.noticesWith (.zone z))
    ∧ (∀ d : ZoneDef, branch ≤ 47 →
      d = ⟨true, .balance, max 1 (min 15 confirm), max 1 (min 255 clear), auto, false, branch,
        max 1 (min 500 threshold), min 4000 minFlow, false⟩ →
      ∃ t : State, exec (.defineZone tag z 1 1 confirm clear auto.toNat failsafe.toNat branch threshold minFlow) s = .next t
        ∧ State.SameButNotices (State.reply 0x15 tag
            (if d.confirm = confirm ∧ d.clear = clear ∧ d.threshold = threshold ∧ d.minFlow = minFlow then .ok else .adjusted)
            (t.zoneRecord z)
            { s with zones := s.zones.put z (ZoneRec.fresh .off),
                     tables := { s.tables with zones := s.tables.zones.put z d } }) t
        ∧ t.link.notices = s.noticesWith (.zone z))
    ∧ (∀ (balance : Bool) (status : Status), (s.zone z).st = .off → balance = false ∨ branch ≤ 47 →
      status = (if 1 ≤ confirm ∧ confirm ≤ 15 ∧ 1 ≤ clear ∧ clear ≤ 255
          ∧ (balance = true → 1 ≤ threshold ∧ threshold ≤ 500 ∧ minFlow ≤ 4000) then .ok else .adjusted) →
      ∃ t : State,
        exec (.defineZone tag z 0 balance.toNat confirm clear auto.toNat failsafe.toNat branch threshold minFlow) s = .next t
        ∧ State.SameButNotices (State.reply 0x15 tag status (t.zoneRecord z)
            { s with zones := s.zones.put z (ZoneRec.fresh .undefined),
                     tables := { s.tables with zones := s.tables.zones.put z ZoneDef.absent,
                                               plans := s.tables.plans.put z [] } }) t
        ∧ t.link.notices = s.noticesWith (.zone z))

/-- A taken SET_PLAN replaces the zone's plan whole and nothing else, and answers OK with the plan. A number or target that names
nothing is refused BAD_FIELD, a plan of more than 8 targets FULL, an UNDEFINED zone or target NOT_DEFINED, a target named twice
CONFLICT, a zone with a job or a place on the wait list BUSY, in that order. Its targets are read one by one, in order; the number
byte of a target MAIN is not looked at, whatever it holds (log 41). -/
def Obligations.SetPlanTaken : Prop :=
  (∀ (s : State) (tag : Byte) (z : Nat) (targets : List (Nat × Nat)), s.Ready → s.Unlocked s.locks.plan →
    (63 < z ∨ ownersOf targets = none → exec (.setPlan tag z targets) s = .next (s.refuse 0x16 tag .badField))
    ∧ (∀ plan undefined, z ≤ 63 → ownersOf targets = some plan →
      undefined = ((s.zone z).st = .undefined ∨ ∃ o ∈ plan, s.ownerUndefined o = true) →
      (8 < plan.length → exec (.setPlan tag z targets) s = .next (s.refuse 0x16 tag .full))
      ∧ (plan.length ≤ 8 → undefined → exec (.setPlan tag z targets) s = .next (s.refuse 0x16 tag .notDefined))
      ∧ (plan.length ≤ 8 → ¬ undefined → ¬ plan.Nodup → exec (.setPlan tag z targets) s = .next (s.refuse 0x16 tag .conflict))
      ∧ (plan.length ≤ 8 → ¬ undefined → plan.Nodup → s.zoneEngaged z = true →
          exec (.setPlan tag z targets) s = .next (s.refuse 0x16 tag .busy))))
  ∧ ∀ (s : State) (tag : Byte) (z : Nat) (targets : List (Nat × Nat)) (plan : List Owner), s.Ready → s.Unlocked s.locks.plan → z ≤ 63 →
    ownersOf targets = some plan → plan.length ≤ 8 → plan.Nodup → (s.zone z).st ≠ .undefined →
    (∀ o ∈ plan, s.ownerUndefined o = false) → s.zoneEngaged z = false →
    ∃ t : State, exec (.setPlan tag z targets) s = .next t
      ∧ t = State.reply 0x16 tag .ok (t.tables.planRecord z)
          { s with tables := { s.tables with plans := s.tables.plans.put z plan } }
      ∧ t.tables.plan z = plan ∧ (∀ y, y ≠ z → t.tables.plan y = s.tables.plan y)
      ∧ (∀ x os, ownersOf [] = some [] ∧ (ownersOf (x :: targets) = some os ↔
          ∃ o, ownerOfCode x.1 x.2 = some o ∧ os = o :: plan))

/-- SET_LIMITS brings each limit into its range, R into 0..B as adjusted, stores all eight, and is refused BUSY when the window
holds an entry and B, R, N_max or W would change; a refused request changes no limit. -/
def Obligations.SetLimitsTaken : Prop :=
  ∀ (s : State) (tag : Byte) (b r n w ss so d f : Nat) (l : Limits), s.Ready → s.Unlocked s.locks.limits →
    l = ⟨max 1 (min 2000 b), min (max 1 (min 2000 b)) r, max 1 (min 32 n), max 100 (min 10000 w), min 5000 ss, min 5000 so,
      min 10000 d, min 10000 f⟩ →
    (s.sched.window = [] ∨ (l.budget = s.tables.limits.budget ∧ l.reserve = s.tables.limits.reserve
        ∧ l.count = s.tables.limits.count ∧ l.window = s.tables.limits.window) →
      ∃ t : State, exec (.setLimits tag b r n w ss so d f) s = .next t
        ∧ Spared (State.reply 0x17 tag (if l = ⟨b, r, n, w, ss, so, d, f⟩ then .ok else .adjusted) l.bytes
            { s with tables := { s.tables with limits := l } }) t
        ∧ t.zones = s.zones)
    ∧ (s.sched.window ≠ [] → (l.budget ≠ s.tables.limits.budget ∨ l.reserve ≠ s.tables.limits.reserve
        ∨ l.count ≠ s.tables.limits.count ∨ l.window ≠ s.tables.limits.window) →
      exec (.setLimits tag b r n w ss so d f) s = .next (s.refuse 0x17 tag .busy))

/-- SET_PATTERNS stores the four slots; a session refuses it BUSY. SET_NOTICES stores the mask, whatever the locks, and every
object of a kind now off leaves the set, the others keeping their order; a running COMMIT refuses it BUSY, a setting other than on
or off BAD_FIELD. An object that joins the notice pending set where its kind is on stands at its tail, or keeps its place; one
whose kind is masked does not join. -/
def Obligations.PatternsAndMaskStored : Prop :=
  (∀ (s : State) (tag p0 p1 p2 p3 : Byte), s.Ready → s.Unlocked s.locks.limits →
    (s.chain.session = none → exec (.setPatterns tag p0 p1 p2 p3) s =
      .next (State.reply 0x18 tag .ok [p0, p1, p2, p3] { s with tables := { s.tables with patterns := ⟨p0, p1, p2, p3⟩ } }))
    ∧ (s.chain.session ≠ none → exec (.setPatterns tag p0 p1 p2 p3) s = .next (s.refuse 0x18 tag .busy)))
  ∧ (∀ (s : State) (tag : Byte) (m : NoticeMask), s.Ready →
    (s.commit = none →
      exec (.setNotices tag (!m.zone).toNat (!m.branch).toNat (!m.segment).toNat (!m.main).toNat (!m.valve).toNat
          (!m.job).toNat (!m.chain).toNat (!m.inputs).toNat) s =
        .next (State.reply 0x1A tag .ok m.bytes { s with
          tables := { s.tables with mask := m }, link := { s.link with notices := s.link.notices.filter m.on } }))
    ∧ (s.commit ≠ none →
      exec (.setNotices tag (!m.zone).toNat (!m.branch).toNat (!m.segment).toNat (!m.main).toNat (!m.valve).toNat
          (!m.job).toNat (!m.chain).toNat (!m.inputs).toNat) s = .next (s.refuse 0x1A tag .busy)))
  ∧ (∀ (s : State) (tag : Byte) (zone branch segment main valve job chain inputs : Nat), s.Ready →
    (∃ x ∈ [zone, branch, segment, main, valve, job, chain, inputs], 1 < x) →
    exec (.setNotices tag zone branch segment main valve job chain inputs) s = .next (s.refuse 0x1A tag .badField))
  ∧ (∀ (s : State) (o : Obj), s.joinNotice o = { s with link := { s.link with notices := s.noticesWith o } })
  ∧ (∀ (m : NoticeMask) (n : Nat), m.on (.zone n) = m.zone ∧ m.on (.branch n) = m.branch ∧ m.on (.segment n) = m.segment
    ∧ m.on .main = m.main ∧ m.on (.valve n) = m.valve ∧ m.on (.job n) = m.job ∧ m.on .chain = m.chain ∧ m.on .inputs = m.inputs)

/-- SET_SCAN stores the seven settings, the interval and the gap brought into range. A shortened interval that has passed already
gives a PERIODIC trigger at once; enabling IMAGE while the image differs gives an IMAGE trigger at once. (That the bit rate
crosses the link as a code of one byte is log 59.) -/
def Obligations.SetScanTaken : Prop :=
  ∀ (s : State) (tag : Byte) (image attention first wet : Bool) (interval rate gap kbit : Nat) (c : ScanSettings), s.Ready →
    s.Unlocked s.locks.limits → rateOfCode rate = some kbit →
    c = ⟨image, attention, max 5 (min 1000 interval), first, kbit, max 10 (min 1000 gap), wet⟩ →
    ∃ t : State, exec (.setScan tag (!image).toNat (!attention).toNat interval first.toNat rate gap wet.toNat) s = .next t
      ∧ Spared (State.reply 0x19 tag (if c.interval = interval ∧ c.gap = gap then .ok else .adjusted) c.bytes
          { s with tables := { s.tables with scan := c }, periodicFrom := t.periodicFrom }) t
      ∧ t.zones = s.zones
      ∧ (∀ since, s.periodicFrom = some since → c.interval ≠ s.tables.scan.interval →
          since + c.interval * 2000 ≤ s.clock → t.scanDue = true ∧ t.periodicFrom = some s.clock)
      ∧ [0, 1, 2, 3, 4].map rateOfCode = [some 125, some 250, some 500, some 1000, some 2000] ∧ (∀ n, 4 < n → rateOfCode n = none)
      ∧ (∀ since, s.periodicFrom = some since →
          (c.interval = s.tables.scan.interval ∨ s.clock < since + c.interval * 2000) → t.periodicFrom = s.periodicFrom)
      ∧ (s.periodicFrom = none → t.periodicFrom = none)
      ∧ (s.tables.scan.image = false → image = true → s.image.out ≠ s.image.copy → t.scanDue = true)

/-- LOCK sets every lock it names as set and clears none. While its lock is set, each request of a lock group whose fields are in
range is refused LOCKED; while its lock is clear and a COMMIT runs, it is refused BUSY. A refusal changes nothing. (In range
counts what the model takes: a MAP_POSITION whatever the number or level byte its function does not take, log 49, a target MAIN
whatever its number byte, log 41, a bit rate by its code, log 59. That DEFINE_METER and SET_PATTERNS look at the lock, then at the
COMMIT, before the state of any object is log 63.) -/
def Obligations.LockedRequestsRefused : Prop :=
  (∀ (s : State) (tag : Byte) (a b c : Bool), s.Ready →
    ∃ l : Locks, exec (.lock tag a.toNat b.toNat c.toNat) s = .next (State.reply 0x50 tag .ok l.bytes { s with locks := l })
      ∧ l = ⟨s.locks.tables || a, s.locks.plan || b, s.locks.limits || c⟩)
  ∧ (∀ (s : State) (tag : Byte) (st : Status), s.Ready →
    ((s.locks.tables = true ∧ st = .locked) ∨ (s.locks.tables = false ∧ s.commit ≠ none ∧ st = .busy) →
      (∀ card defined width, card ≤ 15 → defined ≤ 1 →
        exec (.defineCard tag card defined width) s = .next (s.refuse 0x10 tag st))
      ∧ (∀ card offset function number level fn, card ≤ 15 → offset < s.tables.cards.getD card 0 →
        mapFnOfCode function number level = some fn →
        exec (.mapPosition tag card offset function number level) s = .next (s.refuse 0x11 tag st))
      ∧ (∀ v present stroke fail, v ≤ 105 → present ≤ 1 → fail ≤ 1 →
        exec (.defineValve tag v present stroke fail) s = .next (s.refuse 0x12 tag st))
      ∧ (∀ m defined k shift, m ≤ 96 → defined ≤ 1 →
        exec (.defineMeter tag m defined k shift) s = .next (s.refuse 0x13 tag st))
      ∧ (∀ b defined segment park nominal, b ≤ 47 → defined ≤ 1 → segment ≤ 3 → park ≤ 1 →
        exec (.defineBranch tag b defined segment park nominal) s = .next (s.refuse 0x14 tag st)))
    ∧ ((s.locks.plan = true ∧ st = .locked) ∨ (s.locks.plan = false ∧ s.commit ≠ none ∧ st = .busy) →
      (∀ z defined kind k c auto failsafe branch th mf, z ≤ 63 → defined ≤ 1 → kind ≤ 1 → auto ≤ 1 → failsafe ≤ 1 →
        (kind = 1 → branch ≤ 47) → exec (.defineZone tag z defined kind k c auto failsafe branch th mf) s = .next (s.refuse 0x15 tag st))
      ∧ (∀ z targets plan, z ≤ 63 → ownersOf targets = some plan → plan.length ≤ 8 →
        exec (.setPlan tag z targets) s = .next (s.refuse 0x16 tag st)))
    ∧ ((s.locks.limits = true ∧ st = .locked) ∨ (s.locks.limits = false ∧ s.commit ≠ none ∧ st = .busy) →
      (∀ b r n w ss so d f, exec (.setLimits tag b r n w ss so d f) s = .next (s.refuse 0x17 tag st))
      ∧ (∀ p0 p1 p2 p3, exec (.setPatterns tag p0 p1 p2 p3) s = .next (s.refuse 0x18 tag st))
      ∧ (∀ image attention interval priority rate gap wet, image ≤ 1 → attention ≤ 1 → priority ≤ 1 → rate ≤ 4 → wet ≤ 1 →
        exec (.setScan tag image attention interval priority rate gap wet) s = .next (s.refuse 0x19 tag st))))

/-! ## Requests that command -/

/-- ACTIVATE and DEACTIVATE set the activated flag as asked, the branch then re-evaluates (`HostHolds` says what that does), and
the reply is OK with the branch state after the event; the branch joins the notice pending set. One that finds the flag as asked
changes nothing. (That the change of the flag alone adds the branch is the model's reading, log 22.) -/
def Obligations.ActivatedFlagSet : Prop :=
  ∀ (s : State) (tag : Byte) (b : Nat), s.Ready → b ≤ 47 → (s.tables.branch b).defined = true →
    ((s.tables.branch b).activated = false →
      ∃ x u : State, exec (.activate tag b) s =
          .next (u.finish.reply 0x20 tag .ok (u8 (u.finish.owner (.branch b)).mode.branchCode))
        ∧ State.SameButNotices { s with tables := { s.tables with
            branches := s.tables.branches.put b { s.tables.branch b with activated := true } } } x
        ∧ x.link.notices = s.noticesWith (.branch b)
        ∧ u = x.evaluate (.branch b) ∧ Spared x u ∧ u.zones = s.zones ∧ u.valves = s.valves ∧ u.jobs = s.jobs)
    ∧ ((s.tables.branch b).activated = true →
      ∃ x u : State, exec (.deactivate tag b) s =
          .next (u.finish.reply 0x21 tag .ok (u8 (u.finish.owner (.branch b)).mode.branchCode))
        ∧ State.SameButNotices { s with tables := { s.tables with
            branches := s.tables.branches.put b { s.tables.branch b with activated := false } } } x
        ∧ x.link.notices = s.noticesWith (.branch b)
        ∧ u = x.evaluate (.branch b) ∧ Spared x u ∧ u.zones = s.zones ∧ u.valves = s.valves ∧ u.jobs = s.jobs)
    ∧ ((s.tables.branch b).activated = true →
      exec (.activate tag b) s = .next (s.reply 0x20 tag .ok (u8 (s.owner (.branch b)).mode.branchCode)))
    ∧ ((s.tables.branch b).activated = false →
      exec (.deactivate tag b) s = .next (s.reply 0x21 tag .ok (u8 (s.owner (.branch b)).mode.branchCode)))

/-- HOLD sets the host-hold flag and raises the hold count by one; UNHOLD clears it and lowers the count by one. Where the count
leaves 0 or reaches 0 the owner re-evaluates. The owner joins the notice pending set. Either is answered OK with the count and
state after the request. HOLD on a flag already set is refused HELD, UNHOLD on a clear one BUSY, and both change nothing.
Re-evaluation: a held owner isolates; an unheld activated branch restores under an open path and suspends under a closed one; an
unheld unactivated branch parks; an unheld segment or main restores. An owner in the end state of that outcome or on its way there
goes on; an UNDEFINED, FAILED or NO_VALVES owner, or one not yet derived, stays as it is; any other gives up its queue entries, a
branch that leaves INACTIVE its maintenance entries, also where it is at once in the end state; the shock window and the
last-start times stand. It begins the course (`Begins`): it is suspended, or comes to the first step of the sequence of section
1.7 whose valve is not in place, placing that step's entry where the valve stands or moves elsewhere, or is in the end state where
both valves stand there. A segment or the main that enters or leaves OPEN or NO_VALVES makes its branches re-evaluate, in
ascending order. An UNDEFINED branch is refused NOT_DEFINED, a kind or number that names no owner BAD_FIELD; the number byte of
MAIN is not looked at, whatever it holds (log 41). (`u` is the state at the end of the request's own effect; with no job in the
table the owners there are the owners after the event, `ConsequencesSpare`. That an owner joins at any change of its record is log
22.) -/
def Obligations.HostHolds : Prop :=
  (∀ (s : State) (tag : Byte) (kind number : Nat) (o : Owner), s.Ready → ownerOfCode kind number = some o →
    s.ownerUndefined o = false →
    ((s.owner o).hostHold = false →
      ∃ x u : State, exec (.hold tag kind number) s =
          .next (u.finish.reply 0x22 tag .ok (u8 (u.finish.owner o).holds ++ u8 (ownerModeCode o (u.finish.owner o).mode)))
        ∧ State.SameButNotices { s with
            owners := s.owners.put o.index { s.owner o with hostHold := true, holds := (s.owner o).holds + 1 } } x
        ∧ x.link.notices = s.noticesWith o.obj
        ∧ u = (if (s.owner o).holds = 0 then x.evaluate o else x)
        ∧ (u.owner o).hostHold = true ∧ (u.owner o).holds = (s.owner o).holds + 1
        ∧ Spared s u ∧ u.zones = s.zones ∧ u.valves = s.valves ∧ u.jobs = s.jobs ∧ u.image = s.image)
    ∧ ((s.owner o).hostHold = true → exec (.hold tag kind number) s = .next (s.refuse 0x22 tag .held))
    ∧ ((s.owner o).hostHold = true →
      ∃ x u : State, exec (.unhold tag kind number) s =
          .next (u.finish.reply 0x23 tag .ok (u8 (u.finish.owner o).holds ++ u8 (ownerModeCode o (u.finish.owner o).mode)))
        ∧ State.SameButNotices { s with
            owners := s.owners.put o.index { s.owner o with hostHold := false, holds := (s.owner o).holds - 1 } } x
        ∧ x.link.notices = s.noticesWith o.obj
        ∧ u = (if (s.owner o).holds = 1 then x.evaluate o else x)
        ∧ (u.owner o).hostHold = false ∧ (u.owner o).holds = (s.owner o).holds - 1
        ∧ Spared s u ∧ u.zones = s.zones ∧ u.valves = s.valves ∧ u.jobs = s.jobs ∧ u.image = s.image)
    ∧ ((s.owner o).hostHold = false → exec (.unhold tag kind number) s = .next (s.refuse 0x23 tag .busy)))
  ∧ (∀ (x y : State) (o : Owner), WellFormed.owner o = true → y = x.evaluateOne o →
    (0 < (x.owner o).holds → x.outcome o = .isolate)
    ∧ ((x.owner o).holds = 0 →
      (∀ b, o = .branch b →
        ((x.tables.branch b).activated = true → x.pathOpen b = true → x.outcome o = .restore)
        ∧ ((x.tables.branch b).activated = true → x.pathOpen b = false → x.outcome o = .suspend)
        ∧ ((x.tables.branch b).activated = false → x.outcome o = .park))
      ∧ ((∀ b, o ≠ .branch b) → x.outcome o = .restore))
    ∧ ((x.owner o).settled = false ∨ (x.owner o).mode ∈ [.undefined, .failed, .noValves]
        ∨ (x.owner o).mode.follows (x.outcome o) = true → y = x)
    ∧ (∀ q, q = x.sched.queue.filter (fun e => !e.isOf o && !((x.owner o).mode == .inactive && e.isMaintenanceOf o)) →
      (x.owner o).settled = true → (x.owner o).mode ∉ [.undefined, .failed, .noValves] →
      (x.owner o).mode.follows (x.outcome o) = false →
      x.Begins y o (x.outcome o) q
        ∧ (∀ m v w d, (x.outcome o, m) ∈ [(.isolate, .isolating), (.restore, .restoring), (.park, .parking)] →
            x.sequence o m = (v, w, d) → (x.valve v).st = (d.target (x.tables.valve v).fail).idle →
            (x.valve w).st = (d.target (x.tables.valve w).fail).idle → y.sched.queue = q)
        ∧ y.sched = { x.sched with queue := y.sched.queue, lookDue := y.sched.lookDue } ∧ Spared x y ∧ y.valves = x.valves ∧ y.zones = x.zones ∧ y.jobs = x.jobs ∧ y.image = x.image
        ∧ (y.owner o).holds = (x.owner o).holds ∧ (y.owner o).hostHold = (x.owner o).hostHold
        ∧ (∀ n, WellFormed.owner n = true → n ≠ o → y.owner n = x.owner n))
    ∧ x.evaluate o = x.ownerOp o (fun z => z.evaluateOne o)
    ∧ (∀ b, o = .branch b → x.evaluate o = y))
  ∧ (∀ (x y : State) (o : Owner) (f : State → State), y = f x → x.ownerOp o f =
      if ((x.owner o).mode = .opened ∨ (x.owner o).mode = .noValves) ↔ ((y.owner o).mode = .opened ∨ (y.owner o).mode = .noValves)
      then y
      else ((List.range 48).filter fun b => decide (o = .main ∨ o = .segment (y.tables.branch b).segment)).foldl
        (fun z b => z.evaluateOne (.branch b)) y)
  ∧ (∀ n, [Owner.branch n, .segment n, .main].map Owner.supplyValve = [2 * n, 96 + 2 * n, 104]
    ∧ [Owner.branch n, .segment n, .main].map Owner.returnValve = [2 * n + 1, 97 + 2 * n, 105])
  ∧ (∀ n kind, ownerOfCode 0 n = (if n ≤ 47 then some (.branch n) else none)
    ∧ ownerOfCode 1 n = (if n ≤ 3 then some (.segment n) else none) ∧ ownerOfCode 2 n = some .main
    ∧ (2 < kind → ownerOfCode kind n = none))
  ∧ (∀ (s : State) (tag : Byte) (kind number : Nat), s.Ready →
    (ownerOfCode kind number = none → exec (.hold tag kind number) s = .next (s.refuse 0x22 tag .badField)
      ∧ exec (.unhold tag kind number) s = .next (s.refuse 0x23 tag .badField))
    ∧ (∀ o, ownerOfCode kind number = some o → s.ownerUndefined o = true →
      exec (.hold tag kind number) s = .next (s.refuse 0x22 tag .notDefined)
      ∧ exec (.unhold tag kind number) s = .next (s.refuse 0x23 tag .notDefined)))
  ∧ (∀ (s : State) (o : Owner) (e : MoveEntry),
    (s.ownerUndefined o = true ↔ ∃ b, o = .branch b ∧ (s.tables.branch b).defined = false)
    ∧ (∀ b, s.pathOpen b = true ↔ ∀ n, n = .main ∨ n = .segment (s.tables.branch b).segment →
        (s.owner n).mode = .opened ∨ (s.owner n).mode = .noValves)
    ∧ s.stepMove o 1 = ((s.sequence o (s.owner o).mode).1, (s.sequence o (s.owner o).mode).2.2)
    ∧ s.stepMove o 3 = (s.sequence o (s.owner o).mode).2
    ∧ (e.isOf o = true ↔ ∃ k, e.req = .step o k)
    ∧ (e.isMaintenanceOf o = true ↔ e.req = .maintenance ∧ (e.valve = o.supplyValve ∨ e.valve = o.returnValve)))
  ∧ (∀ (m : OwnerMode) (out : Outcome), m.follows out = true ↔ (out, m) ∈ [(.isolate, .isolating), (.isolate, .isolated),
      (.restore, .restoring), (.restore, .inService), (.restore, .opened), (.suspend, .suspended), (.park, .parking),
      (.park, .inactive)])
  ∧ (∀ b, [.isolating, .restoring, .parking].map (OwnerMode.endMode (.branch b)) = [.isolated, .inService, .inactive])
  ∧ (∀ o, (∀ b, o ≠ .branch b) → [.isolating, .restoring].map (OwnerMode.endMode o) = [.isolated, .opened])

/-- ACK_ZONE with declare-dry no takes a WET zone to ACKED, keeping its dry run, last wet cause and time entered WET; a zone in
any other state is refused BUSY. With declare-dry yes it takes a BALANCE zone in WET or ACKED whose branch is not IN_SERVICE to
DRY, its counters 0 and its cause and time absent, and the zone leaves the wait list; otherwise it is refused BUSY. A zone that
changes state joins the notice pending set. An ACK_ZONE whose declare-dry byte is 1 is the ACK_ZONE with declare-dry yes. A zone
above 63 or a declare-dry byte above 1 is refused BAD_FIELD, an UNDEFINED zone NOT_DEFINED. (That cause and time go absent from
WET too is log 53.) -/
def Obligations.ZoneAcknowledged : Prop :=
  (∀ (s : State) (tag : Byte) (z : Nat), s.Ready →
    exec (.ackZone tag z 1) s = exec (.ackZoneDeclareDry tag z) s
    ∧ (∀ d, 1 < d → exec (.ackZone tag z d) s = .next (s.refuse 0x24 tag .badField))
    ∧ (63 < z → exec (.ackZone tag z 0) s = .next (s.refuse 0x24 tag .badField)
        ∧ exec (.ackZoneDeclareDry tag z) s = .next (s.refuse 0x24 tag .badField))
    ∧ (z ≤ 63 → (s.zone z).st = .undefined → exec (.ackZone tag z 0) s = .next (s.refuse 0x24 tag .notDefined)
        ∧ exec (.ackZoneDeclareDry tag z) s = .next (s.refuse 0x24 tag .notDefined)))
  ∧ ∀ (s : State) (tag : Byte) (z : Nat), s.Ready → z ≤ 63 → (s.zone z).st ≠ .undefined →
    ((s.zone z).st = .wet →
      ∃ t : State, exec (.ackZone tag z 0) s = .next t
        ∧ State.SameButNotices (State.reply 0x24 tag .ok (t.zoneRecord z)
            { s with zones := s.zones.put z { s.zone z with st := .acked } }) t
        ∧ t.link.notices = s.noticesWith (.zone z))
    ∧ ((s.zone z).st ≠ .wet → exec (.ackZone tag z 0) s = .next (s.refuse 0x24 tag .busy))
    ∧ ((s.tables.zone z).kind = .balance → (s.zone z).st = .wet ∨ (s.zone z).st = .acked →
      (s.owner (.branch (s.tables.zone z).branch)).mode ≠ .inService →
      ∃ t : State, exec (.ackZoneDeclareDry tag z) s = .next t
        ∧ Spared (State.reply 0x24 tag .ok (t.zoneRecord z) s) t ∧ t.zones = s.zones.put z (ZoneRec.fresh .dry)
        ∧ t.waitList = s.waitList.filter (fun x => x != z) ∧ (∀ k, (t.job k).isSome = (s.job k).isSome)
        ∧ t.Noticed (.zone z))
    ∧ ((s.tables.zone z).kind = .drip ∨ ((s.zone z).st ≠ .wet ∧ (s.zone z).st ≠ .acked)
        ∨ (s.owner (.branch (s.tables.zone z).branch)).mode = .inService →
      exec (.ackZoneDeclareDry tag z) s = .next (s.refuse 0x24 tag .busy))

/-- RELEASE_JOB of a DRY zone releases its job: every hold of the job comes off, the count of each owner its entries name falling
by one; the reply counts the owners with one hold, those that reach 0, and names the slot. With nobody waiting the slot becomes
free, else the zone at the head of the wait list gets a job in it, each owner of its plan a hold. Whichever owner's count leaves 0
or reaches it re-evaluates there and then (`HoldsMove`; what an evaluation does is `HostHolds`). An owner on its isolate course
that is held when both are done goes on as if its hold count had not moved: state, step and phase timer stand, the entries for its
valves stand in their order, no move of its own is queued. The slot joins the notice pending set. A zone in any other state is
refused NOT_ACKED. (`v` is the state when the new job, if any, is there, its escalations included, `u` the state at the end of the
request's own effect; that the new holds come before the old ones go, and which evaluations make a look due, is log 52.) -/
def Obligations.ReleaseJobTaken : Prop :=
  ∀ (s : State) (tag : Byte) (z slot : Nat), s.Ready → z ≤ 63 → s.jobSlotOf z = some slot → (s.zone z).st ≠ .undefined →
    ((s.zone z).st = .dry →
      ∃ (t u v : State) (j : Job) (reached : Nat), exec (.releaseJob tag z) s = .next t ∧ s.job slot = some j ∧ j.zone = z
        ∧ t = u.finish.reply 0x25 tag .ok (u8 reached ++ u8 slot)
        ∧ reached = (j.entries.filter fun e => (s.owner e.target).holds == 1).length
        ∧ v = (s.setJob slot none).offerSlot slot ∧ (s.waitList = [] → v = s.setJob slot none)
        ∧ (∀ w rest, s.waitList = w :: rest → ∃ x y : State,
            State.SameButNotices { s with waitList := rest, jobs := (s.jobs.put slot
              (some ⟨w, s.ms, (s.tables.plan w).map fun o => ⟨o, none, .absent, .waiting⟩, .active⟩)) } x
            ∧ State.HoldsMove (· + 1) (s.tables.plan w) x y ∧ State.Escalations y.rederiveJobs v)
        ∧ State.HoldsMove (· - 1) (j.entries.map (·.target)) v (v.dropHolds j.entries)
        ∧ (∀ x, x = v.dropHolds j.entries →
            State.SameButNotices { x with sched := { x.sched with lookDue := u.sched.lookDue } } u)
        ∧ ((((s.setJob slot none).dropHolds j.entries).offerSlot slot).sched.lookDue = true → u.sched.lookDue = true)
        ∧ (∀ o, WellFormed.owner o = true → (v.owner o).hostHold = (s.owner o).hostHold
            ∧ (s.owner o).holds ≤ (v.owner o).holds
            ∧ ∀ w rest, s.waitList = w :: rest → (s.owner o).holds + (s.tables.plan w).count o ≤ (v.owner o).holds)
        ∧ ((j.entries.map (·.target)).Nodup → (∀ e ∈ j.entries, WellFormed.owner e.target = true) →
            ∀ o, WellFormed.owner o = true →
              (u.owner o).holds = (v.owner o).holds - (if o ∈ j.entries.map (·.target) then 1 else 0)
              ∧ (u.owner o).hostHold = (v.owner o).hostHold)
        ∧ ((∀ b, (s.tables.branch b).segment ≤ 3) → (∀ y, ∀ n ∈ s.tables.plan y, WellFormed.owner n = true) →
            (∀ e ∈ j.entries, WellFormed.owner e.target = true) →
            ∀ o, WellFormed.owner o = true → s.Isolates o → 0 < (u.owner o).holds → s.CourseKept u o)
        ∧ Spared (State.reply 0x25 tag .ok (u8 reached ++ u8 slot) s) t ∧ t.zones = s.zones ∧ t.waitList = s.waitList.tail
        ∧ (s.waitList = [] → t.job slot = none)
        ∧ (∀ w rest, s.waitList = w :: rest → ∃ j', t.job slot = some j' ∧ j'.zone = w ∧ j'.created = s.ms)
        ∧ (∀ k, k ≠ slot → (t.job k).isSome = (s.job k).isSome) ∧ t.Noticed (.job slot))
    ∧ ((s.zone z).st ≠ .dry → exec (.releaseJob tag z) s = .next (s.refuse 0x25 tag .notAcked))

/-- CLEAR_FAULT sets a valve in FAULT to UNKNOWN, clears its fault cause, mismatch run and latest reading, keeps its drive bit,
and answers OK at once; the valve joins the notice pending set. A valve in any other state is refused BUSY. -/
def Obligations.ClearFaultTaken : Prop :=
  ∀ (s : State) (tag : Byte) (v : Nat), s.Ready → v ≤ 105 → (s.tables.valve v).present = true →
    ((s.valve v).st = .fault →
      ∃ (t : State) (r : ValveRec), exec (.clearFault tag v) s = .next t
        ∧ r = { s.valve v with st := .unknown, cause := none, mismatch := 0, latest := none }
        ∧ State.SameButNotices (State.reply 0x26 tag .ok [] { s with valves := s.valves.put v r }) t
        ∧ t.link.notices = s.noticesWith (.valve v))
    ∧ ((s.valve v).st ≠ .fault → exec (.clearFault tag v) s = .next (s.refuse 0x26 tag .busy))

/-- ZONE_ENABLE on takes an OFF zone to DRY with nothing counted, in every chain state, but for a failsafe DRIP zone in BROKEN,
which goes on to WET with cause CHAIN_LOSS; off takes a DRY or SUSPECT zone with neither job nor wait-list place to OFF, and is
refused BUSY for one that has either and for a WET or ACKED zone. On for an enabled zone and off for an OFF one are answered OK
and change nothing. A zone that changes state joins the notice pending set. An UNDEFINED zone is refused NOT_DEFINED, a number
above 63 and a setting other than on or off BAD_FIELD. -/
def Obligations.ZoneEnableTaken : Prop :=
  ∀ (s : State) (tag : Byte) (z : Nat), s.Ready →
    (z ≤ 63 →
      ((s.zone z).st = .off →
          s.chain.st ≠ .broken ∨ (s.tables.zone z).kind = .balance ∨ (s.tables.zone z).failsafe = false →
        ∃ t : State, exec (.zoneEnable tag z 0) s = .next t
          ∧ Spared (State.reply 0x27 tag .ok (t.zoneRecord z) { s with tables := { s.tables with
              zones := s.tables.zones.put z { s.tables.zone z with enabled := true } } }) t
          ∧ t.zones = s.zones.put z (ZoneRec.fresh .dry) ∧ t.Noticed (.zone z))
      ∧ ((s.zone z).st = .off → s.chain.st = .broken → (s.tables.zone z).kind = .drip → (s.tables.zone z).failsafe = true →
        ∃ t : State, exec (.zoneEnable tag z 0) s = .next t
          ∧ Spared (State.reply 0x27 tag .ok (t.zoneRecord z) { s with tables := { s.tables with
              zones := s.tables.zones.put z { s.tables.zone z with enabled := true } } }) t
          ∧ t.zones = s.zones.put z ⟨.wet, 0, 0, some .chainLoss, some s.ms⟩ ∧ t.Noticed (.zone z))
      ∧ ((s.zone z).st = .dry ∨ (s.zone z).st = .suspect ∨ (s.zone z).st = .wet ∨ (s.zone z).st = .acked →
        exec (.zoneEnable tag z 0) s = .next (s.reply 0x27 tag .ok (s.zoneRecord z)))
      ∧ ((s.zone z).st = .off → exec (.zoneEnable tag z 1) s = .next (s.reply 0x27 tag .ok (s.zoneRecord z)))
      ∧ ((s.zone z).st = .dry ∨ (s.zone z).st = .suspect → s.zoneEngaged z = false →
        ∃ t : State, exec (.zoneEnable tag z 1) s = .next t
          ∧ State.SameButNotices (State.reply 0x27 tag .ok (t.zoneRecord z)
              { s with zones := s.zones.put z (ZoneRec.fresh .off), tables := { s.tables with
                zones := s.tables.zones.put z { s.tables.zone z with enabled := false } } }) t
          ∧ t.link.notices = s.noticesWith (.zone z))
      ∧ ((s.zone z).st = .wet ∨ (s.zone z).st = .acked
          ∨ (((s.zone z).st = .dry ∨ (s.zone z).st = .suspect) ∧ s.zoneEngaged z = true) →
        exec (.zoneEnable tag z 1) s = .next (s.refuse 0x27 tag .busy))
      ∧ ((s.zone z).st = .undefined → ∀ setting ≤ 1,
        exec (.zoneEnable tag z setting) s = .next (s.refuse 0x27 tag .notDefined)))
    ∧ (∀ setting, 63 < z ∨ 1 < setting → exec (.zoneEnable tag z setting) s = .next (s.refuse 0x27 tag .badField))
    ∧ (s.zoneEngaged z = true ↔ (∃ k j, s.job k = some j ∧ j.zone = z) ∨ z ∈ s.waitList)

/-- VALVE_MOVE of a valve of an INACTIVE branch: idle elsewhere or moving away it gets a ROUTINE maintenance entry, replacing
any entry it had; standing there or moving there it gets nothing and loses its entry. A segment or main valve is refused BUSY. -/
def Obligations.ValveMoveTaken : Prop :=
  ∀ (s : State) (tag : Byte) (v code : Nat) (d : Dir) (p : Pos), s.Ready → dirOfCode code = some d → v ≤ 105 →
    (s.tables.valve v).present = true → p = d.target (s.tables.valve v).fail →
    (v ≤ 95 → (s.owner (.branch (v / 2))).mode = .inactive → (s.valve v).st ≠ .unknown → (s.valve v).st ≠ .fault →
      ∃ u : State, exec (.valveMove tag v code) s = .next (u.finish.reply 0x28 tag .ok [])
        ∧ ((s.valve v).st ≠ p.idle → (s.valve v).st ≠ p.moving → u.sched.queue =
            s.sched.queue.filter (fun e => e.valve != v) ++ [⟨v, d, false, .maintenance, s.ms⟩])
        ∧ ((s.valve v).st = p.idle ∨ (s.valve v).st = p.moving →
            u.sched.queue = s.sched.queue.filter (fun e => e.valve != v))
        ∧ u = { s with sched := { s.sched with queue := u.sched.queue, lookDue := u.sched.lookDue } })
    ∧ (96 ≤ v → exec (.valveMove tag v code) s = .next (s.refuse 0x28 tag .busy))
    ∧ [0, 1, 2].map dirOfCode = [some .openMove, some .closeMove, some .release] ∧ (∀ n, 2 < n → dirOfCode n = none)

/-- SCAN_NOW makes a scan due in every chain state and answers OK at once with the chain state, the flag, whether a SCAN is in
flight, and the age (a SCAN that a card table change overtook is in flight no more, log 43; the age is rounded down to a ms, log
42). An expiry of the periodic timer makes one due and restarts the timer (one taken late stands at the clock, log 2). A falling
edge of ATTN_N makes one due where the ATTENTION trigger is enabled; it ends a session: in WAITING and between frames at once,
with ABORTED and a scan due, the chain RUNNING and noticed where it was PROVING; with a frame in flight the session is marked, to
end with that frame. The consequences follow, nothing else changes. -/
def Obligations.TriggersMakeScanDue : Prop :=
  ∀ (s : State) (tag : Byte), s.power.running = true →
    (s.canDispatch = true → exec (.scanNow tag) s = .next (State.reply 0x30 tag .ok
      (u8 s.chain.st.code ++ [1] ++ flag s.scanInFlight ++ u16 s.age) { s with scanDue := true }))
    ∧ (s.scanInFlight = true ↔ ∃ f, s.chain.inFlight = some f ∧ f.purpose.kind = .scan ∧ f.unchecked = false)
    ∧ (∀ since now, s.periodicFrom = some since → now = max s.clock (since + s.tables.scan.interval * 2000) →
      exec .periodic s = .next { s with clock := now, scanDue := true, periodicFrom := some now })
    ∧ (s.chain.session = none →
      exec .attention s = .next { s with scanDue := s.scanDue || s.tables.scan.attention })
    ∧ (∀ p, s.chain.session = some p →
      (p.frames = false → ∃ t : State, exec .attention s = .next t ∧ t.chain = { s.chain with session := none }
        ∧ t.scanDue = true ∧ t.link.replies = s.link.replies ++ [⟨0x32, p.tag, .aborted, []⟩]
        ∧ t = State.finish { s.sessionOver p s.chain.st .aborted [] with scanDue := true })
      ∧ (p.frames = true → s.chain.inFlight = none → ∃ t : State, exec .attention s = .next t ∧ t.chain.session = none
        ∧ t.chain.st = .running ∧ t.scanDue = true ∧ t.link.replies = s.link.replies ++ [⟨0x32, p.tag, .aborted, p.results⟩]
        ∧ s.RunOver t p .aborted)
      ∧ (p.frames = true → s.chain.inFlight ≠ none → exec .attention s = .next { s with
          scanDue := s.scanDue || s.tables.scan.attention
          chain := { s.chain with session := some { p with abort := true } } }))

/-- A taken PROVE creates the session in phase WAITING, with the tag, the format and the start index of the request, its count
brought into 2..8, nothing sent, counted or compared, no card's results, and changes nothing else; it is refused BUSY outside
RUNNING, while a session exists, while a job is ACTIVE, and while anything is queued or moving. -/
def Obligations.ProveTaken : Prop :=
  ∀ (s : State) (tag : Byte) (format start count : Nat), s.Ready → format ≤ 1 → start ≤ 3 →
    (s.chain.st = .running → s.chain.session = none → s.activeJobs = 0 → s.movesPending = false →
      ∃ p : Session, exec (.prove tag format start count) s = .next { s with chain := { s.chain with session := some p } }
        ∧ p.tag = tag ∧ (p.staggered = true ↔ format = 1) ∧ p.start = start ∧ p.count = max 2 (min 8 count)
        ∧ p.frames = false ∧ (p.adjusted = true ↔ ¬ (2 ≤ count ∧ count ≤ 8)) ∧ (p.waitHead = true ↔ s.chain.queue ≠ [])
        ∧ p = ⟨tag, p.staggered, start, p.count, p.adjusted, false, p.waitHead, .test 0, false, 0, 0, 0, false, []⟩)
    ∧ (s.chain.st ≠ .running ∨ s.chain.session ≠ none ∨ s.activeJobs ≠ 0 ∨ s.movesPending = true →
      exec (.prove tag format start count) s = .next (s.refuse 0x32 tag .busy))
    ∧ (s.movesPending = true ↔ s.sched.queue ≠ [] ∨ ∃ v, (s.valve v).st = .opening ∨ (s.valve v).st = .closing)

/-- WRITE_OUTPUTS that passes every check writes every named value into the output image; an IMAGE trigger follows where a bit
changed, the image differs from the last-sent copy and the trigger is enabled. The reply carries, for each entry in order, the OUT
number of its position and the value written. -/
def Obligations.WriteOutputsTaken : Prop :=
  ∀ (s : State) (tag : Byte) (entries : List (Nat × Nat)) (out : List Bool), s.Ready → s.chain.adopted = true →
    s.chain.st ≠ .proving → entries ≠ [] → entries.length ≤ 32 → (∀ e ∈ entries, e.2 ≤ 1) →
    (∀ e ∈ entries, e.1 < s.tables.length) → (entries.map (·.1)).Nodup → (∀ e ∈ entries, (s.tables.outNumber e.1).isSome) →
    s.image.out.length = s.tables.length → out = writeBits s.image.out entries →
    ∃ t : State, exec (.writeOutputs tag entries) s = .next t
      ∧ t = State.reply 0x33 tag .ok
          (encList (fun e => u8 ((s.tables.outNumber e.1).getD 0) ++ flag (e.2 == 1)) entries) { s with
          image := { s.image with out := out }
          scanDue := s.scanDue || (out != s.image.out && out != s.image.copy && s.tables.scan.image) }
      ∧ (∀ e ∈ entries, bitAt out e.1 = (e.2 == 1))
      ∧ (∀ p, p ∉ entries.map (·.1) → bitAt out p = bitAt s.image.out p)
      ∧ (∀ p n, s.tables.outNumber p = some n ↔ ∃ e, s.tables.entryAtPos p = some e ∧ e.fn = .out n)

/-- A taken COMMIT copies the table store as its snapshot and clears the copy-valid flag, its reply deferred; a second is refused
BUSY. When the write ends, whether the link may dispatch or not, and the check agrees, the flag is set, the copy holds the
snapshot and would be loaded, and the reply is OK; when it disagrees the flag stays clear and the reply is ABORTED with the CRC-32
read back. A copy never written, or spoiled, is not loaded, nor is one whose check fails. The CRC-32 is that of a register with
generator 0x04C11DB7 that starts at 0xFFFFFFFF and takes each byte most significant bit first, inverted, over the bytes of the
copy (which bytes these are is left open, log 10). (That the reply's write time is rounded down to whole ms is the model's, log
51; so are the four bytes of the CRC-32, high byte first, log 56.) -/
def Obligations.CommitWrites : Prop :=
  ∀ (s : State) (tag : Byte), s.power.running = true →
    (s.canDispatch = true → s.commit = none →
      exec (.commit tag) s = .next { s with commit := some ⟨tag, s.tables, s.clock⟩, copyValid := false })
    ∧ (s.canDispatch = true → s.commit ≠ none → exec (.commit tag) s = .next (s.refuse 0x51 tag .busy))
    ∧ (∀ r, s.commit = some r →
      (∃ t : State, exec (.commitWriteEnd .agrees) s = .next t ∧ t.stored.load = some r.snapshot
        ∧ t = State.reply 0x51 r.tag .ok (u32 r.snapshot.crc.toNat ++ u16 ((s.clock - r.since) / 2000))
            { s with commit := none, copyValid := true, stored := t.stored })
      ∧ (∀ crc, ∃ t : State, exec (.commitWriteEnd (.disagrees crc)) s = .next t ∧ t.stored.load = none
        ∧ t = State.reply 0x51 r.tag .aborted (u32 crc.toNat ++ u16 ((s.clock - r.since) / 2000))
            { s with commit := none, copyValid := false, stored := t.stored }))
    ∧ StoredCopy.never.load = none ∧ (∀ crc, (StoredCopy.spoiled crc).load = none)
    ∧ (∀ t crc, (StoredCopy.whole t crc).load = if t.crc = crc then some t else none)
    ∧ (∀ t : TableStore, t.crc = crc32 (Config.storedCopyBytes t.fields))
    ∧ (∀ (bytes : List Byte) (register : List Bool → BitVec 32), register [] = 0xFFFFFFFF →
        (∀ l x, register (l ++ [x]) = (register l <<< 1) ^^^ (if (register l).msb = x then 0 else 0x04C11DB7)) →
        crc32 bytes = ~~~ register (bytes.flatMap fun b => (List.range 8).map fun i => b.getLsbD (7 - i)))

/-- A taken RESTART is answered OK at once and the link then dispatches nothing (`canDispatch`, `RequestsWaitTheirTurn`); a scope
outside the two is refused BAD_FIELD; scope TABLES is refused BUSY while a COMMIT runs,
a job exists or a branch is activated, and NOT_DEFINED while the stored copy is invalid, by the copy-valid
flag as it stands (log 25). -/
def Obligations.RestartTaken : Prop :=
  ∀ (s : State) (tag : Byte), s.Ready →
    (∃ t : State, exec (.restartRuntime tag 0) s = .next t ∧ t.canDispatch = false
      ∧ t = State.reply 0x52 tag .ok [] { s with link := { s.link with restart := .answered .runtime } })
    ∧ (s.commit = none → s.anyJob = false → s.tables.anyActivated = false → s.copyValid = true →
      ∃ t : State, exec (.restartTables tag) s = .next t ∧ t.canDispatch = false
        ∧ t = State.reply 0x52 tag .ok [] { s with link := { s.link with restart := .answered .tables } })
    ∧ exec (.restartRuntime tag 1) s = exec (.restartTables tag) s
    ∧ (∀ scope, 1 < scope → exec (.restartRuntime tag scope) s = .next (s.refuse 0x52 tag .badField))
    ∧ (s.anyJob = true ↔ ∃ k j, s.job k = some j)
    ∧ (s.tables.anyActivated = true ↔ ∃ b, (s.tables.branch b).defined = true ∧ (s.tables.branch b).activated = true)
    ∧ (s.commit ≠ none ∨ s.anyJob = true ∨ s.tables.anyActivated = true →
      exec (.restartTables tag) s = .next (s.refuse 0x52 tag .busy))
    ∧ (s.commit = none → s.anyJob = false → s.tables.anyActivated = false → s.copyValid = false →
      exec (.restartTables tag) s = .next (s.refuse 0x52 tag .notDefined))

/-! ## The chain -/

/-- The arbiter's choice: in ADOPTING the next adoption frame, in UNCONFIGURED and while a frame is in flight nothing; in RUNNING
with no session the due scan or the head service frame by the chain priority, a waiting service frame going after 8 scans. Every
frame takes the next marker, and its select's time, kind and last-sent copy are kept; a scan sent past a waiting service frame
raises the scan streak, a service frame clears it. A frame goes out as its marker, 0xA5 or 0x5A, bit 7 first, and its payload, the
most distant place first; it is clocked from 2 bit times after its select, one period a bit, and released 2 bit times after; it is
accepted where the last 8 bits returned are the marker sent, and the bits before them are the returned payload. (A choice made
late stands at the clock, log 2.) -/
def Obligations.ArbiterChoice : Prop :=
  (∀ (s : State) (now : Nat), s.power.running = true → now = max s.clock s.chain.idleAt →
    (s.chain.inFlight ≠ none ∨ s.chain.st = .unconfigured → exec .arbiterChoice s = .next s)
    ∧ (s.chain.inFlight = none → s.chain.st = .adopting →
      (s.chain.echoNext = false → ∃ (t : State) (payload : List Bool), exec .arbiterChoice s = .next t
        ∧ Sent s t now .adoptService payload ∧ s.Carries payload fun _ => 0)
      ∧ (s.chain.echoNext = true → ∃ t : State, exec .arbiterChoice s = .next t
        ∧ Sent s t now .adoptEcho (List.replicate s.tables.length false)))
    ∧ (s.chain.inFlight = none → s.chain.st = .running → s.chain.session = none →
      (s.scanDue = false → s.chain.queue = [] → exec .arbiterChoice s = .next s)
      ∧ (s.scanDue = true → s.chain.queue = [] → ∃ t : State, exec .arbiterChoice s = .next t
        ∧ Sent s t now .scan s.image.out ∧ t.chain.streak = s.chain.streak)
      ∧ (∀ e es, s.chain.queue = e :: es →
        (s.scanDue = true → s.tables.scan.serviceFirst = false → s.chain.streak < 8 → ∃ t : State,
          exec .arbiterChoice s = .next t ∧ Sent s t now .scan s.image.out ∧ t.chain.streak = s.chain.streak + 1)
        ∧ (s.scanDue = false ∨ s.tables.scan.serviceFirst = true ∨ 8 ≤ s.chain.streak →
          ∃ (t : State) (payload : List Bool), exec .arbiterChoice s = .next t ∧ t.chain.streak = 0
            ∧ Sent s t now (match e.stage with | .command => .command | .fetch => .fetch) payload
            ∧ s.Carries payload fun c => if e.stage = .command ∧ c = e.card then e.command else 0))))
  ∧ (∀ k, [.scan, .probeScan, .command, .fetch, .adoptService, .adoptEcho, .probeEcho, .test k, .reload k].map Purpose.kind =
      [.scan, .scan, .service, .service, .service, .echo, .echo, .echo, .echo])
  ∧ (∀ (f : Frame) (cdi marker : List Bool),
    marker = (if f.marker5A = true then [false, true, false, true, true, false, true, false]
      else [true, false, true, false, false, true, false, true]) →
    f.cdo = marker ++ f.payload.reverse
    ∧ f.clockEnd = f.selectAt + (f.payload.length + 10) * f.bitTicks
    ∧ f.releaseAt = f.selectAt + (f.payload.length + 12) * f.bitTicks
    ∧ (f.accepts cdi = true ↔ cdi.length = f.payload.length + 8 ∧ cdi.drop f.payload.length = marker)
    ∧ (cdi.length = f.payload.length + 8 → (f.returned cdi).length = f.payload.length
        ∧ ∀ i < f.payload.length, bitAt (f.returned cdi) i = bitAt cdi (f.payload.length - 1 - i)))

/-- An accepted SCAN sets the returned image, the last-sent copy (from the frame's payload, not from the image at acceptance), the
card-good flags, the fresh flag and the scan time, restarts the periodic timer, and leaves the consecutive-reject count 0; each
card's latch then holds the bits sent at its places (the image carries 0 at an input place, which has none). Where the image still
differs an IMAGE trigger follows. INPUTS joins the notice pending set where the value or the stale flag of a mapped IN position
has changed, and only there. The scan is then delivered to its users in the order given: every present valve is checked with its
reading, every enabled DRIP zone takes its sample, and where a flow tick is due every defined meter is updated and every enabled
BALANCE zone takes its sample; no tick falls less than 100 ms after the last. (That the latches change with the acceptance, and
take the wiring from the map, is log 20; a frame end taken late stands at the clock, log 2, and its gap is the one of its select,
log 32; that valves and zones are taken in ascending number is log 5.) A card is good where the returned bit at its CARD_OK
position is that position's good level, and where it has none; a position is good as its card is. A meter's count is the 8 bits of
its FLOW field, the most significant at the lowest position; there is none where no field is mapped or its card is not good. -/
def Obligations.ScanAccepted : Prop :=
  (∀ (s : State) (f : Frame) (cdi : List Bool) (order : ScanOrder) (now : Nat), s.Returns .scan f cdi true →
    now = max s.clock f.clockEnd →
    ∃ t : State, exec (.scanAccepted cdi order) s = .next t
      ∧ t = ((((s.acceptedEnd f t).takeImage f.payload (f.returned cdi)).deliver order)).finish
      ∧ Spared { s.acceptedEnd f t with
          image := ⟨s.image.out, f.payload, f.returned cdi, s.cardGoodOf (f.returned cdi), true, some now⟩
          periodicFrom := some now
          flow := t.flow } t
      ∧ (s.image.out ≠ f.payload → s.tables.scan.image = true → t.scanDue = true)
      ∧ (s.InputsChange t → t.Noticed .inputs)
      ∧ (∀ last, s.flow.lastTick = some last → now / 2000 < last + 100 → t.flow = s.flow)
      ∧ (∀ c w r, s.tables.cards[c]? = some w → s.ring[c]? = some r → ∃ r', t.ring[c]? = some r' ∧ r'.service = r.service
          ∧ ∀ i < w, bitAt r'.latch i = bitAt f.payload (s.tables.firstPos c + i)))
  ∧ (∀ (s t : State) (payload ret : List Bool), t = s.takeImage payload ret →
    State.SameButNotices { s with
      image := ⟨s.image.out, payload, ret, s.cardGoodOf ret, true, some s.clock⟩
      periodicFrom := some s.clock
      scanDue := s.scanDue || (s.image.out != payload && s.tables.scan.image) } t
    ∧ (s.InputsChange t → t.link.notices = s.noticesWith .inputs)
    ∧ (¬ s.InputsChange t → t.link.notices = s.link.notices))
  ∧ (∀ (s : State) (order : ScanOrder), s.deliver order = match order with
      | .valvesZonesFlow => s.checkValves.sampleZones.flowTick
      | .valvesFlowZones => s.checkValves.flowTick.sampleZones
      | .zonesValvesFlow => s.sampleZones.checkValves.flowTick
      | .zonesFlowValves => s.sampleZones.flowTick.checkValves
      | .flowValvesZones => s.flowTick.checkValves.sampleZones
      | .flowZonesValves => s.flowTick.sampleZones.checkValves)
  ∧ (∀ s : State,
      s.checkValves =
        (List.range 106).foldl (fun x v => if (x.tables.valve v).present then (x.checkValve v).finish else x) s
      ∧ s.sampleZones = (List.range 64).foldl (fun x z => x.sampleDrip z) s
      ∧ (∀ v x, (s.tables.valve v).present = true → s.reading v = some x →
          s.checkValve v = (s.markSent v).checkReading v x (s.driveSentNow v))
      ∧ (∀ z, (s.tables.zone z).kind = .drip → (s.zone z).st.enabled = true →
          (∀ x, s.dripSample z = some x → s.sampleDrip z = (s.takeSample z x).finish)
          ∧ (s.dripSample z = none → s.sampleDrip z = s))
      ∧ (s.tickDue = true ↔ ∀ last, s.flow.lastTick = some last → last + 100 ≤ s.ms)
      ∧ (s.tickDue = false → s.flowTick = s)
      ∧ (s.tickDue = true → s.flowTick = (List.range 64).foldl (fun x z => x.sampleBalance z) s.tickMeters)
      ∧ s.tickMeters = { s with flow := s.tickMeters.flow } ∧ s.tickMeters.flow.lastTick = some s.ms
      ∧ (∀ m ≤ 96, s.tickMeters.meter m = match (s.tables.meter m).defined, s.meterCount m with
          | true, some c => (s.meter m).counted (s.tables.meter m) s.ms c
          | true, none => (s.meter m).noCount
          | false, _ => s.meter m)
      ∧ (∀ z, (s.tables.zone z).kind = .balance → (s.zone z).st.enabled = true →
          (∀ x, s.balanceSample z = some x → s.sampleBalance z = (s.takeSample z x).finish)
          ∧ (s.balanceSample z = none → s.sampleBalance z = s)))
  ∧ (∀ (s : State) (ret : List Bool),
    (s.cardGoodOf ret).length = s.tables.cards.length
    ∧ (∀ c < s.tables.cards.length,
      ((∀ e ∈ s.tables.map, ∀ l, e.fn ≠ .cardOk c l) → bitAt (s.cardGoodOf ret) c = true)
      ∧ (∀ e ∈ s.tables.map, ∀ l, e.fn = .cardOk c l → (∀ x ∈ s.tables.map, ∀ m, x.fn = .cardOk c m → x = e) →
          bitAt (s.cardGoodOf ret) c = (bitAt ret (s.tables.posOf e.card e.offset) == l)))
    ∧ (∀ c i w, s.tables.cards[c]? = some w → i < w →
        s.goodAt (s.tables.posOf c i) = s.image.cardGood.getD c true)
    ∧ (∀ m, s.tables.findPos (· == .flow m) = none → s.meterCount m = none)
    ∧ (∀ m p, s.tables.findPos (· == .flow m) = some p →
        (s.goodAt p = false → s.meterCount m = none)
        ∧ (s.goodAt p = true → p + 8 ≤ s.image.ret.length → s.meterCount m =
            some ((List.range 8).map fun i => if bitAt s.image.ret (p + i) then 2 ^ (7 - i) else 0).sum)))

/-- SERVICE joins the tail of the service queue in stage COMMAND, its reply deferred; an undefined card is refused NOT_DEFINED, a
BROKEN chain CHAIN_DOWN, a queue of 8 FULL (that these are checked in this order is the model's choice, log 57). An accepted
command frame takes the head transaction to FETCH; an accepted fetch frame ends it with the 16 bits of its card's slot as the card
reply, and the next entry becomes the head. Card c's slot is bits 16c to 16c + 15 of the payload, the lowest first. (A frame end
taken late stands at the clock, log 2, and its gap is the one of its select, log 32.) -/
def Obligations.ServiceTransactions : Prop :=
  (∀ (payload : List Bool) (c : Nat), 16 * c + 16 ≤ payload.length →
    ∀ i < 16, (wordOf payload c).getLsbD i = bitAt payload (16 * c + i))
  ∧ (∀ (s : State) (tag : Byte) (card : Nat) (word : Word), s.Ready →
    (16 ≤ card → exec (.service tag card word) s = .next (s.refuse 0x31 tag .badField))
    ∧ (card ≤ 15 → card < s.tables.cards.length → s.chain.st ≠ .broken → s.chain.queue.length < 8 →
      exec (.service tag card word) s = .next { s with chain := { s.chain with
        queue := s.chain.queue ++ [⟨card, word, tag, .command⟩] } })
    ∧ (card ≤ 15 → s.tables.cards.length ≤ card → exec (.service tag card word) s = .next (s.refuse 0x31 tag .notDefined))
    ∧ (card ≤ 15 → card < s.tables.cards.length → s.chain.st = .broken →
        exec (.service tag card word) s = .next (s.refuse 0x31 tag .chainDown))
    ∧ (card ≤ 15 → card < s.tables.cards.length → s.chain.st ≠ .broken → 8 ≤ s.chain.queue.length →
        exec (.service tag card word) s = .next (s.refuse 0x31 tag .full)))
  ∧ (∀ (s : State) (f : Frame) (cdi : List Bool) (e : ServiceEntry) (es : List ServiceEntry), s.chain.queue = e :: es →
    (s.Returns .command f cdi true → ∃ t u : State, exec (.serviceCommandAccepted cdi) s = .next t ∧ u = s.acceptedEnd f t
      ∧ t = { u with chain := { u.chain with queue := { e with stage := .fetch } :: es } })
    ∧ (s.Returns .fetch f cdi true → ∃ t u : State, exec (.serviceFetchAccepted cdi) s = .next t ∧ u = s.acceptedEnd f t
      ∧ t = State.reply 0x31 e.tag .ok (u16 (wordOf (f.returned cdi) e.card).toNat) { u with chain := { u.chain with
          queue := es
          streak := if es = [] then 0 else s.chain.streak
          session := s.chain.session.map fun p => { p with waitHead := false } } }))

/-- The adoption's accepted SERVICE frame makes its ECHO frame the next. The accepted ECHO frame takes the image and the copy from
the returned bits at output positions, zeros elsewhere, sets adopted, clears the fresh flag and loses flow history (`a`); every
present valve is derived from its drive bit and its reading, then every owner with no UNKNOWN valve, segments and the main before
the branches (`b`); the chain enters RUNNING and a scan is due (`c`), and the event ends. A derivation takes the target from the
drive bit; a valve that reads its target, or is switchless, stands there, one that reads elsewhere moves there with a fresh stroke
timer, BOTH is a SWITCH_CONFLICT, and one that shows nothing waits. An owner whose start-hold-pending flag is set, unheld,
activated or with its valves, and with a valve found closed receives the start hold; then an unheld unactivated branch is
INACTIVE, an owner with a valve in FAULT is FAILED, a held one ISOLATED or ISOLATING, an unheld one in its open state or
RESTORING, and an unheld branch under a closed path SUSPENDED, its sequence begun from its valves as they stand (`Begins`). A
segment or the main in NO_VALVES is derived once it has both valves and neither is UNKNOWN, and one that loses a valve enters
NO_VALVES with no step, no phase timer and no queue entry, its holds kept. The chain joins the notice pending set, and INPUTS
where a mapped IN position turns stale. (A frame end taken late stands at the clock, log 2, and its gap is the one of its select,
log 32; that a valve with no drive mapped that does not read BOTH waits is log 9; the reading of the start hold is the one at the
owner's derivation, log 31; that an owner which leaves NO_VALVES is derived with its pending start hold applied is log 23.) -/
def Obligations.AdoptionAccepted : Prop :=
  (∀ (s : State) (f : Frame) (cdi : List Bool) (now : Nat), now = max s.clock f.clockEnd →
    (s.Returns .adoptService f cdi true → ∃ t u : State, exec (.adoptionServiceAccepted cdi) s = .next t ∧ u = s.acceptedEnd f t
      ∧ t = { u with chain := { u.chain with echoNext := true } })
    ∧ (s.Returns .adoptEcho f cdi true → s.chain.st = .adopting →
      ∃ (t u a b c : State) (out : List Bool), exec (.adoptionEchoAccepted cdi) s = .next t ∧ u = s.acceptedEnd f t
        ∧ out = s.adoptedImage (f.returned cdi) ∧ out.length = s.tables.length
        ∧ (∀ p < s.tables.length, bitAt out p = (s.tables.isOutputPos p && bitAt (f.returned cdi) p))
        ∧ State.SameButNotices { u with
            chain := { u.chain with adopted := true, echoNext := false }
            image := ⟨out, out, f.returned cdi, s.cardGoodOf (f.returned cdi), false, some now⟩
            flow := Flow.start } a
        ∧ (s.InputsFresh → a.link.notices = s.noticesWith .inputs ∧ t.Noticed .inputs)
        ∧ (¬ s.InputsFresh → a.link.notices = s.link.notices)
        ∧ b = a.adoptValves.adoptOwners
        ∧ State.SameButNotices { b with
            chain := { b.chain with st := .running, streak := 0 }, scanDue := true
            sched := { b.sched with lookDue := true } } c
        ∧ t = c.finish ∧ t.scanDue = true ∧ t.Noticed .chain
        ∧ Spared { u with
            chain := { u.chain with st := .running, streak := 0, adopted := true, echoNext := false }
            image := ⟨s.image.out, out, f.returned cdi, s.cardGoodOf (f.returned cdi), false, some now⟩
            flow := Flow.start } t))
  ∧ (∀ (x : State) (v : Nat) (r : ValveRec), v ≤ 105 → r = x.adoptValves.valve v →
    ((x.tables.valve v).present = false → r = x.valve v)
    ∧ ((x.tables.valve v).present = true → x.commandedTarget v = none →
      r.latest = (x.reading v).or (x.valve v).latest ∧ r.target = (x.valve v).target
      ∧ (x.reading v = some .both → r.st = .fault ∧ r.cause = some .switchConflict)
      ∧ (x.reading v ≠ some .both → r = { x.valve v with latest := r.latest }))
    ∧ (∀ p, (x.tables.valve v).present = true → x.commandedTarget v = some p → r.target = some p
      ∧ (x.tables.switchless v = true → r.st = p.idle)
      ∧ (x.tables.switchless v = false →
        (x.reading v = none → r = { x.valve v with target := some p })
        ∧ (x.reading v = some .both → r.st = .fault ∧ r.cause = some .switchConflict)
        ∧ (x.reading v = some p.reading → r.st = p.idle ∧ r.latest = some p.reading)
        ∧ (x.reading v = some p.other.reading ∨ x.reading v = some .neither →
            r.st = p.moving ∧ r.driveSent = some x.clock ∧ r.timer = some ⟨0, some x.clock, (x.tables.valve v).stroke⟩))))
  ∧ (∀ x : State, x.adoptOwners =
    ([Owner.segment 0, .segment 1, .segment 2, .segment 3, .main] ++ (List.range 48).map Owner.branch).foldl (fun y o => y.adoptOwner o) x)
  ∧ (∀ (x y z : State) (o : Owner), WellFormed.owner o = true → y = x.applyStartHold o → z = x.deriveOne o →
    ((x.owner o).settled = false → (x.owner o).mode ∉ [.undefined, .noValves] →
      (x.valvesKnown o = true → x.adoptOwner o = x.ownerOp o fun w => w.deriveOne o)
      ∧ (x.valvesKnown o = false → x.adoptOwner o = x))
    ∧ ((x.owner o).mode = .noValves → x.adoptOwner o = x.checkNoValves o)
    ∧ ((x.owner o).mode = .undefined ∨ ((x.owner o).settled = true ∧ (x.owner o).mode ≠ .noValves) → x.adoptOwner o = x)
    ∧ (x.valvesKnown o = true ↔ (x.valve o.supplyValve).st ≠ .unknown ∧ (x.valve o.returnValve).st ≠ .unknown)
    ∧ (x.anyValveFault o = true ↔ (x.valve o.supplyValve).st = .fault ∨ (x.valve o.returnValve).st = .fault)
    ∧ (∀ p, x.bothAt o p = true ↔ (x.valve o.supplyValve).st = p.idle ∧ (x.valve o.returnValve).st = p.idle)
    ∧ (z.owner o).startPending = false ∧ (z.owner o).settled = true
    ∧ (z.owner o).holds = (y.owner o).holds ∧ (z.owner o).hostHold = (y.owner o).hostHold
    ∧ ((x.owner o).startPending = true → (x.owner o).hostHold = false → (x.owner o).holds = 0 →
      (∀ b, o = .branch b → (x.tables.branch b).activated = true) → ((∀ b, o ≠ .branch b) → x.tables.hasValves o = true) →
      (∃ v, (v = o.supplyValve ∨ v = o.returnValve) ∧
        ((x.valve v).st = .closed ∨ (x.valve v).st = .closing ∨ x.reading v = some .closed)) →
      (y.owner o).holds = 1 ∧ (y.owner o).hostHold = true)
    ∧ ((x.owner o).startPending = false ∨ (x.owner o).hostHold = true ∨ (x.owner o).holds ≠ 0
        ∨ (∃ b, o = .branch b ∧ (x.tables.branch b).activated = false)
        ∨ ((∀ b, o ≠ .branch b) ∧ x.tables.hasValves o = false)
        ∨ (∀ v, v = o.supplyValve ∨ v = o.returnValve →
            (x.valve v).st ≠ .closed ∧ (x.valve v).st ≠ .closing ∧ x.reading v ≠ some .closed) →
      (y.owner o).holds = (x.owner o).holds ∧ (y.owner o).hostHold = (x.owner o).hostHold)
    ∧ (∀ b, o = .branch b → (y.owner o).holds = 0 → (x.tables.branch b).activated = false → (z.owner o).mode = .inactive)
    ∧ ((∀ b, o = .branch b → 0 < (y.owner o).holds ∨ (x.tables.branch b).activated = true) →
      (x.anyValveFault o = true → (z.owner o).mode = .failed)
      ∧ (x.anyValveFault o = false → 0 < (y.owner o).holds →
          (z.owner o).mode = if x.bothAt o .closed = true then .isolated else .isolating)
      ∧ (∀ q out, q = x.sched.queue.filter (fun e => !((x.owner o).mode == .inactive && e.isMaintenanceOf o)) →
          (0 < (y.owner o).holds ∧ out = .isolate)
            ∨ ((y.owner o).holds = 0 ∧ (∃ b, o = .branch b ∧ x.pathOpen b = false) ∧ out = .suspend)
            ∨ ((y.owner o).holds = 0 ∧ (∀ b, o = .branch b → x.pathOpen b = true) ∧ out = .restore) →
          x.anyValveFault o = false → x.Begins z o out q)
      ∧ (x.anyValveFault o = false → (y.owner o).holds = 0 →
        (∀ b, o = .branch b → x.pathOpen b = false → (z.owner o).mode = .suspended)
        ∧ ((∀ b, o = .branch b → x.pathOpen b = true) →
            (z.owner o).mode = if x.bothAt o .opened = true then OwnerMode.endMode o .restoring else .restoring))))
  ∧ (∀ (x t : State) (o : Owner), o = .main ∨ (∃ g < 4, o = .segment g) → t = x.checkNoValves o →
    (x.tables.hasValves o = true → (x.owner o).mode = .noValves → x.valvesKnown o = true →
      t = x.ownerOp o fun w => w.deriveOne o)
    ∧ (x.tables.hasValves o = true → (x.owner o).mode ≠ .noValves ∨ x.valvesKnown o = false → t = x)
    ∧ (x.tables.hasValves o = false → (x.owner o).mode = .noValves → t = x)
    ∧ (x.tables.hasValves o = false → (x.owner o).mode ≠ .noValves → (t.owner o).mode = .noValves ∧ (t.owner o).step = none
        ∧ (t.owner o).phase = none ∧ (t.owner o).holds = (x.owner o).holds ∧ (t.owner o).hostHold = (x.owner o).hostHold
        ∧ t.valves = x.valves ∧ ∀ e ∈ t.sched.queue, e.isOf o = false))

/-- In BROKEN a probe goes one periodic interval after the select of the previous frame: a SCAN carrying the output image where
the adopted flag is set, else an ECHO of zeros. An accepted ECHO probe takes the chain to ADOPTING. An accepted SCAN probe takes
it to RUNNING, every paused stroke timer resumes with the count it kept, flow history is lost, and the probe is delivered as a
scan (`x` is the state before that, the scheduler's look marked). Where the chain state changes the chain joins the notice pending
set. (A probe after its due time and a late frame end stand at the clock, log 2; the gap is the one of the frame's select, log 32;
that the look is marked before the probe's delivery is log 50.) -/
def Obligations.ProbesEndBroken : Prop :=
  ∀ (s : State) (now : Nat), s.power.running = true → s.chain.st = .broken →
    (s.chain.inFlight = none → now = max (max s.clock s.chain.idleAt) s.probeDue →
      (s.chain.adopted = true → ∃ t : State, exec .probe s = .next t ∧ Sent s t now .probeScan s.image.out)
      ∧ (s.chain.adopted = false → ∃ t : State, exec .probe s = .next t
        ∧ Sent s t now .probeEcho (List.replicate s.tables.length false))
      ∧ (∀ last, s.chain.lastSelectAt = some last → s.probeDue = last + s.tables.scan.interval * 2000)
      ∧ (s.chain.lastSelectAt = none → s.probeDue = 0))
    ∧ (∀ f cdi order, now = max s.clock f.clockEnd →
      (s.Returns .probeEcho f cdi true → ∃ t u : State, exec (.probeAccepted cdi order) s = .next t ∧ u = s.acceptedEnd f t
        ∧ State.SameButNotices { u with chain := { u.chain with st := .adopting, streak := 0, echoNext := false } } t
        ∧ t.link.notices = s.noticesWith .chain)
      ∧ (s.Returns .probeScan f cdi true → ∃ t u x : State, exec (.probeAccepted cdi order) s = .next t ∧ u = s.acceptedEnd f t
        ∧ State.SameButNotices { u with
            chain := { u.chain with st := .running, streak := 0 }
            flow := Flow.start
            sched := { u.sched with lookDue := true }
            valves := x.valves } x
        ∧ (∀ v ≤ 105, x.valve v = { s.valve v with timer := (s.valve v).timer.map fun tm =>
            if tm.since = none then { tm with since := some now } else tm })
        ∧ t = ((x.takeImage f.payload (f.returned cdi)).deliver order).finish ∧ t.Noticed .chain
        ∧ Spared { u with
            chain := { u.chain with st := .running, streak := 0 }
            image := ⟨s.image.out, f.payload, f.returned cdi, s.cardGoodOf (f.returned cdi), true, some now⟩
            periodicFrom := some now
            flow := t.flow } t))

/-- A waiting session enters PROVING at the arbiter's choice once its head transaction has ended, with the fresh flag cleared and
the readback available when the last frame selected was a SCAN or SERVICE frame; its counts 0 and no card's results yet; or it
ends BUSY where a job is ACTIVE or anything is queued or moving, the consequences follow, and the choice is then that of a chain
with no session (`ArbiterChoice`). While the head transaction that stood in the queue at the PROVE has not ended, its next frame
goes. In PROVING each choice sends the next proving frame, test or reload, whose bytes are the slot of the frame's index, counted
on for each card where the format is staggered. At the entry into PROVING INPUTS joins the notice pending set where a mapped IN
position turns stale, and then the chain (in that order by log 21). (A choice made late stands at the clock, log 2; that the entry
into PROVING is the whole of a choice is log 29.) -/
def Obligations.ProvingFramesSent : Prop :=
  ∀ (s : State) (p : Session) (now : Nat), s.power.running = true → s.chain.session = some p → s.chain.inFlight = none →
    now = max s.clock s.chain.idleAt →
    (s.chain.st = .running → p.waitHead = false → s.runBlocked = false →
      ∃ (t : State) (q : Session), exec .arbiterChoice s = .next t ∧ t.chain.session = some q ∧ q.frames = true
        ∧ q.next = .test 0 ∧ q.tag = p.tag ∧ q.count = p.count ∧ q.sent = 0 ∧ q.cards.length = s.tables.cards.length
        ∧ (q.readback = true ↔ s.chain.lastKind = some .scan ∨ s.chain.lastKind = some .service)
        ∧ t.chain = { s.chain with st := .proving, streak := 0, session := some q }
        ∧ q = { p with
          frames := true
          next := .test 0
          readback := q.readback
          sent := 0
          tested := 0
          rejected := 0
          abort := false
          cards := List.replicate s.tables.cards.length ⟨0, none, 0, 0⟩ }
        ∧ t.chain.st = .proving
        ∧ State.SameButNotices { s with clock := now, chain := t.chain, image := { s.image with fresh := false } } t
        ∧ t.Noticed .chain
        ∧ (s.InputsFresh → t.link.notices = (s.joinNotice .inputs).noticesWith .chain)
        ∧ (¬ s.InputsFresh → t.link.notices = s.noticesWith .chain))
    ∧ (s.chain.st = .running → p.waitHead = false → s.runBlocked = true →
      ∃ t u : State, exec .arbiterChoice s = .next t ∧ t.chain.st = .running ∧ t.chain.session = none
        ∧ t.link.replies = s.link.replies ++ [⟨0x32, p.tag, .busy, []⟩]
        ∧ u = State.finish (State.sessionOver { s with clock := now } p .running .busy [])
        ∧ u.chain.session = none ∧ exec .arbiterChoice u = .next t)
    ∧ (∀ e es, s.chain.st = .running → p.waitHead = true → s.chain.queue = e :: es →
      ∃ (t : State) (payload : List Bool), exec .arbiterChoice s = .next t ∧ t.chain.streak = 0
        ∧ Sent s t now (match e.stage with | .command => .command | .fetch => .fetch) payload
        ∧ s.Carries payload (fun c => if e.stage = .command ∧ c = e.card then e.command else 0) ∧ t.chain.session = some p)
    ∧ (s.chain.st = .proving →
      (∀ k, p.next = .test k → ∃ t : State, exec .arbiterChoice s = .next t
        ∧ Sent s t now (.test k) (s.provingPayload p k) ∧ t.chain.session = some { p with sent := p.sent + 1 })
      ∧ (∀ k n, p.next = .reload k n → ∃ t : State, exec .arbiterChoice s = .next t
        ∧ Sent s t now (.reload k) (s.provingPayload p k) ∧ t.chain.session = some { p with sent := p.sent + 1 })
      ∧ (∀ k, (s.provingPayload p k).length = s.tables.length ∧ ∀ c w i, s.tables.cards[c]? = some w → i < w →
          bitAt (s.provingPayload p k) (s.tables.firstPos c + i) =
            (s.tables.patterns.slot (p.start + k + if p.staggered then c else 0)).getLsbD (7 - i % 8)))
    ∧ (∀ k, [4 * k, 4 * k + 1, 4 * k + 2, 4 * k + 3].map s.tables.patterns.slot =
        [s.tables.patterns.p0, s.tables.patterns.p1, s.tables.patterns.p2, s.tables.patterns.p3])
    ∧ (s.runBlocked = true ↔ 0 < s.activeJobs ∨ s.movesPending = true)

/-- An accepted test frame adds its comparison to the results and is followed by the next test frame; the last one ends the run,
with the chain RUNNING, a scan due and the results in the deferred reply. An accepted reload frame is followed by the test frame
it was sent for. A session that ATTN_N has ended, or that has sent 16 frames, ends ABORTED with the results so far. The comparison
keeps one entry a card. Test frame 0 counts, where the readback is available, a card's output positions whose image bit differs
from the last-sent copy as pending, and as latch mismatches those of the others whose returned bit differs from the copy at the
select of the frame before the run; without the readback it counts nothing. A later test frame counts the card's places whose
returned bit differs from the frame sent just before it. The first frame with a mismatch is kept as the first failing one. The
results lay these down. At the end of a run the chain joins the notice pending set, and the consequences follow; nothing else
changes. (That a test frame of an aborted session still counts as tested, and that the last frame of an aborted run ends ABORTED,
is log 19; that a latch mismatch makes frame 0 the first failing one of a card with an echo mismatch too is log 61; a frame end
taken late stands at the clock, log 2, and its gap is the one of its select, log 32.) -/
def Obligations.ProvingFramesAccepted : Prop :=
  (∀ (s : State) (f : Frame) (cdi : List Bool) (p q : Session) (k : Nat), s.chain.session = some p →
    q = { p with cards := s.compareTest p k (f.returned cdi), tested := p.tested + 1, next := .test (k + 1) } →
    (s.Returns (.test k) f cdi true → k + 1 ≠ p.count → p.abort = false → p.sent < 16 →
      ∃ t u : State, exec (.testFrameAccepted cdi) s = .next t ∧ u = s.acceptedEnd f t
        ∧ t = { u with chain := { u.chain with session := some q } })
    ∧ (s.Returns (.test k) f cdi true → k + 1 = p.count → p.abort = false →
      ∃ t : State, exec (.testFrameAccepted cdi) s = .next t ∧ t.chain.st = .running ∧ t.chain.session = none
        ∧ t.scanDue = true ∧ t.chain.rejects = 0 ∧ t.tables = s.tables ∧ t.zones = s.zones ∧ t.flow = s.flow
        ∧ t.link.replies = s.link.replies ++ [⟨0x32, p.tag, if p.adjusted then .adjusted else .ok, q.results⟩]
        ∧ t.Noticed .chain ∧ (s.acceptedEnd f t).RunOver t q (if p.adjusted then .adjusted else .ok))
    ∧ (s.Returns (.test k) f cdi true → p.abort = true ∨ (k + 1 ≠ p.count ∧ 16 ≤ p.sent) →
      ∃ t : State, exec (.testFrameAccepted cdi) s = .next t ∧ t.chain.st = .running ∧ t.chain.session = none
        ∧ t.scanDue = true ∧ t.link.replies = s.link.replies ++ [⟨0x32, p.tag, .aborted, q.results⟩] ∧ t.Noticed .chain
        ∧ (s.acceptedEnd f t).RunOver t q .aborted)
    ∧ (∀ n, s.Returns (.reload k) f cdi true → p.next = .reload k n → p.abort = false → p.sent < 16 →
      ∃ t u : State, exec (.reloadFrameAccepted cdi) s = .next t ∧ u = s.acceptedEnd f t
        ∧ t = { u with chain := { u.chain with session := some { p with next := .test n } } })
    ∧ (s.Returns (.reload k) f cdi true → p.abort = true ∨ 16 ≤ p.sent →
      ∃ t : State, exec (.reloadFrameAccepted cdi) s = .next t ∧ t.chain.st = .running ∧ t.chain.session = none
        ∧ t.scanDue = true ∧ t.link.replies = s.link.replies ++ [⟨0x32, p.tag, .aborted, p.results⟩] ∧ t.Noticed .chain
        ∧ (s.acceptedEnd f t).RunOver t p .aborted))
  ∧ (∀ (s : State) (p : Session) (k c : Nat) (ret : List Bool) (r : CardProof) (places outs : List Nat),
    p.cards[c]? = some r → places = (List.range (s.tables.cards.getD c 0)).map (fun i => s.tables.firstPos c + i) →
    outs = places.filter s.tables.isOutputPos →
    (s.compareTest p k ret).length = p.cards.length
    ∧ ∃ q, (s.compareTest p k ret)[c]? = some q
      ∧ (k = 0 → p.readback = false → q = r)
      ∧ (k = 0 → p.readback = true →
          q.pendingCount = (outs.filter fun x => bitAt s.image.out x != bitAt s.image.copy x).length
          ∧ q.latchMismatch = (outs.filter fun x =>
              bitAt s.image.out x == bitAt s.image.copy x && bitAt ret x != bitAt s.chain.copyAtSelect x).length
          ∧ q.mismatched = r.mismatched
          ∧ q.firstFail = if q.latchMismatch = 0 then r.firstFail else some (r.firstFail.getD 0))
      ∧ (∀ wrong, 0 < k → wrong = (places.filter fun x => bitAt ret x != bitAt (s.provingPayload p (k - 1)) x).length →
          q.mismatched = r.mismatched + wrong ∧ q.pendingCount = r.pendingCount ∧ q.latchMismatch = r.latchMismatch
          ∧ q.firstFail = if wrong = 0 then r.firstFail else some (r.firstFail.getD k)))
  ∧ (∀ p : Session, p.results = flag p.staggered ++ u8 p.start ++ u8 p.count ++ u8 p.tested ++ u8 p.rejected ++ flag p.readback
      ++ u8 p.cards.length ++ (p.cards.mapIdx fun c r =>
        u8 c ++ u8 (if r.mismatched = 0 ∧ r.latchMismatch = 0 then 0 else 1) ++ u16 r.mismatched ++ opt 1 u8 r.firstFail
          ++ (if p.readback then [1] ++ u8 r.latchMismatch ++ [1] ++ u8 r.pendingCount else [0, 0, 0, 0])).flatten)

/-- A rejected frame raises both reject counts and changes neither image; a rejected SCAN is still owed, a rejected service frame
sends its transaction back to COMMAND, a rejected adoption frame starts the pair again, a rejected test frame is followed by a
reload of the index before it, the session otherwise as it was. A rejected test or reload frame of a session that ATTN_N has
ended, or that has sent 16 frames, ends the run: the reply is ABORTED with the results so far, the rejection counted in them, the
chain RUNNING and in the notice pending set, a scan due; the consequences follow. A frame overtaken by a card table change is
checked for no one. (A frame end taken late stands at the clock, log 2, its gap is the one of its select, log 32; that a rejected
probe SCAN leaves a scan due is log 38.) -/
def Obligations.RejectedFramesCounted : Prop :=
  (∀ (s : State) (f : Frame) (cdi : List Bool), s.Returns f.purpose f cdi false →
    s.chain.rejects < 2 ∨ (s.chain.st = .broken ∧ (f.purpose = .probeScan ∨ f.purpose = .probeEcho)) →
    ∃ t u : State, exec (rejectionOf cdi f.purpose) s = .next t ∧ u = s.rejectedEnd f t
      ∧ (f.purpose = .scan ∨ f.purpose = .probeScan → t = { u with scanDue := true })
      ∧ (f.purpose = .probeEcho → t = u)
      ∧ (∀ e es, f.purpose = .command ∨ f.purpose = .fetch → s.chain.queue = e :: es →
          t = { u with chain := { u.chain with queue := { e with stage := .command } :: es } })
      ∧ (f.purpose = .adoptService ∨ f.purpose = .adoptEcho → t = { u with chain := { u.chain with echoNext := false } })
      ∧ (∀ p k, f.purpose = .test k ∨ f.purpose = .reload k → s.chain.session = some p → p.abort = false → p.sent < 16 →
          ∃ q, t = { u with chain := { u.chain with session := some q } } ∧ q.rejected = p.rejected + 1
            ∧ q = { p with rejected := p.rejected + 1, next := q.next, readback := p.readback && p.next != .test 0 }
            ∧ (p.next = .test 0 → q.next = .reload 0 1 ∧ q.readback = false)
            ∧ (∀ j, p.next = .test (j + 1) → q.next = .reload j (j + 1))
            ∧ (∀ j n, p.next = .reload j n → q.next = .reload j n))
      ∧ (∀ p k, f.purpose = .test k ∨ f.purpose = .reload k → s.chain.session = some p → p.abort = true ∨ 16 ≤ p.sent →
          t.chain.st = .running ∧ t.chain.session = none ∧ t.scanDue = true ∧ t.chain.rejects = s.chain.rejects + 1
            ∧ t.chain.rejectTotal = s.chain.rejectTotal + 1 ∧ t.tables = s.tables ∧ t.zones = s.zones ∧ t.flow = s.flow
            ∧ t.link.replies = s.link.replies ++ [⟨0x32, p.tag, .aborted, Session.results { p with
                rejected := p.rejected + 1, readback := p.readback && p.next != .test 0 }⟩]
            ∧ t.Noticed .chain
            ∧ (s.rejectedEnd f t).RunOver t
                { p with rejected := p.rejected + 1, readback := p.readback && p.next != .test 0 } .aborted))
  ∧ (∀ (s : State) (f : Frame), s.power.running = true → s.chain.inFlight = some f → f.unchecked = true →
    ∃ t : State, exec .frameEndUnchecked s = .next t
      ∧ t = { s.frameOver f t with scanDue := s.scanDue || f.purpose.kind == .scan })

/-- The third rejection in a row takes the chain into BROKEN: every service transaction and the session are answered CHAIN_DOWN,
each stroke timer pauses with the time it has counted, failsafe DRIP zones in DRY or SUSPECT go WET with cause CHAIN_LOSS, those
in WET or ACKED take that cause with a dry run of 0 (a zone whose state or cause so changes joins the notice pending set), other
zones, those OFF or UNDEFINED among them, keep their record, ALERT_N is asserted, and the chain joins the notice pending set. (The
order of the replies, the service queue before the session, is the model's, log 39; a frame end taken late stands at the clock,
log 2.) -/
def Obligations.ThirdRejectionBreaks : Prop :=
  ∀ (s : State) (f : Frame) (cdi : List Bool) (now : Nat), now = max s.clock f.clockEnd → s.Returns f.purpose f cdi false → f.purpose ≠ .probeScan →
    f.purpose ≠ .probeEcho → s.chain.rejects = 2 → s.chain.st ≠ .broken →
    ∃ t : State, exec (rejectionOf cdi f.purpose) s = .next t ∧ t.chain.st = .broken ∧ t.chain.rejects = 3
      ∧ t.chain.rejectTotal = s.chain.rejectTotal + 1 ∧ t.chain.adopted = s.chain.adopted
      ∧ t.chain.queue = [] ∧ t.chain.session = none ∧ t.Noticed .chain ∧ t.alertAsserted = true ∧ t.tables = s.tables ∧ t.image.ret = s.image.ret
      ∧ t.link.replies = s.link.replies ++ s.chain.queue.map (fun e => ⟨0x31, e.tag, .chainDown, []⟩)
          ++ s.chain.session.toList.map (fun p => ⟨0x32, p.tag, .chainDown, []⟩)
      ∧ (∀ v, (t.valve v).timer = (s.valve v).timer.map fun tm => match tm.since with
          | some since => { tm with count := tm.count + (now - since), since := none }
          | none => tm)
      ∧ (∀ z ≤ 63, (s.tables.zone z).kind = .drip → (s.tables.zone z).failsafe = true →
          ((s.zone z).st = .dry ∨ (s.zone z).st = .suspect →
            t.zone z = ⟨.wet, 0, 0, some .chainLoss, some t.ms⟩ ∧ t.Noticed (.zone z))
          ∧ ((s.zone z).st = .wet ∨ (s.zone z).st = .acked →
              t.zone z = { s.zone z with dry := 0, cause := some .chainLoss }
              ∧ ((s.zone z).cause ≠ some .chainLoss → t.Noticed (.zone z))))
      ∧ (∀ z, (s.tables.zone z).kind = .balance ∨ (s.tables.zone z).failsafe = false ∨ (s.zone z).st = .off
          ∨ (s.zone z).st = .undefined → t.zone z = s.zone z)

/-! ## Valves, owners and the scheduler -/

/-- What an accepted scan makes of a valve. First the drive of a moving valve without a drive sent time is marked sent where the
bit the frame carried at its drive position is its drive bit in the output image: the drive sent time is the scan time and the
stroke timer starts from zero; any other valve is left as it is. Then the reading: BOTH is a SWITCH_CONFLICT; an idle valve that
reads the other position twice in a row is UNCOMMANDED; a moving valve whose drive was sent before arrives when it reads its
target; an UNKNOWN valve is settled from its drive bit. A valve with switches that shows nothing keeps its state, its mismatch
run cleared; if UNKNOWN it stays so and takes its target from its drive bit. A switchless valve is not checked, and where
UNKNOWN with a drive mapped stands at its target. A valve that arrives, faults or is derived tells its owner (`Tells`). A drive
bit of 0 commands the fail position, of 1 the other. Two switches show OPEN, CLOSED, NEITHER or BOTH, one shows its position or
the other, none nothing; nothing is shown where a switch's card is not good. A valve whose state changes joins the notice
pending set. (That an UNKNOWN valve with no drive mapped waits is the model's reading, log 9.) -/
def Obligations.ReadingsChecked : Prop :=
  (∀ (s t : State) (v : Nat) (x : Reading) (sent : Bool) (r : ValveRec), v ≤ 105 → s.reading v = some x →
    t = s.checkReading v x sent → r = { s.valve v with latest := some x } →
    (t.valve v).latest = some x
    ∧ ((s.valve v).st = .undefined ∨ (s.valve v).st = .fault → t.valve v = r ∧ t.owners = s.owners ∧ t.sched = s.sched)
    ∧ ((s.valve v).st ≠ .undefined → (s.valve v).st ≠ .fault → x = .both →
        t.valve v = { r with st := .fault, cause := some .switchConflict, mismatch := 0, timer := none } ∧ s.Tells t v (t.valve v))
    ∧ (∀ p : Pos, (s.valve v).st = p.idle → x = p.other.reading →
        ((s.valve v).mismatch = 0 → t.valve v = { r with mismatch := 1 } ∧ t.owners = s.owners ∧ t.sched = s.sched)
        ∧ ((s.valve v).mismatch ≠ 0 →
          t.valve v = { r with st := .fault, cause := some .uncommanded, mismatch := 0, timer := none } ∧ s.Tells t v (t.valve v)))
    ∧ (∀ p : Pos, (s.valve v).st = p.idle → x = p.reading ∨ x = .neither →
        t.valve v = { r with mismatch := 0 } ∧ t.owners = s.owners ∧ t.sched = s.sched)
    ∧ (∀ p : Pos, (s.valve v).st = p.moving → (s.valve v).target = some p → x ≠ .both →
      (∀ at_, (s.valve v).driveSent = some at_ → at_ < s.clock → sent = false → x = p.reading →
        t.valve v = { r with st := p.idle, timer := none } ∧ s.Tells t v (t.valve v))
      ∧ (sent = true ∨ x ≠ p.reading ∨ (∀ at_, (s.valve v).driveSent = some at_ → s.clock ≤ at_) →
        t.valve v = r ∧ t.owners = s.owners ∧ t.sched = s.sched))
    ∧ (∀ p : Pos, (s.valve v).st = .unknown → x ≠ .both → s.commandedTarget v = some p →
        t.valve v = (if x = p.reading then { r with target := some p, st := p.idle }
          else { r with target := some p, st := p.moving, driveSent := some s.clock,
                        timer := some ⟨0, some s.clock, (s.tables.valve v).stroke⟩ })
        ∧ s.Tells t v (t.valve v)))
  ∧ (∀ (s : State) (v : Nat), v ≤ 105 →
    (s.driveSentNow v = true ↔ (s.valve v).st.isMoving = true ∧ (s.valve v).driveSent = none
      ∧ ∃ p, s.tables.drivePos v = some p ∧ bitAt s.image.copy p = bitAt s.image.out p)
    ∧ (s.driveSentNow v = true → (s.markSent v).valve v =
        { s.valve v with driveSent := some s.clock, timer := some ⟨0, some s.clock, (s.tables.valve v).stroke⟩ })
    ∧ (s.driveSentNow v = false → s.markSent v = s)
    ∧ (∀ t, t = s.checkValve v → (s.tables.valve v).present = true → s.reading v = none →
      (s.tables.switchless v = false →
        ((s.valve v).st ≠ .unknown → t.valve v = { (s.markSent v).valve v with mismatch := 0 })
        ∧ ((s.valve v).st = .unknown → t.valve v = { s.valve v with
            mismatch := 0, target := (s.commandedTarget v).or (s.valve v).target }))
      ∧ (s.tables.switchless v = true →
        ((s.valve v).st ≠ .unknown → t = s.markSent v)
        ∧ (∀ p, (s.valve v).st = .unknown → s.commandedTarget v = some p →
            t.valve v = { s.valve v with st := p.idle, target := some p })
        ∧ ((s.valve v).st = .unknown → s.commandedTarget v = none → t.valve v = s.valve v)))
    ∧ s.commandedTarget v = (s.tables.drivePos v).map (fun p =>
        if bitAt s.image.out p = true then (s.tables.valve v).fail.other else (s.tables.valve v).fail)
    ∧ (s.tables.switchless v = true ↔ s.tables.openPos v = none ∧ s.tables.closedPos v = none)
    ∧ (s.tables.switchless v = true → s.reading v = none)
    ∧ (∀ p, s.tables.openPos v = some p → s.tables.closedPos v = none →
        s.reading v = if s.goodAt p = true then some (if bitAt s.image.ret p then .opened else .closed) else none)
    ∧ (∀ p, s.tables.openPos v = none → s.tables.closedPos v = some p →
        s.reading v = if s.goodAt p = true then some (if bitAt s.image.ret p then .closed else .opened) else none)
    ∧ (∀ p q, s.tables.openPos v = some p → s.tables.closedPos v = some q →
        (s.goodAt p = false ∨ s.goodAt q = false → s.reading v = none)
        ∧ (s.goodAt p = true → s.goodAt q = true → s.reading v = some (
            if bitAt s.image.ret p = true ∧ bitAt s.image.ret q = true then .both
            else if bitAt s.image.ret p = true then .opened else if bitAt s.image.ret q = true then .closed else .neither)))
    ∧ Spared s (s.checkValve v) ∧ (s.checkValve v).zones = s.zones ∧ (∀ w, w ≠ v → (s.checkValve v).valve w = s.valve w)
    ∧ (((s.checkValve v).valve v).st ≠ (s.valve v).st → (s.checkValve v).Noticed (.valve v)))
  ∧ [Pos.opened, .closed].map Pos.other = [.closed, .opened] ∧ [Pos.opened, .closed].map Pos.reading = [.opened, .closed]
  ∧ [Pos.opened, .closed].map Pos.idle = [.opened, .closed] ∧ [Pos.opened, .closed].map Pos.moving = [.opening, .closing]

/-- A switchless valve arrives when its stroke timer has run for the stroke time; a valve with switches whose timer reaches
twice the stroke time goes to FAULT with cause STROKE_TIMEOUT and loses its queue entry. Either tells its owner (`Tells`) and
joins the notice pending set. (An expiry taken late stands at the clock, log 2.) -/
def Obligations.StrokeTimersExpire : Prop :=
  ∀ (s : State) (v since now : Nat) (tm : StrokeTimer) (p : Pos), s.power.running = true → v ≤ 105 →
    (s.valve v).timer = some tm → tm.since = some since → (s.valve v).st.isMoving = true → (s.valve v).target = some p →
    (s.tables.switchless v = true → now = max s.clock (since + (tm.stroke * 2000 - tm.count)) →
      ∃ u : State, exec (.strokeTimeArrival v) s = .next u.finish ∧ (u.valve v).st = p.idle ∧ (u.valve v).timer = none
        ∧ State.Tells { s with clock := now } u v { s.valve v with st := p.idle, timer := none }
        ∧ (∀ w, w ≠ v → u.valve w = s.valve w) ∧ Spared { s with clock := now } u ∧ u.zones = s.zones ∧ u.image = s.image
        ∧ u.Noticed (.valve v))
    ∧ (s.tables.switchless v = false → now = max s.clock (since + (2 * tm.stroke * 2000 - tm.count)) →
      ∃ t u : State, exec (.strokeTimeout v) s = .next t ∧ t = u.finish ∧ (t.valve v).st = .fault
        ∧ State.Tells { s with clock := now } u v
            { s.valve v with st := .fault, cause := some .strokeTimeout, mismatch := 0, timer := none }
        ∧ (t.valve v).cause = some .strokeTimeout ∧ (t.valve v).timer = none ∧ (t.valve v).target = some p
        ∧ (t.valve v).driveSent = (s.valve v).driveSent ∧ t.hasEntry v = false
        ∧ Spared { s with clock := now } t ∧ t.zones = s.zones ∧ t.Noticed (.valve v))

/-- At the end of a drain or fill timer the owner takes step 3 of its sequence (`StepTaken`): with the step's valve in place it
enters its end state; with the valve at the other position it asks for the move, URGENT for an isolate; with the valve in FAULT it
becomes FAILED. A report of the valve its step waits on takes the step again: step 1 in place starts the timer, D or Fd as the
limits stand (the fill time for a restore), where the step needed a move and the length is not 0, and else goes on to step 3. A
report to an owner at step 2, of its other valve, or to one in no sequence changes nothing but an owner not derived yet, FAILED or
in NO_VALVES. An owner in any settled state but UNDEFINED, INACTIVE and NO_VALVES becomes FAILED when a valve of it goes to FAULT,
and a FAILED one begins its course again (`Begins`) when neither is in FAULT or UNKNOWN. At a timer's end the owner joins the
notice pending set. (A timer end taken late stands at the clock, log 2; that an owner joins at any change of its record is log 22;
that a step taken again replaces the entry it placed before is log 7; that a fault leaves an owner not derived yet as it is until
its derivation is log 8.) -/
def Obligations.PhaseTimersEnd : Prop :=
  (∀ (s : State) (o : Owner) (ph : PhaseTimer) (v : Nat) (d : Dir) (p : Pos), s.power.running = true →
    WellFormed.owner o = true → (s.owner o).phase = some ph → s.stepMove o 3 = (v, d) →
    p = d.target (s.tables.valve v).fail →
    ∀ c : Instr, (c = .drainTimerEnd o ∧ ((s.owner o).mode = .isolating ∨ (s.owner o).mode = .parking))
        ∨ (c = .fillTimerEnd o ∧ (s.owner o).mode = .restoring) →
      ∃ u : State, exec c s = .next u.finish ∧ Spared { s with clock := max s.clock (ph.start + ph.len * 2000) } u
        ∧ u.valves = s.valves ∧ u.zones = s.zones ∧ u.image = s.image ∧ u.jobs = s.jobs ∧ (u.owner o).phase = none
        ∧ (u.owner o).holds = (s.owner o).holds ∧ (u.owner o).hostHold = (s.owner o).hostHold ∧ u.Noticed o.obj
        ∧ State.StepTaken { s with clock := max s.clock (ph.start + ph.len * 2000) } u o (s.owner o).mode 3 v d p s.sched.queue)
  ∧ (∀ (s : State) (o : Owner) (v w len : Nat) (d : Dir) (p q : Pos), WellFormed.owner o = true → (s.owner o).settled = true →
    (s.owner o).mode ∈ [.isolating, .restoring, .parking] → s.sequence o (s.owner o).mode = (v, w, d) →
    p = d.target (s.tables.valve v).fail → q = d.target (s.tables.valve w).fail →
    len = (if (s.owner o).mode = .restoring then s.tables.limits.fill else s.tables.limits.drain) →
    ((s.owner o).step = some 1 → s.valveReport w = s
      ∧ ((s.valve v).st ≠ p.idle → s.StepTaken (s.valveReport v) o (s.owner o).mode 1 v d p s.sched.queue)
      ∧ ((s.valve v).st = p.idle → (s.owner o).needed = true → 0 < len →
          (s.valveReport v).owner o = { s.owner o with step := some 2, phase := some ⟨s.clock, len⟩ }
            ∧ (s.valveReport v).sched = s.sched)
      ∧ ((s.valve v).st = p.idle → (s.owner o).needed = false ∨ len = 0 →
          s.StepTaken (s.valveReport v) o (s.owner o).mode 3 w d q s.sched.queue))
    ∧ ((s.owner o).step = some 2 → s.valveReport v = s ∧ s.valveReport w = s)
    ∧ ((s.owner o).step = some 3 → s.valveReport v = s
      ∧ s.StepTaken (s.valveReport w) o (s.owner o).mode 3 w d q s.sched.queue))
  ∧ (∀ (s t : State) (v : Nat) (o : Owner), v ≤ 105 → o = valveOwner v → t = s.valveReport v ∨ t = s.faultReport v →
    ((s.owner o).mode = .undefined → t = s)
    ∧ ((s.owner o).mode ≠ .undefined → (s.owner o).settled = false →
        t = if s.chain.adopted = true ∧ s.valvesKnown o = true then s.ownerOp o fun x => x.deriveOne o else s)
    ∧ ((s.owner o).settled = true → (s.owner o).mode = .noValves → t = s.checkNoValves o)
    ∧ Spared s t ∧ t.valves = s.valves ∧ t.zones = s.zones ∧ t.jobs = s.jobs ∧ t.image = s.image)
  ∧ (∀ (s t : State) (v : Nat) (o : Owner), v ≤ 105 → o = valveOwner v → t = s.valveReport v → (s.owner o).settled = true →
    ((s.owner o).mode ∈ [.inactive, .inService, .opened, .suspended, .isolated] → t = s)
    ∧ ((s.owner o).mode = .failed → s.valvesKnown o = false ∨ s.anyValveFault o = true → t = s)
    ∧ ((s.owner o).mode = .failed → s.valvesKnown o = true → s.anyValveFault o = false → s.Begins t o (s.outcome o) s.sched.queue))
  ∧ (∀ (s t : State) (v : Nat) (o : Owner), v ≤ 105 → o = valveOwner v → t = s.faultReport v → (s.owner o).settled = true →
    ((s.owner o).mode = .inactive ∨ (s.owner o).mode = .failed → t = s)
    ∧ ((s.owner o).mode ∉ [.undefined, .inactive, .failed, .noValves] →
        t.owner o = { s.owner o with mode := .failed, step := none, phase := none, needed := false }
        ∧ ∀ e ∈ t.sched.queue, e.isOf o = false))

/-- Entries that have reached their start plus W leave the shock window, and the scheduler looks while the queue holds an entry;
the end of a spacing interval, S_same after the last start of a segment or the rack or S_other after the rack's, is another such
look. (Aging or an end taken late stands at the clock, log 2; that any end of an
interval looks while the queue holds an entry is log 36, and that the look is made at the end of the event, `finish`, is log 6.) -/
def Obligations.WindowAndSpacingEnd : Prop :=
  ∀ (s : State) (now : Nat), s.power.running = true →
    (∀ t0, earliest s.sched.window = some t0 → now = max s.clock ((t0 + s.tables.limits.window) * 2000) →
      (∀ w ∈ s.sched.window, t0 ≤ w.start) ∧ (∃ w ∈ s.sched.window, w.start = t0)
      ∧ exec .windowAging s = .next (State.finish { s with
          clock := now
          sched := { s.sched with
            window := s.sched.window.filter (fun w => now / 2000 < w.start + s.tables.limits.window)
            lookDue := s.sched.lookDue || !s.sched.queue.isEmpty } }))
    ∧ (∀ w due, s.spacingDue w = some due → s.sched.queue ≠ [] → now = max s.clock (due * 2000) →
      exec (.spacingEnd w) s = .next (State.finish { s with clock := now, sched := { s.sched with lookDue := true } }))
    ∧ (s.sched.queue = [] → ∀ w, exec (.spacingEnd w) s = .next s)
    ∧ (earliest s.sched.window = none ↔ s.sched.window = [])
    ∧ (∀ g, s.spacingDue (.segmentSame g) = (s.sched.lastSeg.getD g none).map (· + s.tables.limits.sSame))
    ∧ s.spacingDue .rackSame = s.sched.lastRack.map (· + s.tables.limits.sSame)
    ∧ s.spacingDue .rackOther = s.sched.lastRack.map (· + s.tables.limits.sOther)

/-- A look admits only in RUNNING with no PROVE waiting, no ROUTINE entry while an URGENT one waits or HOLD_ON_WET withholds it,
and only an entry that passes the count, budget and spacing tests (the segment's own last start and the rack's); the admission
sets the valve moving toward its target, writes its drive bit, and enters the window with the cost figured then; the valve joins
the notice pending set; where the drive bit changes and the image then differs from the last-sent copy an IMAGE trigger follows.
The entry admitted is the first of those considered that passes, in queue order, and a look admits nothing only where none of them
passes. OPEN and CLOSE command their positions, RELEASE the fail position; the drive bit is 1 where the position is not the fail
position. -/
def Obligations.AdmissionRule : Prop :=
  (∀ s t : State, s.lookOnce = some t → ∃ e ∈ s.sched.queue, s.chain.st = .running
    ∧ (∀ p, s.chain.session = some p → p.frames = true)
    ∧ (e.urgent = false → (∀ x ∈ s.sched.queue, x.urgent = false)
        ∧ ¬ (s.tables.scan.holdOnWet = true ∧ 0 < s.activeJobs))
    ∧ s.sched.window.length < s.tables.limits.count
    ∧ (∀ limit cost, limit = s.tables.limits.budget - (if e.urgent then 0 else s.tables.limits.reserve) →
        cost = s.costOf e.valve e.dir →
        (s.windowSum + cost ≤ limit ∨ (limit < cost ∧ s.sched.window = []))
        ∧ t.sched.window = s.sched.window ++ [⟨e.valve, e.urgent, e.dir, s.ms, cost⟩])
    ∧ (∀ last, s.sched.lastRack = some last → s.valveSegment e.valve = none → last + s.tables.limits.sSame ≤ s.ms)
    ∧ (∀ last g, s.sched.lastRack = some last → s.valveSegment e.valve = some g → last + s.tables.limits.sOther ≤ s.ms)
    ∧ (∀ last g, s.valveSegment e.valve = some g → s.sched.lastSeg.getD g none = some last →
        last + s.tables.limits.sSame ≤ s.ms)
    ∧ (∀ g ≤ 3, (t.sched.lastSeg.getD g none = if s.valveSegment e.valve = some g ∨ s.valveSegment e.valve = none then some s.ms
        else s.sched.lastSeg.getD g none))
    ∧ t.sched.queue = s.sched.queue.filter (fun x => x.valve != e.valve) ∧ t.sched.lastRack = some s.ms
    ∧ (∀ p, e.valve ≤ 105 → p = e.dir.target (s.tables.valve e.valve).fail →
        t.valve e.valve = { s.valve e.valve with
          st := p.moving, target := some p, driveSent := none, mismatch := 0, timer := none }
        ∧ ((s.valve e.valve).st ≠ p.moving → t.Noticed (.valve e.valve)))
    ∧ (∀ p, s.tables.drivePos e.valve = some p → p < s.image.out.length →
        bitAt t.image.out p = e.dir.driveBit (s.tables.valve e.valve).fail)
    ∧ (∀ p, s.tables.drivePos e.valve = some p →
        t.image = { s.image with out := s.image.out.set p (e.dir.driveBit (s.tables.valve e.valve).fail) }
        ∧ t.scanDue = (s.scanDue || (bitAt s.image.out p != e.dir.driveBit (s.tables.valve e.valve).fail
            && t.image.out != s.image.copy && s.tables.scan.image)))
    ∧ (s.tables.drivePos e.valve = none → t.image = s.image ∧ t.scanDue = s.scanDue)
    ∧ Spared s t ∧ t.owners = s.owners ∧ t.zones = s.zones ∧ t.jobs = s.jobs)
  ∧ (∀ (s : State) (considered : List MoveEntry), considered = (
      if s.chain.st ≠ .running ∨ s.proveWaiting = true then []
      else if ∃ x ∈ s.sched.queue, x.urgent = true then s.sched.queue.filter fun x => x.urgent
      else if s.tables.scan.holdOnWet = true ∧ 0 < s.activeJobs then []
      else s.sched.queue) →
    (s.lookOnce = none ↔ ∀ e ∈ considered, ¬ (s.countTest = true ∧ s.budgetTest e = true ∧ s.spacingTest e = true))
    ∧ (∀ before e after, considered = before ++ e :: after →
        (∀ x ∈ before, ¬ (s.countTest = true ∧ s.budgetTest x = true ∧ s.spacingTest x = true)) →
        s.countTest = true → s.budgetTest e = true → s.spacingTest e = true →
        ∃ t, s.lookOnce = some t ∧ t.sched.queue = s.sched.queue.filter (fun x => x.valve != e.valve)
          ∧ t.sched.window = s.sched.window ++ [⟨e.valve, e.urgent, e.dir, s.ms, s.costOf e.valve e.dir⟩]))
  ∧ (∀ (s : State) (e : MoveEntry) (limit : Nat),
    limit = s.tables.limits.budget - (if e.urgent then 0 else s.tables.limits.reserve) →
    (s.proveWaiting = true ↔ ∃ p, s.chain.session = some p ∧ p.frames = false)
    ∧ (s.countTest = true ↔ s.sched.window.length < s.tables.limits.count)
    ∧ s.windowSum = (s.sched.window.map (·.cost)).sum
    ∧ (s.budgetTest e = true ↔ s.windowSum + s.costOf e.valve e.dir ≤ limit ∨ (limit < s.costOf e.valve e.dir ∧ s.sched.window = []))
    ∧ (s.spacingTest e = true ↔ match s.valveSegment e.valve with
        | some g => (∀ last, s.sched.lastSeg.getD g none = some last → last + s.tables.limits.sSame ≤ s.ms)
            ∧ (∀ last, s.sched.lastRack = some last → last + s.tables.limits.sOther ≤ s.ms)
        | none => ∀ last, s.sched.lastRack = some last → last + s.tables.limits.sSame ≤ s.ms)
    ∧ (∀ v, s.valveSegment v = if v ≤ 95 then some (s.tables.branch (v / 2)).segment
        else if v ≤ 103 then some ((v - 96) / 2) else none))
  ∧ (∀ fail, [.openMove, .closeMove, .release].map (Dir.target fail) = [.opened, .closed, fail])
  ∧ (∀ fail (d : Dir), d.driveBit fail = true ↔ d.target fail ≠ fail)

/-! ## Zones, jobs and flow -/

/-- What a sample does: consecutive wet samples take a DRY zone through SUSPECT to WET at its confirm count K, one dry sample ends
a suspicion, a WET zone stays WET counting its dry run, an ACKED zone becomes DRY when its dry run reaches C. A zone that changes
state joins the notice pending set, and so does one in WET or ACKED whose last wet cause changes; a change of the wet count or the
dry run alone adds nothing to it. What a sample is: of a DRIP zone, over its mapped positions whose card is good, SENSE where one
differs from its dry level and dry where none does; with no such position CARD_FAULT for a failsafe zone, and none for another or
for one with nothing mapped. Of a BALANCE zone, taken where its branch is IN_SERVICE and both meters are defined, VALID and not
STALE: wet where the supply exceeds the return by more than T and is at least Fmin, else dry. -/
def Obligations.SamplesCounted : Prop :=
  (∀ (s : State) (z : Nat) (cause : WetCause) (w d : State), z ≤ 63 → w = s.takeSample z (some cause) →
    d = s.takeSample z none →
    ((s.zone z).st = .dry → d = s
      ∧ (1 < (s.tables.zone z).confirm → w.zone z = { s.zone z with st := .suspect, wet := 1, cause := some cause })
      ∧ ((s.tables.zone z).confirm ≤ 1 → w.zone z = ⟨.wet, 0, 0, some cause, some s.ms⟩))
    ∧ ((s.zone z).st = .suspect → d.zone z = ⟨.dry, 0, 0, none, none⟩
      ∧ ((s.zone z).wet + 1 < (s.tables.zone z).confirm →
          w.zone z = { s.zone z with wet := (s.zone z).wet + 1, cause := some cause })
      ∧ ((s.tables.zone z).confirm ≤ (s.zone z).wet + 1 → w.zone z = ⟨.wet, 0, 0, some cause, some s.ms⟩))
    ∧ ((s.zone z).st = .wet ∨ (s.zone z).st = .acked → w.zone z = { s.zone z with dry := 0, cause := some cause })
    ∧ ((s.zone z).st = .wet → d.zone z = { s.zone z with dry := min 255 ((s.zone z).dry + 1) })
    ∧ ((s.zone z).st = .acked →
        (min 255 ((s.zone z).dry + 1) < (s.tables.zone z).clear →
          d.zone z = { s.zone z with dry := min 255 ((s.zone z).dry + 1) })
        ∧ ((s.tables.zone z).clear ≤ min 255 ((s.zone z).dry + 1) → d.zone z = ⟨.dry, 0, 0, none, none⟩))
    ∧ ((s.zone z).st = .off ∨ (s.zone z).st = .undefined → w = s ∧ d = s)
    ∧ (∀ y, y ≠ z → w.zone y = s.zone y ∧ d.zone y = s.zone y)
    ∧ ((s.zone z).st = .wet ∨ (s.zone z).st = .acked →
        ((s.zone z).cause ≠ some cause → w.Noticed (.zone z)) ∧ ((s.zone z).cause = some cause → w.link = s.link))
    ∧ ((w.zone z).st = .suspect → (s.zone z).st = .suspect → w.link = s.link)
    ∧ ((d.zone z).st = (s.zone z).st → d.link = s.link)
    ∧ ((w.zone z).st ≠ (s.zone z).st → w.Noticed (.zone z)) ∧ ((d.zone z).st ≠ (s.zone z).st → d.Noticed (.zone z)))
  ∧ (∀ (s : State) (z : Nat) (usable : Nat → Bool → Prop),
    (∀ p l, usable p l ↔ s.goodAt p = true ∧ ∃ e ∈ s.tables.map, e.fn = .drip z l ∧ p = s.tables.posOf e.card e.offset) →
    ((∀ e ∈ s.tables.map, ∀ l, e.fn ≠ .drip z l) → s.dripSample z = none)
    ∧ ((∃ e ∈ s.tables.map, ∃ l, e.fn = .drip z l) → (∀ p l, ¬ usable p l) →
        s.dripSample z = if (s.tables.zone z).failsafe = true then some (some .cardFault) else none)
    ∧ ((∃ p l, usable p l ∧ bitAt s.image.ret p ≠ l) → s.dripSample z = some (some .sense))
    ∧ ((∃ p l, usable p l) → (∀ p l, usable p l → bitAt s.image.ret p = l) → s.dripSample z = some none))
  ∧ (∀ (s : State) (z b : Nat) (samples : Prop), b = (s.tables.zone z).branch →
    samples = ((s.owner (.branch b)).mode = .inService ∧ ∀ m, m = 2 * b ∨ m = 2 * b + 1 →
      (s.tables.meter m).defined = true ∧ (s.meter m).valid = true ∧ (s.meter m).stale = false) →
    (¬ samples → s.balanceSample z = none)
    ∧ (samples → (s.tables.zone z).threshold + (s.meter (2 * b + 1)).smooth < (s.meter (2 * b)).smooth →
        (s.tables.zone z).minFlow ≤ (s.meter (2 * b)).smooth → s.balanceSample z = some (some .balance))
    ∧ (samples → (s.meter (2 * b)).smooth ≤ (s.tables.zone z).threshold + (s.meter (2 * b + 1)).smooth
        ∨ (s.meter (2 * b)).smooth < (s.tables.zone z).minFlow → s.balanceSample z = some none))
  ∧ (∀ st : ZoneState, st.enabled = true ↔ st ∈ [.dry, .suspect, .wet, .acked])

/-- A zone that enters WET with auto-isolate set and a plan keeps the job it has; else gets a job in the lowest free slot, one
entry for each target of its plan and one hold on each; else joins the tail of the wait list. The holds are placed in list order,
and each owner whose count leaves 0 re-evaluates there and then (`HoldsMove`; what an evaluation does is `HostHolds`). Without
auto-isolate, or with an empty plan, it is handed to nobody. The zone joins the notice pending set, and so does the slot of a job
created. -/
def Obligations.WetZoneHandedOver : Prop :=
  ∀ (s t : State) (z : Nat) (cause : WetCause), z ≤ 63 → t = s.enterWet z cause →
    t.Noticed (.zone z)
    ∧ ((s.tables.zone z).auto = false ∨ s.tables.plan z = [] →
      t.jobs = s.jobs ∧ t.owners = s.owners ∧ t.waitList = s.waitList)
    ∧ ((s.tables.zone z).auto = true → s.tables.plan z ≠ [] →
      (∀ slot, s.jobSlotOf z = some slot → t.jobs = s.jobs ∧ t.owners = s.owners ∧ t.waitList = s.waitList)
      ∧ (∀ slot, s.jobSlotOf z = none → s.freeSlot = some slot →
          (∃ x : State, State.SameButNotices { s with
              zones := s.zones.put z ⟨.wet, 0, 0, some cause, some s.ms⟩
              jobs := s.jobs.put slot (some ⟨z, s.ms, (s.tables.plan z).map fun o => ⟨o, none, .absent, .waiting⟩, .active⟩) } x
            ∧ State.HoldsMove (· + 1) (s.tables.plan z) x t)
          ∧ t.job slot = some ⟨z, s.ms, (s.tables.plan z).map fun o => ⟨o, none, .absent, .waiting⟩, .active⟩
          ∧ (∀ k, k ≠ slot → t.job k = s.job k) ∧ (∀ k < slot, (s.job k).isSome) ∧ t.waitList = s.waitList
          ∧ t.Noticed (.job slot)
          ∧ ((s.tables.plan z).Nodup → (∀ o ∈ s.tables.plan z, WellFormed.owner o = true) →
            ∀ o, WellFormed.owner o = true →
              (t.owner o).holds = (s.owner o).holds + if o ∈ s.tables.plan z then 1 else 0))
      ∧ (s.jobSlotOf z = none → s.freeSlot = none → t.owners = s.owners ∧ t.jobs = s.jobs
          ∧ t.waitList = if z ∈ s.waitList then s.waitList else s.waitList ++ [z]))
    ∧ (∀ k, s.jobSlotOf z = some k → k ≤ 15 ∧ ∃ j, s.job k = some j ∧ j.zone = z)
    ∧ (s.jobSlotOf z = none ↔ ∀ k j, s.job k = some j → j.zone ≠ z)
    ∧ (∀ k, s.freeSlot = some k → k ≤ 15 ∧ s.job k = none) ∧ (s.freeSlot = none ↔ ∀ k ≤ 15, s.job k ≠ none)

/-- The arithmetic of chapter 5: the count step modulo 256; the raw rate, OVERRANGE with 4000 above a count step of 240 and else
600000 times the step over K times the time difference, at most 4000; a tick without a count, which marks a VALID meter STALE (log
44 for one that is not VALID), and with one, which restarts the count after more than 5000 ms; the smoothing step (the difference
over 2^s, truncated toward zero); the multiplier of a stroke time; and the cost of a move: flow times multiplier over 256 for a
closing and 512 for an opening, rounded up, at least 1, and at most 1000 over the flow range. The flow value of a defined branch
is its supply meter's smoothed flow, else its return meter's, where DEFINED and VALID, else its nominal flow while IN_SERVICE,
else 0; that of a segment the sum over its defined branches, at most 4000; that of the main meter 96's, else the sum over all. A
move of a valve costs by the flow value of its owner, the multiplier of its stroke time, and whether it closes: CLOSE, or RELEASE
of a valve that fails CLOSED. (That a RELEASE of a valve that fails OPEN costs what an OPEN does, as R98 has it and R4 does not,
is log 62.) -/
def Obligations.FlowArithmetic : Prop :=
  (∀ now before : Nat, now < 256 → before < 256 → countStep now before < 256 ∧ (before + countStep now before) % 256 = now)
  ∧ (∀ k step delta : Nat,
      (240 < step → rawRate k step delta = (4000, true))
      ∧ (step ≤ 240 → rawRate k step delta = (min 4000 (step * 600000 / (k * delta)), false)))
  ∧ (∀ h : MeterHist, h.noCount = { h with stale := h.valid })
  ∧ (∀ (h : MeterHist) (d : MeterDef) (now count : Nat),
      (h.prevCount = none ∨ h.prevTick = none →
        h.counted d now count = { h with prevCount := some count, prevTick := some now })
      ∧ (∀ c t, h.prevCount = some c → h.prevTick = some t →
        (5000 < now - t → h.counted d now count = { h with prevCount := some count, prevTick := some now, stale := true })
        ∧ (now - t ≤ 5000 → ∀ raw high, (raw, high) = rawRate d.kFactor (countStep count c) (now - t) →
          h.counted d now count = ⟨some count, some now, some raw,
            if h.valid = true then smoothStep d.shift h.smooth raw else raw, true, high, false⟩)))
  ∧ (∀ shift smooth raw : Nat,
      (smooth ≤ raw → smoothStep shift smooth raw = smooth + (raw - smooth) / 2 ^ shift ∧ smoothStep shift smooth raw ≤ raw)
      ∧ (raw ≤ smooth → smoothStep shift smooth raw + (smooth - raw) / 2 ^ shift = smooth
          ∧ raw ≤ smoothStep shift smooth raw))
  ∧ (∀ stroke : Nat, (classOf stroke).multiplier = if stroke ≤ 1000 then 64 else if stroke ≤ 5000 then 32 else 8)
  ∧ (∀ (flow m divisor cost : Nat) (closing : Bool), divisor = (if closing then 256 else 512) →
      cost = moveCost flow m closing →
      1 ≤ cost ∧ flow * m ≤ cost * divisor ∧ (1 < cost → (cost - 1) * divisor < flow * m)
      ∧ (flow ≤ 4000 → m ≤ 64 → cost ≤ 1000))
  ∧ (∀ (s : State) (usable : Nat → Prop), (∀ m, usable m ↔ (s.tables.meter m).defined = true ∧ (s.meter m).valid = true) →
    (∀ b, ((s.tables.branch b).defined = false → s.branchFlow b = 0)
      ∧ ((s.tables.branch b).defined = true →
        (usable (2 * b) → s.branchFlow b = (s.meter (2 * b)).smooth)
        ∧ (¬ usable (2 * b) → usable (2 * b + 1) → s.branchFlow b = (s.meter (2 * b + 1)).smooth)
        ∧ (¬ usable (2 * b) → ¬ usable (2 * b + 1) → s.branchFlow b =
            if (s.owner (.branch b)).mode = .inService then (s.tables.branch b).nominal else 0)))
    ∧ (∀ b, s.ownerFlow (.branch b) = s.branchFlow b)
    ∧ (∀ g, s.ownerFlow (.segment g) = min 4000 (((List.range 48).filter fun b =>
        (s.tables.branch b).defined && (s.tables.branch b).segment == g).map s.branchFlow).sum)
    ∧ (usable 96 → s.ownerFlow .main = (s.meter 96).smooth)
    ∧ (¬ usable 96 → s.ownerFlow .main = min 4000 (((List.range 48).filter fun b =>
        (s.tables.branch b).defined).map s.branchFlow).sum)
    ∧ (∀ v d, s.costOf v d = moveCost (s.ownerFlow (valveOwner v)) (classOf (s.tables.valve v).stroke).multiplier
        (d == .closeMove || (d == .release && (s.tables.valve v).fail == .closed))))
  ∧ (∀ v, valveOwner v = if v ≤ 95 then .branch (v / 2) else if v ≤ 103 then .segment ((v - 96) / 2) else .main)
end

