-- ==== Sys2Proof/Laws/State.lean ====
section
/-! SUPPORT. What each named update of State leaves and sets, one lemma per update: every conjunct is one field, so `simp` reads
a field through an update without unfolding the record. -/

namespace Sys2Proof.Machine

namespace State

variable (s : State)

/-! ## Updates that touch one field -/

@[simp] theorem reply_fields (k : Nat) (tag : Byte) (st : Status) (fs : List Byte) :
    (s.reply k tag st fs).clock = s.clock ∧ (s.reply k tag st fs).lastStart = s.lastStart
    ∧ (s.reply k tag st fs).power = s.power ∧ (s.reply k tag st fs).rateHigh = s.rateHigh
    ∧ (s.reply k tag st fs).tables = s.tables ∧ (s.reply k tag st fs).locks = s.locks
    ∧ (s.reply k tag st fs).stored = s.stored ∧ (s.reply k tag st fs).copyValid = s.copyValid
    ∧ (s.reply k tag st fs).commit = s.commit ∧ (s.reply k tag st fs).chain = s.chain
    ∧ (s.reply k tag st fs).ring = s.ring ∧ (s.reply k tag st fs).image = s.image
    ∧ (s.reply k tag st fs).scanDue = s.scanDue ∧ (s.reply k tag st fs).periodicFrom = s.periodicFrom
    ∧ (s.reply k tag st fs).flow = s.flow ∧ (s.reply k tag st fs).zones = s.zones
    ∧ (s.reply k tag st fs).valves = s.valves ∧ (s.reply k tag st fs).owners = s.owners
    ∧ (s.reply k tag st fs).jobs = s.jobs ∧ (s.reply k tag st fs).waitList = s.waitList
    ∧ (s.reply k tag st fs).activeJobs = s.activeJobs ∧ (s.reply k tag st fs).sched = s.sched
    ∧ (s.reply k tag st fs).freeCount = s.freeCount ∧ (s.reply k tag st fs).pending = s.pending := by
  and_intros <;> rfl

@[simp] theorem reply_link (k : Nat) (tag : Byte) (st : Status) (fs : List Byte) :
    (s.reply k tag st fs).link = { s.link with replies := s.link.replies ++ [⟨k, tag, st, fs⟩] } := rfl

@[simp] theorem refuse_eq (k : Nat) (tag : Byte) (st : Status) : s.refuse k tag st = s.reply k tag st [] := rfl

@[simp] theorem reply_slots (k : Nat) (tag : Byte) (st : Status) (fs : List Byte) (i : Nat) (o : Owner) :
    (s.reply k tag st fs).valve i = s.valve i ∧ (s.reply k tag st fs).zone i = s.zone i
    ∧ (s.reply k tag st fs).owner o = s.owner o ∧ (s.reply k tag st fs).job i = s.job i
    ∧ (s.reply k tag st fs).meter i = s.meter i := ⟨rfl, rfl, rfl, rfl, rfl⟩

@[simp] theorem setJob_fields (k : Nat) (j : Option Job) :
    (s.setJob k j).clock = s.clock ∧ (s.setJob k j).tables = s.tables ∧ (s.setJob k j).link = s.link
    ∧ (s.setJob k j).chain = s.chain ∧ (s.setJob k j).image = s.image ∧ (s.setJob k j).zones = s.zones
    ∧ (s.setJob k j).valves = s.valves ∧ (s.setJob k j).owners = s.owners ∧ (s.setJob k j).waitList = s.waitList
    ∧ (s.setJob k j).sched = s.sched ∧ (s.setJob k j).scanDue = s.scanDue ∧ (s.setJob k j).activeJobs = s.activeJobs :=
  ⟨rfl, rfl, rfl, rfl, rfl, rfl, rfl, rfl, rfl, rfl, rfl, rfl⟩

@[simp] theorem setZone_fields (z : Nat) (r : ZoneRec) :
    (s.setZone z r).clock = s.clock ∧ (s.setZone z r).tables = s.tables ∧ (s.setZone z r).link = s.link
    ∧ (s.setZone z r).chain = s.chain ∧ (s.setZone z r).image = s.image ∧ (s.setZone z r).jobs = s.jobs
    ∧ (s.setZone z r).valves = s.valves ∧ (s.setZone z r).owners = s.owners ∧ (s.setZone z r).waitList = s.waitList
    ∧ (s.setZone z r).sched = s.sched ∧ (s.setZone z r).scanDue = s.scanDue ∧ (s.setZone z r).activeJobs = s.activeJobs :=
  ⟨rfl, rfl, rfl, rfl, rfl, rfl, rfl, rfl, rfl, rfl, rfl, rfl⟩

@[simp] theorem withTables_fields (t : TableStore) :
    (s.withTables t).tables = t ∧ (s.withTables t).clock = s.clock ∧ (s.withTables t).link = s.link
    ∧ (s.withTables t).chain = s.chain ∧ (s.withTables t).image = s.image ∧ (s.withTables t).zones = s.zones
    ∧ (s.withTables t).valves = s.valves ∧ (s.withTables t).owners = s.owners ∧ (s.withTables t).jobs = s.jobs
    ∧ (s.withTables t).waitList = s.waitList ∧ (s.withTables t).sched = s.sched ∧ (s.withTables t).scanDue = s.scanDue
    ∧ (s.withTables t).activeJobs = s.activeJobs ∧ (s.withTables t).flow = s.flow
    ∧ (s.withTables t).periodicFrom = s.periodicFrom :=
  ⟨rfl, rfl, rfl, rfl, rfl, rfl, rfl, rfl, rfl, rfl, rfl, rfl, rfl, rfl, rfl⟩

@[simp] theorem withChain_fields (c : Chain) :
    (s.withChain c).chain = c ∧ (s.withChain c).clock = s.clock ∧ (s.withChain c).tables = s.tables
    ∧ (s.withChain c).link = s.link ∧ (s.withChain c).image = s.image ∧ (s.withChain c).zones = s.zones
    ∧ (s.withChain c).valves = s.valves ∧ (s.withChain c).owners = s.owners ∧ (s.withChain c).jobs = s.jobs
    ∧ (s.withChain c).sched = s.sched ∧ (s.withChain c).scanDue = s.scanDue :=
  ⟨rfl, rfl, rfl, rfl, rfl, rfl, rfl, rfl, rfl, rfl, rfl⟩

@[simp] theorem trigger_fields :
    s.trigger.scanDue = true ∧ s.trigger.clock = s.clock ∧ s.trigger.tables = s.tables ∧ s.trigger.link = s.link
    ∧ s.trigger.chain = s.chain ∧ s.trigger.image = s.image ∧ s.trigger.zones = s.zones ∧ s.trigger.valves = s.valves
    ∧ s.trigger.owners = s.owners ∧ s.trigger.jobs = s.jobs ∧ s.trigger.sched = s.sched :=
  ⟨rfl, rfl, rfl, rfl, rfl, rfl, rfl, rfl, rfl, rfl, rfl⟩

@[simp] theorem wantLook_fields :
    s.wantLook.sched = { s.sched with lookDue := true } ∧ s.wantLook.clock = s.clock ∧ s.wantLook.tables = s.tables
    ∧ s.wantLook.link = s.link ∧ s.wantLook.chain = s.chain ∧ s.wantLook.image = s.image ∧ s.wantLook.zones = s.zones
    ∧ s.wantLook.valves = s.valves ∧ s.wantLook.owners = s.owners ∧ s.wantLook.jobs = s.jobs
    ∧ s.wantLook.scanDue = s.scanDue :=
  ⟨rfl, rfl, rfl, rfl, rfl, rfl, rfl, rfl, rfl, rfl, rfl⟩

@[simp] theorem advanceTo_fields (t : Nat) :
    (s.advanceTo t).clock = max s.clock t ∧ (s.advanceTo t).tables = s.tables ∧ (s.advanceTo t).link = s.link
    ∧ (s.advanceTo t).chain = s.chain ∧ (s.advanceTo t).image = s.image ∧ (s.advanceTo t).zones = s.zones
    ∧ (s.advanceTo t).valves = s.valves ∧ (s.advanceTo t).owners = s.owners ∧ (s.advanceTo t).jobs = s.jobs
    ∧ (s.advanceTo t).sched = s.sched ∧ (s.advanceTo t).scanDue = s.scanDue :=
  ⟨rfl, rfl, rfl, rfl, rfl, rfl, rfl, rfl, rfl, rfl, rfl⟩

@[simp] theorem withPending_fields (q : List Instr) :
    (s.withPending q).pending = q ∧ (s.withPending q).clock = s.clock ∧ (s.withPending q).power = s.power
    ∧ (s.withPending q).tables = s.tables ∧ (s.withPending q).chain = s.chain ∧ (s.withPending q).link = s.link :=
  ⟨rfl, rfl, rfl, rfl, rfl, rfl⟩

/-! ## Slots -/

theorem owner_eq (o : Owner) : s.owner o = s.owners.getD o.index (OwnerRec.start .undefined true) := rfl

theorem valve_put (v w : Nat) (r : ValveRec) (t : State) (h : t.valves = s.valves.put v r) :
    t.valve w = if v = w ∧ v < 106 then r else s.valve w := by
  unfold valve; rw [h, Table.getD_put]

theorem zone_put (z y : Nat) (r : ZoneRec) (t : State) (h : t.zones = s.zones.put z r) :
    t.zone y = if z = y ∧ z < 64 then r else s.zone y := by
  unfold zone; rw [h, Table.getD_put]

theorem zone_setZone (z y : Nat) (r : ZoneRec) : (s.setZone z r).zone y = if z = y ∧ z < 64 then r else s.zone y :=
  zone_put s z y r _ rfl

theorem job_setJob (k i : Nat) (j : Option Job) : (s.setJob k j).job i = if k = i ∧ k < 16 then j else s.job i := by
  simp only [job, setJob, Table.getD_put]

/-! ## Notices -/

/-- A join changes the notice pending set alone. -/
theorem joinNotice_eq (o : Obj) :
    s.joinNotice o = { s with link := { s.link with notices := (s.joinNotice o).link.notices } } := by
  unfold joinNotice; split <;> rfl

theorem joinNotice_notices (o : Obj) :
    (s.joinNotice o).link.notices =
      if s.tables.mask.on o && !s.link.notices.contains o then s.link.notices ++ [o] else s.link.notices := by
  unfold joinNotice; split <;> rfl

@[simp] theorem joinNotice_fields (o : Obj) :
    (s.joinNotice o).clock = s.clock ∧ (s.joinNotice o).lastStart = s.lastStart ∧ (s.joinNotice o).power = s.power
    ∧ (s.joinNotice o).rateHigh = s.rateHigh ∧ (s.joinNotice o).tables = s.tables ∧ (s.joinNotice o).locks = s.locks
    ∧ (s.joinNotice o).stored = s.stored ∧ (s.joinNotice o).copyValid = s.copyValid
    ∧ (s.joinNotice o).commit = s.commit ∧ (s.joinNotice o).chain = s.chain ∧ (s.joinNotice o).ring = s.ring
    ∧ (s.joinNotice o).image = s.image ∧ (s.joinNotice o).scanDue = s.scanDue
    ∧ (s.joinNotice o).periodicFrom = s.periodicFrom ∧ (s.joinNotice o).flow = s.flow
    ∧ (s.joinNotice o).zones = s.zones ∧ (s.joinNotice o).valves = s.valves ∧ (s.joinNotice o).owners = s.owners
    ∧ (s.joinNotice o).jobs = s.jobs ∧ (s.joinNotice o).waitList = s.waitList
    ∧ (s.joinNotice o).activeJobs = s.activeJobs ∧ (s.joinNotice o).sched = s.sched
    ∧ (s.joinNotice o).freeCount = s.freeCount ∧ (s.joinNotice o).pending = s.pending
    ∧ (s.joinNotice o).link.replies = s.link.replies ∧ (s.joinNotice o).link.rxQueue = s.link.rxQueue
    ∧ (s.joinNotice o).link.restart = s.link.restart := by
  rw [joinNotice_eq]
  and_intros <;> rfl

@[simp] theorem joinNotice_slots (o : Obj) (i : Nat) (w : Owner) :
    (s.joinNotice o).valve i = s.valve i ∧ (s.joinNotice o).zone i = s.zone i ∧ (s.joinNotice o).owner w = s.owner w
    ∧ (s.joinNotice o).job i = s.job i ∧ (s.joinNotice o).meter i = s.meter i := by
  rw [joinNotice_eq]; exact ⟨rfl, rfl, rfl, rfl, rfl⟩

/-- No object is ever in the set twice (R185). -/
theorem joinNotice_nodup (o : Obj) (h : s.link.notices.Nodup) : (s.joinNotice o).link.notices.Nodup := by
  rw [joinNotice_notices]
  split
  · rename_i hc
    have hn : o ∉ s.link.notices := by
      simp only [Bool.and_eq_true, Bool.not_eq_true', List.contains_eq_mem, decide_eq_false_iff_not] at hc
      exact hc.2
    exact List.Nodup.append h (by simp) (by simpa using hn)
  · exact h

/-! ## Valve and owner records -/

theorem setValve_eq (v : Nat) (r : ValveRec) :
    s.setValve v r = { s with valves := s.valves.put v r,
                              link := { s.link with notices := (s.setValve v r).link.notices } } := by
  unfold setValve; split
  · rfl
  · rw [joinNotice_eq]

theorem setOwner_eq (o : Owner) (r : OwnerRec) :
    s.setOwner o r = { s with owners := s.owners.put o.index r,
                              link := { s.link with notices := (s.setOwner o r).link.notices } } := by
  unfold setOwner; split
  · rfl
  · rw [joinNotice_eq]

/-- A join adds at the tail, if at all. -/
theorem joinNotice_prefix (o : Obj) : s.link.notices <+: (s.joinNotice o).link.notices := by
  rw [joinNotice_notices]
  split
  · exact List.prefix_append _ _
  · exact List.prefix_rfl

theorem setValve_prefix (v : Nat) (r : ValveRec) : s.link.notices <+: (s.setValve v r).link.notices := by
  unfold setValve; split
  · exact List.prefix_rfl
  · exact joinNotice_prefix { s with valves := s.valves.put v r } _

theorem setOwner_prefix (o : Owner) (r : OwnerRec) : s.link.notices <+: (s.setOwner o r).link.notices := by
  unfold setOwner; split
  · exact List.prefix_rfl
  · exact joinNotice_prefix { s with owners := s.owners.put o.index r } _

theorem setValve_nodup (v : Nat) (r : ValveRec) (h : s.link.notices.Nodup) : (s.setValve v r).link.notices.Nodup := by
  unfold setValve; split
  · exact h
  · exact joinNotice_nodup _ _ h

theorem setOwner_nodup (o : Owner) (r : OwnerRec) (h : s.link.notices.Nodup) : (s.setOwner o r).link.notices.Nodup := by
  unfold setOwner; split
  · exact h
  · exact joinNotice_nodup _ _ h

@[simp] theorem setValve_fields (v : Nat) (r : ValveRec) :
    (s.setValve v r).clock = s.clock ∧ (s.setValve v r).tables = s.tables ∧ (s.setValve v r).chain = s.chain
    ∧ (s.setValve v r).image = s.image ∧ (s.setValve v r).scanDue = s.scanDue ∧ (s.setValve v r).zones = s.zones
    ∧ (s.setValve v r).valves = s.valves.put v r ∧ (s.setValve v r).owners = s.owners ∧ (s.setValve v r).jobs = s.jobs
    ∧ (s.setValve v r).waitList = s.waitList ∧ (s.setValve v r).activeJobs = s.activeJobs
    ∧ (s.setValve v r).sched = s.sched ∧ (s.setValve v r).flow = s.flow ∧ (s.setValve v r).link.replies = s.link.replies := by
  rw [setValve_eq]; exact ⟨rfl, rfl, rfl, rfl, rfl, rfl, rfl, rfl, rfl, rfl, rfl, rfl, rfl, rfl⟩

@[simp] theorem setOwner_fields (o : Owner) (r : OwnerRec) :
    (s.setOwner o r).clock = s.clock ∧ (s.setOwner o r).tables = s.tables ∧ (s.setOwner o r).chain = s.chain
    ∧ (s.setOwner o r).image = s.image ∧ (s.setOwner o r).scanDue = s.scanDue ∧ (s.setOwner o r).zones = s.zones
    ∧ (s.setOwner o r).valves = s.valves ∧ (s.setOwner o r).owners = s.owners.put o.index r
    ∧ (s.setOwner o r).jobs = s.jobs ∧ (s.setOwner o r).waitList = s.waitList
    ∧ (s.setOwner o r).activeJobs = s.activeJobs ∧ (s.setOwner o r).sched = s.sched ∧ (s.setOwner o r).flow = s.flow
    ∧ (s.setOwner o r).link.replies = s.link.replies := by
  rw [setOwner_eq]; exact ⟨rfl, rfl, rfl, rfl, rfl, rfl, rfl, rfl, rfl, rfl, rfl, rfl, rfl, rfl⟩

theorem valve_setValve (v w : Nat) (r : ValveRec) :
    (s.setValve v r).valve w = if v = w ∧ v < 106 then r else s.valve w :=
  valve_put s v w r _ (by simp)

theorem owner_setOwner (o w : Owner) (r : OwnerRec) :
    (s.setOwner o r).owner w = if o.index = w.index ∧ o.index < 53 then r else s.owner w := by
  simp only [owner_eq, setOwner_fields, Table.getD_put]

@[simp] theorem owner_setValve (v : Nat) (r : ValveRec) (o : Owner) : (s.setValve v r).owner o = s.owner o := by
  simp [owner_eq]

@[simp] theorem valve_setOwner (o : Owner) (r : OwnerRec) (v : Nat) : (s.setOwner o r).valve v = s.valve v := by
  simp [valve]

/-! ## The cards -/

theorem mapRing_eq (f : Nat → Option Nat → CardRegs → CardRegs) :
    s.mapRing f = { s with ring := (s.mapRing f).ring, freeCount := (s.mapRing f).freeCount } := rfl

/-- What a select and a start that cuts a frame off do to the cards: the registers, and the counter of free values. -/
theorem loadCards_eq (k : FrameKind) :
    s.loadCards k = { s with ring := (s.loadCards k).ring, freeCount := (s.loadCards k).freeCount } := rfl

theorem cutFrame_eq : s.cutFrame = { s with ring := s.cutFrame.ring, freeCount := s.cutFrame.freeCount } := by
  unfold cutFrame; split <;> rfl

/-- A start that finds no frame in flight leaves the cards alone. -/
theorem cutFrame_idle (h : s.chain.inFlight = none) : s.cutFrame = s := by
  unfold cutFrame; rw [h]

/-- The place `c` of the ring after a function on every place. -/
theorem mapRing_getElem? (f : Nat → Option Nat → CardRegs → CardRegs) (c : Nat) :
    (s.mapRing f).ring[c]? = (s.ring[c]?).map fun r => f c s.tables.cards[c]? r := by
  simp [mapRing]

/-- A card whose frame a start cut off keeps its latch unless the frame was a SCAN. -/
theorem cardAfterBad_latch (k : FrameKind) (c : Nat) (r : CardRegs) (h : k ≠ .scan) :
    (s.cardAfterBad k c r).latch = r.latch := by
  cases k <;> first | exact absurd rfl h | rfl

/-- A select changes no latch (R31). -/
theorem loadCards_latch (k : FrameKind) (c : Nat) (r : CardRegs) (h : s.ring[c]? = some r) :
    ∃ r', (s.loadCards k).ring[c]? = some r' ∧ r'.latch = r.latch := by
  refine ⟨_, by unfold loadCards; rw [mapRing_getElem?, h]; rfl, ?_⟩
  dsimp only
  cases s.tables.cards[c]? with
  | none => rfl
  | some w => cases k <;> rfl

/-- Fitting the ring to a card table keeps every latch, at the places it had (R31). -/
theorem fitRing_latch (c : Nat) (r : CardRegs) (h : s.ring[c]? = some r) :
    ∃ r', s.fitRing.ring[c]? = some r' ∧ ∀ i < r.latch.length, bitAt r'.latch i = bitAt r.latch i := by
  have hc : c < s.ring.length := (List.getElem?_eq_some_iff.1 h).1
  have hg : s.fitRing.ring[c]? = some (if c < s.tables.cards.length then
      (CardRegs.free (s.freeCount + freePerCard * c) (s.tables.cards.getD c 0)).fitted (s.tables.cards.getD c 0) r else r) := by
    unfold fitRing
    dsimp only
    rw [List.getElem?_map, List.getElem?_range (by omega), Option.map_some, h]
  refine ⟨_, hg, fun i hi => ?_⟩
  split
  · unfold CardRegs.fitted
    split
    · rfl
    · simp [bitAt, List.getD_eq_getElem?_getD, List.getElem?_append_left hi]
  · rfl

/-- A card that keeps its place and width keeps all its registers. -/
theorem fitRing_kept (c : Nat) (r : CardRegs) (h : s.ring[c]? = some r)
    (hw : s.tables.cards[c]? = some r.shift.length) : s.fitRing.ring[c]? = some r := by
  have hc : c < s.ring.length := (List.getElem?_eq_some_iff.1 h).1
  unfold fitRing
  dsimp only
  rw [List.getElem?_map, List.getElem?_range (by omega), Option.map_some, h]
  simp [CardRegs.fitted, List.getD_eq_getElem?_getD, hw]

/-! ## The move queue -/

theorem withdraw_eq (p : MoveEntry → Bool) :
    s.withdraw p = { s with sched := { s.sched with
      queue := s.sched.queue.filter fun e => !p e, lookDue := (s.withdraw p).sched.lookDue } } := by
  unfold withdraw; dsimp only; split <;> rfl

theorem joinMove_eq (e : MoveEntry) :
    s.joinMove e = { s with sched := { s.sched with queue := (s.joinMove e).sched.queue, lookDue := true } } := rfl

/-- The entries of the queue after a join: the new one, and those of other valves. -/
theorem mem_joinMove (e x : MoveEntry) :
    x ∈ (s.joinMove e).sched.queue ↔ x = e ∨ (x ∈ s.sched.queue ∧ x.valve ≠ e.valve) := by
  unfold joinMove
  dsimp only [wantLook]
  cases e.urgent
  · simp [or_comm]
  · simp only [if_true, List.mem_append, List.mem_filter, List.mem_singleton, bne_iff_ne, ne_eq, Bool.not_eq_true']
    constructor
    · rintro ((⟨⟨h, h'⟩, -⟩ | h) | ⟨⟨h, h'⟩, -⟩)
      · exact Or.inr ⟨h, h'⟩
      · exact Or.inl h
      · exact Or.inr ⟨h, h'⟩
    · rintro (h | ⟨h, h'⟩)
      · exact Or.inl (Or.inr h)
      · cases hx : x.urgent
        · exact Or.inr ⟨⟨h, h'⟩, rfl⟩
        · exact Or.inl (Or.inl ⟨⟨h, h'⟩, rfl⟩)

theorem hasEntry_iff (v : Nat) : s.hasEntry v = true ↔ ∃ e ∈ s.sched.queue, e.valve = v := by
  simp [hasEntry]

end State

end Sys2Proof.Machine
end

