-- ==== Sys2Proof/Laws/Owners.lean ====
section
/-! SUPPORT. What the operations of the owners (chapter 1) can do, said once: `Stir s t` (owners, the move queue and the notice
pending set may differ, nothing else), and `Walks s t` (moreover no owner's holds or marks change). -/

namespace Sys2Proof.Machine

/-! ## Objects that have joined (R185) -/

/-- An object that has joined stands in the set as long as the mask stands and objects only join. -/
theorem State.Noticed.mono {s t : State} {o : Obj} (h : s.Noticed o) (hm : t.tables.mask = s.tables.mask)
    (hj : s.link.notices <+: t.link.notices) : t.Noticed o := fun hon => hj.subset (h (hm ▸ hon))

theorem State.joinNotice_noticed (s : State) (o : Obj) : (s.joinNotice o).Noticed o := by
  intro hon
  rw [(joinNotice_fields s o).2.2.2.2.1] at hon
  rw [joinNotice_notices]
  by_cases h : o ∈ s.link.notices <;> simp [hon, h]

theorem State.setValve_noticed (s : State) (v : Nat) (r : ValveRec) (h : r.shown ≠ (s.valve v).shown) :
    (s.setValve v r).Noticed (.valve v) := by
  unfold State.setValve
  rw [if_neg h]
  exact State.joinNotice_noticed _ _

theorem State.setOwner_noticed (s : State) (o : Owner) (r : OwnerRec) (h : r.shown ≠ (s.owner o).shown) :
    (s.setOwner o r).Noticed o.obj := by
  unfold State.setOwner
  rw [if_neg h]
  exact State.joinNotice_noticed _ _

/-! ## What the operations leave alone -/

/-- A state with the owners, the move queue and the notice pending set blanked out. -/
def State.still (s : State) : State :=
  { s with owners := ownersEmpty, sched := { s.sched with queue := [], lookDue := false },
           link := { s.link with notices := [] } }

/-- A valve state that no owner asks a move of. -/
def ValveState.AtRest (st : ValveState) : Prop := st = .fault ∨ st = .unknown ∨ st = .undefined

/-- A valve that no move can take up: in FAULT, UNKNOWN or UNDEFINED, without an entry in the move queue. -/
def State.Stuck (s : State) (v : Nat) : Prop := (s.valve v).st.AtRest ∧ s.hasEntry v = false

/-- From `s` to `t` only owners, the move queue and the notice pending set have changed; no object is in the set twice where
none was, objects only joined, and no stuck valve got an entry. -/
structure Stir (s t : State) : Prop where
  still : t.still = s.still
  once : s.NoticesOnce → t.NoticesOnce
  joins : s.link.notices <+: t.link.notices
  stuck : ∀ v, s.Stuck v → t.Stuck v

/-- An owner's hold count, host-hold flag, start-hold-pending flag and settled mark stand. -/
def FlagsKept (s t : State) : Prop :=
  ∀ o, (t.owner o).holds = (s.owner o).holds ∧ (t.owner o).hostHold = (s.owner o).hostHold
    ∧ (t.owner o).startPending = (s.owner o).startPending ∧ (t.owner o).settled = (s.owner o).settled

structure Walks (s t : State) : Prop extends Stir s t where
  flags : FlagsKept s t

namespace Stir

variable {s t u : State}

theorem refl (s : State) : Stir s s := ⟨rfl, id, List.prefix_rfl, fun _ h => h⟩

theorem trans (h : Stir s t) (k : Stir t u) : Stir s u :=
  ⟨k.still.trans h.still, fun x => k.once (h.once x), h.joins.trans k.joins, fun v x => k.stuck v (h.stuck v x)⟩

theorem valves (h : Stir s t) : t.valves = s.valves := (congrArg State.valves h.still :)
theorem zones (h : Stir s t) : t.zones = s.zones := (congrArg State.zones h.still :)
theorem jobs (h : Stir s t) : t.jobs = s.jobs := (congrArg State.jobs h.still :)
theorem waitList (h : Stir s t) : t.waitList = s.waitList := (congrArg State.waitList h.still :)
theorem image (h : Stir s t) : t.image = s.image := (congrArg State.image h.still :)
theorem tables (h : Stir s t) : t.tables = s.tables := (congrArg State.tables h.still :)
theorem chain (h : Stir s t) : t.chain = s.chain := (congrArg State.chain h.still :)
theorem clock (h : Stir s t) : t.clock = s.clock := (congrArg State.clock h.still :)
theorem flow (h : Stir s t) : t.flow = s.flow := (congrArg State.flow h.still :)
theorem scanDue (h : Stir s t) : t.scanDue = s.scanDue := (congrArg State.scanDue h.still :)
theorem activeJobs (h : Stir s t) : t.activeJobs = s.activeJobs := (congrArg State.activeJobs h.still :)
theorem window (h : Stir s t) : t.sched.window = s.sched.window := (congrArg (fun x => x.sched.window) h.still :)
theorem replies (h : Stir s t) : t.link.replies = s.link.replies := (congrArg (fun x => x.link.replies) h.still :)
theorem valve (h : Stir s t) (v : Nat) : t.valve v = s.valve v := by unfold State.valve; rw [h.valves]

theorem ite {c : Prop} [Decidable c] {a b : State} (h : Stir s a) (k : Stir s b) : Stir s (if c then a else b) := by
  split <;> assumption

theorem foldl {α : Type} {f : State → α → State} (hf : ∀ s a, Stir s (f s a)) (l : List α) (s : State) :
    Stir s (l.foldl f s) := by
  induction l generalizing s with
  | nil => exact refl s
  | cons a l ih => exact (hf s a).trans (ih _)

theorem joinNotice (s : State) (o : Obj) : Stir s (s.joinNotice o) where
  still := by rw [State.joinNotice_eq]; rfl
  once := State.joinNotice_nodup s o
  joins := State.joinNotice_prefix s o
  stuck := fun v h => by rw [State.joinNotice_eq]; exact h

theorem setOwner (s : State) (o : Owner) (r : OwnerRec) : Stir s (s.setOwner o r) where
  still := by rw [State.setOwner_eq]; rfl
  once := State.setOwner_nodup s o r
  joins := State.setOwner_prefix s o r
  stuck := fun v h => by rw [State.setOwner_eq]; exact h

theorem withdraw (s : State) (p : MoveEntry → Bool) : Stir s (s.withdraw p) where
  still := by rw [State.withdraw_eq]; rfl
  once := fun h => by rw [State.withdraw_eq]; exact h
  joins := by rw [State.withdraw_eq]
  stuck := fun v h => by
    refine ⟨by rw [State.withdraw_eq]; exact h.1, ?_⟩
    have h2 := h.2
    rw [State.withdraw_eq]
    simp only [State.hasEntry, List.any_eq_false, List.mem_filter] at h2 ⊢
    exact fun e he => h2 e he.1

theorem joinMove (s : State) (e : MoveEntry) (h : ¬ (s.valve e.valve).st.AtRest) :
    Stir s (s.joinMove e) where
  still := rfl
  once := fun h => h
  joins := List.prefix_rfl
  stuck := fun v hv => by
    refine ⟨hv.1, ?_⟩
    by_contra hc
    rw [Bool.not_eq_false, State.hasEntry_iff] at hc
    obtain ⟨x, hx, hxv⟩ := hc
    rcases (State.mem_joinMove s e x).1 hx with rfl | ⟨hx, _⟩
    · rw [hxv] at h
      exact h hv.1
    · have := (State.hasEntry_iff s v).2 ⟨x, hx, hxv⟩
      rw [hv.2] at this; exact absurd this (by decide)

theorem wantLook (s : State) : Stir s s.wantLook := ⟨rfl, fun h => h, List.prefix_rfl, fun _ h => h⟩

end Stir

namespace FlagsKept

variable {s t u : State}

theorem refl (s : State) : FlagsKept s s := fun _ => ⟨rfl, rfl, rfl, rfl⟩

theorem trans (h : FlagsKept s t) (k : FlagsKept t u) : FlagsKept s u := fun o =>
  ⟨(k o).1.trans (h o).1, (k o).2.1.trans (h o).2.1, (k o).2.2.1.trans (h o).2.2.1, (k o).2.2.2.trans (h o).2.2.2⟩

theorem ofOwners (h : t.owners = s.owners) : FlagsKept s t := fun o => by
  simp [State.owner_eq, h]

theorem setOwner (s : State) (o : Owner) (r : OwnerRec) (h : r.holds = (s.owner o).holds ∧ r.hostHold = (s.owner o).hostHold
    ∧ r.startPending = (s.owner o).startPending ∧ r.settled = (s.owner o).settled) : FlagsKept s (s.setOwner o r) := by
  intro w
  rw [State.owner_setOwner]
  split
  · rename_i hw
    have : s.owner w = s.owner o := by rw [State.owner_eq, State.owner_eq, hw.1]
    rw [this]; exact h
  · exact ⟨rfl, rfl, rfl, rfl⟩

end FlagsKept

namespace Walks

variable {s t u : State}

theorem refl (s : State) : Walks s s := ⟨Stir.refl s, FlagsKept.refl s⟩

theorem trans (h : Walks s t) (k : Walks t u) : Walks s u := ⟨h.toStir.trans k.toStir, h.flags.trans k.flags⟩

theorem ite {c : Prop} [Decidable c] {a b : State} (h : Walks s a) (k : Walks s b) : Walks s (if c then a else b) := by
  split <;> assumption

theorem foldl {α : Type} {f : State → α → State} (hf : ∀ s a, Walks s (f s a)) (l : List α) (s : State) :
    Walks s (l.foldl f s) := by
  induction l generalizing s with
  | nil => exact refl s
  | cons a l ih => exact (hf s a).trans (ih _)

/-- An owner's course, step, phase timer or need of a move changes. -/
theorem setOwner (s : State) (o : Owner) (r : OwnerRec) (h : r.holds = (s.owner o).holds ∧ r.hostHold = (s.owner o).hostHold
    ∧ r.startPending = (s.owner o).startPending ∧ r.settled = (s.owner o).settled) : Walks s (s.setOwner o r) :=
  ⟨Stir.setOwner s o r, FlagsKept.setOwner s o r h⟩

/-- The same, as the owner operations write it. -/
theorem course (s : State) (o : Owner) (m : OwnerMode) (k : Option Nat) (n : Bool) (ph : Option PhaseTimer) :
    Walks s (s.setOwner o ⟨m, (s.owner o).hostHold, (s.owner o).holds, k, n, ph, (s.owner o).settled,
      (s.owner o).startPending⟩) := setOwner s o _ ⟨rfl, rfl, rfl, rfl⟩

theorem withdraw (s : State) (p : MoveEntry → Bool) : Walks s (s.withdraw p) :=
  ⟨Stir.withdraw s p, FlagsKept.ofOwners (by rw [State.withdraw_eq])⟩

theorem joinMove (s : State) (e : MoveEntry) (h : ¬ (s.valve e.valve).st.AtRest) :
    Walks s (s.joinMove e) := ⟨Stir.joinMove s e h, FlagsKept.ofOwners rfl⟩

theorem askMove (s : State) (o : Owner) (k v : Nat) (d : Dir)
    (h : ¬ (s.valve v).st.AtRest) : Walks s (s.askMove o k v d) :=
  joinMove s ⟨v, d, (s.owner o).mode.urgent, .step o k, s.ms⟩ h

theorem abandon (o : Owner) (s : State) : Walks s (s.abandon o) := by
  unfold State.abandon
  have h : Walks s (if (s.owner o).mode = .inactive then (s.withdraw (MoveEntry.isOf o)).withdraw
      (MoveEntry.isMaintenanceOf o) else s.withdraw (MoveEntry.isOf o)) :=
    ite ((withdraw _ _).trans (withdraw _ _)) (withdraw _ _)
  exact h.trans (course _ _ _ _ _ _)

theorem failOwner (o : Owner) (s : State) : Walks s (s.failOwner o) := by
  unfold State.failOwner
  exact (withdraw _ _).trans (course _ _ _ _ _ _)

theorem endSequence (o : Owner) (s : State) : Walks s (s.endSequence o) := course _ _ _ _ _ _

/-- A valve that needs a move is in none of FAULT, UNKNOWN and UNDEFINED (R21). -/
theorem needsMove_movable {r : ValveRec} {p : Pos} (h : r.view p = .needsMove) : ¬ r.st.AtRest := by
  unfold ValveRec.view at h
  rintro (hc | hc | hc) <;> rw [hc] at h <;> cases h

theorem takeStep (o : Owner) (k : Nat) (first : Bool) (done : State → State) (hd : ∀ s, Walks s (done s)) (s : State) :
    Walks s (s.takeStep o k first done) := by
  unfold State.takeStep
  dsimp only
  split
  · exact (course _ _ _ _ _ _).trans (hd _)
  · exact course _ _ _ _ _ _
  · rename_i h
    refine (course _ _ _ _ _ _).trans (askMove _ _ _ _ _ ?_)
    rw [State.valve_setOwner]
    exact needsMove_movable h
  · exact course _ _ _ _ _ _
  · exact failOwner _ _

theorem takeStep3 (o : Owner) (first : Bool) (s : State) : Walks s (s.takeStep3 o first) :=
  takeStep _ _ _ _ (endSequence o) s

theorem beginTimer (o : Owner) (s : State) : Walks s (s.beginTimer o) := by
  unfold State.beginTimer
  exact ite (course _ _ _ _ _ _) ((course _ _ _ _ _ _).trans (takeStep3 _ _ _))

theorem takeStep1 (o : Owner) (first : Bool) (s : State) : Walks s (s.takeStep1 o first) :=
  takeStep _ _ _ _ (beginTimer o) s

theorem beginSequence (o : Owner) (m : OwnerMode) (s : State) : Walks s (s.beginSequence o m) :=
  (course _ _ _ _ _ _).trans (takeStep1 _ _ _)

theorem beginOutcome (o : Owner) (out : Outcome) (s : State) : Walks s (s.beginOutcome o out) := by
  cases out
  · exact beginSequence _ _ _
  · exact beginSequence _ _ _
  · exact course _ _ _ _ _ _
  · exact beginSequence _ _ _

theorem evaluateOne (o : Owner) (s : State) : Walks s (s.evaluateOne o) := by
  unfold State.evaluateOne
  exact ite (refl s) (ite (refl s) ((abandon _ _).trans (beginOutcome _ _ _)))

theorem ownerOp (o : Owner) (f : State → State) (s : State) (h : Walks s (f s)) : Walks s (s.ownerOp o f) := by
  unfold State.ownerOp
  exact ite h (h.trans (foldl (fun s b => evaluateOne b s) _ _))

theorem evaluate (o : Owner) (s : State) : Walks s (s.evaluate o) := ownerOp _ _ _ (evaluateOne o s)

end Walks

/-! ## Operations that set an owner's holds or marks -/

namespace Stir

variable {s t u : State}

theorem ownerOp (o : Owner) (f : State → State) (s : State) (h : Stir s (f s)) : Stir s (s.ownerOp o f) := by
  unfold State.ownerOp
  exact ite h (h.trans (Walks.foldl (fun s b => Walks.evaluateOne b s) _ _).toStir)

theorem applyStartHold (o : Owner) (s : State) : Stir s (s.applyStartHold o) := by
  unfold State.applyStartHold
  exact ite (setOwner _ _ _) (setOwner _ _ _)

theorem beginCourse (o : Owner) (s : State) : Stir s (s.beginCourse o) := by
  unfold State.beginCourse
  repeat' first
    | exact setOwner _ _ _
    | exact (Walks.beginSequence _ _ _).toStir
    | split

theorem deriveCourse (o : Owner) (s : State) : Stir s (s.deriveCourse o) :=
  ite (setOwner _ _ _) (ite ((withdraw _ _).trans (beginCourse _ _)) (beginCourse _ _))

theorem deriveOne (o : Owner) (s : State) : Stir s (s.deriveOne o) :=
  ((applyStartHold o s).trans (setOwner _ _ _)).trans (deriveCourse _ _)

theorem derive (o : Owner) (s : State) : Stir s (s.derive o) := ownerOp _ _ _ (deriveOne o s)

theorem checkNoValves (o : Owner) (s : State) : Stir s (s.checkNoValves o) := by
  cases o with
  | branch b => exact refl s
  | segment g =>
    exact ite (ite (derive _ _) (refl s)) (ite (refl s) (ownerOp _ _ _ ((withdraw _ _).trans (setOwner _ _ _))))
  | main =>
    exact ite (ite (derive _ _) (refl s)) (ite (refl s) (ownerOp _ _ _ ((withdraw _ _).trans (setOwner _ _ _))))

theorem valveReport (v : Nat) (s : State) : Stir s (s.valveReport v) := by
  unfold State.valveReport
  dsimp only
  repeat' first
    | exact refl s
    | exact derive _ _
    | exact checkNoValves _ _
    | exact ownerOp _ _ _ (Walks.beginOutcome _ _ _).toStir
    | exact ownerOp _ _ _ (Walks.takeStep1 _ _ _).toStir
    | exact ownerOp _ _ _ (Walks.takeStep3 _ _ _).toStir
    | split

theorem faultReport (v : Nat) (s : State) : Stir s (s.faultReport v) := by
  unfold State.faultReport
  dsimp only
  repeat' first
    | exact refl s
    | exact derive _ _
    | exact checkNoValves _ _
    | exact ownerOp _ _ _ (Walks.failOwner _ _).toStir
    | split

theorem raiseHold (o : Owner) (s : State) : Stir s (s.raiseHold o) := by
  unfold State.raiseHold
  exact ite ((setOwner _ _ _).trans (Walks.evaluate _ _).toStir) (setOwner _ _ _)

theorem lowerHold (o : Owner) (s : State) : Stir s (s.lowerHold o) := by
  unfold State.lowerHold
  exact ite ((setOwner _ _ _).trans (Walks.evaluate _ _).toStir) (setOwner _ _ _)

end Stir

/-! ## Holds (R16) -/

/-- A hold changes the count of its owner by one and no other flag of any owner. -/
theorem owner_raiseHold (o w : Owner) (s : State) (hi : o.index < 53) :
    ((s.raiseHold o).owner w).holds = (s.owner w).holds + (if o.index = w.index then 1 else 0)
    ∧ ((s.raiseHold o).owner w).hostHold = (s.owner w).hostHold
    ∧ ((s.raiseHold o).owner w).startPending = (s.owner w).startPending
    ∧ ((s.raiseHold o).owner w).settled = (s.owner w).settled := by
  have key : ∀ t, Walks (s.setOwner o { s.owner o with holds := (s.owner o).holds + 1 }) t →
      (t.owner w).holds = (s.owner w).holds + (if o.index = w.index then 1 else 0)
      ∧ (t.owner w).hostHold = (s.owner w).hostHold ∧ (t.owner w).startPending = (s.owner w).startPending
      ∧ (t.owner w).settled = (s.owner w).settled := by
    intro t ht
    have hf := ht.flags w
    rw [State.owner_setOwner] at hf
    by_cases he : o.index = w.index
    · have hw : s.owner w = s.owner o := by rw [State.owner_eq, State.owner_eq, he]
      simp only [he, true_and, if_true, if_pos (he ▸ hi : w.index < 53)] at hf ⊢
      rw [hw]; exact hf
    · simpa [he] using hf
  unfold State.raiseHold
  dsimp only
  split
  · exact key _ (Walks.evaluate _ _)
  · exact key _ (Walks.refl _)

theorem owner_lowerHold (o w : Owner) (s : State) (hi : o.index < 53) :
    ((s.lowerHold o).owner w).holds = (s.owner w).holds - (if o.index = w.index then 1 else 0)
    ∧ ((s.lowerHold o).owner w).hostHold = (s.owner w).hostHold
    ∧ ((s.lowerHold o).owner w).startPending = (s.owner w).startPending
    ∧ ((s.lowerHold o).owner w).settled = (s.owner w).settled := by
  have key : ∀ t, Walks (s.setOwner o { s.owner o with holds := (s.owner o).holds - 1 }) t →
      (t.owner w).holds = (s.owner w).holds - (if o.index = w.index then 1 else 0)
      ∧ (t.owner w).hostHold = (s.owner w).hostHold ∧ (t.owner w).startPending = (s.owner w).startPending
      ∧ (t.owner w).settled = (s.owner w).settled := by
    intro t ht
    have hf := ht.flags w
    rw [State.owner_setOwner] at hf
    by_cases he : o.index = w.index
    · have hw : s.owner w = s.owner o := by rw [State.owner_eq, State.owner_eq, he]
      simp only [he, true_and, if_true, if_pos (he ▸ hi : w.index < 53)] at hf ⊢
      rw [hw]; exact hf
    · simpa [he] using hf
  unfold State.lowerHold
  dsimp only
  split
  · exact key _ (Walks.evaluate _ _)
  · exact key _ (Walks.refl _)

end Sys2Proof.Machine
end

