-- ==== Sys2Proof/Laws/Consequences.lean ====
section
/-! SUPPORT. What the consequences of an event can do, said once: `Ripple s t` (what `Spared` names is unchanged, a due scan stays
due, objects only join the notice set, which keeps its invariant as the shock window does), and `Settles s t` for the end of every event. -/

namespace Sys2Proof.Machine

/-- A state with everything the consequences of an event may change blanked out. -/
def State.spared (s : State) : State :=
  { s with zones := Table.fill 64 (ZoneRec.fresh .undefined), valves := Table.fill 106 (ValveRec.fresh .undefined),
           owners := ownersEmpty, jobs := Table.fill 16 none, waitList := [], activeJobs := 0, sched := Sched.start,
           image := { s.image with out := [] }, scanDue := false, link := { s.link with notices := [] } }

def State.WindowLimited (s : State) : Prop := s.WindowCounted ∧ s.WindowBudgeted

structure Ripple (s t : State) : Prop where
  spared : t.spared = s.spared
  due : s.scanDue = true → t.scanDue = true
  once : s.NoticesOnce → t.NoticesOnce
  joins : s.link.notices <+: t.link.notices
  window : s.WindowLimited → t.WindowLimited

theorem WindowLimited.congr {s t : State} (hw : t.sched.window = s.sched.window) (hl : t.tables.limits = s.tables.limits)
    (h : s.WindowLimited) : t.WindowLimited := by
  unfold State.WindowLimited State.WindowCounted State.WindowBudgeted State.windowSum at *
  rw [hw, hl]; exact h

/-- The same reply joins after what spared events changed. -/
theorem Spared.reply {s t : State} (h : Spared s t) (k : Nat) (tag : Byte) (st : Status) (fs : List Byte) :
    Spared (s.reply k tag st fs) (t.reply k tag st fs) where
  clock := h.clock
  lastStart := h.lastStart
  power := h.power
  rateHigh := h.rateHigh
  tables := h.tables
  locks := h.locks
  stored := h.stored
  copyValid := h.copyValid
  commit := h.commit
  link := by
    have := congrArg (fun l : Link => { l with replies := l.replies ++ [(⟨k, tag, st, fs⟩ : Reply)] }) h.link
    exact this
  chain := h.chain
  ring := h.ring
  image := h.image
  periodicFrom := h.periodicFrom
  flow := h.flow
  freeCount := h.freeCount
  pending := h.pending

namespace Ripple

variable {s t u : State}

theorem refl (s : State) : Ripple s s := ⟨rfl, id, id, List.prefix_rfl, id⟩

theorem trans (h : Ripple s t) (k : Ripple t u) : Ripple s u :=
  ⟨k.spared.trans h.spared, k.due ∘ h.due, k.once ∘ h.once, h.joins.trans k.joins, k.window ∘ h.window⟩

theorem ite {c : Prop} [Decidable c] {a b : State} (h : Ripple s a) (k : Ripple s b) : Ripple s (if c then a else b) := by
  split <;> assumption

theorem foldl {α : Type} {f : State → α → State} (hf : ∀ s a, Ripple s (f s a)) (l : List α) (s : State) :
    Ripple s (l.foldl f s) := by
  induction l generalizing s with
  | nil => exact refl s
  | cons a l ih => exact (hf s a).trans (ih _)

theorem clock (h : Ripple s t) : t.clock = s.clock := (congrArg State.clock h.spared :)
theorem power (h : Ripple s t) : t.power = s.power := (congrArg State.power h.spared :)
theorem tables (h : Ripple s t) : t.tables = s.tables := (congrArg State.tables h.spared :)
theorem locks (h : Ripple s t) : t.locks = s.locks := (congrArg State.locks h.spared :)
theorem stored (h : Ripple s t) : t.stored = s.stored := (congrArg State.stored h.spared :)
theorem copyValid (h : Ripple s t) : t.copyValid = s.copyValid := (congrArg State.copyValid h.spared :)
theorem commit (h : Ripple s t) : t.commit = s.commit := (congrArg State.commit h.spared :)
theorem chain (h : Ripple s t) : t.chain = s.chain := (congrArg State.chain h.spared :)
theorem ring (h : Ripple s t) : t.ring = s.ring := (congrArg State.ring h.spared :)
theorem flow (h : Ripple s t) : t.flow = s.flow := (congrArg State.flow h.spared :)
theorem periodicFrom (h : Ripple s t) : t.periodicFrom = s.periodicFrom := (congrArg State.periodicFrom h.spared :)
theorem freeCount (h : Ripple s t) : t.freeCount = s.freeCount := (congrArg State.freeCount h.spared :)
theorem pending (h : Ripple s t) : t.pending = s.pending := (congrArg State.pending h.spared :)
theorem lastStart (h : Ripple s t) : t.lastStart = s.lastStart := (congrArg State.lastStart h.spared :)
theorem rateHigh (h : Ripple s t) : t.rateHigh = s.rateHigh := (congrArg State.rateHigh h.spared :)
theorem link (h : Ripple s t) : { t.link with notices := [] } = ({ s.link with notices := [] } : Link) :=
  (congrArg State.link h.spared :)
theorem image (h : Ripple s t) : { t.image with out := [] } = ({ s.image with out := [] } : Image) :=
  (congrArg State.image h.spared :)
theorem replies (h : Ripple s t) : t.link.replies = s.link.replies := (congrArg Link.replies h.link :)
theorem ms (h : Ripple s t) : t.ms = s.ms := by unfold State.ms; rw [h.clock]

/-- What a ripple leaves alone, in the words of the statements. -/
theorem toSpared (h : Ripple s t) : Spared s t where
  clock := h.clock
  lastStart := h.lastStart
  power := h.power
  rateHigh := h.rateHigh
  tables := h.tables
  locks := h.locks
  stored := h.stored
  copyValid := h.copyValid
  commit := h.commit
  link := by
    have := congrArg (fun l : Link => { l with notices := s.link.notices }) h.link
    exact this
  chain := h.chain
  ring := h.ring
  image := by
    have := congrArg (fun i : Image => { i with out := s.image.out }) h.image
    exact this
  periodicFrom := h.periodicFrom
  flow := h.flow
  freeCount := h.freeCount
  pending := h.pending

theorem ofStir (h : Stir s t) : Ripple s t where
  spared := (congrArg State.spared h.still :)
  due := fun x => h.scanDue.trans x
  once := h.once
  joins := h.joins
  window := WindowLimited.congr h.window (by rw [h.tables])

theorem joinNotice (s : State) (o : Obj) : Ripple s (s.joinNotice o) := ofStir (Stir.joinNotice s o)

theorem setOwner (s : State) (o : Owner) (r : OwnerRec) : Ripple s (s.setOwner o r) := ofStir (Stir.setOwner s o r)

theorem withdraw (s : State) (p : MoveEntry → Bool) : Ripple s (s.withdraw p) := ofStir (Stir.withdraw s p)

theorem wantLook (s : State) : Ripple s s.wantLook := ofStir (Stir.wantLook s)

theorem trigger (s : State) : Ripple s s.trigger := ⟨rfl, fun _ => rfl, id, List.prefix_rfl, id⟩

theorem setValve (s : State) (v : Nat) (r : ValveRec) : Ripple s (s.setValve v r) where
  spared := by rw [State.setValve_eq]; rfl
  due := fun h => by rw [State.setValve_eq]; exact h
  once := State.setValve_nodup s v r
  joins := State.setValve_prefix s v r
  window := WindowLimited.congr (by simp) (by simp)

theorem setJob (s : State) (k : Nat) (j : Option Job) : Ripple s (s.setJob k j) := ⟨rfl, id, id, List.prefix_rfl, id⟩

theorem setZone (s : State) (z : Nat) (r : ZoneRec) : Ripple s (s.setZone z r) := ⟨rfl, id, id, List.prefix_rfl, id⟩

theorem imageTrigger (s : State) : Ripple s s.imageTrigger := ite (trigger s) (refl s)

theorem writeImageBit (p : Nat) (b : Bool) (s : State) : Ripple s (s.writeImageBit p b) := by
  unfold State.writeImageBit
  split
  · exact refl s
  · exact trans (t := { s with image := { s.image with out := s.image.out.set p b } }) ⟨rfl, id, id, List.prefix_rfl, id⟩ (imageTrigger _)

end Ripple

/-! ## The scheduler -/

/-- What an admission does (R151), field by field. -/
theorem admit_spec (e : MoveEntry) (s : State) :
    Ripple { s with sched := (s.admitMove e).sched } (s.admitMove e)
    ∧ (s.admitMove e).sched = { s.sched with
        queue := s.sched.queue.filter fun x => x.valve != e.valve
        window := s.sched.window ++ [⟨e.valve, e.urgent, e.dir, s.ms, s.costOf e.valve e.dir⟩]
        lastSeg := startTimes s.ms (s.valveSegment e.valve) s.sched.lastSeg
        lastRack := some s.ms }
    ∧ (s.admitMove e).valves = s.valves.put e.valve ((s.valve e.valve).admitted (e.dir.target (s.tables.valve e.valve).fail))
    ∧ (s.admitMove e).owners = s.owners ∧ (s.admitMove e).zones = s.zones ∧ (s.admitMove e).jobs = s.jobs
    ∧ (s.admitMove e).waitList = s.waitList ∧ (s.admitMove e).activeJobs = s.activeJobs := by
  have hw : ∀ (p : Nat) (b : Bool) (s : State), (s.writeImageBit p b).sched = s.sched
      ∧ (s.writeImageBit p b).valves = s.valves ∧ (s.writeImageBit p b).owners = s.owners
      ∧ (s.writeImageBit p b).zones = s.zones ∧ (s.writeImageBit p b).jobs = s.jobs
      ∧ (s.writeImageBit p b).waitList = s.waitList ∧ (s.writeImageBit p b).activeJobs = s.activeJobs := by
    intro p b s
    unfold State.writeImageBit State.imageTrigger State.trigger
    split
    · exact ⟨rfl, rfl, rfl, rfl, rfl, rfl, rfl⟩
    · split <;> exact ⟨rfl, rfl, rfl, rfl, rfl, rfl, rfl⟩
  generalize hs1 : ({ s with sched := { s.sched with
        queue := s.sched.queue.filter fun x => x.valve != e.valve
        window := s.sched.window ++ [⟨e.valve, e.urgent, e.dir, s.ms, s.costOf e.valve e.dir⟩]
        lastSeg := startTimes s.ms (s.valveSegment e.valve) s.sched.lastSeg
        lastRack := some s.ms } } : State) = s1
  generalize hs2 : s1.setValve e.valve ((s1.valve e.valve).admitted (e.dir.target (s.tables.valve e.valve).fail)) = s2
  have h2 : Ripple s1 s2 := hs2 ▸ Ripple.setValve _ _ _
  have h2f := State.setValve_fields s1 e.valve
    ((s1.valve e.valve).admitted (e.dir.target (s.tables.valve e.valve).fail))
  rw [hs2] at h2f
  have ha : s.admitMove e = match s2.tables.drivePos e.valve with
      | some p => s2.writeImageBit p (e.dir.driveBit (s.tables.valve e.valve).fail)
      | none => s2 := by subst hs2; subst hs1; rfl
  have key : Ripple s1 (s.admitMove e) ∧ (s.admitMove e).sched = s1.sched ∧ (s.admitMove e).valves = s2.valves
      ∧ (s.admitMove e).owners = s1.owners ∧ (s.admitMove e).zones = s1.zones ∧ (s.admitMove e).jobs = s1.jobs
      ∧ (s.admitMove e).waitList = s1.waitList ∧ (s.admitMove e).activeJobs = s1.activeJobs := by
    rw [ha]
    split
    · obtain ⟨a, b, c, d, f, g, h⟩ := hw ‹_› (e.dir.driveBit (s.tables.valve e.valve).fail) s2
      refine ⟨h2.trans (Ripple.writeImageBit _ _ _), ?_, b, ?_, ?_, ?_, ?_, ?_⟩ <;> simp [a, c, d, f, g, h, h2f]
    · refine ⟨h2, ?_, rfl, ?_, ?_, ?_, ?_, ?_⟩ <;> simp [h2f]
  obtain ⟨kr, ks, kv, ko, kz, kj, kw, ka⟩ := key
  subst hs1
  refine ⟨?_, ks, ?_, ko, kz, kj, kw, ka⟩
  · rw [ks]; exact kr
  · rw [kv, h2f.2.2.2.2.2.2.1]; rfl

/-- An admission writes no output bit but its valve's drive bit. -/
theorem admit_out (e : MoveEntry) (s : State) (p : Nat) (h : s.tables.drivePos e.valve ≠ some p) :
    bitAt (s.admitMove e).image.out p = bitAt s.image.out p := by
  have hw : ∀ (q : Nat) (b : Bool) (t : State), q ≠ p → bitAt (t.writeImageBit q b).image.out p = bitAt t.image.out p := by
    intro q b t hq
    unfold State.writeImageBit State.imageTrigger State.trigger
    split
    · rfl
    · split <;> simp [bitAt, List.getD_eq_getElem?_getD, List.getElem?_set_ne hq]
  unfold State.admitMove
  dsimp only
  split
  · rename_i q hq
    rw [hw q _ _ (fun hc => h (by rw [← hc, ← hq]; simp))]
    simp
  · simp

theorem considered_subset (s : State) {e : MoveEntry} (h : e ∈ s.considered) : e ∈ s.sched.queue := by
  unfold State.considered at h
  split at h
  · simp at h
  · split at h
    · exact List.mem_of_mem_filter h
    · split at h
      · simp at h
      · exact h

/-- A look that admits admits an entry of the queue that is considered and passes the three tests (R149, R150). -/
theorem lookOnce_some {s t : State} (h : s.lookOnce = some t) :
    ∃ e ∈ s.considered, s.passes e = true ∧ t = s.admitMove e := by
  unfold State.lookOnce at h
  rw [Option.map_eq_some_iff] at h
  obtain ⟨e, he, ht⟩ := h
  exact ⟨e, List.mem_of_find?_eq_some he, List.find?_some he, ht.symm⟩

/-- The budget test keeps the window sum within B, but for a single entry alone in the window (R146, R150). -/
theorem admit_limited {s : State} {e : MoveEntry} (hp : s.passes e = true) (_h : s.WindowLimited) :
    (s.admitMove e).WindowLimited := by
  obtain ⟨hr, hs, -⟩ := admit_spec e s
  have ht : (s.admitMove e).tables = s.tables := hr.tables
  unfold State.passes at hp
  simp only [Bool.and_eq_true] at hp
  obtain ⟨⟨hc, hb⟩, -⟩ := hp
  unfold State.countTest at hc
  unfold State.WindowLimited State.WindowCounted State.WindowBudgeted State.windowSum at *
  rw [hs, ht]
  dsimp only
  simp only [List.length_append, List.length_cons, List.length_nil, List.map_append, List.map_cons, List.map_nil,
    List.sum_append, List.sum_cons, List.sum_nil, decide_eq_true_eq] at hc ⊢
  refine ⟨by omega, ?_⟩
  unfold State.budgetTest at hb
  dsimp only at hb
  have hl : s.tables.limits.limitFor e.urgent ≤ s.tables.limits.budget := by
    unfold Limits.limitFor; split <;> omega
  split at hb
  · unfold State.windowSum at hb
    simp only [decide_eq_true_eq] at hb
    left; omega
  · right
    rw [List.isEmpty_iff] at hb
    simp [hb]

theorem Ripple.lookOnce {s t : State} (h : s.lookOnce = some t) : Ripple s t := by
  obtain ⟨e, -, hp, rfl⟩ := lookOnce_some h
  obtain ⟨hr, -⟩ := admit_spec e s
  exact ⟨hr.spared, hr.due, hr.once, hr.joins, admit_limited hp⟩

/-! ## The end of an event -/

/-- What the end of an event can do: a ripple that leaves zones, the wait list, which job slots are taken and for what, stuck
valves, every owner's flags, and the output bits no movable valve is driven by; hold counts may rise. -/
structure Settles (s t : State) : Prop extends Ripple s t where
  zones : t.zones = s.zones
  waitList : t.waitList = s.waitList
  jobs : ∀ k, (t.job k).map (fun j => (j.zone, j.created)) = (s.job k).map (fun j => (j.zone, j.created))
  flags : ∀ o, (s.owner o).holds ≤ (t.owner o).holds ∧ (t.owner o).hostHold = (s.owner o).hostHold
    ∧ (t.owner o).startPending = (s.owner o).startPending ∧ (t.owner o).settled = (s.owner o).settled
  stuck : ∀ v, s.Stuck v → t.Stuck v ∧ t.valve v = s.valve v
  out : ∀ p, (∀ v, s.tables.drivePos v = some p → s.Stuck v) → bitAt t.image.out p = bitAt s.image.out p

namespace Settles

variable {s t u : State}

theorem refl (s : State) : Settles s s :=
  ⟨Ripple.refl s, rfl, rfl, fun _ => rfl, fun _ => ⟨le_refl _, rfl, rfl, rfl⟩, fun _ h => ⟨h, rfl⟩, fun _ _ => rfl⟩

theorem trans (h : Settles s t) (k : Settles t u) : Settles s u where
  toRipple := h.toRipple.trans k.toRipple
  zones := k.zones.trans h.zones
  waitList := k.waitList.trans h.waitList
  jobs := fun i => (k.jobs i).trans (h.jobs i)
  flags := fun o => ⟨(h.flags o).1.trans (k.flags o).1, (k.flags o).2.1.trans (h.flags o).2.1,
    (k.flags o).2.2.1.trans (h.flags o).2.2.1, (k.flags o).2.2.2.trans (h.flags o).2.2.2⟩
  stuck := fun v hv => ⟨(k.stuck v (h.stuck v hv).1).1, (k.stuck v (h.stuck v hv).1).2.trans (h.stuck v hv).2⟩
  out := fun p hp => (k.out p fun v hv => (h.stuck v (hp v (h.tables ▸ hv))).1).trans (h.out p hp)

theorem foldl {α : Type} {f : State → α → State} (hf : ∀ s a, Settles s (f s a)) (l : List α) (s : State) :
    Settles s (l.foldl f s) := by
  induction l generalizing s with
  | nil => exact refl s
  | cons a l ih => exact (hf s a).trans (ih _)

/-- A slot is taken after the end of an event exactly where it was before. -/
theorem isSome (h : Settles s t) (k : Nat) : (t.job k).isSome = (s.job k).isSome := by
  have := congrArg Option.isSome (h.jobs k)
  simpa using this

theorem zone (h : Settles s t) (z : Nat) : t.zone z = s.zone z := by unfold State.zone; rw [h.zones]

/-- A stir that only raises hold counts. -/
theorem ofStir (h : Stir s t)
    (hf : ∀ o, (s.owner o).holds ≤ (t.owner o).holds ∧ (t.owner o).hostHold = (s.owner o).hostHold
      ∧ (t.owner o).startPending = (s.owner o).startPending ∧ (t.owner o).settled = (s.owner o).settled) : Settles s t where
  toRipple := Ripple.ofStir h
  zones := h.zones
  waitList := h.waitList
  jobs := fun k => by unfold State.job; rw [h.jobs]
  flags := hf
  stuck := fun v hv => ⟨h.stuck v hv, h.valve v⟩
  out := fun p _ => by rw [h.image]

theorem ofWalks (h : Walks s t) : Settles s t :=
  ofStir h.toStir fun o => ⟨(h.flags o).1.ge, (h.flags o).2⟩

theorem joinNotice (s : State) (o : Obj) : Settles s (s.joinNotice o) :=
  ofWalks ⟨Stir.joinNotice s o, FlagsKept.ofOwners (by simp)⟩

theorem lookOnce (h : s.lookOnce = some t) : Settles s t := by
  obtain ⟨e, he, hp, rfl⟩ := lookOnce_some h
  obtain ⟨hr, hs, hv, ho, hz, hj, hw, -⟩ := admit_spec e s
  have hq := considered_subset s he
  refine ⟨Ripple.lookOnce h, hz, hw, fun k => by unfold State.job; rw [hj], fun o => ?_, fun v hk => ?_, fun p hp =>
    admit_out e s p fun hc => Bool.false_ne_true ((hp _ hc).2.symm.trans ((State.hasEntry_iff s e.valve).2 ⟨e, hq, rfl⟩))⟩
  · simp only [State.owner_eq, ho]; simp
  · have hne : e.valve ≠ v := fun hc => by
      have := (State.hasEntry_iff s v).2 ⟨e, considered_subset s he, hc⟩
      rw [hk.2] at this; cases this
    have hvv : (s.admitMove e).valve v = s.valve v := by rw [State.valve_put s e.valve v _ _ hv]; simp [hne]
    refine ⟨⟨by rw [hvv]; exact hk.1, ?_⟩, hvv⟩
    have h2 := hk.2
    rw [State.hasEntry, List.any_eq_false] at h2 ⊢
    rw [hs]
    exact fun x hx => h2 x (List.mem_of_mem_filter hx)

theorem lookLoop (n : Nat) (s : State) : Settles s (lookLoop n s) := by
  induction n generalizing s with
  | zero => exact refl s
  | succ n ih =>
    unfold Machine.lookLoop
    split
    · exact (lookOnce ‹_›).trans (ih _)
    · exact refl s

theorem settle (s : State) : Settles s s.settle := by
  unfold State.settle
  split
  · refine trans (t := Machine.lookLoop s.sched.queue.length s) (lookLoop _ _) ?_
    exact ⟨⟨rfl, id, id, List.prefix_rfl, id⟩, rfl, rfl, fun _ => rfl, fun _ => ⟨le_refl _, rfl, rfl, rfl⟩, fun _ h => ⟨h, rfl⟩, fun _ _ => rfl⟩
  · exact refl s

/-- A job record is replaced by one for the same zone. -/
theorem setJob (s : State) (k : Nat) (j j' : Job) (h : s.job k = some j) (hz : j'.zone = j.zone)
    (hc : j'.created = j.created) : Settles s (s.setJob k (some j')) where
  toRipple := Ripple.setJob s k (some j')
  zones := rfl
  waitList := rfl
  jobs := fun i => by
    rw [State.job_setJob]
    split
    · rename_i hi
      rw [← hi.1, h]; simp [hz, hc]
    · rfl
  flags := fun _ => ⟨le_refl _, rfl, rfl, rfl⟩
  stuck := fun _ h => ⟨h, rfl⟩
  out := fun _ _ => rfl

theorem rederiveSlot (k : Nat) (s : State) : Settles s (s.rederiveSlot k) := by
  unfold State.rederiveSlot
  split
  · exact refl s
  · rename_i j hj
    dsimp only
    split
    · exact refl s
    · exact (setJob s k j _ hj (by rfl) (by rfl)).trans (joinNotice _ _)

theorem rederiveJobs (s : State) : Settles s s.rederiveJobs := foldl (fun s k => rederiveSlot k s) _ _

theorem raiseHold (o : Owner) (s : State) : Settles s (s.raiseHold o) := by
  refine ofStir (Stir.raiseHold o s) fun w => ?_
  have key : ∀ t, Walks (s.setOwner o { s.owner o with holds := (s.owner o).holds + 1 }) t →
      (s.owner w).holds ≤ (t.owner w).holds ∧ (t.owner w).hostHold = (s.owner w).hostHold
      ∧ (t.owner w).startPending = (s.owner w).startPending ∧ (t.owner w).settled = (s.owner w).settled := by
    intro t ht
    have hf := ht.flags w
    rw [State.owner_setOwner] at hf
    split at hf
    · rename_i he
      have hw : s.owner w = s.owner o := by rw [State.owner_eq, State.owner_eq, he.1]
      have h1 : (t.owner w).holds = (s.owner o).holds + 1 := hf.1
      rw [hw]; exact ⟨by omega, hf.2⟩
    · exact ⟨hf.1.ge, hf.2⟩
  unfold State.raiseHold
  dsimp only
  split
  · exact key _ (Walks.evaluate _ _)
  · exact key _ (Walks.refl _)

theorem escalate (slot i : Nat) (s : State) : Settles s (s.escalate slot i) := by
  unfold State.escalate
  split
  · exact refl s
  · rename_i j hj
    dsimp only
    split
    · exact refl s
    · split
      · exact (setJob s slot j _ hj (by rfl) (by rfl)).trans (joinNotice _ _)
      · split
        · exact (setJob s slot j _ hj (by rfl) (by rfl)).trans (joinNotice _ _)
        · exact ((setJob s slot j _ hj (by rfl) (by rfl)).trans (joinNotice _ _)).trans (raiseHold _ _)

theorem escalateLoop (n : Nat) (s : State) : Settles s (escalateLoop n s) := by
  induction n generalizing s with
  | zero => exact refl s
  | succ n ih =>
    unfold Machine.escalateLoop
    split
    · exact refl s
    · exact ((escalate _ _ _).trans (rederiveJobs _)).trans (ih _)

theorem keepActive (s : State) : Settles s s.keepActive := by
  have h : Settles s { s with activeJobs := s.countActive } :=
    ⟨⟨rfl, id, id, List.prefix_rfl, id⟩, rfl, rfl, fun _ => rfl, fun _ => ⟨le_refl _, rfl, rfl, rfl⟩, fun _ h => ⟨h, rfl⟩, fun _ _ => rfl⟩
  unfold State.keepActive
  dsimp only
  split
  · exact h.trans (ofWalks ⟨Stir.wantLook _, FlagsKept.refl _⟩)
  · exact h

theorem followJobs (s : State) : Settles s s.followJobs := (rederiveJobs s).trans (escalateLoop _ _)

theorem followOwners (s : State) : Settles s s.followOwners := (followJobs s).trans (keepActive _)

/-- What the end of every event leaves alone. -/
theorem finish (s : State) : Settles s s.finish := (followOwners s).trans (settle _)

end Settles

/-! ## With no job in the table -/

/-- With no job, deriving the jobs anew and escalating do nothing. -/
theorem rederiveJobs_noJobs {s : State} (h : s.NoJobs) : s.rederiveJobs = s := by
  have hk : ∀ k, s.rederiveSlot k = s := fun k => by unfold State.rederiveSlot; rw [h k]
  unfold State.rederiveJobs
  induction jobSlotNumbers with
  | nil => rfl
  | cons a l ih => rw [List.foldl_cons, hk, ih]

theorem escalateLoop_noJobs {s : State} (h : s.NoJobs) (n : Nat) : escalateLoop n s = s := by
  cases n with
  | zero => rfl
  | succ n =>
    have hl : s.dueEscalations = [] := by
      unfold State.dueEscalations
      rw [List.flatMap_eq_nil_iff]
      intro k _
      rw [h k]
    have : s.dueEscalation = none := by unfold State.dueEscalation; rw [hl]; rfl
    unfold escalateLoop
    rw [this]

theorem lookOnce_owners {s t : State} (h : s.lookOnce = some t) : t.owners = s.owners ∧ t.jobs = s.jobs := by
  obtain ⟨e, -, -, rfl⟩ := lookOnce_some h
  obtain ⟨-, -, -, ho, -, hj, -⟩ := admit_spec e s
  exact ⟨ho, hj⟩

theorem lookLoop_owners (n : Nat) (s : State) : (lookLoop n s).owners = s.owners ∧ (lookLoop n s).jobs = s.jobs := by
  induction n generalizing s with
  | zero => exact ⟨rfl, rfl⟩
  | succ n ih =>
    unfold lookLoop
    split
    · rename_i t ht
      exact ⟨(ih t).1.trans (lookOnce_owners ht).1, (ih t).2.trans (lookOnce_owners ht).2⟩
    · exact ⟨rfl, rfl⟩

/-- The looks at the end of an event change neither owners nor jobs. -/
theorem settle_owners (s : State) : s.settle.owners = s.owners ∧ s.settle.jobs = s.jobs := by
  unfold State.settle
  split
  · exact lookLoop_owners _ s
  · exact ⟨rfl, rfl⟩

theorem finish_noJobs {s : State} (h : s.NoJobs) : s.finish.owners = s.owners ∧ s.finish.jobs = s.jobs := by
  unfold State.finish State.followOwners State.followJobs
  rw [rederiveJobs_noJobs h, escalateLoop_noJobs h]
  have hk : s.keepActive.owners = s.owners ∧ s.keepActive.jobs = s.jobs := by
    unfold State.keepActive; dsimp only; split <;> exact ⟨rfl, rfl⟩
  exact ⟨(settle_owners _).1.trans hk.1, (settle_owners _).2.trans hk.2⟩

end Sys2Proof.Machine
end

