-- ==== Sys2Proof/Laws/Jobs.lean ====
section
/-! SUPPORT. What the end of an event does to the jobs (R123, R124, R130, R131). -/

namespace Sys2Proof.Machine

/-! ## Effective and dead entries -/

/-- A family of predicates on the places of a list, each got from the one before by one rule, is full after as many rounds as
the list is long. -/
theorem fuel_enough (p : Nat → Nat → Bool) (len : Nat) (hm : ∀ n i, p n i = true → p (n + 1) i = true) (hb : ∀ n i, p n i = true → i < len)
    (hs : ∀ n, p n = p (n + 1) → p (n + 1) = p (n + 2)) (n i : Nat) (h : p n i = true) : p len i = true := by
  have mono : ∀ a b, a ≤ b → ∀ i, p a i = true → p b i = true := by
    intro a b hab
    induction hab with
    | refl => exact fun _ h => h
    | step _ ih => exact fun i h => hm _ i (ih i h)
  have stop : ∃ k ≤ len, p k = p (k + 1) := by
    by_contra hc
    push Not at hc
    have card : ∀ k, k ≤ len + 1 → k ≤ ((Finset.range len).filter fun i => p k i = true).card := by
      intro k hk
      induction k with
      | zero => exact Nat.zero_le _
      | succ k ih =>
        have hlt : ((Finset.range len).filter fun i => p k i = true) ⊂ ((Finset.range len).filter fun i => p (k + 1) i = true) := by
          refine Finset.ssubset_iff_subset_ne.2 ⟨fun i hi => ?_, fun he => hc k (by omega) (funext fun i => ?_)⟩
          · rw [Finset.mem_filter] at hi ⊢; exact ⟨hi.1, hm _ _ hi.2⟩
          · by_cases hi : i < len
            · have := Finset.ext_iff.1 he i
              simp only [Finset.mem_filter, Finset.mem_range, hi, true_and] at this
              exact Bool.eq_iff_iff.2 this
            · have e : ∀ n, p n i = false := fun n => by
                cases hp : p n i with
                | false => rfl
                | true => exact absurd (hb n i hp) hi
              rw [e, e]
        have := Finset.card_lt_card hlt
        have := ih (by omega)
        omega
    have h1 := card (len + 1) (le_refl _)
    have h2 : ((Finset.range len).filter fun i => p (len + 1) i = true).card ≤ len := by
      simpa using Finset.card_filter_le (Finset.range len) (fun i => p (len + 1) i = true)
    omega
  obtain ⟨k, hk, he⟩ := stop
  have same : ∀ m, p (k + m) = p (k + m + 1) := by
    intro m
    induction m with
    | zero => exact he
    | succ m ih => exact hs _ ih
  have all : ∀ m, p (k + m) = p k := by
    intro m
    induction m with
    | zero => rfl
    | succ m ih => rw [← Nat.add_assoc, ← same m, ih]
  by_cases hn : n ≤ k
  · exact mono n len (by omega) i h
  · have : p k i = true := by
      rw [← all (n - k), Nat.add_sub_cancel' (by omega)]; exact h
    exact mono k len hk i this

theorem effective_succ (iso : Owner → Bool) (l : List JobEntry) (n i : Nat) :
    effective iso l (n + 1) i = true ↔ ∃ e, l[i]? = some e
      ∧ (iso e.target = true ∨ (e.status = .failed ∧ ∃ k, e.esc = .entry k ∧ effective iso l n k = true)) := by
  rw [show effective iso l (n + 1) i = (match l[i]? with
    | none => false
    | some e => iso e.target || (e.status == .failed && match e.esc with
        | .entry j => effective iso l n j
        | _ => false)) from rfl]
  cases l[i]? with
  | none => simp
  | some e =>
    obtain ⟨t, o, esc, st⟩ := e
    cases esc <;> simp

theorem dead_succ (l : List JobEntry) (n i : Nat) :
    dead l (n + 1) i = true ↔ ∃ e, l[i]? = some e ∧ e.status = .failed
      ∧ (e.esc = .nothing ∨ ∃ k, e.esc = .entry k ∧ dead l n k = true) := by
  rw [show dead l (n + 1) i = (match l[i]? with
    | none => false
    | some e => e.status == .failed && match e.esc with
        | .nothing => true
        | .entry j => dead l n j
        | .absent => false) from rfl]
  cases l[i]? with
  | none => simp
  | some e =>
    obtain ⟨t, o, esc, st⟩ := e
    cases esc <;> simp

/-- The fuel of `jobStateOf` is enough: an entry is effective exactly by R124's rules. -/
theorem effective_iff (iso : Owner → Bool) (l : List JobEntry) (i : Nat) :
    effective iso l (l.length + 1) i = true ↔ Effective (fun o => iso o = true) l i := by
  have fwd : ∀ n i, effective iso l n i = true → Effective (fun o => iso o = true) l i := by
    intro n
    induction n with
    | zero => intro i h; cases h
    | succ n ih =>
      intro i h
      obtain ⟨e, he, h | ⟨hf, k, hk, h⟩⟩ := (effective_succ iso l n i).1 h
      · exact .own i e he h
      · exact .through i k e he hf hk (ih k h)
  have mono : ∀ n i, effective iso l n i = true → effective iso l (n + 1) i = true := by
    intro n
    induction n with
    | zero => intro i h; cases h
    | succ n ih =>
      intro i h
      rw [effective_succ] at h ⊢
      obtain ⟨e, he, h | ⟨hf, k, hk, h⟩⟩ := h
      · exact ⟨e, he, Or.inl h⟩
      · exact ⟨e, he, Or.inr ⟨hf, k, hk, ih k h⟩⟩
  refine ⟨fwd _ i, fun h => ?_⟩
  obtain ⟨n, hn⟩ : ∃ n, effective iso l n i = true := by
    induction h with
    | own i e he h => exact ⟨1, (effective_succ iso l 0 i).2 ⟨e, he, Or.inl h⟩⟩
    | through i k e he hf hk _ ih =>
      obtain ⟨n, hn⟩ := ih
      exact ⟨n + 1, (effective_succ iso l n i).2 ⟨e, he, Or.inr ⟨hf, k, hk, hn⟩⟩⟩
  refine mono _ _ (fuel_enough (fun n i => effective iso l n i) l.length mono ?_ ?_ n i hn)
  · intro n i h
    cases n with
    | zero => cases h
    | succ n =>
      obtain ⟨e, he, -⟩ := (effective_succ iso l n i).1 h
      exact (List.getElem?_eq_some_iff.1 he).1
  · intro n h
    funext i
    rw [Bool.eq_iff_iff, effective_succ, effective_succ]
    have : ∀ k, effective iso l n k = effective iso l (n + 1) k := fun k => congrFun h k
    simp only [this]

/-- The same for a dead entry. -/
theorem dead_iff (l : List JobEntry) (i : Nat) : dead l (l.length + 1) i = true ↔ Dead l i := by
  have fwd : ∀ n i, dead l n i = true → Dead l i := by
    intro n
    induction n with
    | zero => intro i h; cases h
    | succ n ih =>
      intro i h
      obtain ⟨e, he, hf, h | ⟨k, hk, h⟩⟩ := (dead_succ l n i).1 h
      · exact .nothing i e he hf h
      · exact .through i k e he hf hk (ih k h)
  have mono : ∀ n i, dead l n i = true → dead l (n + 1) i = true := by
    intro n
    induction n with
    | zero => intro i h; cases h
    | succ n ih =>
      intro i h
      rw [dead_succ] at h ⊢
      obtain ⟨e, he, hf, h | ⟨k, hk, h⟩⟩ := h
      · exact ⟨e, he, hf, Or.inl h⟩
      · exact ⟨e, he, hf, Or.inr ⟨k, hk, ih k h⟩⟩
  refine ⟨fwd _ i, fun h => ?_⟩
  obtain ⟨n, hn⟩ : ∃ n, dead l n i = true := by
    induction h with
    | nothing i e he hf h => exact ⟨1, (dead_succ l 0 i).2 ⟨e, he, hf, Or.inl h⟩⟩
    | through i k e he hf hk _ ih =>
      obtain ⟨n, hn⟩ := ih
      exact ⟨n + 1, (dead_succ l n i).2 ⟨e, he, hf, Or.inr ⟨k, hk, hn⟩⟩⟩
  refine mono _ _ (fuel_enough (fun n i => dead l n i) l.length mono ?_ ?_ n i hn)
  · intro n i h
    cases n with
    | zero => cases h
    | succ n =>
      obtain ⟨e, he, -⟩ := (dead_succ l n i).1 h
      exact (List.getElem?_eq_some_iff.1 he).1
  · intro n h
    funext i
    rw [Bool.eq_iff_iff, dead_succ, dead_succ]
    have : ∀ k, dead l n k = dead l (n + 1) k := fun k => congrFun h k
    simp only [this]

/-! ## Modes that an evaluation keeps -/

/-- No owner enters or leaves NO_VALVES, and none leaves FAILED. -/
def ModesHold (s t : State) : Prop :=
  ∀ o, ((t.owner o).mode = .noValves ↔ (s.owner o).mode = .noValves) ∧ ((s.owner o).mode = .failed → (t.owner o).mode = .failed)

namespace ModesHold

variable {s t u : State}

theorem refl (s : State) : ModesHold s s := fun _ => ⟨Iff.rfl, id⟩

theorem trans (h : ModesHold s t) (k : ModesHold t u) : ModesHold s u :=
  fun o => ⟨(k o).1.trans (h o).1, (k o).2 ∘ (h o).2⟩

theorem ofOwners (h : t.owners = s.owners) : ModesHold s t := fun o => by simp [State.owner_eq, h]

theorem ite {c : Prop} [Decidable c] {a b : State} (h : ModesHold s a) (k : ModesHold s b) : ModesHold s (if c then a else b) := by
  split <;> assumption

theorem foldl {α : Type} {f : State → α → State} (hf : ∀ s a, ModesHold s (f s a)) (l : List α) (s : State) :
    ModesHold s (l.foldl f s) := by
  induction l generalizing s with
  | nil => exact refl s
  | cons a l ih => exact (hf s a).trans (ih _)

theorem setOwner (s : State) (o : Owner) (r : OwnerRec) (hn : r.mode = .noValves ↔ (s.owner o).mode = .noValves)
    (hf : (s.owner o).mode = .failed → r.mode = .failed) : ModesHold s (s.setOwner o r) := by
  intro w
  rw [State.owner_setOwner]
  split
  · rename_i hw
    have : s.owner w = s.owner o := by rw [State.owner_eq, State.owner_eq, hw.1]
    rw [this]; exact ⟨hn, hf⟩
  · exact ⟨Iff.rfl, id⟩

/-- A record that keeps its mode. -/
theorem sameMode (s : State) (o : Owner) (r : OwnerRec) (h : r.mode = (s.owner o).mode) : ModesHold s (s.setOwner o r) :=
  setOwner s o r (by rw [h]) (fun k => h.trans k)

/-- The same, as the owner operations write it. -/
theorem course (s : State) (o : Owner) (k : Option Nat) (n : Bool) (ph : Option PhaseTimer) :
    ModesHold s (s.setOwner o ⟨(s.owner o).mode, (s.owner o).hostHold, (s.owner o).holds, k, n, ph, (s.owner o).settled,
      (s.owner o).startPending⟩) := sameMode s o _ rfl

theorem keep (h : ModesHold s t) {o : Owner} (hn : (s.owner o).mode ≠ .noValves) : (t.owner o).mode ≠ .noValves :=
  fun hc => hn ((h o).1.1 hc)

theorem withdraw (s : State) (p : MoveEntry → Bool) : ModesHold s (s.withdraw p) := ofOwners (by rw [State.withdraw_eq])

theorem failOwner (o : Owner) (s : State) (h : (s.owner o).mode ≠ .noValves) : ModesHold s (s.failOwner o) := by
  unfold State.failOwner
  have ho : ((s.withdraw (MoveEntry.isOf o)).owner o).mode ≠ .noValves := (withdraw s (MoveEntry.isOf o)).keep h
  exact (withdraw s _).trans (setOwner _ _ _ (by simp [ho]) (fun _ => rfl))

theorem endMode_noValves (o : Owner) (m : OwnerMode) : m.endMode o = .noValves ↔ m = .noValves := by
  cases m <;> cases o <;> simp [OwnerMode.endMode]

theorem endSequence (o : Owner) (s : State) : ModesHold s (s.endSequence o) :=
  setOwner s o _ (endMode_noValves o _) (fun hf => by
    show OwnerMode.endMode o (s.owner o).mode = .failed
    rw [hf]; rfl)

theorem takeStep (o : Owner) (k : Nat) (first : Bool) (done : State → State)
    (hd : ∀ s : State, (s.owner o).mode ≠ .noValves → ModesHold s (done s)) (s : State) (h : (s.owner o).mode ≠ .noValves) :
    ModesHold s (s.takeStep o k first done) := by
  unfold State.takeStep
  dsimp only
  split
  · exact (course _ _ _ _ _).trans (hd _ ((course _ _ _ _ _).keep h))
  · exact course _ _ _ _ _
  · exact (course s o (some k) true none).trans (ofOwners rfl)
  · exact course _ _ _ _ _
  · exact failOwner _ _ h

theorem takeStep3 (o : Owner) (first : Bool) (s : State) (h : (s.owner o).mode ≠ .noValves) :
    ModesHold s (s.takeStep3 o first) := takeStep _ _ _ _ (fun s _ => endSequence o s) s h

theorem beginTimer (o : Owner) (s : State) (h : (s.owner o).mode ≠ .noValves) : ModesHold s (s.beginTimer o) := by
  unfold State.beginTimer
  exact ite (course _ _ _ _ _) ((course _ _ _ _ _).trans (takeStep3 _ _ _ ((course _ _ _ _ _).keep h)))

theorem takeStep1 (o : Owner) (first : Bool) (s : State) (h : (s.owner o).mode ≠ .noValves) :
    ModesHold s (s.takeStep1 o first) := takeStep _ _ _ _ (fun s h => beginTimer o s h) s h

theorem beginSequence (o : Owner) (m : OwnerMode) (s : State) (hm : m ≠ .noValves) (h : (s.owner o).mode ≠ .noValves)
    (hf : (s.owner o).mode ≠ .failed) : ModesHold s (s.beginSequence o m) := by
  have h1 : ModesHold s (s.setOwner o { s.owner o with mode := m, step := some 1, phase := none, needed := false }) :=
    setOwner _ _ _ (by simp [hm, h]) (fun k => absurd k hf)
  exact h1.trans (takeStep1 _ _ _ (h1.keep h))

theorem beginOutcome (o : Owner) (out : Outcome) (s : State) (h : (s.owner o).mode ≠ .noValves)
    (hf : (s.owner o).mode ≠ .failed) : ModesHold s (s.beginOutcome o out) := by
  cases out
  · exact beginSequence _ _ _ (by decide) h hf
  · exact beginSequence _ _ _ (by decide) h hf
  · exact setOwner _ _ _ (by simp [h]) (fun k => absurd k hf)
  · exact beginSequence _ _ _ (by decide) h hf

theorem abandon (o : Owner) (s : State) : ModesHold s (s.abandon o) ∧ ((s.abandon o).owner o).mode = (s.owner o).mode := by
  unfold State.abandon
  dsimp only
  have hw : ∀ (u : State), u.owners = s.owners → ModesHold s (u.setOwner o { u.owner o with step := none, phase := none, needed := false })
      ∧ ((u.setOwner o { u.owner o with step := none, phase := none, needed := false }).owner o).mode = (s.owner o).mode := by
    intro u hu
    refine ⟨(ofOwners hu).trans (course u o none false none), ?_⟩
    have : u.owner o = s.owner o := by rw [State.owner_eq, State.owner_eq, hu]
    rw [State.owner_setOwner]
    split <;> simp [this]
  refine hw _ ?_
  have hq : ∀ (u : State) (p : MoveEntry → Bool), (u.withdraw p).owners = u.owners := fun u p => by rw [State.withdraw_eq]
  split
  · rw [hq, hq]
  · rw [hq]

theorem evaluateOne (o : Owner) (s : State) : ModesHold s (s.evaluateOne o) := by
  unfold State.evaluateOne
  dsimp only
  split
  · exact refl s
  · rename_i h
    simp only [Bool.or_eq_true, Bool.not_eq_true', decide_eq_true_eq, not_or] at h
    obtain ⟨⟨⟨-, -⟩, hf⟩, hn⟩ := h
    split
    · exact refl s
    · have ha := abandon o s
      exact ha.1.trans (beginOutcome _ _ _ (by rw [ha.2]; exact hn) (by rw [ha.2]; exact hf))

theorem evaluate (o : Owner) (s : State) : ModesHold s (s.evaluate o) := by
  unfold State.evaluate State.ownerOp
  exact ite (evaluateOne o s) ((evaluateOne o s).trans (foldl (fun s b => evaluateOne b s) _ _))

theorem raiseHold (o : Owner) (s : State) : ModesHold s (s.raiseHold o) := by
  unfold State.raiseHold
  have h : ModesHold s (s.setOwner o { s.owner o with holds := (s.owner o).holds + 1 }) := sameMode s o _ rfl
  exact ite (h.trans (evaluate _ _)) h

end ModesHold
/-- What an escalation reads of the owners stands while modes hold. -/
theorem escalationTarget_holds {s t : State} (h : ModesHold s t) (ht : t.tables = s.tables) (o : Owner) :
    t.escalationTarget o = s.escalationTarget o := by
  have hv : ∀ w, t.ownerHasValves w = s.ownerHasValves w := fun w => by
    unfold State.ownerHasValves
    rw [Bool.eq_iff_iff]
    simp only [bne_iff_ne, ne_eq, (h w).1]
  unfold State.escalationTarget
  simp only [hv, ht]

theorem entryStatus_failed {s t : State} (h : ModesHold s t) (hs : ∀ o, (t.owner o).settled = (s.owner o).settled) (o : Owner)
    (hf : s.entryStatus o = .failed) : t.entryStatus o = .failed := by
  unfold State.entryStatus at hf ⊢
  dsimp only at hf ⊢
  rw [hs o]
  cases hset : (s.owner o).settled with
  | false => simp [hset] at hf
  | true =>
    simp only [hset, Bool.not_true, Bool.false_eq_true, if_false] at hf ⊢
    cases hm : (s.owner o).mode <;> simp [hm] at hf
    · rw [(h o).2 hm]
    · rw [(h o).1.2 hm]

/-! ## How a job's list goes on -/

namespace State.JobGoesOn

variable {s : State} {j k : Job}

theorem refl (s : State) (j : Job) : s.JobGoesOn j j where
  zone := rfl
  created := rfl
  kept := fun _ e h => ⟨e, h, rfl, rfl, fun _ => rfl⟩
  escalated := fun _ e h _ => Or.inl ⟨e, h, rfl⟩
  appended := fun i e hi h => absurd (List.getElem?_eq_some_iff.1 h).1 (by omega)

theorem length_le (h : s.JobGoesOn j k) : j.entries.length ≤ k.entries.length := by
  by_contra hc
  obtain ⟨e', he', -⟩ := h.kept k.entries.length (j.entries[k.entries.length]'(by omega)) (List.getElem?_eq_getElem _)
  have := (List.getElem?_eq_some_iff.1 he').1
  omega

/-- Statuses are derived anew, a FAILED one of an escalated entry staying FAILED. -/
theorem restatus (h : s.JobGoesOn j k) (f : JobEntry → EntryStatus) (st : JobState)
    (hf : ∀ e ∈ k.entries, e.status = .failed → f e = .failed) :
    s.JobGoesOn j { k with entries := k.entries.map fun e => { e with status := f e }, st := st } where
  zone := h.zone
  created := h.created
  kept := fun i e he => by
    obtain ⟨e', he', ht, ho, hx⟩ := h.kept i e he
    exact ⟨{ e' with status := f e' }, by simp [he'], ht, ho, hx⟩
  escalated := fun i e' he' hx => by
    simp only [List.getElem?_map, Option.map_eq_some_iff] at he'
    obtain ⟨y, hy, rfl⟩ := he'
    have hm : y ∈ k.entries := List.mem_of_getElem? hy
    rcases h.escalated i y hy hx with h1 | ⟨h1, h2, h3⟩ | ⟨h1, n, x, h2, h3, h4⟩
    · exact Or.inl h1
    · exact Or.inr (Or.inl ⟨hf y hm h1, h2, h3⟩)
    · exact Or.inr (Or.inr ⟨hf y hm h1, n, { x with status := f x }, h2, by simp [h3], h4⟩)
  appended := fun i e' hi he' => by
    simp only [List.getElem?_map, Option.map_eq_some_iff] at he'
    obtain ⟨y, hy, rfl⟩ := he'
    obtain ⟨n, x, ho, hx, hi', ht, hu⟩ := h.appended i y hi hy
    refine ⟨n, { x with status := f x }, ho, by simp [hx], hi', ht, fun m z hm hz => ?_⟩
    simp only [List.getElem?_map, Option.map_eq_some_iff] at hz
    obtain ⟨w, hw, rfl⟩ := hz
    exact hu m w hm hw

/-- An absent escalation of a FAILED entry is set. -/
theorem setEsc (h : s.JobGoesOn j k) {i : Nat} {e : JobEntry} (he : k.entries[i]? = some e) (ha : e.esc = .absent)
    (hf : e.status = .failed) (x : Escalation)
    (hx : (x = .nothing ∧ s.escalationTarget e.target = none)
      ∨ ∃ n y, x = .entry n ∧ k.entries[n]? = some y ∧ s.escalationTarget e.target = some y.target) :
    s.JobGoesOn j { k with entries := k.entries.set i { e with esc := x } } := by
  have hi := (List.getElem?_eq_some_iff.1 he).1
  have get : ∀ m y, k.entries[m]? = some y →
      ∃ z, (k.entries.set i { e with esc := x })[m]? = some z ∧ z.target = y.target ∧ z.origin = y.origin
        ∧ (m ≠ i → z = y) ∧ (m = i → y = e ∧ z = { e with esc := x }) := by
    intro m y hy
    rw [List.getElem?_set]
    split
    · rename_i hm
      subst hm
      rw [he] at hy
      cases hy
      exact ⟨{ e with esc := x }, by simp, rfl, rfl, fun h => absurd rfl h, fun _ => ⟨rfl, rfl⟩⟩
    · rename_i hm
      exact ⟨y, hy, rfl, rfl, fun _ => rfl, fun h => absurd h.symm hm⟩
  have back : ∀ m z, (k.entries.set i { e with esc := x })[m]? = some z →
      ∃ y, k.entries[m]? = some y ∧ z.target = y.target ∧ z.origin = y.origin ∧ (m ≠ i → z = y)
        ∧ (m = i → y = e ∧ z = { e with esc := x }) := by
    intro m z hz
    have hm : m < k.entries.length := by simpa using (List.getElem?_eq_some_iff.1 hz).1
    obtain ⟨z', hz', h1, h2, h3, h4⟩ := get m _ (List.getElem?_eq_getElem hm)
    rw [hz] at hz'
    cases hz'
    exact ⟨_, List.getElem?_eq_getElem hm, h1, h2, h3, h4⟩
  refine ⟨h.zone, h.created, fun m a ha' => ?_, fun m z hz hne => ?_, fun m z hm hz => ?_⟩
  · obtain ⟨y, hy, ht, ho, hxx⟩ := h.kept m a ha'
    obtain ⟨z, hz, h1, h2, h3, h4⟩ := get m y hy
    refine ⟨z, hz, h1.trans ht, h2.trans ho, fun hn => ?_⟩
    by_cases hm : m = i
    · have := hxx hn
      rw [(h4 hm).1, ha] at this
      exact absurd this.symm hn
    · rw [h3 hm]; exact hxx hn
  · obtain ⟨y, hy, h1, h2, h3, h4⟩ := back m z hz
    by_cases hm : m = i
    · obtain ⟨rfl, rfl⟩ := h4 hm
      rcases hx with ⟨rfl, hx⟩ | ⟨n, w, rfl, hw, hx⟩
      · exact Or.inr (Or.inl ⟨hf, rfl, hx⟩)
      · obtain ⟨w', hw', h5, -⟩ := get n w hw
        exact Or.inr (Or.inr ⟨hf, n, w', rfl, hw', by rw [h5]; exact hx⟩)
    · have := h3 hm
      subst this
      rcases h.escalated m z hy hne with h5 | h5 | ⟨h5, n, w, h6, h7, h8⟩
      · exact Or.inl h5
      · exact Or.inr (Or.inl h5)
      · obtain ⟨w', hw', h9, -⟩ := get n w h7
        exact Or.inr (Or.inr ⟨h5, n, w', h6, hw', by rw [h9]; exact h8⟩)
  · obtain ⟨y, hy, h1, h2, h3, h4⟩ := back m z hz
    obtain ⟨n, w, ho, hw, hwi, hwt, hu⟩ := h.appended m y hm hy
    have hn : n ≠ i := by
      rintro rfl
      rw [he] at hw
      cases hw
      rw [ha] at hwi
      cases hwi
    obtain ⟨w', hw', h5, -, h6, -⟩ := get n w hw
    rw [h6 hn] at hw'
    refine ⟨n, w, h2.trans ho, hw', hwi, by rw [h1]; exact hwt, fun q a hq haq => ?_⟩
    obtain ⟨b, hb, h7, -⟩ := back q a haq
    rw [h7, h1]
    exact hu q b hq hb

/-- An absent escalation of a FAILED entry is set to a new entry for a target that none holds yet. -/
theorem append (h : s.JobGoesOn j k) {i : Nat} {e : JobEntry} (he : k.entries[i]? = some e) (ha : e.esc = .absent)
    (hf : e.status = .failed) (o : Owner) (ho : s.escalationTarget e.target = some o)
    (hu : ∀ y ∈ k.entries, y.target ≠ o) :
    s.JobGoesOn j { k with entries := k.entries.set i { e with esc := .entry k.entries.length }
      ++ [⟨o, some i, .absent, .waiting⟩] } := by
  have hi := (List.getElem?_eq_some_iff.1 he).1
  have get : ∀ m y, k.entries[m]? = some y →
      ∃ z, (k.entries.set i { e with esc := .entry k.entries.length } ++ [⟨o, some i, .absent, .waiting⟩])[m]? = some z
        ∧ z.target = y.target ∧ z.origin = y.origin ∧ (m ≠ i → z = y)
        ∧ (m = i → y = e ∧ z = { e with esc := .entry k.entries.length }) := by
    intro m y hy
    have hm := (List.getElem?_eq_some_iff.1 hy).1
    rw [List.getElem?_append_left (by simpa using hm), List.getElem?_set]
    split
    · rename_i hm
      subst hm
      rw [he] at hy
      cases hy
      exact ⟨{ e with esc := .entry k.entries.length }, by simp, rfl, rfl, fun h => absurd rfl h, fun _ => ⟨rfl, rfl⟩⟩
    · rename_i hm
      exact ⟨y, hy, rfl, rfl, fun _ => rfl, fun h => absurd h.symm hm⟩
  have new : (k.entries.set i { e with esc := .entry k.entries.length } ++ [⟨o, some i, .absent, .waiting⟩])[k.entries.length]?
      = some ⟨o, some i, .absent, .waiting⟩ := by
    rw [List.getElem?_append_right (by simp)]; simp
  have back : ∀ m z, (k.entries.set i { e with esc := .entry k.entries.length } ++ [⟨o, some i, .absent, .waiting⟩])[m]? = some z →
      (m = k.entries.length ∧ z = ⟨o, some i, .absent, .waiting⟩)
      ∨ ∃ y, k.entries[m]? = some y ∧ z.target = y.target ∧ z.origin = y.origin ∧ (m ≠ i → z = y)
        ∧ (m = i → y = e ∧ z = { e with esc := .entry k.entries.length }) := by
    intro m z hz
    have hm : m < k.entries.length + 1 := by simpa using (List.getElem?_eq_some_iff.1 hz).1
    by_cases hml : m = k.entries.length
    · subst hml
      rw [new] at hz
      cases hz
      exact Or.inl ⟨rfl, rfl⟩
    · have hm' : m < k.entries.length := by omega
      obtain ⟨z', hz', h1, h2, h3, h4⟩ := get m _ (List.getElem?_eq_getElem hm')
      rw [hz] at hz'
      cases hz'
      exact Or.inr ⟨_, List.getElem?_eq_getElem hm', h1, h2, h3, h4⟩
  refine ⟨h.zone, h.created, fun m a ha' => ?_, fun m z hz hne => ?_, fun m z hm hz => ?_⟩
  · obtain ⟨y, hy, ht, ho', hxx⟩ := h.kept m a ha'
    obtain ⟨z, hz, h1, h2, h3, h4⟩ := get m y hy
    refine ⟨z, hz, h1.trans ht, h2.trans ho', fun hn => ?_⟩
    by_cases hm : m = i
    · have := hxx hn
      rw [(h4 hm).1, ha] at this
      exact absurd this.symm hn
    · rw [h3 hm]; exact hxx hn
  · rcases back m z hz with ⟨-, rfl⟩ | ⟨y, hy, h1, h2, h3, h4⟩
    · exact absurd rfl hne
    · by_cases hm : m = i
      · obtain ⟨rfl, rfl⟩ := h4 hm
        exact Or.inr (Or.inr ⟨hf, _, _, rfl, new, ho⟩)
      · have := h3 hm
        subst this
        rcases h.escalated m z hy hne with h5 | h5 | ⟨h5, n, w, h6, h7, h8⟩
        · exact Or.inl h5
        · exact Or.inr (Or.inl h5)
        · obtain ⟨w', hw', h9, -⟩ := get n w h7
          exact Or.inr (Or.inr ⟨h5, n, w', h6, hw', by rw [h9]; exact h8⟩)
  · rcases back m z hz with ⟨rfl, rfl⟩ | ⟨y, hy, h1, h2, h3, h4⟩
    · obtain ⟨z, hz', -, -, -, h4⟩ := get i e he
      refine ⟨i, z, rfl, hz', by rw [(h4 rfl).2], by rw [(h4 rfl).2]; exact ho, fun q a hq haq => ?_⟩
      rcases back q a haq with ⟨hql, -⟩ | ⟨b, hb, h7, -⟩
      · omega
      · rw [h7]; exact hu b (List.mem_of_getElem? hb)
    · obtain ⟨n, w, hor, hw, hwi, hwt, hu'⟩ := h.appended m y hm hy
      have hn : n ≠ i := by
        rintro rfl
        rw [he] at hw
        cases hw
        rw [ha] at hwi
        cases hwi
      obtain ⟨w', hw', h5, -, h6, -⟩ := get n w hw
      rw [h6 hn] at hw'
      refine ⟨n, w, h2.trans hor, hw', hwi, by rw [h1]; exact hwt, fun q a hq haq => ?_⟩
      have hml := (List.getElem?_eq_some_iff.1 hy).1
      rcases back q a haq with ⟨hql, -⟩ | ⟨b, hb, h7, -⟩
      · omega
      · rw [h7, h1]
        exact hu' q b hq hb

end State.JobGoesOn

/-! ## Deriving the jobs anew -/

theorem rederived_congr {s t : State} (h : t.owners = s.owners) (j : Job) : t.rederived j = s.rederived j := by
  have ho : ∀ o, t.owner o = s.owner o := fun o => by rw [State.owner_eq, State.owner_eq, h]
  unfold State.rederived State.entryStatus
  simp only [ho]

theorem job_beyond (s : State) {k : Nat} (h : 16 ≤ k) : s.job k = none := by
  unfold State.job Table.getD
  rw [List.getD_eq_getElem?_getD, List.getElem?_eq_none (by simpa using h)]
  rfl

/-- What deriving one slot anew does. -/
theorem rederiveSlot_spec (k : Nat) (s : State) :
    (∀ i, (s.rederiveSlot k).job i = if i = k then (s.job k).map s.rederived else s.job i)
    ∧ (s.rederiveSlot k).owners = s.owners ∧ (s.rederiveSlot k).tables = s.tables := by
  unfold State.rederiveSlot
  cases h : s.job k with
  | none =>
    refine ⟨fun i => ?_, rfl, rfl⟩
    dsimp only
    split
    · rename_i hi; rw [hi, h]; rfl
    · rfl
  | some j =>
    dsimp only
    split
    · rename_i he
      refine ⟨fun i => ?_, rfl, rfl⟩
      split
      · rename_i hi; rw [hi, h, Option.map_some, he]
      · rfl
    · have hk : k < 16 := by
        by_contra hc
        rw [job_beyond s (by omega)] at h; cases h
      refine ⟨fun i => ?_, by rw [State.joinNotice_eq]; rfl, by rw [State.joinNotice_eq]; rfl⟩
      have hj : ((s.setJob k (some (s.rederived j))).joinNotice (.job k)).job i = (s.setJob k (some (s.rederived j))).job i := by
        rw [State.joinNotice_eq]; rfl
      rw [hj, State.job_setJob]
      by_cases hi : i = k
      · simp [hi, hk]
      · simp [hi, Ne.symm hi]

/-- Every job derived anew, and nothing of the owners or the tables changed. -/
theorem rederiveJobs_spec (s : State) :
    (∀ i, s.rederiveJobs.job i = (s.job i).map s.rederived) ∧ s.rederiveJobs.owners = s.owners
    ∧ s.rederiveJobs.tables = s.tables := by
  have key : ∀ (l : List Nat) (u : State), l.Nodup → u.owners = s.owners →
      (∀ i, (l.foldl (fun s k => s.rederiveSlot k) u).job i = if i ∈ l then (u.job i).map s.rederived else u.job i)
      ∧ (l.foldl (fun s k => s.rederiveSlot k) u).owners = u.owners
      ∧ (l.foldl (fun s k => s.rederiveSlot k) u).tables = u.tables := by
    intro l
    induction l with
    | nil => intro u _ _; exact ⟨fun i => by simp, rfl, rfl⟩
    | cons a l ih =>
      intro u hn hu
      obtain ⟨h1, h2, h3⟩ := rederiveSlot_spec a u
      obtain ⟨k1, k2, k3⟩ := ih (u.rederiveSlot a) (List.nodup_cons.1 hn).2 (h2.trans hu)
      have hd : u.rederived = s.rederived := funext (rederived_congr hu)
      refine ⟨fun i => ?_, k2.trans h2, k3.trans h3⟩
      rw [List.foldl_cons, k1, h1]
      by_cases hi : i = a
      · have : a ∉ l := (List.nodup_cons.1 hn).1
        simp [hi, this, hd]
      · simp [hi]
  obtain ⟨h1, h2, h3⟩ := key jobSlotNumbers s List.nodup_range rfl
  refine ⟨fun i => ?_, h2, h3⟩
  have := h1 i
  unfold State.rederiveJobs
  rw [this]
  split
  · rfl
  · rename_i hi
    have : 16 ≤ i := by simpa [jobSlotNumbers] using hi
    rw [job_beyond s this]; rfl

/-- Every job stands as its owners give it. -/
def Derived (s : State) : Prop := ∀ k j, s.job k = some j → s.rederived j = j

theorem rederiveJobs_derived (s : State) : Derived s.rederiveJobs := by
  intro k j h
  obtain ⟨h1, h2, -⟩ := rederiveJobs_spec s
  rw [h1, Option.map_eq_some_iff] at h
  obtain ⟨j0, -, rfl⟩ := h
  rw [rederived_congr h2]
  simp [State.rederived, Function.comp_def]

/-- What a derived job is (R123, R124). -/
theorem Derived.job {s : State} (h : Derived s) {k : Nat} {j : Job} (hj : s.job k = some j) :
    (∀ e ∈ j.entries, e.status = s.entryStatus e.target)
    ∧ j.st = jobStateOf (fun o => (s.owner o).mode == .isolated) j.entries := by
  have he := h k j hj
  have h1 : j.entries.map (fun e => { e with status := s.entryStatus e.target }) = j.entries := congrArg Job.entries he
  refine ⟨fun e hm => ?_, ?_⟩
  · obtain ⟨i, hi⟩ := List.getElem?_of_mem hm
    have h2 := congrArg (fun l : List JobEntry => l[i]?) h1
    simp only [List.getElem?_map, hi, Option.map_some, Option.some.injEq] at h2
    exact (congrArg JobEntry.status h2).symm
  · have h2 : jobStateOf (fun o => (s.owner o).mode == .isolated)
        (j.entries.map (fun e => { e with status := s.entryStatus e.target })) = j.st := congrArg Job.st he
    rw [← h2, h1]

/-- The state of a job in R124's words. -/
theorem jobStateOf_iff (iso : Owner → Bool) (l : List JobEntry) (contained : Prop)
    (hc : contained = (∀ i e, l[i]? = some e → e.origin = none → Effective (fun o => iso o = true) l i)) :
    (jobStateOf iso l = .contained ↔ contained)
    ∧ (jobStateOf iso l = .uncontained ↔ ¬ contained ∧ ∃ i e, l[i]? = some e ∧ e.origin = none ∧ Dead l i) := by
  have mem : ∀ i, i ∈ planIndexes l ↔ ∃ e, l[i]? = some e ∧ e.origin = none := by
    intro i
    unfold planIndexes
    rw [List.mem_filter, List.mem_range]
    cases h : l[i]? with
    | none => simp
    | some e =>
      have := (List.getElem?_eq_some_iff.1 h).1
      simp [this]
  have hall : ((planIndexes l).all fun i => effective iso l (l.length + 1) i) = true ↔ contained := by
    rw [hc, List.all_eq_true]
    constructor
    · exact fun h i e he ho => (effective_iff iso l i).1 (h i ((mem i).2 ⟨e, he, ho⟩))
    · intro h i hi
      obtain ⟨e, he, ho⟩ := (mem i).1 hi
      exact (effective_iff iso l i).2 (h i e he ho)
  have hany : ((planIndexes l).any fun i => dead l (l.length + 1) i) = true
      ↔ ∃ i e, l[i]? = some e ∧ e.origin = none ∧ Dead l i := by
    rw [List.any_eq_true]
    constructor
    · rintro ⟨i, hi, hd⟩
      obtain ⟨e, he, ho⟩ := (mem i).1 hi
      exact ⟨i, e, he, ho, (dead_iff l i).1 hd⟩
    · rintro ⟨i, e, he, ho, hd⟩
      exact ⟨i, (mem i).2 ⟨e, he, ho⟩, (dead_iff l i).2 hd⟩
  rw [← hall, ← hany]
  unfold jobStateOf
  cases (planIndexes l).all fun i => effective iso l (l.length + 1) i <;>
    cases (planIndexes l).any fun i => dead l (l.length + 1) i <;> simp

/-! ## One escalation -/

theorem firstLeast_mem {α : Type} (key : α → Nat) (l : List α) (a : α) (h : firstLeast key l = some a) : a ∈ l := by
  induction l generalizing a with
  | nil => cases h
  | cons b l ih =>
    unfold firstLeast at h
    cases hf : firstLeast key l with
    | none => rw [hf] at h; cases h; exact List.mem_cons_self
    | some c =>
      rw [hf] at h
      dsimp only at h
      split at h
      · cases h; exact List.mem_cons_of_mem _ (ih _ hf)
      · cases h; exact List.mem_cons_self

theorem firstLeast_none {α : Type} (key : α → Nat) (l : List α) (h : firstLeast key l = none) : l = [] := by
  cases l with
  | nil => rfl
  | cons b l =>
    unfold firstLeast at h
    cases hf : firstLeast key l with
    | none => rw [hf] at h; cases h
    | some c => rw [hf] at h; dsimp only at h; split at h <;> cases h

theorem mem_dueEscalations (s : State) (d : Nat × Nat) :
    (∃ p, (p, d) ∈ s.dueEscalations) ↔ ∃ j e, s.job d.1 = some j ∧ j.entries[d.2]? = some e ∧ e.status = .failed ∧ e.esc = .absent := by
  unfold State.dueEscalations
  simp only [List.mem_flatMap]
  constructor
  · rintro ⟨p, slot, -, hm⟩
    cases hj : s.job slot with
    | none => rw [hj] at hm; cases hm
    | some j =>
      rw [hj] at hm
      simp only [List.mem_filterMap] at hm
      obtain ⟨⟨i, e⟩, hi, hm⟩ := hm
      split at hm
      · rename_i hc
        simp only [Bool.and_eq_true, beq_iff_eq] at hc
        simp only [Option.some.injEq, Prod.mk.injEq] at hm
        obtain ⟨-, rfl⟩ := hm
        rw [List.mem_iff_getElem?] at hi
        obtain ⟨n, hn⟩ := hi
        simp only [List.getElem?_mapIdx, Option.map_eq_some_iff, Prod.mk.injEq] at hn
        obtain ⟨e', he', rfl, rfl⟩ := hn
        exact ⟨j, e', hj, he', hc.1, hc.2⟩
      · cases hm
  · rintro ⟨j, e, hj, he, hf, ha⟩
    have hk : d.1 < 16 := by
      by_contra hc
      rw [job_beyond s (by omega)] at hj; cases hj
    refine ⟨match s.escalationTarget e.target with | some o => o.supplyValve + 1 | none => 0, d.1, List.mem_range.2 hk, ?_⟩
    rw [hj]
    simp only [List.mem_filterMap]
    refine ⟨(d.2, e), List.mem_iff_getElem?.2 ⟨d.2, by simp [he]⟩, ?_⟩
    simp only [hf, ha, beq_self_eq_true, Bool.and_self, if_true]
    all_goals cases s.escalationTarget e.target <;> rfl

theorem dueEscalation_some {s : State} {d : Nat × Nat} (h : s.dueEscalation = some d) :
    ∃ j e, s.job d.1 = some j ∧ j.entries[d.2]? = some e ∧ e.status = .failed ∧ e.esc = .absent := by
  unfold State.dueEscalation at h
  rw [Option.map_eq_some_iff] at h
  obtain ⟨a, ha, rfl⟩ := h
  exact (mem_dueEscalations s a.2).1 ⟨a.1, firstLeast_mem _ _ _ ha⟩

theorem dueEscalation_none {s : State} (h : s.dueEscalation = none) {k : Nat} {j : Job} (hj : s.job k = some j) {e : JobEntry}
    (he : e ∈ j.entries) (hf : e.status = .failed) : e.esc ≠ .absent := by
  unfold State.dueEscalation at h
  rw [Option.map_eq_none_iff] at h
  have hn := firstLeast_none _ _ h
  obtain ⟨i, hi⟩ := List.getElem?_of_mem he
  intro ha
  obtain ⟨p, hp⟩ := (mem_dueEscalations s (k, i)).2 ⟨j, e, hj, hi, hf, ha⟩
  rw [hn] at hp; cases hp

/-- The list after the entry `e` at place `i` has escalated to `target` (R131). -/
def escalatedEntries (target : Option Owner) (l : List JobEntry) (i : Nat) (e : JobEntry) : List JobEntry :=
  match target with
  | none => l.set i { e with esc := .nothing }
  | some o =>
    match targetIndex l o with
    | some k => l.set i { e with esc := .entry k }
    | none => l.set i { e with esc := .entry l.length } ++ [⟨o, some i, .absent, .waiting⟩]

/-- The owner an escalation takes a hold on. -/
def escalationHold (target : Option Owner) (l : List JobEntry) : Option Owner :=
  target.filter fun o => (targetIndex l o).isNone

/-- What one escalation does (R131). -/
theorem escalate_spec {s : State} {slot i : Nat} {j : Job} {e : JobEntry} (hj : s.job slot = some j) (he : j.entries[i]? = some e) :
    (∀ w, (s.escalate slot i).job w = if w = slot then
      some { j with entries := escalatedEntries (s.escalationTarget e.target) j.entries i e } else s.job w)
    ∧ (s.escalate slot i).tables = s.tables ∧ ModesHold s (s.escalate slot i)
    ∧ (∀ o, ((s.escalate slot i).owner o).settled = (s.owner o).settled)
    ∧ (∀ x, escalationHold (s.escalationTarget e.target) j.entries = some x → x.index < 53 →
        ∀ o, ((s.escalate slot i).owner o).holds = (s.owner o).holds + if x.index = o.index then 1 else 0)
    ∧ (escalationHold (s.escalationTarget e.target) j.entries = none →
        ∀ o, ((s.escalate slot i).owner o).holds = (s.owner o).holds) := by
  have hk : slot < 16 := by
    by_contra hc
    rw [job_beyond s (by omega)] at hj; cases hj
  have hset : ∀ o, ((s.escalate slot i).owner o).settled = (s.owner o).settled := fun o => ((Settles.escalate slot i s).flags o).2.2.2
  have put : ∀ es : List JobEntry,
      (∀ w, ((s.setJob slot (some { j with entries := es })).joinNotice (.job slot)).job w
        = if w = slot then some { j with entries := es } else s.job w)
      ∧ ((s.setJob slot (some { j with entries := es })).joinNotice (.job slot)).owners = s.owners
      ∧ ((s.setJob slot (some { j with entries := es })).joinNotice (.job slot)).tables = s.tables := by
    intro es
    refine ⟨fun w => ?_, by rw [State.joinNotice_eq]; rfl, by rw [State.joinNotice_eq]; rfl⟩
    have hw : ((s.setJob slot (some { j with entries := es })).joinNotice (.job slot)).job w
        = (s.setJob slot (some { j with entries := es })).job w := by rw [State.joinNotice_eq]; rfl
    rw [hw, State.job_setJob]
    by_cases hi : w = slot
    · simp [hi, hk]
    · simp [hi, Ne.symm hi]
  have own : ∀ {t : State}, t.owners = s.owners → ∀ o, (t.owner o).holds = (s.owner o).holds := fun h o => by
    rw [State.owner_eq, State.owner_eq, h]
  unfold escalatedEntries escalationHold
  rw [show s.escalate slot i = (match s.escalationTarget e.target with
    | none => (s.setJob slot (some { j with entries := j.entries.set i { e with esc := .nothing } })).joinNotice (.job slot)
    | some o => match targetIndex j.entries o with
      | some k => (s.setJob slot (some { j with entries := j.entries.set i { e with esc := .entry k } })).joinNotice (.job slot)
      | none => ((s.setJob slot (some { j with entries := j.entries.set i { e with esc := .entry j.entries.length }
          ++ [⟨o, some i, .absent, .waiting⟩] })).joinNotice (.job slot)).raiseHold o) from by
    unfold State.escalate; rw [hj]; dsimp only; rw [he] <;> rfl] at hset ⊢
  cases ht : s.escalationTarget e.target with
  | none =>
    rw [ht] at hset
    obtain ⟨h1, h2, h3⟩ := put (j.entries.set i { e with esc := .nothing })
    exact ⟨h1, h3, ModesHold.ofOwners h2, hset, fun x hx => (nomatch hx), fun _ => own h2⟩
  | some x =>
    rw [ht] at hset
    dsimp only at hset ⊢
    cases hi : targetIndex j.entries x with
    | some k =>
      rw [hi] at hset
      obtain ⟨h1, h2, h3⟩ := put (j.entries.set i { e with esc := .entry k })
      exact ⟨h1, h3, ModesHold.ofOwners h2, hset, fun y hy => by simp [Option.filter, hi] at hy, fun _ => own h2⟩
    | none =>
      rw [hi] at hset
      obtain ⟨h1, h2, h3⟩ := put (j.entries.set i { e with esc := .entry j.entries.length } ++ [⟨x, some i, .absent, .waiting⟩])
      dsimp only at hset ⊢
      generalize hu : (s.setJob slot (some { j with entries := j.entries.set i { e with esc := .entry j.entries.length }
          ++ [⟨x, some i, .absent, .waiting⟩] })).joinNotice (.job slot) = u at h1 h2 h3 hset
      have hst := Stir.raiseHold x u
      refine ⟨fun w => ?_, hst.tables.trans h3, (ModesHold.ofOwners h2).trans (ModesHold.raiseHold x u), hset, fun y hy hx o => ?_,
        fun hy => by simp [Option.filter, hi] at hy⟩
      · rw [← h1 w]; unfold State.job; rw [hst.jobs]
      · have : x = y := by simpa [Option.filter, hi] using hy
        subst this
        rw [(owner_raiseHold x o u hx).1, own h2]

/-! ## What the escalations of an event come to -/

theorem map_set_self {α β : Type} (f : α → β) {l : List α} {i : Nat} {a b : α} (h : l[i]? = some a) (hf : f b = f a) :
    (l.set i b).map f = l.map f := by
  refine List.ext_getElem? fun m => ?_
  rw [List.getElem?_map, List.getElem?_map, List.getElem?_set]
  by_cases hm : i = m
  · subst hm
    have hl := (List.getElem?_eq_some_iff.1 h).1
    rw [if_pos rfl, if_pos hl, h, Option.map_some, Option.map_some, hf]
  · rw [if_neg hm]

theorem escalatedEntries_targets {tg : Option Owner} {l : List JobEntry} {i : Nat} {e : JobEntry} (h : l[i]? = some e) :
    (escalatedEntries tg l i e).map (·.target) = l.map (·.target) ++ (escalationHold tg l).toList := by
  unfold escalatedEntries escalationHold
  cases tg with
  | none => simp [map_set_self JobEntry.target h]
  | some o =>
    cases hi : targetIndex l o with
    | some k => simp [hi, map_set_self JobEntry.target h]
    | none => simp [hi, map_set_self JobEntry.target h, Option.filter]

theorem targetIndex_some {l : List JobEntry} {o : Owner} {k : Nat} (h : targetIndex l o = some k) :
    ∃ y, l[k]? = some y ∧ y.target = o := by
  unfold targetIndex at h
  rw [List.findIdx?_eq_some_iff_getElem] at h
  obtain ⟨hk, hp, -⟩ := h
  exact ⟨l[k], List.getElem?_eq_getElem hk, by simpa using hp⟩

theorem targetIndex_none {l : List JobEntry} {o : Owner} (h : targetIndex l o = none) : ∀ y ∈ l, y.target ≠ o := by
  unfold targetIndex at h
  rw [List.findIdx?_eq_none_iff] at h
  intro y hy he
  have := h y hy
  simp [he] at this

theorem escalationTarget_wide {s : State} (hs : ∀ b, (s.tables.branch b).segment ≤ 3) {o x : Owner}
    (h : s.escalationTarget o = some x) : x ∈ wideOwners := by
  have hm : ∀ y, (if s.ownerHasValves .main then some Owner.main else none) = some y → y ∈ wideOwners := by
    intro y hy
    split at hy
    · cases hy; decide
    · cases hy
  unfold State.escalationTarget at h
  dsimp only at h
  cases o with
  | branch b =>
    dsimp only at h
    split at h
    · cases h
      have := hs b
      simp only [wideOwners, List.mem_append, List.mem_map, List.mem_range]
      exact Or.inl ⟨_, by omega, rfl⟩
    · exact hm x h
  | segment g => exact hm x h
  | main => cases h

theorem wide_index {x o : Owner} (hx : x ∈ wideOwners) (ho : WellFormed.owner o = true) :
    x.index < 53 ∧ (x.index = o.index ↔ x = o) := by
  have h5 : x = .segment 0 ∨ x = .segment 1 ∨ x = .segment 2 ∨ x = .segment 3 ∨ x = .main := by
    simpa [wideOwners, List.range_succ] using hx
  cases o with
  | branch b =>
    have : b < 48 := by
      have := ho
      simp only [WellFormed.owner, decide_eq_true_eq] at this
      exact this
    rcases h5 with rfl | rfl | rfl | rfl | rfl <;> simp [Owner.index] <;> omega
  | segment g =>
    have : g < 4 := by
      have := ho
      simp only [WellFormed.owner, decide_eq_true_eq] at this
      exact this
    rcases h5 with rfl | rfl | rfl | rfl | rfl <;> simp [Owner.index] <;> omega
  | main => rcases h5 with rfl | rfl | rfl | rfl | rfl <;> simp [Owner.index]

theorem appendedFor_eq {s t : State} {k : Nat} {j j' : Job} (hj : s.job k = some j) (hj' : t.job k = some j') (o : Owner) :
    s.appendedFor t o k = ((j'.entries.map (·.target)).drop j.entries.length).count o := by
  unfold State.appendedFor
  rw [hj, hj', ← List.map_drop, List.count, List.countP_map, List.countP_eq_length_filter]
  rfl

theorem sum_at (slot c : Nat) (h : slot < 16) : ((List.range 16).map fun k => if k = slot then c else 0).sum = c := by
  interval_cases slot <;> simp [List.range_succ]

/-- `t` is `s` some way into the escalations of an event. -/
structure Follows (s t : State) : Prop where
  modes : ModesHold s t
  tables : t.tables = s.tables
  settled : ∀ o, (t.owner o).settled = (s.owner o).settled
  jobs : ∀ k j, s.job k = some j → ∃ j', t.job k = some j' ∧ s.JobGoesOn j j'
  free : ∀ k, s.job k = none → t.job k = none
  holds : ∀ o, WellFormed.owner o = true →
    (t.owner o).holds = (s.owner o).holds + ((List.range 16).map (s.appendedFor t o)).sum

theorem restatus_follows {s t : State} (h : Follows s t)
    (hf : ∀ k j, t.job k = some j → ∀ e ∈ j.entries, e.status = .failed → t.entryStatus e.target = .failed) :
    Follows s t.rederiveJobs := by
  obtain ⟨h1, h2, h3⟩ := rederiveJobs_spec t
  have ho : ∀ o, t.rederiveJobs.owner o = t.owner o := fun o => by rw [State.owner_eq, State.owner_eq, h2]
  refine ⟨h.modes.trans (ModesHold.ofOwners h2), h3.trans h.tables, fun o => by rw [ho]; exact h.settled o, fun k j hj => ?_,
    fun k hk => by rw [h1, h.free k hk]; rfl, fun o hw => ?_⟩
  · obtain ⟨j', hj', hg⟩ := h.jobs k j hj
    exact ⟨t.rederived j', by rw [h1, hj']; rfl, hg.restatus (fun e => t.entryStatus e.target) _ (hf k j' hj')⟩
  · have same : ∀ k, s.appendedFor t.rederiveJobs o k = s.appendedFor t o k := ?_
    · rw [ho, h.holds o hw, funext same]
    intro k
    cases hk : s.job k with
    | none => unfold State.appendedFor; rw [hk]
    | some j =>
      obtain ⟨j', hj', -⟩ := h.jobs k j hk
      rw [appendedFor_eq hk hj', appendedFor_eq (j' := t.rederived j') hk (by rw [h1, hj']; rfl)]
      simp [State.rederived, Function.comp_def]

theorem mem_escalatedEntries {tg : Option Owner} {l : List JobEntry} {i : Nat} {e x : JobEntry} (h : l[i]? = some e)
    (hx : x ∈ escalatedEntries tg l i e) : (∃ y ∈ l, y.status = x.status ∧ y.target = x.target) ∨ x.status = .waiting := by
  have hs : ∀ esc, x ∈ l.set i { e with esc := esc } → ∃ y ∈ l, y.status = x.status ∧ y.target = x.target := by
    intro esc hm
    rcases List.mem_or_eq_of_mem_set hm with hm | rfl
    · exact ⟨x, hm, rfl, rfl⟩
    · exact ⟨e, List.mem_of_getElem? h, rfl, rfl⟩
  unfold escalatedEntries at hx
  split at hx
  · exact Or.inl (hs _ hx)
  · split at hx
    · exact Or.inl (hs _ hx)
    · rcases List.mem_append.1 hx with hx | hx
      · exact Or.inl (hs _ hx)
      · rw [List.mem_singleton] at hx
        subst hx
        exact Or.inr rfl

theorem escalate_follows {s t : State} (hs : ∀ b, (s.tables.branch b).segment ≤ 3) (h : Follows s t) (hd : Derived t)
    {slot i : Nat} {j : Job} {e : JobEntry} (hj : t.job slot = some j) (he : j.entries[i]? = some e)
    (hf : e.status = .failed) (ha : e.esc = .absent) : Follows s (t.escalate slot i).rederiveJobs := by
  obtain ⟨h1, h2, h3, h4, h5, h6⟩ := escalate_spec hj he
  have ht : t.escalationTarget e.target = s.escalationTarget e.target := escalationTarget_holds h.modes h.tables _
  have hslot : slot < 16 := by
    by_contra hc
    rw [job_beyond t (by omega)] at hj; cases hj
  obtain ⟨j0, hj0⟩ : ∃ j0, s.job slot = some j0 := by
    cases hc : s.job slot with
    | none => rw [h.free slot hc] at hj; cases hj
    | some j0 => exact ⟨j0, rfl⟩
  have hgo : s.JobGoesOn j0 j := by
    obtain ⟨j', hj', hg⟩ := h.jobs slot j0 hj0
    rw [hj] at hj'; cases hj'; exact hg
  refine restatus_follows ⟨h.modes.trans h3, h2.trans h.tables, fun o => (h4 o).trans (h.settled o), fun k jk hk => ?_,
    fun k hk => ?_, fun o hw => ?_⟩ ?_
  · by_cases hks : k = slot
    · subst hks
      rw [hj0] at hk; cases hk
      refine ⟨_, by rw [h1, if_pos rfl], ?_⟩
      unfold escalatedEntries
      rw [ht]
      cases htg : s.escalationTarget e.target with
      | none => exact hgo.setEsc he ha hf .nothing (Or.inl ⟨rfl, htg⟩)
      | some o =>
        cases hi : targetIndex j.entries o with
        | some n =>
          obtain ⟨y, hy, hyo⟩ := targetIndex_some hi
          dsimp only
          rw [hi]
          exact hgo.setEsc he ha hf (.entry n) (Or.inr ⟨n, y, rfl, hy, by rw [htg, hyo]⟩)
        | none =>
          dsimp only
          rw [hi]
          exact hgo.append he ha hf o htg (targetIndex_none hi)
    · obtain ⟨j', hj', hg⟩ := h.jobs k jk hk
      exact ⟨j', by rw [h1, if_neg hks]; exact hj', hg⟩
  · have : k ≠ slot := by rintro rfl; rw [hj0] at hk; cases hk
    rw [h1, if_neg this]; exact h.free k hk
  · have step : ∀ k, s.appendedFor (t.escalate slot i) o k = s.appendedFor t o k
        + if k = slot then (escalationHold (t.escalationTarget e.target) j.entries).toList.count o else 0 := by
      intro k
      by_cases hks : k = slot
      · subst hks
        rw [if_pos rfl, appendedFor_eq hj0 hj, appendedFor_eq (j' := { j with entries := _ }) hj0 (by rw [h1, if_pos rfl]),
          escalatedEntries_targets he, List.drop_append_of_le_length (by simpa using hgo.length_le), List.count_append]
      · rw [if_neg hks]
        unfold State.appendedFor
        rw [h1, if_neg hks]; rfl
    have hsum : ((List.range 16).map (s.appendedFor (t.escalate slot i) o)).sum
        = ((List.range 16).map (s.appendedFor t o)).sum
          + (escalationHold (t.escalationTarget e.target) j.entries).toList.count o := by
      rw [funext step, List.sum_map_add, sum_at slot _ hslot]
    rw [hsum, ← Nat.add_assoc, ← h.holds o hw]
    cases hx : escalationHold (t.escalationTarget e.target) j.entries with
    | none => rw [h6 hx]; simp
    | some x =>
      have hxt : s.escalationTarget e.target = some x := by
        unfold escalationHold at hx
        rw [ht] at hx
        exact (Option.filter_eq_some_iff.1 hx).1
      have hwx := wide_index (escalationTarget_wide hs hxt) hw
      rw [h5 x hx hwx.1]
      by_cases he' : x = o
      · simp [he']
      · simp [he', mt hwx.2.1 he']
  · intro k jk hk x hx hxf
    have base : ∀ jk', t.job k = some jk' → ∀ y ∈ jk'.entries, y.status = .failed →
        (t.escalate slot i).entryStatus y.target = .failed := by
      intro jk' hk' y hy hyf
      refine entryStatus_failed h3 h4 _ ?_
      rw [← (hd.job hk').1 y hy]; exact hyf
    rw [h1] at hk
    split at hk
    · rename_i hks
      subst hks
      cases hk
      rcases mem_escalatedEntries he hx with ⟨y, hy, hys, hyt⟩ | hw
      · rw [← hyt]; exact base j hj y hy (hys.trans hxf)
      · rw [hw] at hxf; cases hxf
    · exact base jk hk x hx hxf

theorem escalateLoop_follows {s : State} (hs : ∀ b, (s.tables.branch b).segment ≤ 3) (n : Nat) (t : State) (h : Follows s t)
    (hd : Derived t) : Follows s (escalateLoop n t) ∧ Derived (escalateLoop n t) := by
  induction n generalizing t with
  | zero => exact ⟨h, hd⟩
  | succ n ih =>
    unfold escalateLoop
    cases hdue : t.dueEscalation with
    | none => exact ⟨h, hd⟩
    | some d =>
      obtain ⟨j, e, hj, he, hf, ha⟩ := dueEscalation_some hdue
      exact ih _ (escalate_follows hs h hd hj he hf ha) (rederiveJobs_derived _)

theorem escalateLoop_derived (n : Nat) (t : State) (hd : Derived t) : Derived (escalateLoop n t) := by
  induction n generalizing t with
  | zero => exact hd
  | succ n ih =>
    unfold escalateLoop
    split
    · exact hd
    · exact ih _ (rederiveJobs_derived _)


/-! ## The escalations of an event end -/

/-- What is left to escalate in a job: its absent escalations, and the wider owners that could still join. -/
def jobWork (j : Job) : Nat :=
  j.entries.countP (fun e => e.esc == .absent) + (wideOwners.toFinset \ (j.entries.map (·.target)).toFinset).card

def slotWork : Option Job → Nat
  | some j => jobWork j
  | none => 0

def State.work (s : State) : Nat := ((List.range 16).map fun k => slotWork (s.job k)).sum

theorem jobWork_le (j : Job) (h : j.entries.length ≤ 16) : jobWork j ≤ 21 := by
  have h1 := List.countP_le_length (p := fun e : JobEntry => e.esc == .absent) (l := j.entries)
  have h2 : (wideOwners.toFinset \ (j.entries.map (·.target)).toFinset).card ≤ 5 :=
    (Finset.card_le_card Finset.sdiff_subset).trans (by decide)
  unfold jobWork
  omega

theorem jobWork_rederived (s : State) (j : Job) : jobWork (s.rederived j) = jobWork j := by
  unfold jobWork State.rederived
  simp [List.countP_map, Function.comp_def]

theorem jobWork_escalated {s : State} (hs : ∀ b, (s.tables.branch b).segment ≤ 3) {j : Job} {i : Nat} {e : JobEntry}
    (he : j.entries[i]? = some e) (ha : e.esc = .absent) (w : Owner) :
    jobWork { j with entries := escalatedEntries (s.escalationTarget w) j.entries i e } + 1 ≤ jobWork j := by
  have hi := (List.getElem?_eq_some_iff.1 he).1
  have hg : j.entries[i] = e := (List.getElem?_eq_some_iff.1 he).2
  have hpos : 0 < j.entries.countP (fun e => e.esc == .absent) :=
    List.countP_pos_iff.2 ⟨e, List.mem_of_getElem? he, by simp [ha]⟩
  have hc : ∀ x : Escalation, x ≠ .absent →
      (j.entries.set i { e with esc := x }).countP (fun e => e.esc == .absent) + 1 = j.entries.countP (fun e => e.esc == .absent) := by
    intro x hx
    rw [List.countP_set hi]
    have : (x == Escalation.absent) = false := by simpa using hx
    simp only [hg, ha, beq_self_eq_true, if_true, this]
    simp
    omega
  have ht := escalatedEntries_targets (tg := s.escalationTarget w) he
  unfold jobWork
  dsimp only
  rw [ht]
  cases htg : s.escalationTarget w with
  | none =>
    have := hc .nothing (by simp)
    simp only [escalatedEntries, escalationHold, Option.filter, Option.toList, List.append_nil]
    omega
  | some o =>
    cases hti : targetIndex j.entries o with
    | some k =>
      have := hc (.entry k) (by simp)
      simp only [escalatedEntries, escalationHold, Option.filter, hti, Option.isNone_some, Option.toList, List.append_nil,
        Bool.false_eq_true, if_false]
      omega
    | none =>
      have h1 := hc (.entry j.entries.length) (by simp)
      have hw := escalationTarget_wide hs htg
      have hn : o ∉ (j.entries.map (·.target)).toFinset := by
        simp only [List.mem_toFinset, List.mem_map, not_exists, not_and]
        exact targetIndex_none hti
      have h2 : (wideOwners.toFinset \ (j.entries.map (·.target) ++ [o]).toFinset).card + 1
          = (wideOwners.toFinset \ (j.entries.map (·.target)).toFinset).card := by
        have hm : o ∈ wideOwners.toFinset \ (j.entries.map (·.target)).toFinset :=
          Finset.mem_sdiff.2 ⟨List.mem_toFinset.2 hw, hn⟩
        rw [← Finset.card_erase_add_one hm]
        congr 2
        ext x
        simp only [List.toFinset_append, Finset.mem_sdiff, Finset.mem_union, Finset.mem_erase, List.mem_toFinset, List.mem_singleton]
        tauto
      simp only [escalatedEntries, escalationHold, Option.filter, hti, Option.isNone_none, Option.toList, if_true,
        List.countP_append, List.countP_singleton, beq_self_eq_true]
      omega

theorem sum_lt (f g : Nat → Nat) (slot : Nat) (h : slot < 16) (hs : f slot + 1 ≤ g slot) (ho : ∀ k, k ≠ slot → f k = g k) :
    ((List.range 16).map f).sum + 1 ≤ ((List.range 16).map g).sum := by
  have : ∀ k, f k + (if k = slot then 1 else 0) ≤ g k := fun k => by
    split
    · rename_i hk; rw [hk]; exact hs
    · rename_i hk; rw [ho k hk]; exact le_refl _
  calc ((List.range 16).map f).sum + 1 = ((List.range 16).map fun k => f k + if k = slot then 1 else 0).sum := by
        rw [List.sum_map_add, sum_at slot 1 h]
    _ ≤ _ := List.sum_le_sum fun k _ => this k

theorem escalate_work {t : State} (hs : ∀ b, (t.tables.branch b).segment ≤ 3) {slot i : Nat} {j : Job} {e : JobEntry}
    (hj : t.job slot = some j) (he : j.entries[i]? = some e) (ha : e.esc = .absent) :
    (t.escalate slot i).rederiveJobs.work + 1 ≤ t.work := by
  obtain ⟨h1, -⟩ := escalate_spec hj he
  obtain ⟨h2, -⟩ := rederiveJobs_spec (t.escalate slot i)
  have hslot : slot < 16 := by
    by_contra hc
    rw [job_beyond t (by omega)] at hj; cases hj
  have hw : ∀ k, slotWork ((t.escalate slot i).rederiveJobs.job k) = slotWork ((t.escalate slot i).job k) := fun k => by
    rw [h2]
    cases (t.escalate slot i).job k with
    | none => rfl
    | some x => exact jobWork_rederived _ x
  refine sum_lt _ _ slot hslot ?_ fun k hk => ?_
  · rw [hw, h1, if_pos rfl, hj]
    exact jobWork_escalated hs he ha _
  · rw [hw, h1, if_neg hk]

/-- With fuel for what is left to escalate, no escalation is due at the end (R130). -/
theorem escalateLoop_ends (n : Nat) (t : State) (hs : ∀ b, (t.tables.branch b).segment ≤ 3) (hw : t.work ≤ n) :
    (escalateLoop n t).dueEscalation = none := by
  induction n generalizing t with
  | zero =>
    unfold escalateLoop
    cases hdue : t.dueEscalation with
    | none => rfl
    | some d =>
      obtain ⟨j, e, hj, he, -, ha⟩ := dueEscalation_some hdue
      have := escalate_work hs hj he ha
      omega
  | succ n ih =>
    unfold escalateLoop
    cases hdue : t.dueEscalation with
    | none => exact hdue
    | some d =>
      obtain ⟨j, e, hj, he, -, ha⟩ := dueEscalation_some hdue
      have hstep := escalate_work hs hj he ha
      refine ih _ ?_ (by omega)
      rw [(rederiveJobs_spec _).2.2, (escalate_spec hj he).2.1]
      exact hs

/-! ## The end of an event -/

theorem finish_owners_jobs (s : State) : s.finish.owners = (escalateLoop 512 s.rederiveJobs).owners
    ∧ s.finish.jobs = (escalateLoop 512 s.rederiveJobs).jobs := by
  have hk : ∀ t : State, t.keepActive.owners = t.owners ∧ t.keepActive.jobs = t.jobs := fun t => by
    unfold State.keepActive; dsimp only; split <;> exact ⟨rfl, rfl⟩
  unfold State.finish State.followOwners State.followJobs
  exact ⟨(settle_owners _).1.trans (hk _).1, (settle_owners _).2.trans (hk _).2⟩

theorem Derived.congr {s t : State} (ho : t.owners = s.owners) (hj : t.jobs = s.jobs) (h : Derived s) : Derived t := by
  intro k j hk
  rw [rederived_congr ho]
  exact h k j (by unfold State.job at hk ⊢; rw [← hj]; exact hk)

/-- After every event each job stands as its owners give it (R123, R124). -/
theorem finish_derived (s : State) : Derived s.finish :=
  Derived.congr (finish_owners_jobs s).1 (finish_owners_jobs s).2 (escalateLoop_derived _ _ (rederiveJobs_derived s))

/-- The first derivation of an event: statuses may leave FAILED, no escalation moves. -/
theorem rederiveJobs_follows (s : State) : Follows s s.rederiveJobs := by
  obtain ⟨h1, h2, h3⟩ := rederiveJobs_spec s
  have ho : ∀ o, s.rederiveJobs.owner o = s.owner o := fun o => by rw [State.owner_eq, State.owner_eq, h2]
  refine ⟨ModesHold.ofOwners h2, h3, fun o => by rw [ho], fun k j hj => ⟨s.rederived j, by rw [h1, hj]; rfl, ?_⟩,
    fun k hk => by rw [h1, hk]; rfl, fun o hw => ?_⟩
  · refine ⟨rfl, rfl, fun i e he => ?_, fun i e' he' _ => ?_, fun i e' hi he' => ?_⟩
    · exact ⟨{ e with status := s.entryStatus e.target }, by simp [State.rederived, he], rfl, rfl, fun _ => rfl⟩
    · simp only [State.rederived, List.getElem?_map, Option.map_eq_some_iff] at he'
      obtain ⟨e, he, rfl⟩ := he'
      exact Or.inl ⟨e, he, rfl⟩
    · have := (List.getElem?_eq_some_iff.1 he').1
      simp only [State.rederived, List.length_map] at this
      omega
  · have zero : ∀ k, s.appendedFor s.rederiveJobs o k = 0 := by
      intro k
      cases hk : s.job k with
      | none => unfold State.appendedFor; rw [hk]
      | some j =>
        rw [appendedFor_eq (j' := s.rederived j) hk (by rw [h1, hk]; rfl)]
        rw [List.drop_eq_nil_of_le (by simp [State.rederived])]; rfl
    rw [ho, funext zero]
    simp

theorem Follows.congr {s t u : State} (h : Follows s t) (ho : u.owners = t.owners) (hj : u.jobs = t.jobs)
    (ht : u.tables = t.tables) : Follows s u := by
  have howner : ∀ o, u.owner o = t.owner o := fun o => by rw [State.owner_eq, State.owner_eq, ho]
  have hjob : ∀ k, u.job k = t.job k := fun k => by unfold State.job; rw [hj]
  refine ⟨h.modes.trans (ModesHold.ofOwners ho), ht.trans h.tables, fun o => by rw [howner]; exact h.settled o,
    fun k j hk => by rw [hjob]; exact h.jobs k j hk, fun k hk => by rw [hjob]; exact h.free k hk, fun o hw => ?_⟩
  have same : ∀ k, s.appendedFor u o k = s.appendedFor t o k := fun k => by unfold State.appendedFor; rw [hjob]
  rw [howner, h.holds o hw, funext same]

/-- What the end of an event does to the jobs: they go on by R130 and R131, each appended entry with one hold. -/
theorem finish_follows (s : State) (hs : ∀ b, (s.tables.branch b).segment ≤ 3) : Follows s s.finish := by
  obtain ⟨h1, h2⟩ := finish_owners_jobs s
  have h := (escalateLoop_follows hs 512 _ (rederiveJobs_follows s) (rederiveJobs_derived s)).1
  exact h.congr h1 h2 ((Settles.finish s).tables.trans h.tables.symm)

/-- After an event no FAILED entry is left with its escalation absent (R130). -/
theorem finish_escalated (s : State) (hs : ∀ b, (s.tables.branch b).segment ≤ 3)
    (hl : ∀ k j, s.job k = some j → j.entries.length ≤ 16) {k : Nat} {j : Job} (hj : s.finish.job k = some j) {e : JobEntry}
    (he : e ∈ j.entries) (hf : e.status = .failed) : e.esc ≠ .absent := by
  have hw : s.rederiveJobs.work ≤ 512 := by
    have : s.rederiveJobs.work ≤ ((List.range 16).map fun _ => 21).sum := by
      refine List.sum_le_sum fun k _ => ?_
      rw [(rederiveJobs_spec s).1]
      cases hk : s.job k with
      | none => exact Nat.zero_le _
      | some j => exact (jobWork_rederived s j).trans_le (jobWork_le j (hl k j hk))
    exact this.trans (by decide)
  have hend := escalateLoop_ends 512 s.rederiveJobs (by rw [(rederiveJobs_spec s).2.2]; exact hs) hw
  refine dueEscalation_none hend (k := k) (j := j) ?_ he hf
  unfold State.job at hj ⊢
  rw [← (finish_owners_jobs s).2]; exact hj

/-! ## The looks at the end of an event (R148) -/

theorem lookOnce_queue {s t : State} (h : s.lookOnce = some t) : t.sched.queue.length < s.sched.queue.length := by
  obtain ⟨e, he, -, rfl⟩ := lookOnce_some h
  rw [(admit_spec e s).2.1]
  have hm := considered_subset s he
  exact List.length_filter_lt_length_iff_exists.2 ⟨e, hm, by simp⟩

theorem lookLoop_ends (n : Nat) (s : State) (h : s.sched.queue.length ≤ n) : (lookLoop n s).lookOnce = none := by
  induction n generalizing s with
  | zero =>
    unfold lookLoop
    cases hl : s.lookOnce with
    | none => rfl
    | some t => have := lookOnce_queue hl; omega
  | succ n ih =>
    unfold lookLoop
    cases hl : s.lookOnce with
    | none => exact hl
    | some t => have := lookOnce_queue hl; exact ih t (by omega)

/-- Where a look is due, the scheduler looks until it admits nothing; the mark is then gone. -/
theorem settle_looked (s : State) : s.settle.sched.lookDue = false ∧ (s.sched.lookDue = true → s.settle.lookOnce = none) := by
  unfold State.settle
  cases h : s.sched.lookDue with
  | false => exact ⟨h, fun h => (nomatch h)⟩
  | true =>
    refine ⟨rfl, fun _ => ?_⟩
    have hl := lookLoop_ends _ s (le_refl _)
    unfold State.lookOnce at hl ⊢
    rw [Option.map_eq_none_iff] at hl ⊢
    exact hl

end Sys2Proof.Machine
end

