-- ==== Sys2Proof/Laws/Holds.lean ====
section
/-! SUPPORT. How hold counts move (R16): at the creation and the release of a job and at an escalation, each with the evaluation of
its owner; and the parts of the end of an event: escalations, then looks, every job that changes noticed. -/

namespace Sys2Proof.Machine

/-! ## One hold count -/

theorem joinNotice_with (s : State) (o : Obj) : (s.joinNotice o).link.notices = s.noticesWith o := by
  rw [State.joinNotice_notices]
  unfold State.noticesWith
  simp

/-- A job slot is written and joins. -/
theorem slot_written (s : State) (slot : Nat) (j : Option Job) :
    State.SameButNotices { s with jobs := s.jobs.put slot j } ((s.setJob slot j).joinNotice (.job slot))
    ∧ ((s.setJob slot j).joinNotice (.job slot)).link.notices = s.noticesWith (.job slot)
    ∧ ((s.setJob slot j).joinNotice (.job slot)).jobs = s.jobs.put slot j :=
  ⟨by rw [State.joinNotice_eq]; rfl, joinNotice_with _ _, by rw [State.joinNotice_eq]; rfl⟩

/-- The record of an owner with another hold count. -/
theorem setOwner_holds (s : State) (o : Owner) (n : Nat) :
    State.SameButNotices { s with owners := s.owners.put o.index { s.owner o with holds := n } }
      (s.setOwner o { s.owner o with holds := n })
    ∧ (s.setOwner o { s.owner o with holds := n }).link.notices
      = if n = (s.owner o).holds then s.link.notices else s.noticesWith o.obj := by
  refine ⟨by rw [State.setOwner_eq]; rfl, ?_⟩
  unfold State.setOwner
  by_cases h : n = (s.owner o).holds
  · rw [if_pos h, if_pos (by simp [OwnerRec.shown, h])]
  · rw [if_neg h, if_neg (by simp [OwnerRec.shown, h])]
    exact joinNotice_with _ _

theorem raiseHold_moves (o : Owner) (s : State) : s.HoldMoves (s.raiseHold o) o ((s.owner o).holds + 1) := by
  obtain ⟨h1, h2⟩ := setOwner_holds s o ((s.owner o).holds + 1)
  refine ⟨_, h1, h2, ?_⟩
  unfold State.raiseHold
  dsimp only
  by_cases h : (s.owner o).holds = 0 <;> simp [h]

theorem lowerHold_moves (o : Owner) (s : State) : s.HoldMoves (s.lowerHold o) o ((s.owner o).holds - 1) := by
  obtain ⟨h1, h2⟩ := setOwner_holds s o ((s.owner o).holds - 1)
  refine ⟨_, h1, h2, ?_⟩
  unfold State.lowerHold
  dsimp only
  by_cases h : (s.owner o).holds = 1
  · simp [h]
  · rw [if_neg h, if_pos (by omega)]

/-! ## The holds of a job -/

theorem raiseHolds_move (l : List Owner) (s : State) : State.HoldsMove (· + 1) l s (l.foldl (fun s o => s.raiseHold o) s) := by
  induction l generalizing s with
  | nil => rfl
  | cons o l ih => exact ⟨_, raiseHold_moves o s, ih _⟩

/-- R137: the holds of a job come off one after the other. -/
theorem dropHolds_move (l : List JobEntry) (s : State) : State.HoldsMove (· - 1) (l.map (·.target)) s (s.dropHolds l) := by
  induction l generalizing s with
  | nil => rfl
  | cons e l ih => exact ⟨_, lowerHold_moves e.target s, ih _⟩

/-- R127: a job is written to its slot, then its holds are placed in list order. -/
theorem createJob_move (slot z : Nat) (s : State) : ∃ x : State,
    State.SameButNotices { s with jobs := (s.jobs.put slot
      (some ⟨z, s.ms, (s.tables.plan z).map fun o => ⟨o, none, .absent, .waiting⟩, .active⟩)) } x
    ∧ State.HoldsMove (· + 1) (s.tables.plan z) x (s.createJob slot z) :=
  ⟨_, (slot_written _ _ _).1, raiseHolds_move _ _⟩

/-! ## Escalations -/

theorem targetIndex_first {l : List JobEntry} {o : Owner} {k : Nat} {y : JobEntry} (hk : l[k]? = some y) (hy : y.target = o)
    (hb : ∀ n z, n < k → l[n]? = some z → z.target ≠ o) : targetIndex l o = some k := by
  obtain ⟨hl, rfl⟩ := List.getElem?_eq_some_iff.1 hk
  unfold targetIndex
  rw [List.findIdx?_eq_some_iff_getElem]
  refine ⟨hl, by simpa using hy, fun n hn => ?_⟩
  simpa using hb n l[n] hn (List.getElem?_eq_getElem (by omega))

theorem targetIndex_absent {l : List JobEntry} {o : Owner} (h : ∀ y ∈ l, y.target ≠ o) : targetIndex l o = none := by
  unfold targetIndex
  rw [List.findIdx?_eq_none_iff]
  exact fun y hy => by simpa using h y hy

/-- R131: what one escalation does, the evaluation of the owner it holds included. -/
theorem escalate_escalates {s : State} {slot i : Nat} {j : Job} {e : JobEntry} (hj : s.job slot = some j) (he : j.entries[i]? = some e)
    (hf : e.status = .failed) (ha : e.esc = .absent) : s.Escalates (s.escalate slot i) slot i := by
  have eq : s.escalate slot i = (match s.escalationTarget e.target with
      | none => (s.setJob slot (some { j with entries := j.entries.set i { e with esc := .nothing } })).joinNotice (.job slot)
      | some o => match targetIndex j.entries o with
        | some k => (s.setJob slot (some { j with entries := j.entries.set i { e with esc := .entry k } })).joinNotice (.job slot)
        | none => ((s.setJob slot (some { j with entries := j.entries.set i { e with esc := .entry j.entries.length }
            ++ [⟨o, some i, .absent, .waiting⟩] })).joinNotice (.job slot)).raiseHold o) := by
    unfold State.escalate; rw [hj]; dsimp only; rw [he] <;> rfl
  rw [eq]
  cases ht : s.escalationTarget e.target with
  | none =>
    obtain ⟨h1, h2, -⟩ := slot_written s slot (some { j with entries := j.entries.set i { e with esc := .nothing } })
    exact ⟨j, e, _, _, hj, he, hf, ha, h1, h2, fun _ => ⟨rfl, rfl⟩, fun _ _ h => (nomatch ht.symm.trans h),
      fun _ h => (nomatch ht.symm.trans h)⟩
  | some o =>
    dsimp only
    cases hi : targetIndex j.entries o with
    | some k =>
      obtain ⟨h1, h2, -⟩ := slot_written s slot (some { j with entries := j.entries.set i { e with esc := .entry k } })
      refine ⟨j, e, _, _, hj, he, hf, ha, h1, h2, fun h => (nomatch ht.symm.trans h), fun k' y h hk hb => ?_, fun o' h hn => ?_⟩
      · have ho : y.target = o := by rw [ht] at h; exact (Option.some.inj h).symm
        have := targetIndex_first hk ho (ho ▸ hb)
        rw [hi] at this
        cases this
        exact ⟨rfl, rfl⟩
      · have ho : o' = o := by rw [ht] at h; exact (Option.some.inj h).symm
        rw [targetIndex_absent (ho ▸ hn)] at hi
        cases hi
    | none =>
      obtain ⟨h1, h2, -⟩ := slot_written s slot
        (some { j with entries := j.entries.set i { e with esc := .entry j.entries.length } ++ [⟨o, some i, .absent, .waiting⟩] })
      refine ⟨j, e, _, _, hj, he, hf, ha, h1, h2, fun h => (nomatch ht.symm.trans h), fun k' y h hk hb => ?_, fun o' h hn => ?_⟩
      · have ho : y.target = o := by rw [ht] at h; exact (Option.some.inj h).symm
        rw [targetIndex_first hk ho (ho ▸ hb)] at hi
        cases hi
      · have ho : o' = o := by rw [ht] at h; exact (Option.some.inj h).symm
        subst ho
        exact ⟨rfl, raiseHold_moves _ _⟩

theorem escalateLoop_escalations (n : Nat) (s : State) : State.Escalations s (escalateLoop n s) := by
  induction n generalizing s with
  | zero => exact .done s
  | succ n ih =>
    unfold escalateLoop
    cases hd : s.dueEscalation with
    | none => exact .done s
    | some d =>
      obtain ⟨j, e, hj, he, hf, ha⟩ := dueEscalation_some hd
      exact .next s _ _ d.1 d.2 (escalate_escalates hj he hf ha) (ih _)

theorem followJobs_escalations (s : State) : State.Escalations s.rederiveJobs s.followJobs := escalateLoop_escalations _ _

/-- A freed slot goes to the head of the wait list (R138): the job is written, its holds are placed, its escalations made. -/
theorem offerSlot_move {s : State} {w : Nat} {rest : List Nat} (h : s.waitList = w :: rest) (slot : Nat) : ∃ x y : State,
    State.SameButNotices { s with waitList := rest, jobs := (s.jobs.put slot
      (some ⟨w, s.ms, (s.tables.plan w).map fun o => ⟨o, none, .absent, .waiting⟩, .active⟩)) } x
    ∧ State.HoldsMove (· + 1) (s.tables.plan w) x y ∧ State.Escalations y.rederiveJobs (s.offerSlot slot) := by
  obtain ⟨x, h1, h2⟩ := createJob_move slot w { s with waitList := rest }
  refine ⟨x, _, h1, h2, ?_⟩
  unfold State.offerSlot
  rw [h]
  exact followJobs_escalations _

/-! ## Deriving the jobs anew changes the jobs alone -/

theorem rederiveJobs_same (s : State) : State.SameButNotices { s with jobs := s.rederiveJobs.jobs } s.rederiveJobs := by
  unfold State.rederiveJobs
  induction jobSlotNumbers generalizing s with
  | nil => rfl
  | cons k l ih =>
    have hk : State.SameButNotices { s with jobs := (s.rederiveSlot k).jobs } (s.rederiveSlot k) := by
      unfold State.rederiveSlot
      split
      · rfl
      · dsimp only
        split
        · rfl
        · rw [State.joinNotice_eq]; rfl
    have h := ih (s.rederiveSlot k)
    rw [List.foldl_cons]
    generalize (l.foldl (fun s k => s.rederiveSlot k) (s.rederiveSlot k)) = t at h ⊢
    generalize s.rederiveSlot k = u at hk h
    unfold State.SameButNotices at *
    have h1 := congrArg (fun v : State => { v with link := { v.link with notices := s.link.notices } }) h
    have h2 := congrArg (fun v : State => { v with jobs := t.jobs }) hk
    exact h1.trans h2

/-! ## Looks -/

theorem lookLoop_looks (n : Nat) (s : State) : State.Looks s (lookLoop n s) := by
  induction n generalizing s with
  | zero => exact .done s
  | succ n ih =>
    unfold lookLoop
    cases hl : s.lookOnce with
    | none => exact .done s
    | some t => exact .next s t _ hl (ih t)

/-- The parts of the end of an event: the jobs are derived anew, escalations follow, then looks. -/
theorem finish_parts (s : State) : State.Escalations s.rederiveJobs s.followJobs ∧ ∃ (due : Bool) (x : State),
    State.Looks { s.followJobs with activeJobs := s.finish.activeJobs, sched := { s.followJobs.sched with lookDue := due } } x
    ∧ s.finish = { x with sched := { x.sched with lookDue := false } } := by
  refine ⟨followJobs_escalations s, ?_⟩
  have hk : ∀ t : State, t.keepActive = { t with
      activeJobs := t.keepActive.activeJobs
      sched := { t.sched with lookDue := t.keepActive.sched.lookDue } } := by
    intro t
    unfold State.keepActive
    dsimp only
    split <;> rfl
  have ha : ∀ (n : Nat) (t : State), (lookLoop n t).activeJobs = t.activeJobs := by
    intro n
    induction n with
    | zero => exact fun _ => rfl
    | succ n ih =>
      intro t
      unfold lookLoop
      cases hl : t.lookOnce with
      | none => rfl
      | some u =>
        obtain ⟨e, -, -, rfl⟩ := lookOnce_some hl
        exact (ih _).trans (admit_spec e t).2.2.2.2.2.2.2
  show ∃ due x, State.Looks { s.followJobs with activeJobs := (s.followJobs.keepActive.settle).activeJobs, sched := _ } x
    ∧ s.followJobs.keepActive.settle = _
  generalize s.followJobs = t
  refine ⟨t.keepActive.sched.lookDue, ?_⟩
  have hs : t.keepActive.settle.activeJobs = t.keepActive.activeJobs := by
    unfold State.settle
    split
    · exact ha _ _
    · rfl
  rw [hs, ← hk t]
  generalize t.keepActive = u
  unfold State.settle
  cases hd : u.sched.lookDue with
  | true => exact ⟨_, lookLoop_looks _ _, rfl⟩
  | false => exact ⟨u, .done u, by rw [if_neg (by simp), ← hd]⟩

/-- Looks leave a valve without a queue entry as it is. -/
theorem Looks.valve {s t : State} (h : State.Looks s t) {v : Nat} (hv : s.hasEntry v = false) : t.valve v = s.valve v := by
  induction h with
  | done s => rfl
  | next s t u hl _ ih =>
    obtain ⟨e, he, -, rfl⟩ := lookOnce_some hl
    obtain ⟨-, hs, hval, -⟩ := admit_spec e s
    have hne : ∀ x ∈ s.sched.queue, x.valve ≠ v := by simpa [State.hasEntry] using hv
    rw [ih (by rw [State.hasEntry, hs]; simpa using fun x hx _ => hne x hx), State.valve_put s e.valve v _ _ hval,
      if_neg fun h => hne e (considered_subset s he) h.1]

/-- Outside RUNNING no look admits. -/
theorem Looks.broken {s t : State} (h : State.Looks s t) (hr : s.chain.st ≠ .running) : t = s := by
  cases h with
  | done => rfl
  | next _ u _ hl _ =>
    obtain ⟨e, he, -⟩ := lookOnce_some hl
    simp [State.considered, State.noneConsidered, hr] at he

/-- With no job in the table the end of an event is its looks. -/
theorem finish_looks {s : State} (hj : s.NoJobs) : ∃ x y : State, State.Looks x y ∧ x.chain = s.chain ∧ x.valves = s.valves
    ∧ { x.sched with lookDue := false } = { s.sched with lookDue := false }
    ∧ s.finish = { y with sched := { y.sched with lookDue := false } } := by
  obtain ⟨-, due, y, h2, h3⟩ := finish_parts s
  rw [show s.followJobs = s from by unfold State.followJobs; rw [rederiveJobs_noJobs hj, escalateLoop_noJobs hj]] at h2
  exact ⟨_, y, h2, rfl, rfl, rfl, h3⟩

/-- With no job in the table a valve without a queue entry stands at the end of an event. -/
theorem finish_valve {s : State} (hj : s.NoJobs) {v : Nat} (hv : s.hasEntry v = false) : s.finish.valve v = s.valve v := by
  obtain ⟨x, y, hl, -, hx, hs, he⟩ := finish_looks hj
  have hq : x.sched.queue = s.sched.queue := (congrArg Sched.queue hs :)
  have hy := Looks.valve hl (v := v) (by unfold State.hasEntry at hv ⊢; rw [hq]; exact hv)
  have hxv : x.valve v = s.valve v := by unfold State.valve; rw [hx]
  rw [he]
  exact hy.trans hxv

/-- With no job in the table, and outside RUNNING, the scheduler stands at the end of an event. -/
theorem finish_sched {s : State} (hj : s.NoJobs) (hc : s.chain.st ≠ .running) :
    s.finish.sched = { s.sched with lookDue := false } := by
  obtain ⟨x, y, hl, hx, -, hs, he⟩ := finish_looks hj
  rw [he, Looks.broken hl (hx ▸ hc)]
  exact hs

/-! ## Jobs that change are noticed (R124) -/

/-- What changes a job has its slot noticed. -/
structure JobsNoticed (s t : State) : Prop where
  settles : Settles s t
  noticed : ∀ k, t.job k = s.job k ∨ t.Noticed (.job k)

namespace JobsNoticed

variable {s t u : State}

theorem refl (s : State) : JobsNoticed s s := ⟨Settles.refl s, fun _ => Or.inl rfl⟩

theorem trans (h : JobsNoticed s t) (k : JobsNoticed t u) : JobsNoticed s u := by
  refine ⟨h.settles.trans k.settles, fun i => ?_⟩
  rcases k.noticed i with h1 | h1
  · rcases h.noticed i with h2 | h2
    · exact Or.inl (h1.trans h2)
    · exact Or.inr (h2.mono (by rw [k.settles.tables]) k.settles.joins)
  · exact Or.inr h1

theorem ofJobs (hs : Settles s t) (h : t.jobs = s.jobs) : JobsNoticed s t :=
  ⟨hs, fun k => Or.inl (by unfold State.job; rw [h])⟩

/-- A slot is written and joins. -/
theorem ofJoin (hs : Settles s t) (slot : Nat) (j : Option Job) (h : t.jobs = s.jobs.put slot j) (hn : t.Noticed (.job slot)) :
    JobsNoticed s t := by
  refine ⟨hs, fun k => ?_⟩
  by_cases hk : slot = k
  · exact Or.inr (hk ▸ hn)
  · refine Or.inl ?_
    unfold State.job
    rw [h, Table.getD_put]
    simp [hk]

theorem rederiveSlot (k : Nat) (s : State) : JobsNoticed s (s.rederiveSlot k) := by
  cases hj : s.job k with
  | none => exact ofJobs (Settles.rederiveSlot k s) (by unfold State.rederiveSlot; rw [hj])
  | some j =>
    by_cases he : s.rederived j = j
    · exact ofJobs (Settles.rederiveSlot k s) (by unfold State.rederiveSlot; rw [hj]; simp [he])
    · have eq : s.rederiveSlot k = (s.setJob k (some (s.rederived j))).joinNotice (.job k) := by
        unfold State.rederiveSlot; rw [hj]; simp [he]
      exact ofJoin (Settles.rederiveSlot k s) k _ (by rw [eq]; exact (slot_written _ _ _).2.2) (eq ▸ State.joinNotice_noticed _ _)

theorem rederiveJobs (s : State) : JobsNoticed s s.rederiveJobs := by
  unfold State.rederiveJobs
  induction jobSlotNumbers generalizing s with
  | nil => exact refl s
  | cons k l ih => exact (rederiveSlot k s).trans (ih _)

theorem escalate (slot i : Nat) (s : State) : JobsNoticed s (s.escalate slot i) := by
  unfold State.escalate
  split
  · exact refl s
  · rename_i j hj
    dsimp only
    have put : ∀ l, JobsNoticed s ((s.setJob slot (some { j with entries := l })).joinNotice (.job slot)) := fun l =>
      ofJoin ((Settles.setJob s slot j _ hj (by rfl) (by rfl)).trans (Settles.joinNotice _ _)) slot _
        (slot_written _ _ _).2.2 (State.joinNotice_noticed _ _)
    split
    · exact refl s
    · split
      · exact put _
      · split
        · exact put _
        · exact (put _).trans (ofJobs (Settles.raiseHold _ _) (Stir.raiseHold _ _).jobs)

theorem escalateLoop (n : Nat) (s : State) : JobsNoticed s (escalateLoop n s) := by
  induction n generalizing s with
  | zero => exact refl s
  | succ n ih =>
    unfold Machine.escalateLoop
    split
    · exact refl s
    · exact ((escalate _ _ _).trans (rederiveJobs _)).trans (ih _)

/-- R124: at the end of an event every job whose state, statuses or entries have changed joins the notice pending set. -/
theorem finish (s : State) : JobsNoticed s s.finish := by
  have h : JobsNoticed s s.followJobs := (rederiveJobs s).trans (escalateLoop _ _)
  have hk : ∀ t : State, t.keepActive.jobs = t.jobs := fun t => by
    unfold State.keepActive; dsimp only; split <;> rfl
  exact (h.trans (ofJobs (Settles.keepActive _) (hk _))).trans (ofJobs (Settles.settle _) (settle_owners _).2)

end JobsNoticed

end Sys2Proof.Machine
end

