-- ==== Sys2Proof/Laws/Cards.lean ====
section
/-! SUPPORT. What a card table change leaves of the chain record and the scheduler (R35, R39, R161). -/

namespace Sys2Proof.Machine

/-- What a card table change sets in the chain record. -/
def Chain.recarded (c : Chain) (st : ChainState) : Chain :=
  { c with
    st := st, streak := if c.st = st then c.streak else 0, adopted := false, rejects := 0, echoNext := false
    inFlight := c.inFlight.map fun f => { f with unchecked := true } }

/-- From `s` to `t` chain record, tables and jobs stand, and of the scheduler the entries that `p` does not name. -/
structure Recards (p : MoveEntry → Bool) (s t : State) : Prop where
  chain : t.chain = s.chain
  tables : t.tables = s.tables
  jobs : t.jobs = s.jobs
  sched : { t.sched with lookDue := s.sched.lookDue } = { s.sched with queue := s.sched.queue.filter fun e => !p e }

namespace Recards

variable {s t u : State} {p q : MoveEntry → Bool}

theorem ofSame (hc : t.chain = s.chain) (ht : t.tables = s.tables) (hj : t.jobs = s.jobs) (hs : t.sched = s.sched) :
    Recards (fun _ => false) s t := ⟨hc, ht, hj, by simp [hs]⟩

theorem refl (s : State) : Recards (fun _ => false) s s := ofSame rfl rfl rfl rfl

theorem trans (h : Recards p s t) (k : Recards q t u) : Recards (fun e => p e || q e) s u where
  chain := k.chain.trans h.chain
  tables := k.tables.trans h.tables
  jobs := k.jobs.trans h.jobs
  sched := by
    have hq : t.sched.queue = s.sched.queue.filter fun e => !p e := (congrArg Sched.queue h.sched :)
    have h1 := congrArg (fun c : Sched => { c with queue := t.sched.queue.filter fun e => !q e }) h.sched
    have h2 := congrArg (fun c : Sched => { c with lookDue := s.sched.lookDue }) k.sched
    refine h2.trans (h1.trans ?_)
    simp only [hq, List.filter_filter, Bool.not_or, Bool.and_comm]

theorem congr (h : Recards p s t) (hq : ∀ e, p e = q e) : Recards q s t := (funext hq : p = q) ▸ h

theorem joinNotice (s : State) (o : Obj) : Recards (fun _ => false) s (s.joinNotice o) :=
  ofSame (by simp) (by simp) (by simp) (by simp)

theorem withdraw (s : State) (p : MoveEntry → Bool) : Recards p s (s.withdraw p) := by
  unfold State.withdraw
  dsimp only
  split <;> exact ⟨rfl, rfl, rfl, rfl⟩

theorem recardValve (before : TableStore) (v : Nat) (s : State) :
    Recards (fun e => (s.tables.valve v).present && e.valve == v) s (s.recardValve before v) := by
  have cleared : Recards (fun e => (s.tables.valve v).present && e.valve == v) s
      (if (s.tables.valve v).present then (s.setValve v (ValveRec.fresh .unknown)).withdraw fun e => e.valve == v else s) := by
    split
    · rename_i h
      have h1 : Recards (fun _ => false) s (s.setValve v (ValveRec.fresh .unknown)) := ofSame (by simp) (by simp) (by simp) (by simp)
      exact (h1.trans (withdraw _ _)).congr fun e => by simp [h]
    · rename_i h
      exact (refl s).congr fun e => by simp [h]
  unfold State.recardValve
  dsimp only
  split
  · exact cleared
  · exact (cleared.trans (joinNotice _ _)).congr fun e => by simp

theorem recardValves (before : TableStore) (l : List Nat) (s : State) :
    Recards (fun e => (s.tables.valve e.valve).present && l.contains e.valve) s
      (l.foldl (fun t v => t.recardValve before v) s) := by
  induction l generalizing s with
  | nil => exact (refl s).congr fun e => by simp
  | cons v l ih =>
    have h := recardValve before v s
    refine (h.trans (ih _)).congr fun e => ?_
    rw [h.tables]
    by_cases he : e.valve = v
    · rw [he]; cases (s.tables.valve v).present <;> simp
    · simp [he]

theorem recardOwners (l : List Owner) (s : State) : Recards (fun _ => false) s (l.foldl (fun t o => t.recardOwner o) s) := by
  induction l generalizing s with
  | nil => exact refl s
  | cons o l ih =>
    have h : Recards (fun _ => false) s (s.recardOwner o) := by
      unfold State.recardOwner
      rw [State.setOwner_eq]
      exact ofSame rfl rfl rfl rfl
    exact (h.trans (ih _)).congr fun e => rfl

end Recards

theorem valve_beyond (t : TableStore) {v : Nat} (h : 106 ≤ v) : t.valve v = ValveDef.absent := by
  unfold TableStore.valve Table.getD
  rw [List.getD_eq_getElem?_getD, List.getElem?_eq_none (by simpa using h)]
  rfl

/-- R35, R39, R161: the chain record and the scheduler after a card table change with no job in the table. -/
theorem changeCards_spec (cards : List Nat) (s : State) (hj : s.NoJobs) :
    (s.changeCards cards).chain = s.chain.recarded (s.chain.st.afterCards cards.length)
    ∧ (s.changeCards cards).sched
      = { s.sched with queue := s.sched.queue.filter (fun e => !(s.tables.valve e.valve).present), lookDue := false } := by
  let s1 := s.withTables { s.tables with cards := cards }
  have h1 : s1.recardChain.chain = s.chain.recarded (s.chain.st.afterCards cards.length) ∧ s1.recardChain.tables = s1.tables
      ∧ s1.recardChain.jobs = s.jobs ∧ s1.recardChain.sched = s.sched := by
    unfold State.recardChain State.setChainState
    dsimp only
    rw [State.joinNotice_eq]
    exact ⟨rfl, rfl, rfl, rfl⟩
  have h2 : Recards (fun _ => false) s1.recardChain (s1.recardChain.recardImage.joinInputsIfStale s) := by
    have hi : Recards (fun _ => false) s1.recardChain s1.recardChain.recardImage := .ofSame rfl rfl rfl rfl
    unfold State.joinInputsIfStale
    split
    · exact (hi.trans (Recards.joinNotice _ _)).congr fun _ => rfl
    · exact hi
  have h3 := h2.trans ((Recards.recardValves s.tables valveNumbers _).trans (Recards.recardOwners allOwners _))
  rw [h2.tables, h1.2.1] at h3
  unfold State.changeCards
  dsimp only
  change Recards _ _ (allOwners.foldl _ (valveNumbers.foldl _ ((s1.recardChain.recardImage).joinInputsIfStale s))) at h3
  change State.chain (State.finish (allOwners.foldl _ (valveNumbers.foldl _ ((s1.recardChain.recardImage).joinInputsIfStale s)))) = _
    ∧ State.sched (State.finish (allOwners.foldl _ (valveNumbers.foldl _ ((s1.recardChain.recardImage).joinInputsIfStale s)))) = _
  generalize allOwners.foldl _ (valveNumbers.foldl _ ((s1.recardChain.recardImage).joinInputsIfStale s)) = x at h3 ⊢
  have hc : x.chain = s.chain.recarded (s.chain.st.afterCards cards.length) := h3.chain.trans h1.1
  have hn : x.chain.st ≠ .running := by
    rw [hc]
    unfold Chain.recarded ChainState.afterCards
    dsimp only
    split
    · simp
    · split <;> simp
  refine ⟨(Settles.finish x).chain.trans hc, ?_⟩
  rw [finish_sched (fun k => by unfold State.job; rw [h3.jobs, h1.2.2.1]; exact hj k) hn]
  have hs := congrArg (fun c : Sched => { c with lookDue := false }) h3.sched
  refine hs.trans ?_
  rw [h1.2.2.2]
  have hf : ∀ e : MoveEntry, (!(false || ((s1.tables.valve e.valve).present && valveNumbers.contains e.valve || false)))
      = !(s.tables.valve e.valve).present := by
    intro e
    have ht : s1.tables.valve e.valve = s.tables.valve e.valve := rfl
    rw [ht]
    by_cases he : e.valve < 106
    · simp [valveNumbers, he]
    · rw [valve_beyond _ (by omega)]; simp [ValveDef.absent]
  simp only [hf]

end Sys2Proof.Machine
end

