-- ==== Sys2Proof/Laws/Events.lean ====
section
/-! SUPPORT. What the shared operations of the chapters can do, said once: how a request is dispatched and checked, and that
valves, jobs, zones and flow change by ripples. -/

namespace Sys2Proof.Machine

/-! ## Requests (R177, R180) -/

/-- A ready part answers a request at once. -/
theorem request_ready {s : State} (h : s.Ready) (c : Instr) (f : State → State) : s.request c f = f s := by
  simp [State.request, State.whenRunning, h.1, h.2]

/-- A part that runs and may not dispatch keeps the request (R176). -/
theorem request_waits {s : State} (hr : s.power.running = true) (hd : s.canDispatch = false) (c : Instr)
    (f : State → State) : s.request c f = s.enqueue (.request c) := by
  simp [State.request, State.whenRunning, hr, hd]

theorem whenRunning_of {s : State} (hr : s.power.running = true) (f : State → State) : s.whenRunning f = f s := by
  simp [State.whenRunning, hr]

/-- A check that fails gives the refusal; one that holds is passed. -/
theorem checked_cons (s : State) (k : Nat) (tag : Byte) (b : Bool) (st : Status) (l : List (Bool × Status))
    (f : State → State) :
    s.checked k tag ((b, st) :: l) f = if b then s.reply k tag st [] else s.checked k tag l f := by
  unfold State.checked
  cases b <;> rfl

/-- A request that passes every check is taken. -/
@[simp] theorem checked_nil (s : State) (k : Nat) (tag : Byte) (f : State → State) : s.checked k tag [] f = f s := rfl

theorem checked_taken (s : State) (k : Nat) (tag : Byte) (l : List (Bool × Status)) (f : State → State)
    (h : ∀ c ∈ l, c.1 = false) : s.checked k tag l f = f s := by
  unfold State.checked
  rw [List.find?_eq_none.2 fun c hc => by simp [h c hc]]

/-- What checking a request can do: a refusal, or what taking it does. -/
theorem checked_cases (s : State) (k : Nat) (tag : Byte) (l : List (Bool × Status)) (f : State → State) :
    (∃ st, s.checked k tag l f = s.reply k tag st []) ∨ ((∀ c ∈ l, c.1 = false) ∧ s.checked k tag l f = f s) := by
  by_cases h : ∀ c ∈ l, c.1 = false
  · exact Or.inr ⟨h, checked_taken s k tag l f h⟩
  · left
    unfold State.checked
    cases hf : l.find? (·.1) with
    | none =>
      refine absurd (fun c hc => ?_) h
      have := List.find?_eq_none.1 hf c hc
      simpa using this
    | some c => exact ⟨c.2, rfl⟩

/-! ## Frames (R29, R35) -/

/-- What a select does. -/
theorem selectFrame_sent (p : Purpose) (payload : List Bool) (s : State) :
    Sent s (s.selectFrame p payload) s.clock p payload where
  chain := rfl
  streak _ _ _ := rfl
  session _ := rfl
  due := by unfold State.selectFrame; cases p <;> cases s.scanDue <;> rfl
  rest := rfl

/-- The end of an accepted frame is what `acceptedEnd` says, and the frame's user goes on from there. -/
theorem atFrameEnd_accepted {s : State} {p : Purpose} {f : Frame} {cdi : List Bool} (h : s.Returns p f cdi true)
    {allows : Purpose → Bool} (ha : allows p = true) (k : Frame → List Bool → State → State) :
    ∃ t, s.atFrameEnd allows true cdi k = k f (f.returned cdi) t ∧ t = s.acceptedEnd f t := by
  obtain ⟨⟨hr, hf, rfl, hu⟩, hc⟩ := h
  refine ⟨((s.endFrame f).ringAccepted f.purpose.kind f.payload (f.returned cdi)).countAccept, ?_, rfl⟩
  unfold State.atFrameEnd
  rw [whenRunning_of hr, hf]
  simp [hu, ha, hc]

/-- The end of a rejected frame is what `rejectedEnd` says. -/
theorem atFrameEnd_rejected {s : State} {p : Purpose} {f : Frame} {cdi : List Bool} (h : s.Returns p f cdi false)
    {allows : Purpose → Bool} (ha : allows p = true) (k : Frame → List Bool → State → State) :
    ∃ t, s.atFrameEnd allows false cdi k = k f (f.returned cdi) t ∧ t = s.rejectedEnd f t := by
  obtain ⟨⟨hr, hf, rfl, hu⟩, hc⟩ := h
  refine ⟨((s.endFrame f).ringDisturbed f.purpose.kind).countReject, ?_, rfl⟩
  unfold State.atFrameEnd
  rw [whenRunning_of hr, hf]
  simp [hu, ha, hc]

/-! ## Ripples -/

namespace Ripple

/-! ### Valves -/

theorem valveReport (v : Nat) (s : State) : Ripple s (s.valveReport v) := ofStir (Stir.valveReport v s)

theorem arrive (v : Nat) (s : State) : Ripple s (s.arrive v) := by
  unfold State.arrive
  dsimp only
  split
  · exact (setValve _ _ _).trans (valveReport _ _)
  · exact refl s

theorem faultValve (v : Nat) (c : FaultCause) (s : State) : Ripple s (s.faultValve v c) :=
  ((setValve _ _ _).trans (withdraw _ _)).trans (ofStir (Stir.faultReport _ _))

theorem checkNoValves (o : Owner) (s : State) : Ripple s (s.checkNoValves o) := ofStir (Stir.checkNoValves o s)

theorem derive (o : Owner) (s : State) : Ripple s (s.derive o) := ofStir (Stir.derive o s)

theorem evaluate (o : Owner) (s : State) : Ripple s (s.evaluate o) := ofStir (Walks.evaluate o s).toStir

theorem deriveValve (v : Nat) (s : State) : Ripple s (s.deriveValve v) := by
  unfold State.deriveValve
  dsimp only
  split
  · exact setValve _ _ _
  · exact (setValve _ _ _).trans (faultValve _ _ _)
  · exact (setValve _ _ _).trans (valveReport _ _)

theorem markSent (v : Nat) (s : State) : Ripple s (s.markSent v) := ite (setValve _ _ _) (refl s)

theorem checkMismatch (v : Nat) (p : Pos) (x : Reading) (s : State) : Ripple s (s.checkMismatch v p x) :=
  ite (ite (setValve _ _ _) (faultValve _ _ _)) (setValve _ _ _)

theorem checkReading (v : Nat) (x : Reading) (b : Bool) (s : State) : Ripple s (s.checkReading v x b) := by
  unfold State.checkReading
  dsimp only
  refine (setValve s v { s.valve v with latest := some x }).trans ?_
  generalize s.setValve v { s.valve v with latest := some x } = t
  repeat' first
    | exact refl t
    | exact faultValve _ _ _
    | exact checkMismatch _ _ _ _
    | exact deriveValve _ _
    | exact arrive _ _
    | split

theorem checkValve (v : Nat) (s : State) : Ripple s (s.checkValve v) := by
  unfold State.checkValve
  dsimp only
  split
  · refine (markSent v s).trans ?_
    split
    · exact checkReading _ _ _ _
    · refine (ite (c := s.tables.switchless v = true) (refl _) (setValve _ v { (s.markSent v).valve v with mismatch := 0 })).trans ?_
      exact ite (deriveValve _ _) (refl _)
  · exact refl s

theorem finish (s : State) : Ripple s s.finish := (Settles.finish s).toRipple

theorem checkValves (s : State) : Ripple s s.checkValves :=
  foldl (fun s v => ite ((checkValve v s).trans (finish _)) (refl s)) _ _

/-! ### Jobs -/

theorem raiseHold (o : Owner) (s : State) : Ripple s (s.raiseHold o) := ofStir (Stir.raiseHold o s)

theorem lowerHold (o : Owner) (s : State) : Ripple s (s.lowerHold o) := ofStir (Stir.lowerHold o s)

theorem createJob (slot z : Nat) (s : State) : Ripple s (s.createJob slot z) :=
  ((setJob _ _ _).trans (joinNotice _ _)).trans (foldl (fun s o => raiseHold o s) _ _)

theorem handOff (z : Nat) (s : State) : Ripple s (s.handOff z) := by
  unfold State.handOff
  split
  · exact refl s
  · split
    · exact createJob _ _ _
    · exact ite (refl s) ⟨rfl, id, id, List.prefix_rfl, id⟩

theorem handDry (z : Nat) (s : State) : Ripple s (s.handDry z) := ⟨rfl, id, id, List.prefix_rfl, id⟩

theorem offerSlot (slot : Nat) (s : State) : Ripple s (s.offerSlot slot) := by
  unfold State.offerSlot
  split
  · exact refl s
  · rename_i z rest _
    have waits : Ripple s { s with waitList := rest } := ⟨rfl, id, id, List.prefix_rfl, id⟩
    exact (waits.trans (createJob slot z _)).trans (Settles.followJobs _).toRipple

theorem dropHolds (l : List JobEntry) (s : State) : Ripple s (s.dropHolds l) :=
  foldl (fun s (e : JobEntry) => lowerHold e.target s) l s

theorem releaseSlot (slot : Nat) (j : Job) (s : State) : Ripple s (s.releaseSlot slot j).2 := by
  have h : Ripple s (((s.setJob slot none).offerSlot slot).dropHolds j.entries) :=
    ((setJob s slot none).trans (offerSlot _ _)).trans (dropHolds _ _)
  exact (ite (h.trans (wantLook _)) h).trans (joinNotice _ _)

/-! ### Zones -/

theorem enterWet (z : Nat) (c : WetCause) (s : State) : Ripple s (s.enterWet z c) :=
  ((setZone _ _ _).trans (joinNotice _ _)).trans (ite (handOff _ _) (refl _))

theorem enterDry (z : Nat) (s : State) : Ripple s (s.enterDry z) :=
  ((setZone _ _ _).trans (joinNotice _ _)).trans (handDry _ _)

theorem recountZone (z : Nat) (r : ZoneRec) (s : State) : Ripple s (s.recountZone z r) :=
  ite (setZone _ _ _) ((setZone _ _ _).trans (joinNotice _ _))

theorem wetSample (z : Nat) (c : WetCause) (s : State) : Ripple s (s.wetSample z c) := by
  unfold State.wetSample
  dsimp only
  split
  · exact ite (enterWet _ _ _) ((setZone _ _ _).trans (joinNotice _ _))
  · exact ite (enterWet _ _ _) (setZone _ _ _)
  · exact recountZone _ _ _
  · exact recountZone _ _ _
  · exact refl s
  · exact refl s

theorem drySample (z : Nat) (s : State) : Ripple s (s.drySample z) := by
  unfold State.drySample
  dsimp only
  split
  · exact enterDry _ _
  · exact setZone _ _ _
  · exact ite (enterDry _ _) (setZone _ _ _)
  all_goals exact refl s

theorem takeSample (z : Nat) (x : Option WetCause) (s : State) : Ripple s (s.takeSample z x) := by
  cases x
  · exact drySample z s
  · exact wetSample z _ s

theorem zoneChainLoss (z : Nat) (s : State) : Ripple s (s.zoneChainLoss z) := by
  unfold State.zoneChainLoss
  dsimp only
  split
  · split
    · exact enterWet _ _ _
    · exact enterWet _ _ _
    · exact recountZone _ _ _
    · exact recountZone _ _ _
    all_goals exact refl s
  · exact refl s

theorem sampleDrip (z : Nat) (s : State) : Ripple s (s.sampleDrip z) := by
  unfold State.sampleDrip
  split
  · split
    · exact (takeSample _ _ _).trans (finish _)
    · exact refl s
  · exact refl s

theorem sampleZones (s : State) : Ripple s s.sampleZones := foldl (fun s z => sampleDrip z s) _ _

theorem sampleBalance (z : Nat) (s : State) : Ripple s (s.sampleBalance z) := by
  unfold State.sampleBalance
  split
  · split
    · exact (takeSample _ _ _).trans (finish _)
    · exact refl s
  · exact refl s

/-- A flow tick changes the flow unit, and then what its samples change. -/
theorem flowTick (s : State) : Ripple { s with flow := s.flowTick.flow } s.flowTick := by
  unfold State.flowTick
  split
  · have h : Ripple s.tickMeters (zoneNumbers.foldl (fun s z => s.sampleBalance z) s.tickMeters) :=
      foldl (fun s z => sampleBalance z s) _ _
    rw [h.flow]; exact h
  · exact refl s

/-- What the users of an accepted scan change, the flow unit apart (R79). -/
theorem deliver (o : ScanOrder) (s : State) : Ripple { s with flow := (s.deliver o).flow } (s.deliver o) := by
  have withFlow : ∀ {a b : State} (f : Flow), Ripple a b → Ripple { a with flow := f } { b with flow := f } := by
    intro a b f h
    exact ⟨congrArg (fun x : State => { x with flow := f }) h.spared, h.due, h.once, h.joins, h.window⟩
  have valves : ∀ a b : State, Ripple { s with flow := a.flow } a → Ripple a b → Ripple { s with flow := b.flow } b := by
    intro a b ha hb
    rw [hb.flow]; exact ha.trans hb
  have flow : ∀ a : State, Ripple { s with flow := a.flow } a → Ripple { s with flow := a.flowTick.flow } a.flowTick := by
    intro a ha
    exact (withFlow a.flowTick.flow ha).trans (flowTick a)
  have start : Ripple { s with flow := s.flow } s := refl s
  cases o
  · exact flow _ (valves _ _ (valves _ _ start (checkValves _)) (sampleZones _))
  · exact valves _ _ (flow _ (valves _ _ start (checkValves _))) (sampleZones _)
  · exact flow _ (valves _ _ (valves _ _ start (sampleZones _)) (checkValves _))
  · exact valves _ _ (flow _ (valves _ _ start (sampleZones _))) (checkValves _)
  · exact valves _ _ (valves _ _ (flow _ start) (checkValves _)) (sampleZones _)
  · exact valves _ _ (valves _ _ (flow _ start) (sampleZones _)) (checkValves _)

/-! ### The image and the ends of an adoption -/

theorem joinInputsIfStale (s b : State) : Ripple s (s.joinInputsIfStale b) := ite (joinNotice _ _) (refl s)

theorem joinInputsIfChanged (s b : State) : Ripple s (s.joinInputsIfChanged b) := ite (refl s) (joinNotice _ _)

theorem adoptValves (s : State) : Ripple s s.adoptValves :=
  foldl (fun s v => ite (setValve s v (s.derivedValve v)) (refl s)) _ _

theorem adoptOwner (o : Owner) (s : State) : Ripple s (s.adoptOwner o) := by
  unfold State.adoptOwner
  exact ite (refl s) (ite (checkNoValves _ _) (ite (derive _ _) (refl s)))

theorem adoptOwners (s : State) : Ripple s s.adoptOwners := foldl (fun s o => adoptOwner o s) _ _

theorem valveToUnknown (v : Nat) (s : State) : Ripple s (s.valveToUnknown v) := setValve _ _ _

end Ripple

end Sys2Proof.Machine
end

