-- ==== Sys2Proof/Laws/Release.lean ====
section
/-! SUPPORT. What the release of a job does to an owner that stays held (R138): it goes on with its isolate sequence as if its hold
count had not moved. -/

namespace Sys2Proof.Machine

/-! ## Owners and their valves are apart -/

theorem owner_bounds {o : Owner} (h : WellFormed.owner o = true) :
    (∀ b, o = .branch b → b < 48) ∧ (∀ g, o = .segment g → g < 4) := by
  constructor <;> rintro n rfl <;> exact of_decide_eq_true h

theorem owner_index_lt {o : Owner} (h : WellFormed.owner o = true) : o.index < 53 := by
  obtain ⟨hb, hg⟩ := owner_bounds h
  cases o with
  | branch b => have := hb b rfl; simp only [Owner.index]; omega
  | segment g => have := hg g rfl; simp only [Owner.index]; omega
  | main => decide

/-- Two owners of section 1.4 have different places and no valve in common. -/
theorem owners_apart {o n : Owner} (ho : WellFormed.owner o = true) (hn : WellFormed.owner n = true) (h : n ≠ o) :
    n.index ≠ o.index ∧ ∀ v, v = n.supplyValve ∨ v = n.returnValve → v ≠ o.supplyValve ∧ v ≠ o.returnValve := by
  obtain ⟨hob, hos⟩ := owner_bounds ho
  obtain ⟨hnb, hns⟩ := owner_bounds hn
  have parts : n.index ≠ o.index ∧ (n.supplyValve ≠ o.supplyValve ∧ n.supplyValve ≠ o.returnValve)
      ∧ (n.returnValve ≠ o.supplyValve ∧ n.returnValve ≠ o.returnValve) := by
    cases o <;> cases n <;>
      simp only [ne_eq, Owner.branch.injEq, Owner.segment.injEq, forall_eq', reduceCtorEq, false_implies, implies_true,
        not_false_eq_true, not_true_eq_false, Owner.index, Owner.supplyValve, Owner.returnValve] at * <;> omega
  exact ⟨parts.1, by rintro v (rfl | rfl); exacts [parts.2.1, parts.2.2]⟩

theorem wideOwner_wellFormed {o : Owner} (h : o ∈ wideOwners) : WellFormed.owner o = true := by
  simp [wideOwners, List.range_succ] at h
  rcases h with rfl | rfl | rfl | rfl | rfl <;> rfl

theorem branchOwner_wellFormed {o : Owner} (h : o ∈ branchOwners) : WellFormed.owner o = true := by
  simp only [branchOwners, List.mem_map, List.mem_range] at h
  obtain ⟨b, hb, rfl⟩ := h
  exact decide_eq_true hb

/-! ## Owners that keep their course -/

theorem CourseKept.refl (s : State) (o : Owner) : s.CourseKept s o := ⟨rfl, fun _ => rfl, fun _ h _ => h⟩

theorem CourseKept.trans {s t u : State} {o : Owner} (h : s.CourseKept t o) (k : t.CourseKept u o) : s.CourseKept u o where
  course := by rw [k.course, h.course]
  entries c := (k.entries c).trans (h.entries c)
  fresh e he hi := h.fresh e (k.fresh e he hi) hi

/-- The course is kept, and no hold comes off. -/
structure Stays (o : Owner) (s t : State) : Prop where
  kept : s.CourseKept t o
  holds : (s.owner o).holds ≤ (t.owner o).holds

namespace Stays

variable {o n : Owner} {s t u : State}

theorem refl (s : State) : Stays o s s := ⟨CourseKept.refl s o, le_refl _⟩

theorem trans (h : Stays o s t) (k : Stays o t u) : Stays o s u := ⟨CourseKept.trans h.kept k.kept, h.holds.trans k.holds⟩

theorem ite {c : Prop} [Decidable c] {a b : State} (h : Stays o s a) (k : Stays o s b) : Stays o s (if c then a else b) := by
  split <;> assumption

theorem isolates (h : Stays o s t) (hi : s.Isolates o) : t.Isolates o :=
  ⟨hi.1.trans_le h.holds, by rw [h.kept.course]; exact hi.2⟩

/-- Operations that keep the course of an owner on its isolate course do so one after the other. -/
theorem foldl {α : Type} {f : State → α → State} {l : List α}
    (hf : ∀ s a, a ∈ l → s.Isolates o → Stays o s (f s a)) (s : State) (hi : s.Isolates o) : Stays o s (l.foldl f s) := by
  induction l generalizing s with
  | nil => exact refl s
  | cons a l ih =>
    have h := hf s a (List.mem_cons_self ..) hi
    exact h.trans (ih (fun s b hb => hf s b (List.mem_cons_of_mem _ hb)) _ (h.isolates hi))

/-- Neither the owners nor the move queue change. -/
theorem ofSame (ho : t.owners = s.owners) (hq : t.sched.queue = s.sched.queue) : Stays o s t := by
  have : t.owner o = s.owner o := by rw [State.owner_eq, State.owner_eq, ho]
  exact ⟨⟨by rw [this], fun _ => by rw [hq], fun e he _ => hq ▸ he⟩, by rw [this]⟩

theorem joinNotice (s : State) (b : Obj) : Stays o s (s.joinNotice b) :=
  ofSame (by rw [State.joinNotice_eq]) (by rw [State.joinNotice_eq])

theorem setOwner (s : State) (r : OwnerRec) (h : n.index ≠ o.index) : Stays o s (s.setOwner n r) := by
  have hw : (s.setOwner n r).owner o = s.owner o := by rw [State.owner_setOwner]; simp [h]
  exact ⟨⟨by rw [hw], fun _ => by rw [State.setOwner_eq], fun e he _ => by rw [State.setOwner_eq] at he; exact he⟩, by rw [hw]⟩

/-- Entries of another owner, or of none, are withdrawn. -/
theorem withdraw (s : State) (p : MoveEntry → Bool) (h : ∀ e, e.isOf o = true → p e = false) : Stays o s (s.withdraw p) := by
  have hw : (s.withdraw p).owner o = s.owner o := by rw [State.owner_eq, State.owner_eq, State.withdraw_eq]
  refine ⟨⟨by rw [hw], fun c => ?_, fun e he _ => ?_⟩, by rw [hw]⟩
  · rw [State.withdraw_eq]
    dsimp only
    rw [List.filter_filter]
    refine List.filter_congr fun e _ => ?_
    unfold MoveEntry.ownOf
    cases hi : e.isOf o
    · rfl
    · simp [h e hi]
  · rw [State.withdraw_eq] at he
    exact List.mem_of_mem_filter he

/-- An entry of another owner joins for one of that owner's valves. -/
theorem joinMove (s : State) (e : MoveEntry) (hi : e.isOf o = false) (hv : e.valve ≠ o.supplyValve ∧ e.valve ≠ o.returnValve) :
    Stays o s (s.joinMove e) := by
  have he : ∀ c, e.ownOf o c = false := fun c => by simp [MoveEntry.ownOf, hi]
  have rest : ∀ c, (s.sched.queue.filter fun x => x.valve != e.valve).filter (MoveEntry.ownOf o c) =
      s.sched.queue.filter (MoveEntry.ownOf o c) := by
    intro c
    rw [List.filter_filter]
    refine List.filter_congr fun x _ => ?_
    cases hx : x.ownOf o c
    · rfl
    · simp only [MoveEntry.ownOf, Bool.and_eq_true, Bool.or_eq_true, beq_iff_eq] at hx
      rcases hx.1.2 with h | h <;> simp [h, Ne.symm hv.1, Ne.symm hv.2]
  have hc : ∀ (c : Bool) (l : List MoveEntry), (l.filter (·.urgent)).filter (MoveEntry.ownOf o c)
      ++ (l.filter fun x => !x.urgent).filter (MoveEntry.ownOf o c) = l.filter (MoveEntry.ownOf o c) := by
    intro c l
    rw [List.filter_filter, List.filter_filter]
    have other : ∀ x : MoveEntry, x.urgent ≠ c → x.ownOf o c = false := fun x hx => by simp [MoveEntry.ownOf, hx]
    have none : ∀ p : MoveEntry → Bool, (∀ x, p x = false) → l.filter p = [] := fun p hp => by simp [hp]
    have all : ∀ p q : MoveEntry → Bool, (∀ x, p x = q x) → l.filter p = l.filter q := fun p q hpq => by rw [funext hpq]
    cases c
    · rw [none (fun x => x.ownOf o false && x.urgent) fun x => by cases hx : x.urgent <;> simp [other x, hx], List.nil_append]
      exact all _ _ fun x => by cases hx : x.urgent <;> simp [other x, hx]
    · rw [none (fun x => x.ownOf o true && !x.urgent) fun x => by cases hx : x.urgent <;> simp [other x, hx], List.append_nil]
      exact all _ _ fun x => by cases hx : x.urgent <;> simp [other x, hx]
  refine ⟨⟨rfl, fun c => ?_, fun x hx hxi => ?_⟩, le_refl _⟩
  · show List.filter _ (if _ then _ else _) = _
    split
    · rw [List.filter_append, List.filter_append, List.filter_singleton, he c, ← rest c,
        ← hc c (s.sched.queue.filter fun x => x.valve != e.valve)]
      simp
    · rw [List.filter_append, List.filter_singleton, he c, rest c]
      simp
  · have hne : x ≠ e := fun h => by rw [h, hi] at hxi; cases hxi
    have : x ∈ (if e.urgent then (s.sched.queue.filter fun x => x.valve != e.valve).filter (·.urgent) ++ [e]
        ++ (s.sched.queue.filter fun x => x.valve != e.valve).filter (fun x => !x.urgent)
      else (s.sched.queue.filter fun x => x.valve != e.valve) ++ [e]) := hx
    split at this
    · simp only [List.mem_append, List.mem_filter, List.mem_singleton, hne, or_false] at this
      rcases this with h | h <;> exact h.1.1
    · simp only [List.mem_append, List.mem_filter, List.mem_singleton, hne, or_false] at this
      exact this.1

/-! ### Another owner's operations -/

theorem withdrawOwn (h : n ≠ o) (s : State) : Stays o s (s.withdraw (MoveEntry.isOf n)) := by
  refine withdraw s _ fun e he => ?_
  unfold MoveEntry.isOf at he ⊢
  cases hr : e.req with
  | maintenance => rfl
  | step x k =>
    rw [hr] at he
    have : x = o := by simpa using he
    subst this
    simpa using Ne.symm h

section Other

variable (ho : WellFormed.owner o = true) (hn : WellFormed.owner n = true) (h : n ≠ o)
include ho hn h

theorem course (s : State) (r : OwnerRec) : Stays o s (s.setOwner n r) := setOwner s r (owners_apart ho hn h).1

theorem failOwner (s : State) : Stays o s (s.failOwner n) := by
  unfold State.failOwner
  exact (withdrawOwn h s).trans (course ho hn h _ _)

theorem abandon (s : State) : Stays o s (s.abandon n) := by
  unfold State.abandon
  dsimp only
  refine trans ?_ (course ho hn h _ _)
  refine ite ((withdrawOwn h s).trans (withdraw _ _ fun e he => ?_)) (withdrawOwn h s)
  unfold MoveEntry.isOf at he
  unfold MoveEntry.isMaintenanceOf
  cases hr : e.req with
  | maintenance => rw [hr] at he; cases he
  | step x k => rfl

theorem takeStep (k : Nat) (first : Bool) (done : State → State) (hd : ∀ s, Stays o s (done s)) (hk : k = 1 ∨ k = 3) (s : State) :
    Stays o s (s.takeStep n k first done) := by
  have hv : (s.stepMove n k).1 = n.supplyValve ∨ (s.stepMove n k).1 = n.returnValve := by
    unfold State.stepMove
    rcases hk with rfl | rfl <;> cases (s.owner n).mode <;> simp
  unfold State.takeStep
  dsimp only
  split
  · exact (course ho hn h _ _).trans (hd _)
  · exact course ho hn h _ _
  · refine (course ho hn h _ _).trans (joinMove _ _ ?_ ((owners_apart ho hn h).2 _ hv))
    simpa [MoveEntry.isOf] using h
  · exact course ho hn h _ _
  · exact failOwner ho hn h _

theorem takeStep3 (first : Bool) (s : State) : Stays o s (s.takeStep3 n first) :=
  takeStep ho hn h _ _ _ (fun s => course ho hn h s _) (Or.inr rfl) s

theorem beginTimer (s : State) : Stays o s (s.beginTimer n) := by
  unfold State.beginTimer
  exact ite (course ho hn h _ _) ((course ho hn h _ _).trans (takeStep3 ho hn h _ _))

theorem beginSequence (m : OwnerMode) (s : State) : Stays o s (s.beginSequence n m) :=
  (course ho hn h _ _).trans (takeStep ho hn h _ _ _ (beginTimer ho hn h) (Or.inl rfl) _)

theorem beginOutcome (out : Outcome) (s : State) : Stays o s (s.beginOutcome n out) := by
  cases out
  · exact beginSequence ho hn h _ _
  · exact beginSequence ho hn h _ _
  · exact course ho hn h _ _
  · exact beginSequence ho hn h _ _

end Other

/-! ### Evaluations and holds, of any owner -/

/-- An evaluation leaves an owner on its isolate course there, and does not touch it when it is another's. -/
theorem evaluateOne (ho : WellFormed.owner o = true) (hn : WellFormed.owner n = true) (s : State) (hi : s.Isolates o) :
    Stays o s (s.evaluateOne n) := by
  unfold State.evaluateOne
  dsimp only
  split
  · exact refl s
  · by_cases h : n = o
    · subst h
      have hf : (s.owner n).mode.follows (s.outcome n) = true := by
        unfold State.outcome
        rw [if_pos hi.1]
        rcases hi.2 with hm | hm <;> rw [hm] <;> rfl
      rw [if_pos hf]
      exact refl s
    · exact ite (refl s) ((abandon ho hn h s).trans (beginOutcome ho hn h _ _))

theorem readers_wellFormed {s : State} {x : Owner} (h : x ∈ s.readersOf n) : WellFormed.owner x = true := by
  cases n with
  | branch b => cases h
  | segment g =>
    unfold State.readersOf at h
    exact branchOwner_wellFormed (List.mem_of_mem_filter h)
  | main => exact branchOwner_wellFormed h

theorem evaluate (ho : WellFormed.owner o = true) (hn : WellFormed.owner n = true) (s : State) (hi : s.Isolates o) :
    Stays o s (s.evaluate n) := by
  have h := evaluateOne ho hn s hi
  unfold State.evaluate State.ownerOp
  exact ite h (h.trans (foldl (fun s _ ha hs => evaluateOne ho (readers_wellFormed ha) s hs) _ (h.isolates hi)))

theorem raiseHold (ho : WellFormed.owner o = true) (hn : WellFormed.owner n = true) (s : State) (hi : s.Isolates o) :
    Stays o s (s.raiseHold n) := by
  unfold State.raiseHold
  dsimp only
  by_cases h : n = o
  · subst h
    rw [if_neg (by have := hi.1; omega)]
    have hw : (s.setOwner n { s.owner n with holds := (s.owner n).holds + 1 }).owner n =
        if n.index < 53 then { s.owner n with holds := (s.owner n).holds + 1 } else s.owner n := by
      rw [State.owner_setOwner]; simp
    refine ⟨⟨?_, fun _ => by rw [State.setOwner_eq], fun e he _ => by rw [State.setOwner_eq] at he; exact he⟩, ?_⟩
    · rw [hw]; split <;> rfl
    · rw [hw]; split <;> simp
  · have hs := course ho hn h s { s.owner n with holds := (s.owner n).holds + 1 }
    exact ite (hs.trans (evaluate ho hn _ (hs.isolates hi))) hs

/-! ### A new job (R127) -/

theorem createJob (ho : WellFormed.owner o = true) (slot z : Nat) (s : State) (hp : ∀ n ∈ s.tables.plan z, WellFormed.owner n = true)
    (hi : s.Isolates o) : Stays o s (s.createJob slot z) := by
  unfold State.createJob
  dsimp only
  have hj : Stays o s ((s.setJob slot (some ⟨z, s.ms, (s.tables.plan z).map fun x => ⟨x, none, .absent, .waiting⟩, .active⟩)).joinNotice
      (.job slot)) := trans (t := s.setJob slot _) (ofSame rfl rfl) (joinNotice _ _)
  exact hj.trans (foldl (fun s n hn hs => raiseHold ho (hp n hn) s hs) _ (hj.isolates hi))

theorem rederiveJobs (s : State) : Stays o s s.rederiveJobs := by
  unfold State.rederiveJobs
  induction jobSlotNumbers generalizing s with
  | nil => exact refl s
  | cons k l ih =>
    refine trans (t := s.rederiveSlot k) ?_ (ih _)
    unfold State.rederiveSlot
    split
    · exact refl s
    · dsimp only
      split
      · exact refl s
      · exact trans (t := s.setJob k _) (ofSame rfl rfl) (joinNotice _ _)

theorem escalate (ho : WellFormed.owner o = true) (slot i : Nat) (s : State) (hs : ∀ b, (s.tables.branch b).segment ≤ 3)
    (hi : s.Isolates o) : Stays o s (s.escalate slot i) := by
  have put : ∀ j, Stays o s ((s.setJob slot j).joinNotice (.job slot)) := fun j =>
    trans (t := s.setJob slot j) (ofSame rfl rfl) (joinNotice _ _)
  unfold State.escalate
  split
  · exact refl s
  · dsimp only
    split
    · exact refl s
    · split
      · exact put _
      · rename_i x hx
        split
        · exact put _
        · exact (put _).trans (raiseHold ho (wideOwner_wellFormed (escalationTarget_wide hs hx)) _ ((put _).isolates hi))

theorem followJobs (ho : WellFormed.owner o = true) (s : State) (hs : ∀ b, (s.tables.branch b).segment ≤ 3) (hi : s.Isolates o) :
    Stays o s s.followJobs := by
  have loop : ∀ n (t : State), t.tables = s.tables → t.Isolates o → Stays o t (escalateLoop n t) := by
    intro n
    induction n with
    | zero => exact fun t _ _ => refl t
    | succ n ih =>
      intro t ht hi
      unfold escalateLoop
      split
      · exact refl t
      · rename_i d _
        have h := (escalate ho d.1 d.2 t (by rw [ht]; exact hs) hi).trans (rederiveJobs _)
        exact h.trans (ih _ (((Settles.escalate d.1 d.2 t).trans (Settles.rederiveJobs _)).tables.trans ht) (h.isolates hi))
  have h := rederiveJobs (o := o) s
  exact h.trans (loop 512 _ (Settles.rederiveJobs s).tables (h.isolates hi))

theorem offerSlot (ho : WellFormed.owner o = true) (slot : Nat) (s : State) (hs : ∀ b, (s.tables.branch b).segment ≤ 3)
    (hp : ∀ z, ∀ n ∈ s.tables.plan z, WellFormed.owner n = true) (hi : s.Isolates o) : Stays o s (s.offerSlot slot) := by
  unfold State.offerSlot
  split
  · exact refl s
  · rename_i z rest _
    have hw : Stays o s { s with waitList := rest } := ofSame rfl rfl
    have h := hw.trans (createJob ho slot z _ (hp z) (hw.isolates hi))
    refine h.trans (followJobs ho _ ?_ (h.isolates hi))
    rw [(Ripple.createJob slot z { s with waitList := rest }).tables]
    exact hs

end Stays

/-! ## The holds of a job come off (R137) -/

/-- A hold comes off: an owner on its isolate course that stays held keeps it. -/
theorem lowerHold_kept {o n : Owner} (ho : WellFormed.owner o = true) (hn : WellFormed.owner n = true) {s : State} (hi : s.Isolates o)
    (hl : 0 < ((s.lowerHold n).owner o).holds) : s.CourseKept (s.lowerHold n) o := by
  by_cases h : n = o
  · subst h
    have h1 : ¬ (s.owner n).holds = 1 := by
      have := (owner_lowerHold n n s (owner_index_lt hn)).1
      simp only [if_true] at this
      omega
    unfold State.lowerHold
    dsimp only
    rw [if_neg h1]
    refine ⟨?_, fun _ => by rw [State.setOwner_eq], fun e he _ => by rw [State.setOwner_eq] at he; exact he⟩
    rw [State.owner_setOwner]
    split <;> rfl
  · have hs := Stays.course ho hn h s { s.owner n with holds := (s.owner n).holds - 1 }
    unfold State.lowerHold
    exact (Stays.ite (hs.trans (Stays.evaluate ho hn _ (hs.isolates hi))) hs).kept

theorem dropHolds_kept {o : Owner} (ho : WellFormed.owner o = true) (l : List JobEntry) (hl : ∀ e ∈ l, WellFormed.owner e.target = true)
    (s : State) (hi : s.Isolates o) (h : 0 < ((s.dropHolds l).owner o).holds) : s.CourseKept (s.dropHolds l) o := by
  have falls : ∀ (l : List JobEntry) (t : State), (∀ e ∈ l, WellFormed.owner e.target = true) →
      ((t.dropHolds l).owner o).holds ≤ (t.owner o).holds := by
    intro l
    induction l with
    | nil => exact fun t _ => le_refl _
    | cons e l ih =>
      intro t hw
      refine (ih (t.lowerHold e.target) fun x hx => hw x (List.mem_cons_of_mem _ hx)).trans ?_
      rw [(owner_lowerHold e.target o t (owner_index_lt (hw e (List.mem_cons_self ..)))).1]
      exact Nat.sub_le _ _
  induction l generalizing s with
  | nil => exact CourseKept.refl s o
  | cons e l ih =>
    have hw : ∀ x ∈ l, WellFormed.owner x.target = true := fun x hx => hl x (List.mem_cons_of_mem _ hx)
    have hpos : 0 < ((s.lowerHold e.target).owner o).holds := h.trans_le (falls l (s.lowerHold e.target) hw)
    have k := lowerHold_kept ho (hl e (List.mem_cons_self ..)) hi hpos
    exact CourseKept.trans k (ih hw (s.lowerHold e.target) ⟨hpos, by rw [k.course]; exact hi.2⟩ h)

/-- R138: an owner on its isolate course that is held when the release has ended goes on as if its hold count had not moved. -/
theorem releaseSlot_kept {o : Owner} (ho : WellFormed.owner o = true) (slot : Nat) (j : Job) (s : State)
    (hs : ∀ b, (s.tables.branch b).segment ≤ 3) (hp : ∀ z, ∀ n ∈ s.tables.plan z, WellFormed.owner n = true)
    (hj : ∀ e ∈ j.entries, WellFormed.owner e.target = true) (hi : s.Isolates o) (hh : 0 < ((s.releaseSlot slot j).2.owner o).holds) :
    s.CourseKept (s.releaseSlot slot j).2 o := by
  have look : ∀ (t : State) (b : Prop) [Decidable b], Stays o t ((if b then t.wantLook else t).joinNotice (.job slot)) := by
    intro t b _
    have h : Stays o t (if b then t.wantLook else t) := Stays.ite (Stays.ofSame rfl rfl) (Stays.refl t)
    exact h.trans (Stays.joinNotice _ _)
  have free : Stays o s (s.setJob slot none) := Stays.ofSame rfl rfl
  have offer := free.trans (Stays.offerSlot ho slot _ hs hp (free.isolates hi))
  unfold State.releaseSlot at hh ⊢
  dsimp only at hh ⊢
  refine CourseKept.trans offer.kept (CourseKept.trans (dropHolds_kept ho _ hj _ (offer.isolates hi) ?_) (look _ _).kept)
  refine lt_of_lt_of_eq hh ?_
  rw [State.owner_eq, State.owner_eq, State.joinNotice_eq]
  split <;> rfl

end Sys2Proof.Machine
end

