-- ==== Sys2Proof/Laws/Courses.lean ====
section
/-! SUPPORT. What an evaluation leaves in the scheduler: the shock window and the last-start times as they were, and, where both
valves of the course are in place, the move queue without the owner's entries. -/

namespace Sys2Proof.Machine

theorem setOwner_sched (s : State) (o : Owner) (r : OwnerRec) : (s.setOwner o r).sched = s.sched := by
  rw [State.setOwner_eq]

/-- An evaluation leaves the shock window and the last-start times (R146, R151). -/
theorem evaluateOne_sched (o : Owner) (s : State) :
    (s.evaluateOne o).sched = { s.sched with queue := (s.evaluateOne o).sched.queue, lookDue := (s.evaluateOne o).sched.lookDue } := by
  have h := congrArg (·.sched) (Walks.evaluateOne o s).still
  simp only [State.still] at h
  rw [Sched.mk.injEq] at h ⊢
  simp_all

/-- A step whose valve is in place goes on at once. -/
theorem takeStep_inPlace {s : State} {o : Owner} {k v : Nat} {d : Dir} (hm : s.stepMove o k = (v, d))
    (h : (s.valve v).st = (d.target (s.tables.valve v).fail).idle) (done : State → State) :
    s.takeStep o k true done = done (s.setOwner o { s.owner o with step := some k, needed := false, phase := none }) := by
  unfold State.takeStep
  rw [hm]
  have : (s.valve v).view (d.target (s.tables.valve v).fail) = .inPlace := by
    unfold ValveRec.view
    rw [h]
    cases d.target (s.tables.valve v).fail <;> rfl
  dsimp only
  rw [this]
  rfl

/-- The steps 1 and 3 of an owner are those of the sequence of its mode (section 1.7). -/
theorem stepMove_sequence (s : State) (o : Owner) :
    s.stepMove o 1 = ((s.sequence o (s.owner o).mode).1, (s.sequence o (s.owner o).mode).2.2)
    ∧ s.stepMove o 3 = (s.sequence o (s.owner o).mode).2 := by
  unfold State.stepMove State.sequence
  cases (s.owner o).mode <;> exact ⟨rfl, rfl⟩

theorem sequence_congr {s t : State} (h : t.tables = s.tables) (o : Owner) (m : OwnerMode) : t.sequence o m = s.sequence o m := by
  unfold State.sequence; rw [h]

/-- A sequence whose valves are both in place ends at once and places no entry (R21). -/
theorem beginSequence_inPlace {s : State} {o : Owner} {m : OwnerMode} {v w : Nat} {d : Dir} (ho : WellFormed.owner o = true)
    (hs : s.sequence o m = (v, w, d)) (hv : (s.valve v).st = (d.target (s.tables.valve v).fail).idle)
    (hw : (s.valve w).st = (d.target (s.tables.valve w).fail).idle) : (s.beginSequence o m).sched = s.sched := by
  have hi := owner_index_lt ho
  unfold State.beginSequence State.takeStep1
  generalize hx : s.setOwner o _ = x
  have hxm : (x.owner o).mode = m := by rw [← hx, State.owner_setOwner]; simp [hi]
  have hxt : x.tables = s.tables := by rw [← hx]; simp
  have hxv (n : Nat) : x.valve n = s.valve n := by rw [← hx]; simp
  have h1 := (stepMove_sequence x o).1
  rw [hxm, sequence_congr hxt, hs] at h1
  rw [takeStep_inPlace h1 (by rw [hxv, hxt]; exact hv)]
  unfold State.beginTimer
  generalize hy : x.setOwner o _ = y
  have hyn : (y.owner o).needed = false := by rw [← hy, State.owner_setOwner]; simp [hi]
  have hym : (y.owner o).mode = m := by rw [← hy, State.owner_setOwner]; simp [hi, hxm]
  dsimp only
  rw [hyn, Bool.false_and, if_neg (by simp)]
  generalize hz : y.setOwner o _ = z
  have hzm : (z.owner o).mode = m := by rw [← hz, State.owner_setOwner]; simp [hi, hym]
  have hzt : z.tables = s.tables := by rw [← hz, ← hy]; simp [hxt]
  have hzv (n : Nat) : z.valve n = s.valve n := by rw [← hz, ← hy]; simp [hxv]
  have h3 := (stepMove_sequence z o).2
  rw [hzm, sequence_congr hzt, hs] at h3
  unfold State.takeStep3
  rw [takeStep_inPlace h3 (by rw [hzv, hzt]; exact hw)]
  unfold State.endSequence
  rw [setOwner_sched, setOwner_sched, ← hz, setOwner_sched, ← hy, setOwner_sched, ← hx, setOwner_sched]

/-- R20, R27, R145: the entries an owner gives up. -/
theorem abandon_queue (o : Owner) (s : State) : (s.abandon o).sched.queue =
    s.sched.queue.filter fun e => !e.isOf o && !((s.owner o).mode == .inactive && e.isMaintenanceOf o) := by
  unfold State.abandon
  dsimp only
  rw [setOwner_sched]
  by_cases h : (s.owner o).mode = .inactive
  · rw [if_pos h, State.withdraw_eq, State.withdraw_eq]
    simp [h, List.filter_filter, Bool.and_comm]
  · rw [if_neg h, State.withdraw_eq]
    have hb : ((s.owner o).mode == .inactive) = false := by simpa using h
    simp only [hb, Bool.false_and, Bool.not_false, Bool.and_true]

/-- An owner that begins a course with both valves in place gives up its entries and places none (R20, R21, R145). -/
theorem evaluateOne_inPlace {s : State} {o : Owner} {m : OwnerMode} {v w : Nat} {d : Dir} (ho : WellFormed.owner o = true)
    (hr : (s.owner o).settled = true) (hn : (s.owner o).mode ∉ [.undefined, .failed, .noValves])
    (hf : (s.owner o).mode.follows (s.outcome o) = false)
    (hm : (s.outcome o, m) ∈ [(.isolate, .isolating), (.restore, .restoring), (.park, .parking)])
    (hs : s.sequence o m = (v, w, d)) (hv : (s.valve v).st = (d.target (s.tables.valve v).fail).idle)
    (hw : (s.valve w).st = (d.target (s.tables.valve w).fail).idle) :
    (s.evaluateOne o).sched.queue = s.sched.queue.filter fun e =>
      !e.isOf o && !((s.owner o).mode == .inactive && e.isMaintenanceOf o) := by
  have ha := (Walks.abandon o s).toStir
  simp only [List.mem_cons, List.not_mem_nil, or_false, not_or] at hn
  unfold State.evaluateOne
  dsimp only
  rw [if_neg (by simp [hr, hn]), if_neg (by simp [hf]), ← abandon_queue]
  have key : (s.abandon o).beginOutcome o (s.outcome o) = (s.abandon o).beginSequence o m := by
    simp only [List.mem_cons, List.not_mem_nil, or_false, Prod.mk.injEq] at hm
    rcases hm with ⟨h, rfl⟩ | ⟨h, rfl⟩ | ⟨h, rfl⟩ <;> rw [h] <;> rfl
  rw [key, beginSequence_inPlace ho ((sequence_congr ha.tables o m).trans hs) (by rw [ha.valve, ha.tables]; exact hv)
    (by rw [ha.valve, ha.tables]; exact hw)]

end Sys2Proof.Machine
end

