-- ==== Sys2Proof/Laws/PerInstr.lean ====
section
/-! SUPPORT. Per command, what it is as a request: every well-formed request command is spelt by a frame of the rack link, whose
dispatch does what the command does (R173, R177, R180). -/

namespace Sys2Proof.Laws.RequestKind

open Sys2Proof.Machine

/-- A request command has a KIND of section 10.4 and a BODY of at most 240 bytes that spell it, or spell a request answered in
the same way. -/
def Statement (i : Instr) : Prop :=
  i.WellFormed → requestCommand i = true →
    ∃ (kind : Nat) (tag : Byte) (body : List Byte) (c : Instr), kind ∈ requestKinds ∧ body.length ≤ 240
      ∧ receivedOf kind tag body = .request c ∧ answerOf c = answerOf i

/-! ## Fields -/

/-- A number of one byte as its byte. -/
def byteOf (n : Nat) : Byte := BitVec.ofNat 8 n

theorem byteOf_toNat {n : Nat} (h : WellFormed.byte n = true) : (byteOf n).toNat = n := by
  have : n < 256 := by simpa [WellFormed.byte] using h
  simp [byteOf, Nat.mod_eq_of_lt this]

theorem pair16_of {n : Nat} (h : WellFormed.half n = true) : pair16 (byteOf (n / 256)) (byteOf n) = n := by
  have : n < 65536 := by simpa [WellFormed.half] using h
  simp only [pair16, byteOf, BitVec.toNat_ofNat]
  omega

/-- The bytes of a list of pairs. -/
def pairBytes (l : List (Nat × Nat)) : List Byte := l.flatMap fun p => [byteOf p.1, byteOf p.2]

theorem pairBytes_length (l : List (Nat × Nat)) : (pairBytes l).length = 2 * l.length := by
  induction l with
  | nil => rfl
  | cons p l ih => simp [pairBytes] at ih ⊢; omega

theorem pairsOf_pairBytes (l : List (Nat × Nat)) (h : l.all (fun p => WellFormed.byte p.1 && WellFormed.byte p.2) = true) :
    pairsOf (pairBytes l) = some l := by
  induction l with
  | nil => rfl
  | cons p l ih =>
    simp only [List.all_cons, Bool.and_eq_true] at h
    have hl := ih h.2
    have e : pairsOf (pairBytes (p :: l)) = (pairsOf (pairBytes l)).map fun r => ((byteOf p.1).toNat, (byteOf p.2).toNat) :: r := rfl
    rw [e, hl, byteOf_toNat h.1.1, byteOf_toNat h.1.2]
    rfl

theorem listOf_pairBytes {used : Nat} {l : List (Nat × Nat)} (h : WellFormed.pairs used l = true) :
    listOf (byteOf l.length :: pairBytes l) = some l := by
  simp only [WellFormed.pairs, Bool.and_eq_true, decide_eq_true_eq] at h
  have hn : (byteOf l.length).toNat = l.length := byteOf_toNat (by simp [WellFormed.byte]; omega)
  simp [listOf, pairsOf_pairBytes l h.2, hn]

theorem pairs_length {used : Nat} {l : List (Nat × Nat)} (h : WellFormed.pairs used l = true) :
    used + 1 + 2 * l.length ≤ 240 := by
  simp only [WellFormed.pairs, Bool.and_eq_true, decide_eq_true_eq] at h
  exact h.1

/-! ## One lemma for each command -/

theorem coldStart : ∀ a, Statement (.coldStart a) := fun _ _ h => nomatch h
theorem warmStart : ∀ a b, Statement (.warmStart a b) := fun _ _ _ h => nomatch h
theorem resetNFall : Statement .resetNFall := fun _ h => nomatch h
theorem vmainLoss : Statement .vmainLoss := fun _ h => nomatch h
theorem softStart : ∀ a, Statement (.softStart a) := fun _ _ h => nomatch h
theorem frameReceived : ∀ a, Statement (.frameReceived a) := fun _ _ h => nomatch h
theorem gapDiscard : Statement .gapDiscard := fun _ h => nomatch h
theorem unknownKind : ∀ a b, Statement (.unknownKind a b) := fun _ _ _ h => nomatch h
theorem replyTransmit : Statement .replyTransmit := fun _ h => nomatch h
theorem notice : Statement .notice := fun _ h => nomatch h
theorem commitWriteEnd : ∀ a, Statement (.commitWriteEnd a) := fun _ _ h => nomatch h
theorem arbiterChoice : Statement .arbiterChoice := fun _ h => nomatch h
theorem probe : Statement .probe := fun _ h => nomatch h
theorem scanAccepted : ∀ a b, Statement (.scanAccepted a b) := fun _ _ _ h => nomatch h
theorem scanRejected : ∀ a, Statement (.scanRejected a) := fun _ _ h => nomatch h
theorem serviceCommandAccepted : ∀ a, Statement (.serviceCommandAccepted a) := fun _ _ h => nomatch h
theorem serviceFetchAccepted : ∀ a, Statement (.serviceFetchAccepted a) := fun _ _ h => nomatch h
theorem serviceFrameRejected : ∀ a, Statement (.serviceFrameRejected a) := fun _ _ h => nomatch h
theorem adoptionServiceAccepted : ∀ a, Statement (.adoptionServiceAccepted a) := fun _ _ h => nomatch h
theorem adoptionEchoAccepted : ∀ a, Statement (.adoptionEchoAccepted a) := fun _ _ h => nomatch h
theorem adoptionFrameRejected : ∀ a, Statement (.adoptionFrameRejected a) := fun _ _ h => nomatch h
theorem probeAccepted : ∀ a b, Statement (.probeAccepted a b) := fun _ _ _ h => nomatch h
theorem probeRejected : ∀ a, Statement (.probeRejected a) := fun _ _ h => nomatch h
theorem testFrameAccepted : ∀ a, Statement (.testFrameAccepted a) := fun _ _ h => nomatch h
theorem reloadFrameAccepted : ∀ a, Statement (.reloadFrameAccepted a) := fun _ _ h => nomatch h
theorem provingFrameRejected : ∀ a, Statement (.provingFrameRejected a) := fun _ _ h => nomatch h
theorem frameEndUnchecked : Statement .frameEndUnchecked := fun _ h => nomatch h
theorem attention : Statement .attention := fun _ h => nomatch h
theorem periodic : Statement .periodic := fun _ h => nomatch h
theorem strokeTimeArrival : ∀ a, Statement (.strokeTimeArrival a) := fun _ _ h => nomatch h
theorem strokeTimeout : ∀ a, Statement (.strokeTimeout a) := fun _ _ h => nomatch h
theorem drainTimerEnd : ∀ a, Statement (.drainTimerEnd a) := fun _ _ h => nomatch h
theorem fillTimerEnd : ∀ a, Statement (.fillTimerEnd a) := fun _ _ h => nomatch h
theorem windowAging : Statement .windowAging := fun _ h => nomatch h
theorem spacingEnd : ∀ a, Statement (.spacingEnd a) := fun _ _ h => nomatch h
theorem framingError : Statement .framingError := fun _ h => nomatch h
theorem vholdLoss : Statement .vholdLoss := fun _ h => nomatch h

theorem identify (tag : Byte) : Statement (.identify tag) := by
  intro w _
  refine ⟨0x01, tag, [], .identify tag, by decide, by simp, rfl, ?_⟩
  rfl

theorem readStatus (tag : Byte) : Statement (.readStatus tag) := by
  intro w _
  refine ⟨0x02, tag, [], .readStatus tag, by decide, by simp, rfl, ?_⟩
  rfl

theorem defineCard (tag : Byte) (card : Nat) (defined : Nat) (width : Nat) : Statement (.defineCard tag card defined width) := by
  intro w _
  simp only [Instr.WellFormed, WellFormed.check, Bool.and_eq_true] at w
  obtain ⟨⟨h0, h1⟩, h2⟩ := w
  refine ⟨0x10, tag, [byteOf card, byteOf defined, byteOf width], .defineCard tag (byteOf card).toNat (byteOf defined).toNat (byteOf width).toNat, by decide, by simp, rfl, ?_⟩
  rw [byteOf_toNat h0, byteOf_toNat h1, byteOf_toNat h2]

theorem mapPosition (tag : Byte) (card : Nat) (offset : Nat) (function : Nat) (number : Nat) (level : Nat) : Statement (.mapPosition tag card offset function number level) := by
  intro w _
  simp only [Instr.WellFormed, WellFormed.check, Bool.and_eq_true] at w
  obtain ⟨⟨⟨⟨h0, h1⟩, h2⟩, h3⟩, h4⟩ := w
  refine ⟨0x11, tag, [byteOf card, byteOf offset, byteOf function, byteOf number, byteOf level], .mapPosition tag (byteOf card).toNat (byteOf offset).toNat (byteOf function).toNat (byteOf number).toNat (byteOf level).toNat, by decide, by simp, rfl, ?_⟩
  rw [byteOf_toNat h0, byteOf_toNat h1, byteOf_toNat h2, byteOf_toNat h3, byteOf_toNat h4]

theorem defineValve (tag : Byte) (valve : Nat) (present : Nat) (stroke : Nat) (fail : Nat) : Statement (.defineValve tag valve present stroke fail) := by
  intro w _
  simp only [Instr.WellFormed, WellFormed.check, Bool.and_eq_true] at w
  obtain ⟨⟨⟨h0, h1⟩, h2⟩, h3⟩ := w
  refine ⟨0x12, tag, [byteOf valve, byteOf present, byteOf (stroke / 256), byteOf stroke, byteOf fail], .defineValve tag (byteOf valve).toNat (byteOf present).toNat (pair16 (byteOf (stroke / 256)) (byteOf stroke)) (byteOf fail).toNat, by decide, by simp, rfl, ?_⟩
  rw [byteOf_toNat h0, byteOf_toNat h1, pair16_of h2, byteOf_toNat h3]

theorem defineMeter (tag : Byte) (meter : Nat) (defined : Nat) (kFactor : Nat) (shift : Nat) : Statement (.defineMeter tag meter defined kFactor shift) := by
  intro w _
  simp only [Instr.WellFormed, WellFormed.check, Bool.and_eq_true] at w
  obtain ⟨⟨⟨h0, h1⟩, h2⟩, h3⟩ := w
  refine ⟨0x13, tag, [byteOf meter, byteOf defined, byteOf (kFactor / 256), byteOf kFactor, byteOf shift], .defineMeter tag (byteOf meter).toNat (byteOf defined).toNat (pair16 (byteOf (kFactor / 256)) (byteOf kFactor)) (byteOf shift).toNat, by decide, by simp, rfl, ?_⟩
  rw [byteOf_toNat h0, byteOf_toNat h1, pair16_of h2, byteOf_toNat h3]

theorem defineBranch (tag : Byte) (branch : Nat) (defined : Nat) (segment : Nat) (park : Nat) (nominal : Nat) : Statement (.defineBranch tag branch defined segment park nominal) := by
  intro w _
  simp only [Instr.WellFormed, WellFormed.check, Bool.and_eq_true] at w
  obtain ⟨⟨⟨⟨h0, h1⟩, h2⟩, h3⟩, h4⟩ := w
  refine ⟨0x14, tag, [byteOf branch, byteOf defined, byteOf segment, byteOf park, byteOf (nominal / 256), byteOf nominal], .defineBranch tag (byteOf branch).toNat (byteOf defined).toNat (byteOf segment).toNat (byteOf park).toNat (pair16 (byteOf (nominal / 256)) (byteOf nominal)), by decide, by simp, rfl, ?_⟩
  rw [byteOf_toNat h0, byteOf_toNat h1, byteOf_toNat h2, byteOf_toNat h3, pair16_of h4]

theorem defineZone (tag : Byte) (zone : Nat) (defined : Nat) (kind : Nat) (confirm : Nat) (clear : Nat) (auto : Nat) (failsafe : Nat) (branch : Nat) (threshold : Nat) (minFlow : Nat) : Statement (.defineZone tag zone defined kind confirm clear auto failsafe branch threshold minFlow) := by
  intro w _
  simp only [Instr.WellFormed, WellFormed.check, Bool.and_eq_true] at w
  obtain ⟨⟨⟨⟨⟨⟨⟨⟨⟨h0, h1⟩, h2⟩, h3⟩, h4⟩, h5⟩, h6⟩, h7⟩, h8⟩, h9⟩ := w
  refine ⟨0x15, tag, [byteOf zone, byteOf defined, byteOf kind, byteOf confirm, byteOf clear, byteOf auto, byteOf failsafe, byteOf branch, byteOf (threshold / 256), byteOf threshold, byteOf (minFlow / 256), byteOf minFlow], .defineZone tag (byteOf zone).toNat (byteOf defined).toNat (byteOf kind).toNat (byteOf confirm).toNat (byteOf clear).toNat (byteOf auto).toNat (byteOf failsafe).toNat (byteOf branch).toNat (pair16 (byteOf (threshold / 256)) (byteOf threshold)) (pair16 (byteOf (minFlow / 256)) (byteOf minFlow)), by decide, by simp, rfl, ?_⟩
  rw [byteOf_toNat h0, byteOf_toNat h1, byteOf_toNat h2, byteOf_toNat h3, byteOf_toNat h4, byteOf_toNat h5, byteOf_toNat h6, byteOf_toNat h7, pair16_of h8, pair16_of h9]

theorem setPlan (tag : Byte) (zone : Nat) (targets : List (Nat × Nat)) : Statement (.setPlan tag zone targets) := by
  intro w _
  simp only [Instr.WellFormed, WellFormed.check, Bool.and_eq_true] at w
  obtain ⟨h0, h1⟩ := w
  refine ⟨0x16, tag, byteOf zone :: byteOf targets.length :: pairBytes targets, _, by decide, ?_, ?_, rfl⟩
  · have := pairs_length h1
    simp only [List.length_cons, pairBytes_length]
    omega
  · show (match (listOf (byteOf targets.length :: pairBytes targets)).map (fun l => Instr.setPlan tag (byteOf zone).toNat l) with
      | some c => Received.request c | none => .badLength tag 0x16) = _
    rw [listOf_pairBytes h1, byteOf_toNat h0]
    rfl

theorem setLimits (tag : Byte) (budget : Nat) (reserve : Nat) (count : Nat) (window : Nat) (sSame : Nat) (sOther : Nat) (drain : Nat) (fill : Nat) : Statement (.setLimits tag budget reserve count window sSame sOther drain fill) := by
  intro w _
  simp only [Instr.WellFormed, WellFormed.check, Bool.and_eq_true] at w
  obtain ⟨⟨⟨⟨⟨⟨⟨h0, h1⟩, h2⟩, h3⟩, h4⟩, h5⟩, h6⟩, h7⟩ := w
  refine ⟨0x17, tag, [byteOf (budget / 256), byteOf budget, byteOf (reserve / 256), byteOf reserve, byteOf count, byteOf (window / 256), byteOf window, byteOf (sSame / 256), byteOf sSame, byteOf (sOther / 256), byteOf sOther, byteOf (drain / 256), byteOf drain, byteOf (fill / 256), byteOf fill], .setLimits tag (pair16 (byteOf (budget / 256)) (byteOf budget)) (pair16 (byteOf (reserve / 256)) (byteOf reserve)) (byteOf count).toNat (pair16 (byteOf (window / 256)) (byteOf window)) (pair16 (byteOf (sSame / 256)) (byteOf sSame)) (pair16 (byteOf (sOther / 256)) (byteOf sOther)) (pair16 (byteOf (drain / 256)) (byteOf drain)) (pair16 (byteOf (fill / 256)) (byteOf fill)), by decide, by simp, rfl, ?_⟩
  rw [pair16_of h0, pair16_of h1, byteOf_toNat h2, pair16_of h3, pair16_of h4, pair16_of h5, pair16_of h6, pair16_of h7]

theorem setPatterns (tag : Byte) (p0 : Byte) (p1 : Byte) (p2 : Byte) (p3 : Byte) : Statement (.setPatterns tag p0 p1 p2 p3) := by
  intro w _
  refine ⟨0x18, tag, [p0, p1, p2, p3], .setPatterns tag p0 p1 p2 p3, by decide, by simp, rfl, ?_⟩
  rfl

theorem setScan (tag : Byte) (image : Nat) (attention : Nat) (interval : Nat) (priority : Nat) (rate : Nat) (gap : Nat) (holdOnWet : Nat) : Statement (.setScan tag image attention interval priority rate gap holdOnWet) := by
  intro w _
  simp only [Instr.WellFormed, WellFormed.check, Bool.and_eq_true] at w
  obtain ⟨⟨⟨⟨⟨⟨h0, h1⟩, h2⟩, h3⟩, h4⟩, h5⟩, h6⟩ := w
  refine ⟨0x19, tag, [byteOf image, byteOf attention, byteOf (interval / 256), byteOf interval, byteOf priority, byteOf rate, byteOf (gap / 256), byteOf gap, byteOf holdOnWet], .setScan tag (byteOf image).toNat (byteOf attention).toNat (pair16 (byteOf (interval / 256)) (byteOf interval)) (byteOf priority).toNat (byteOf rate).toNat (pair16 (byteOf (gap / 256)) (byteOf gap)) (byteOf holdOnWet).toNat, by decide, by simp, rfl, ?_⟩
  rw [byteOf_toNat h0, byteOf_toNat h1, pair16_of h2, byteOf_toNat h3, byteOf_toNat h4, pair16_of h5, byteOf_toNat h6]

theorem setNotices (tag : Byte) (zone : Nat) (branch : Nat) (segment : Nat) (main : Nat) (valve : Nat) (job : Nat) (chain : Nat) (inputs : Nat) : Statement (.setNotices tag zone branch segment main valve job chain inputs) := by
  intro w _
  simp only [Instr.WellFormed, WellFormed.check, Bool.and_eq_true] at w
  obtain ⟨⟨⟨⟨⟨⟨⟨h0, h1⟩, h2⟩, h3⟩, h4⟩, h5⟩, h6⟩, h7⟩ := w
  refine ⟨0x1A, tag, [byteOf zone, byteOf branch, byteOf segment, byteOf main, byteOf valve, byteOf job, byteOf chain, byteOf inputs], .setNotices tag (byteOf zone).toNat (byteOf branch).toNat (byteOf segment).toNat (byteOf main).toNat (byteOf valve).toNat (byteOf job).toNat (byteOf chain).toNat (byteOf inputs).toNat, by decide, by simp, rfl, ?_⟩
  rw [byteOf_toNat h0, byteOf_toNat h1, byteOf_toNat h2, byteOf_toNat h3, byteOf_toNat h4, byteOf_toNat h5, byteOf_toNat h6, byteOf_toNat h7]

theorem activate (tag : Byte) (branch : Nat) : Statement (.activate tag branch) := by
  intro w _
  have h0 := w
  refine ⟨0x20, tag, [byteOf branch], .activate tag (byteOf branch).toNat, by decide, by simp, rfl, ?_⟩
  rw [byteOf_toNat h0]

theorem deactivate (tag : Byte) (branch : Nat) : Statement (.deactivate tag branch) := by
  intro w _
  have h0 := w
  refine ⟨0x21, tag, [byteOf branch], .deactivate tag (byteOf branch).toNat, by decide, by simp, rfl, ?_⟩
  rw [byteOf_toNat h0]

theorem hold (tag : Byte) (kind : Nat) (number : Nat) : Statement (.hold tag kind number) := by
  intro w _
  simp only [Instr.WellFormed, WellFormed.check, Bool.and_eq_true] at w
  obtain ⟨h0, h1⟩ := w
  refine ⟨0x22, tag, [byteOf kind, byteOf number], .hold tag (byteOf kind).toNat (byteOf number).toNat, by decide, by simp, rfl, ?_⟩
  rw [byteOf_toNat h0, byteOf_toNat h1]

theorem unhold (tag : Byte) (kind : Nat) (number : Nat) : Statement (.unhold tag kind number) := by
  intro w _
  simp only [Instr.WellFormed, WellFormed.check, Bool.and_eq_true] at w
  obtain ⟨h0, h1⟩ := w
  refine ⟨0x23, tag, [byteOf kind, byteOf number], .unhold tag (byteOf kind).toNat (byteOf number).toNat, by decide, by simp, rfl, ?_⟩
  rw [byteOf_toNat h0, byteOf_toNat h1]

theorem ackZone (tag : Byte) (zone : Nat) (declareDry : Nat) : Statement (.ackZone tag zone declareDry) := by
  intro w _
  simp only [Instr.WellFormed, WellFormed.check, Bool.and_eq_true] at w
  obtain ⟨⟨h0, h1⟩, _⟩ := w
  refine ⟨0x24, tag, [byteOf zone, byteOf declareDry], .ackZone tag (byteOf zone).toNat (byteOf declareDry).toNat, by decide, by simp, rfl, ?_⟩
  rw [byteOf_toNat h0, byteOf_toNat h1]

theorem ackZoneDeclareDry (tag : Byte) (zone : Nat) : Statement (.ackZoneDeclareDry tag zone) := by
  intro w _
  have h0 := w
  refine ⟨0x24, tag, [byteOf zone, 1], .ackZone tag (byteOf zone).toNat 1, by decide, by simp, rfl, ?_⟩
  rw [byteOf_toNat h0]
  rfl

theorem releaseJob (tag : Byte) (zone : Nat) : Statement (.releaseJob tag zone) := by
  intro w _
  have h0 := w
  refine ⟨0x25, tag, [byteOf zone], .releaseJob tag (byteOf zone).toNat, by decide, by simp, rfl, ?_⟩
  rw [byteOf_toNat h0]

theorem clearFault (tag : Byte) (valve : Nat) : Statement (.clearFault tag valve) := by
  intro w _
  have h0 := w
  refine ⟨0x26, tag, [byteOf valve], .clearFault tag (byteOf valve).toNat, by decide, by simp, rfl, ?_⟩
  rw [byteOf_toNat h0]

theorem zoneEnable (tag : Byte) (zone : Nat) (setting : Nat) : Statement (.zoneEnable tag zone setting) := by
  intro w _
  simp only [Instr.WellFormed, WellFormed.check, Bool.and_eq_true] at w
  obtain ⟨h0, h1⟩ := w
  refine ⟨0x27, tag, [byteOf zone, byteOf setting], .zoneEnable tag (byteOf zone).toNat (byteOf setting).toNat, by decide, by simp, rfl, ?_⟩
  rw [byteOf_toNat h0, byteOf_toNat h1]

theorem valveMove (tag : Byte) (valve : Nat) (direction : Nat) : Statement (.valveMove tag valve direction) := by
  intro w _
  simp only [Instr.WellFormed, WellFormed.check, Bool.and_eq_true] at w
  obtain ⟨h0, h1⟩ := w
  refine ⟨0x28, tag, [byteOf valve, byteOf direction], .valveMove tag (byteOf valve).toNat (byteOf direction).toNat, by decide, by simp, rfl, ?_⟩
  rw [byteOf_toNat h0, byteOf_toNat h1]

theorem scanNow (tag : Byte) : Statement (.scanNow tag) := by
  intro w _
  refine ⟨0x30, tag, [], .scanNow tag, by decide, by simp, rfl, ?_⟩
  rfl

theorem service (tag : Byte) (card : Nat) (command : Word) : Statement (.service tag card command) := by
  intro w _
  have h0 := w
  refine ⟨0x31, tag, [byteOf card, command.extractLsb 15 8, command.extractLsb 7 0], .service tag (byteOf card).toNat (command.extractLsb 15 8 ++ command.extractLsb 7 0), by decide, by simp, rfl, ?_⟩
  rw [byteOf_toNat h0]
  have e : (command.extractLsb 15 8 ++ command.extractLsb 7 0 : Word) = command := by
    apply BitVec.eq_of_getLsbD_eq
    intro i hi
    rw [BitVec.getLsbD_append]
    by_cases h : i < 8
    · simp [h]
    · simp only [h, BitVec.getLsbD_extract]
      have : 8 + (i - 8) = i := by omega
      rw [this]
      simp
      omega
  exact congrArg (fun x => answerOf (.service tag card x)) e

theorem prove (tag : Byte) (format : Nat) (start : Nat) (count : Nat) : Statement (.prove tag format start count) := by
  intro w _
  simp only [Instr.WellFormed, WellFormed.check, Bool.and_eq_true] at w
  obtain ⟨⟨h0, h1⟩, h2⟩ := w
  refine ⟨0x32, tag, [byteOf format, byteOf start, byteOf count], .prove tag (byteOf format).toNat (byteOf start).toNat (byteOf count).toNat, by decide, by simp, rfl, ?_⟩
  rw [byteOf_toNat h0, byteOf_toNat h1, byteOf_toNat h2]

theorem writeOutputs (tag : Byte) (entries : List (Nat × Nat)) : Statement (.writeOutputs tag entries) := by
  intro w _
  have h0 := w
  refine ⟨0x33, tag, byteOf entries.length :: pairBytes entries, _, by decide, ?_, ?_, rfl⟩
  · have := pairs_length h0
    simp only [List.length_cons, pairBytes_length]
    omega
  · show (match (listOf (byteOf entries.length :: pairBytes entries)).map (fun l => Instr.writeOutputs tag l) with
      | some c => Received.request c | none => .badLength tag 0x33) = _
    rw [listOf_pairBytes h0]
    rfl

theorem readPositions (tag : Byte) (first : Nat) (count : Nat) : Statement (.readPositions tag first count) := by
  intro w _
  simp only [Instr.WellFormed, WellFormed.check, Bool.and_eq_true] at w
  obtain ⟨h0, h1⟩ := w
  refine ⟨0x34, tag, [byteOf first, byteOf count], .readPositions tag (byteOf first).toNat (byteOf count).toNat, by decide, by simp, rfl, ?_⟩
  rw [byteOf_toNat h0, byteOf_toNat h1]

theorem readObject (tag : Byte) (kind : Nat) (number : Nat) : Statement (.readObject tag kind number) := by
  intro w _
  simp only [Instr.WellFormed, WellFormed.check, Bool.and_eq_true] at w
  obtain ⟨h0, h1⟩ := w
  refine ⟨0x40, tag, [byteOf kind, byteOf number], .readObject tag (byteOf kind).toNat (byteOf number).toNat, by decide, by simp, rfl, ?_⟩
  rw [byteOf_toNat h0, byteOf_toNat h1]

theorem readWindow (tag : Byte) (first : Nat) (count : Nat) : Statement (.readWindow tag first count) := by
  intro w _
  simp only [Instr.WellFormed, WellFormed.check, Bool.and_eq_true] at w
  obtain ⟨h0, h1⟩ := w
  refine ⟨0x41, tag, [byteOf first, byteOf count], .readWindow tag (byteOf first).toNat (byteOf count).toNat, by decide, by simp, rfl, ?_⟩
  rw [byteOf_toNat h0, byteOf_toNat h1]

theorem readMoves (tag : Byte) (first : Nat) (count : Nat) : Statement (.readMoves tag first count) := by
  intro w _
  simp only [Instr.WellFormed, WellFormed.check, Bool.and_eq_true] at w
  obtain ⟨h0, h1⟩ := w
  refine ⟨0x42, tag, [byteOf first, byteOf count], .readMoves tag (byteOf first).toNat (byteOf count).toNat, by decide, by simp, rfl, ?_⟩
  rw [byteOf_toNat h0, byteOf_toNat h1]

theorem readJobs (tag : Byte) : Statement (.readJobs tag) := by
  intro w _
  refine ⟨0x43, tag, [], .readJobs tag, by decide, by simp, rfl, ?_⟩
  rfl

theorem lock (tag : Byte) (lockTables : Nat) (lockPlan : Nat) (lockLimits : Nat) : Statement (.lock tag lockTables lockPlan lockLimits) := by
  intro w _
  simp only [Instr.WellFormed, WellFormed.check, Bool.and_eq_true] at w
  obtain ⟨⟨h0, h1⟩, h2⟩ := w
  refine ⟨0x50, tag, [byteOf lockTables, byteOf lockPlan, byteOf lockLimits], .lock tag (byteOf lockTables).toNat (byteOf lockPlan).toNat (byteOf lockLimits).toNat, by decide, by simp, rfl, ?_⟩
  rw [byteOf_toNat h0, byteOf_toNat h1, byteOf_toNat h2]

theorem commit (tag : Byte) : Statement (.commit tag) := by
  intro w _
  refine ⟨0x51, tag, [], .commit tag, by decide, by simp, rfl, ?_⟩
  rfl

theorem restartRuntime (tag : Byte) (scope : Nat) : Statement (.restartRuntime tag scope) := by
  intro w _
  simp only [Instr.WellFormed, WellFormed.check, Bool.and_eq_true] at w
  obtain ⟨h0, _⟩ := w
  refine ⟨0x52, tag, [byteOf scope], .restartRuntime tag (byteOf scope).toNat, by decide, by simp, rfl, ?_⟩
  rw [byteOf_toNat h0]

theorem restartTables (tag : Byte) : Statement (.restartTables tag) := by
  intro w _
  refine ⟨0x52, tag, [1], .restartRuntime tag 1, by decide, by simp, rfl, ?_⟩
  rfl

end Sys2Proof.Laws.RequestKind
end

