-- ==== Sys2Proof/Laws/Requests.lean ====
section
/-! SUPPORT. What answering a request leaves alone at the link (R177), and that the receiver's fuel always suffices (R175). -/

namespace Sys2Proof.Machine

/-- The link but for what an answer may change: its notices, its replies, the RESTART under way. -/
def Link.inbox (l : Link) : Link := { l with notices := [], replies := [], restart := .none }

/-- Between `s` and `t` nothing reached or left the receiver, the part runs or not as before, and no time passed. -/
structure Answers (s t : State) : Prop where
  power : t.power = s.power
  clock : t.clock = s.clock
  pending : t.pending = s.pending
  inbox : t.link.inbox = s.link.inbox

namespace Answers

variable {s t u : State}

theorem refl (s : State) : Answers s s := ⟨rfl, rfl, rfl, rfl⟩

theorem trans (h : Answers s t) (k : Answers t u) : Answers s u :=
  ⟨k.power.trans h.power, k.clock.trans h.clock, k.pending.trans h.pending, k.inbox.trans h.inbox⟩

theorem ite {c : Prop} [Decidable c] {a b : State} (h : Answers s a) (k : Answers s b) : Answers s (if c then a else b) := by
  split <;> assumption

theorem foldl {α : Type} {f : State → α → State} (hf : ∀ s a, Answers s (f s a)) (l : List α) (s : State) :
    Answers s (l.foldl f s) := by
  induction l generalizing s with
  | nil => exact refl s
  | cons a l ih => exact (hf s a).trans (ih _)

theorem ofRipple (h : Ripple s t) : Answers s t :=
  ⟨h.power, h.clock, h.pending, congrArg (fun l : Link => { l with replies := [], restart := .none }) h.link⟩

/-- The receive queue and the frame being collected stand. -/
theorem rxQueue (h : Answers s t) : t.link.rxQueue = s.link.rxQueue := (congrArg Link.rxQueue h.inbox :)
theorem rxBuf (h : Answers s t) : t.link.rxBuf = s.link.rxBuf := (congrArg Link.rxBuf h.inbox :)
theorem lastByteAt (h : Answers s t) : t.link.lastByteAt = s.link.lastByteAt := (congrArg Link.lastByteAt h.inbox :)

theorem reply (k : Nat) (tag : Byte) (st : Status) (fs : List Byte) (h : Answers s t) : Answers s (t.reply k tag st fs) :=
  h.trans ⟨rfl, rfl, rfl, rfl⟩

theorem refuse (k : Nat) (tag : Byte) (st : Status) (s : State) : Answers s (s.refuse k tag st) := ⟨rfl, rfl, rfl, rfl⟩

theorem withTables (T : TableStore) (s : State) : Answers s (s.withTables T) := ⟨rfl, rfl, rfl, rfl⟩

/-- A checked request answers where taking it does. -/
theorem checked (k : Nat) (tag : Byte) (l : List (Bool × Status)) (f : State → State) (hf : ∀ s, Answers s (f s)) (s : State) :
    Answers s (s.checked k tag l f) := by
  rcases checked_cases s k tag l f with ⟨st, h⟩ | ⟨-, h⟩
  · rw [h]; exact refuse k tag st s
  · rw [h]; exact hf s

theorem joinNotice (o : Obj) (s : State) : Answers s (s.joinNotice o) := ofRipple (.joinNotice s o)
theorem setValve (v : Nat) (r : ValveRec) (s : State) : Answers s (s.setValve v r) := ofRipple (.setValve s v r)
theorem setOwner (o : Owner) (r : OwnerRec) (s : State) : Answers s (s.setOwner o r) := ofRipple (.setOwner s o r)
theorem setZone (z : Nat) (r : ZoneRec) (s : State) : Answers s (s.setZone z r) := ofRipple (.setZone s z r)
theorem finish (s : State) : Answers s s.finish := ofRipple (.finish s)
theorem wantLook (s : State) : Answers s s.wantLook := ofRipple (.wantLook s)
theorem trigger (s : State) : Answers s s.trigger := ofRipple (.trigger s)

theorem imageTrigger (s : State) : Answers s s.imageTrigger := ite (trigger s) (refl s)

theorem writeImageBit (p : Nat) (b : Bool) (s : State) : Answers s (s.writeImageBit p b) :=
  ite (refl s) (by refine trans ?_ (imageTrigger _); exact ⟨rfl, rfl, rfl, rfl⟩)

theorem setChainState (st : ChainState) (s : State) : Answers s (s.setChainState st) := by
  unfold State.setChainState
  refine trans ?_ (joinNotice _ _)
  exact ⟨rfl, rfl, rfl, rfl⟩

theorem checkNoValves (o : Owner) (s : State) : Answers s (s.checkNoValves o) := ofRipple (.checkNoValves o s)

/-! ### The requests, one by one -/

theorem changeCards (cards : List Nat) (s : State) : Answers s (s.changeCards cards) := by
  have h1 : ∀ t : State, Answers t t.recardChain := fun t => by
    unfold State.recardChain
    refine (setChainState (t.chain.st.afterCards t.tables.cards.length) t).trans ?_
    exact ⟨rfl, rfl, rfl, rfl⟩
  have h2 : ∀ t : State, Answers t t.recardImage := fun t => by
    unfold State.recardImage State.fitRing
    exact ⟨rfl, rfl, rfl, rfl⟩
  have h3 : ∀ (t : State) (v : Nat), Answers t (t.recardValve s.tables v) := fun t v => by
    have hv : Answers t (if (t.tables.valve v).present then (t.setValve v (ValveRec.fresh .unknown)).withdraw fun e => e.valve == v
        else t) := ite ((setValve _ _ t).trans (ofRipple (.withdraw _ _))) (refl t)
    exact ite hv (hv.trans (joinNotice _ _))
  have h4 : ∀ (t : State) (o : Owner), Answers t (t.recardOwner o) := fun t o => setOwner _ _ _
  unfold State.changeCards
  dsimp only
  refine trans ?_ (finish _)
  refine trans ?_ (foldl h4 _ _)
  refine trans ?_ (foldl h3 _ _)
  refine trans ?_ (ofRipple (.joinInputsIfStale _ _))
  refine trans ?_ (h2 _)
  exact (withTables _ s).trans (h1 _)

theorem defineCard (tag : Byte) (card defined width : Nat) (s : State) : Answers s (answerDefineCard tag card defined width s) := by
  unfold answerDefineCard
  split
  · refine ite (refuse _ _ _ _) ?_
    unfold State.defineCard
    refine checked _ _ _ _ (fun s => ?_) s
    exact (changeCards _ s).reply _ _ _ _
  · exact refuse _ _ _ _

theorem clearField (e : MapEntry) (s : State) : Answers s (s.clearField e) :=
  foldl (fun s i => writeImageBit (s.tables.posOf e.card e.offset + i) false s) _ _

theorem afterMap (e : MapEntry) (s : State) : Answers s (s.afterMap e) := by
  unfold State.afterMap
  dsimp only
  refine (clearField e s).trans ?_
  generalize s.clearField e = t
  split
  · exact ⟨rfl, rfl, rfl, rfl⟩
  · exact joinNotice _ _
  · split
    · exact ((ite (ofRipple (.valveToUnknown _ _)) (refl t)).trans (joinNotice _ _)).trans (checkNoValves _ _)
    · exact refl t

theorem mapPosition (tag : Byte) (card offset function number level : Nat) (s : State) :
    Answers s (answerMapPosition tag card offset function number level s) := by
  unfold answerMapPosition
  split
  · exact refuse _ _ _ _
  · refine checked _ _ _ _ (fun s => ?_) s
    have after : ∀ (t : State) (e : MapEntry) (m : List MapEntry) (st : Status),
        Answers t ((((t.withTables { t.tables with map := m }).afterMap e).finish).mapReply tag st e.card e.offset) :=
      fun t e m st => ((((withTables _ t).trans (afterMap e _)).trans (finish _)).reply _ _ _ _)
    split
    · unfold State.unmapAt
      split
      · exact (refl _).reply _ _ _ _
      · rename_i e _
        exact checked _ _ _ _ (fun t => ((((withTables _ t).trans (afterMap e _)).trans (finish _)).reply _ _ _ _)) _
    · exact ite ((refl _).reply _ _ _ _) (checked _ _ _ _ (fun t => after t _ _ _) _)

theorem redefineValve (v : Nat) (d : ValveDef) (s : State) : Answers s (s.redefineValve v d) := by
  unfold State.redefineValve
  dsimp only
  have h0 : Answers s (s.putValveDef v d) := withTables _ s
  refine trans (t := if _ then _ else _) ?_ (checkNoValves _ _)
  have h2 := fun r => h0.trans (setValve v r (s.putValveDef v d))
  have h3 := h0.trans (ofRipple (.valveToUnknown v (s.putValveDef v d)))
  have : Answers s (if !d.present then (s.putValveDef v d).setValve v (ValveRec.fresh .undefined)
      else if !(s.tables.valve v).present then (s.putValveDef v d).setValve v
        { ValveRec.fresh .unknown with target := (s.putValveDef v d).commandedTarget v }
      else if (s.tables.valve v).fail != d.fail then (s.putValveDef v d).valveToUnknown v
      else s.putValveDef v d) := ite (h2 _) (ite (h2 _) (ite h3 h0))
  exact ite this (this.trans (joinNotice _ _))

theorem defineValve (tag : Byte) (v present stroke fail : Nat) (s : State) :
    Answers s (answerDefineValve tag v present stroke fail s) := by
  unfold answerDefineValve
  split
  · exact ite (refuse _ _ _ _) (checked _ _ _ _ (fun s => ((redefineValve _ _ s).trans (finish _)).reply _ _ _ _) s)
  · exact refuse _ _ _ _

theorem defineMeter (tag : Byte) (m defined k shift : Nat) (s : State) : Answers s (answerDefineMeter tag m defined k shift s) := by
  unfold answerDefineMeter
  split
  · exact ite (refuse _ _ _ _) (checked _ _ _ _ (fun s =>
      ((ite ⟨rfl, rfl, rfl, rfl⟩ ⟨rfl, rfl, rfl, rfl⟩ : Answers s (s.redefineMeter _ _))).reply _ _ _ _) s)
  · exact refuse _ _ _ _

theorem defineBranch (tag : Byte) (b defined segment park nominal : Nat) (s : State) :
    Answers s (answerDefineBranch tag b defined segment park nominal s) := by
  have redefine : ∀ (d : Bool) (g : Nat) (p : ParkAction) (n : Nat) (t : State), Answers t (t.redefineBranch b d g p n) :=
    fun d g p n t => (ite ((withTables _ t).trans (setOwner _ _ _)) (ite (withTables _ t)
      ((withTables _ t).trans (setOwner _ _ _)))).trans (joinNotice _ _)
  unfold answerDefineBranch
  split
  · exact ite (refuse _ _ _ _) (checked _ _ _ _ (fun s => ((redefine _ _ _ _ s).trans (finish _)).reply _ _ _ _) s)
  · exact refuse _ _ _ _

theorem defineZone (tag : Byte) (z defined kind confirm clear auto failsafe branch threshold minFlow : Nat) (s : State) :
    Answers s (answerDefineZone tag z defined kind confirm clear auto failsafe branch threshold minFlow s) := by
  have redefine : ∀ (d : Option ZoneDef) (t : State), Answers t (t.redefineZone z d) := fun d t => by
    unfold State.redefineZone
    cases d
    · exact (((withTables _ t).trans (withTables _ _)).trans (setZone _ _ _)).trans (joinNotice _ _)
    · exact ((withTables _ t).trans (setZone _ _ _)).trans (joinNotice _ _)
  unfold answerDefineZone
  split
  · exact ite (refuse _ _ _ _) (checked _ _ _ _ (fun s => (redefine _ s).reply _ _ _ _) s)
  · exact refuse _ _ _ _

theorem setPlan (tag : Byte) (z : Nat) (l : List (Nat × Nat)) (s : State) : Answers s (answerSetPlan tag z l s) := by
  unfold answerSetPlan
  split
  · exact refuse _ _ _ _
  · exact checked _ _ _ _ (fun s => (withTables _ s).reply _ _ _ _) s

theorem setLimits (tag : Byte) (a b c d e f g h : Nat) (s : State) : Answers s (answerSetLimits tag a b c d e f g h s) := by
  unfold answerSetLimits State.setLimits
  refine checked _ _ _ _ (fun s => ?_) s
  refine reply _ _ _ _ (trans ?_ (finish _))
  split
  · exact withTables _ s
  · exact (withTables _ s).trans (wantLook _)

theorem setPatterns (tag a b c d : Byte) (s : State) : Answers s (answerSetPatterns tag a b c d s) :=
  checked _ _ _ _ (fun s => (withTables _ s).reply _ _ _ _) s

theorem storeScan (c : ScanSettings) (s : State) : Answers s (s.storeScan c) := by
  have h1 : ∀ (old : ScanSettings) (t : State), Answers t (t.newInterval old) := fun old t => by
    unfold State.newInterval
    split
    · exact ite ⟨rfl, rfl, rfl, rfl⟩ (refl t)
    · exact refl t
  have h : Answers s (if !s.tables.scan.image && c.image then
      State.imageTrigger ((s.withTables { s.tables with scan := c }).newInterval s.tables.scan)
      else (s.withTables { s.tables with scan := c }).newInterval s.tables.scan) :=
    ite (((withTables _ s).trans (h1 _ _)).trans (imageTrigger _)) ((withTables _ s).trans (h1 _ _))
  exact (ite (h.trans (wantLook _)) h).trans (finish _)

theorem setScan (tag : Byte) (a b c d e f g : Nat) (s : State) : Answers s (answerSetScan tag a b c d e f g s) := by
  unfold answerSetScan
  split
  · exact checked _ _ _ _ (fun s => (storeScan _ s).reply _ _ _ _) s
  · exact refuse _ _ _ _

theorem setNotices (tag : Byte) (a b c d e f g h : Nat) (s : State) : Answers s (answerSetNotices tag a b c d e f g h s) := by
  unfold answerSetNotices
  split
  · exact refuse _ _ _ _
  · refine checked _ _ _ _ (fun s => ?_) s
    unfold State.storeMask
    exact reply _ _ _ _ ⟨rfl, rfl, rfl, rfl⟩

theorem activation (k : Nat) (tag : Byte) (b : Nat) (on : Bool) (s : State) : Answers s (s.activation k tag b on) := by
  refine checked _ _ _ _ (fun s => reply _ _ _ _ ?_) s
  unfold State.setActivated
  exact ite (refl s) ((((withTables _ s).trans (joinNotice _ _)).trans (ofRipple (.evaluate _ _))).trans (finish _))

theorem hold (tag : Byte) (k n : Nat) (s : State) : Answers s (answerHold tag k n s) := by
  unfold answerHold
  split
  · exact refuse _ _ _ _
  · exact checked _ _ _ _ (fun s => (((setOwner _ _ s).trans (ofRipple (.raiseHold _ _))).trans (finish _)).reply _ _ _ _) s

theorem unhold (tag : Byte) (k n : Nat) (s : State) : Answers s (answerUnhold tag k n s) := by
  unfold answerUnhold
  split
  · exact refuse _ _ _ _
  · exact checked _ _ _ _ (fun s => (((setOwner _ _ s).trans (ofRipple (.lowerHold _ _))).trans (finish _)).reply _ _ _ _) s

theorem declareDry (tag : Byte) (z : Nat) (s : State) : Answers s (answerAckZoneDeclareDry tag z s) := by
  unfold answerAckZoneDeclareDry State.declareDry
  refine checked _ _ _ _ (fun s => ?_) s
  unfold State.zoneReply
  exact ((ofRipple (.enterDry z s)).trans (finish _)).reply _ _ _ _

theorem ackZone (tag : Byte) (z d : Nat) (s : State) : Answers s (answerAckZone tag z d s) := by
  unfold answerAckZone
  split
  · exact refuse _ _ _ _
  · exact checked _ _ _ _ (fun s => ((setZone _ _ s).trans (joinNotice _ _)).reply _ _ _ _) s
  · exact declareDry tag z s

theorem releaseJob (tag : Byte) (z : Nat) (s : State) : Answers s (answerReleaseJob tag z s) := by
  unfold answerReleaseJob
  split
  · exact refuse _ _ _ _
  · split
    · exact refuse _ _ _ _
    · split
      · exact refuse _ _ _ _
      · exact checked _ _ _ _ (fun s => ((ofRipple (.releaseSlot _ _ s)).trans (finish _)).reply _ _ _ _) s

theorem clearFault (tag : Byte) (v : Nat) (s : State) : Answers s (answerClearFault tag v s) :=
  checked _ _ _ _ (fun s => (setValve _ _ s).reply _ _ _ _) s

theorem zoneEnable (tag : Byte) (z x : Nat) (s : State) : Answers s (answerZoneEnable tag z x s) := by
  have enable : ∀ t : State, Answers t (t.enableZone z) := fun t => by
    have h := ((withTables { t.tables with zones := t.tables.zones.put z { t.tables.zone z with enabled := true } } t).trans
      (setZone z (ZoneRec.fresh .dry) _)).trans (joinNotice (.zone z) _)
    exact (ite (h.trans (ofRipple (.zoneChainLoss z _))) h).trans (finish _)
  have disable : ∀ t : State, Answers t (t.disableZone z) := fun t =>
    ((withTables _ t).trans (setZone _ _ _)).trans (joinNotice _ _)
  unfold answerZoneEnable
  split
  · exact refuse _ _ _ _
  · exact checked _ _ _ _ (fun s => reply _ _ _ _ (ite (ite (enable s) (refl s)) (ite (refl s) (disable s)))) s

theorem valveMove (tag : Byte) (v d : Nat) (s : State) : Answers s (answerValveMove tag v d s) := by
  unfold answerValveMove
  split
  · exact refuse _ _ _ _
  · refine checked _ _ _ _ (fun s => ?_) s
    refine reply _ _ _ _ ?_
    unfold State.maintain
    refine trans ?_ (finish _)
    split
    · exact ofRipple (.withdraw _ _)
    · exact ⟨rfl, rfl, rfl, rfl⟩

theorem scanNow (tag : Byte) (s : State) : Answers s (answerScanNow tag s) := (trigger s).reply _ _ _ _

theorem service (tag : Byte) (c : Nat) (w : Word) (s : State) : Answers s (answerService tag c w s) := by
  unfold answerService
  refine checked _ _ _ _ (fun s => ?_) s
  exact ⟨rfl, rfl, rfl, rfl⟩

theorem prove (tag : Byte) (f st n : Nat) (s : State) : Answers s (answerProve tag f st n s) := by
  unfold answerProve
  split
  · exact refuse _ _ _ _
  · refine checked _ _ _ _ (fun s => ?_) s
    exact ⟨rfl, rfl, rfl, rfl⟩

theorem writeOutputs (tag : Byte) (l : List (Nat × Nat)) (s : State) : Answers s (answerWriteOutputs tag l s) := by
  unfold answerWriteOutputs
  refine checked _ _ _ _ (fun s => ?_) s
  refine reply _ _ _ _ ?_
  unfold State.writeOutputs
  dsimp only
  split
  · exact refl s
  · refine trans ?_ (imageTrigger _)
    exact ⟨rfl, rfl, rfl, rfl⟩

theorem readObject (tag : Byte) (k n : Nat) (s : State) : Answers s (answerReadObject tag k n s) := by
  unfold answerReadObject
  split
  · exact (refl s).reply _ _ _ _
  · exact refuse _ _ _ _

theorem lock (tag : Byte) (a b c : Nat) (s : State) : Answers s (answerLock tag a b c s) := by
  unfold answerLock
  split
  · exact reply _ _ _ _ ⟨rfl, rfl, rfl, rfl⟩
  · exact refuse _ _ _ _

theorem restartTables (tag : Byte) (s : State) : Answers s (answerRestartTables tag s) := by
  unfold answerRestartTables
  refine checked _ _ _ _ (fun s => ?_) s
  exact ⟨rfl, rfl, rfl, rfl⟩

theorem commit (tag : Byte) (s : State) : Answers s (answerCommit tag s) := by
  unfold answerCommit
  refine checked _ _ _ _ (fun s => ?_) s
  exact ⟨rfl, rfl, rfl, rfl⟩

theorem restartRuntime (tag : Byte) (x : Nat) (s : State) : Answers s (answerRestartRuntime tag x s) := by
  unfold answerRestartRuntime
  split
  · exact refuse _ _ _ _
  · exact ⟨rfl, rfl, rfl, rfl⟩
  · exact restartTables tag s

end Answers

/-- No request's answer reaches the receiver. -/
theorem answerOf_answers (c : Instr) (s : State) : Answers s (answerOf c s) := by
  cases c
  case defineCard => exact .defineCard ..
  case mapPosition => exact .mapPosition ..
  case defineValve => exact .defineValve ..
  case defineMeter => exact .defineMeter ..
  case defineBranch => exact .defineBranch ..
  case defineZone => exact .defineZone ..
  case setPlan => exact .setPlan ..
  case setLimits => exact .setLimits ..
  case setPatterns => exact .setPatterns ..
  case setScan => exact .setScan ..
  case setNotices => exact .setNotices ..
  case activate => exact .activation ..
  case deactivate => exact .activation ..
  case hold => exact .hold ..
  case unhold => exact .unhold ..
  case ackZone => exact .ackZone ..
  case ackZoneDeclareDry => exact .declareDry ..
  case releaseJob => exact .releaseJob ..
  case clearFault => exact .clearFault ..
  case zoneEnable => exact .zoneEnable ..
  case valveMove => exact .valveMove ..
  case scanNow => exact .scanNow ..
  case service => exact .service ..
  case prove => exact .prove ..
  case writeOutputs => exact .writeOutputs ..
  case identify => exact (Answers.refl s).reply _ _ _ _
  case readStatus => exact (Answers.refl s).reply _ _ _ _
  case readPositions => exact .checked _ _ _ _ (fun s => (Answers.refl s).reply _ _ _ _) s
  case readObject => exact .readObject ..
  case readWindow => exact .checked _ _ _ _ (fun s => (Answers.refl s).reply _ _ _ _) s
  case readMoves => exact .checked _ _ _ _ (fun s => (Answers.refl s).reply _ _ _ _) s
  case readJobs => exact (Answers.refl s).reply _ _ _ _
  case lock => exact .lock ..
  case commit => exact .commit ..
  case restartRuntime => exact .restartRuntime ..
  case restartTables => exact .restartTables ..
  all_goals exact .refl s

/-- Dispatching shortens the receive queue and reaches nothing else of the receiver (R177). -/
theorem dispatchLoop_rx (n : Nat) (s : State) : (dispatchLoop n s).power = s.power ∧ (dispatchLoop n s).clock = s.clock
    ∧ (dispatchLoop n s).link.rxBuf = s.link.rxBuf ∧ (dispatchLoop n s).link.lastByteAt = s.link.lastByteAt
    ∧ (dispatchLoop n s).link.rxQueue.length ≤ s.link.rxQueue.length := by
  induction n generalizing s with
  | zero => exact ⟨rfl, rfl, rfl, rfl, le_refl _⟩
  | succ n ih =>
    unfold dispatchLoop
    split
    · exact ⟨rfl, rfl, rfl, rfl, le_refl _⟩
    · rename_i r rest hq
      split
      · generalize hx : ({ s with link := { s.link with rxQueue := rest } } : State) = x
        have hd : Answers x (State.dispatch r x) := by
          unfold State.dispatch
          cases r
          · exact answerOf_answers _ _
          · exact .refuse _ _ _ _
          · exact .refuse _ _ _ _
        obtain ⟨h1, h2, h3, h4, h5⟩ := ih (State.dispatch r x)
        rw [h1, h2, h3, h4, hd.power, hd.clock, hd.rxBuf, hd.lastByteAt]
        refine ⟨by rw [← hx], by rw [← hx], by rw [← hx], by rw [← hx], h5.trans ?_⟩
        rw [hd.rxQueue, ← hx, hq]
        exact Nat.le_succ _
      · exact ⟨rfl, rfl, rfl, rfl, le_refl _⟩

/-! ## The receiver (R175) -/

/-- The bytes of the frame being collected, its SYNC among them. -/
def State.collected (s : State) : Nat :=
  match s.link.rxBuf with
  | some buf => buf.length + 1
  | none => 0

/-- What is left of the receiver's work before `l` more bytes: each byte taken lessens it. -/
def State.rxWork (s : State) (l : Nat) : Nat := 247 * (l + s.collected) + (246 - s.collected)

theorem rxVerdict_more {buf : List Byte} (h : rxVerdict buf = .more) : buf.length ≤ 244 := by
  unfold rxVerdict at h
  split at h
  · simp
  · rename_i len rest
    dsimp only at h
    split at h
    · cases h
    · split at h
      · omega
      · split at h
        · split at h <;> cases h
        · cases h

theorem takeByte_work (b : Byte) (l : Nat) (s : State) (hs : s.collected ≤ 245) :
    (s.takeByte b).2.collected ≤ 245 ∧ (s.takeByte b).2.rxWork ((s.takeByte b).1.length + l) + 1 ≤ s.rxWork (l + 1) := by
  have key : ∀ (t : State) (n : Nat), t.collected ≤ 245 → n + t.collected ≤ s.collected + 1 →
      (n + t.collected = s.collected + 1 → s.collected < t.collected) →
      t.collected ≤ 245 ∧ t.rxWork (n + l) + 1 ≤ s.rxWork (l + 1) := by
    intro t n h1 h2 h3
    refine ⟨h1, ?_⟩
    unfold State.rxWork
    omega
  have none_ : ∀ t : State, t.link.rxBuf = none → t.collected = 0 := fun t h => by unfold State.collected; rw [h]
  have some_ : ∀ (t : State) (buf : List Byte), t.link.rxBuf = some buf → t.collected = buf.length + 1 := fun t buf h => by
    unfold State.collected; rw [h]
  unfold State.takeByte
  cases hb : s.link.rxBuf with
  | none =>
    have h0 := none_ s hb
    dsimp only
    split
    · have h1 : (s.withRx (some [])).collected = 1 := some_ _ [] rfl
      exact key _ 0 (by omega) (by omega) (by omega)
    · exact key s 0 hs (by omega) (by omega)
  | some buf =>
    have h0 := some_ s buf hb
    have hl : (buf ++ [b]).length = buf.length + 1 := by simp
    dsimp only
    split
    · rename_i hv
      have h1 : (s.withRx (some (buf ++ [b]))).collected = (buf ++ [b]).length + 1 := some_ _ _ rfl
      have h2 := rxVerdict_more hv
      refine key (s.withRx (some (buf ++ [b]))) 0 ?_ ?_ ?_ <;> omega
    · refine key _ (buf ++ [b]).length ?_ ?_ ?_ <;> rw [none_ _ rfl] <;> omega
    · refine key _ (buf ++ [b]).length ?_ ?_ ?_ <;> rw [none_ _ rfl] <;> omega
    · rename_i r _
      have h1 : (((s.withRx none).enqueue r).dispatchAll).collected = 0 := none_ _ (by
        unfold State.dispatchAll
        rw [(dispatchLoop_rx _ _).2.2.1]
        unfold State.enqueue
        split <;> rfl)
      refine key (((s.withRx none).enqueue r).dispatchAll) 0 ?_ ?_ ?_ <;> omega

/-- Any two amounts of fuel that cover the work give the same state. -/
theorem rxLoop_fuel (n m : Nat) (l : List Byte) (s : State) (hs : s.collected ≤ 245) (hn : s.rxWork l.length ≤ n)
    (hm : s.rxWork l.length ≤ m) : rxLoop n l s = rxLoop m l s := by
  induction n generalizing m l s with
  | zero =>
    have : l = [] ∨ False := by
      cases l with
      | nil => exact Or.inl rfl
      | cons a l => unfold State.rxWork at hn; simp at hn
    rcases this with rfl | h
    · cases m <;> rfl
    · exact h.elim
  | succ n ih =>
    cases l with
    | nil => cases m <;> rfl
    | cons b rest =>
      cases m with
      | zero => unfold State.rxWork at hm; simp at hm
      | succ m =>
        obtain ⟨h1, h2⟩ := takeByte_work b rest.length s hs
        unfold rxLoop
        dsimp only
        have hl : ((s.takeByte b).1 ++ rest).length = (s.takeByte b).1.length + rest.length := List.length_append
        exact ih m _ _ h1 (by rw [hl]; simp only [List.length_cons] at hn; omega)
          (by rw [hl]; simp only [List.length_cons] at hm; omega)

/-- The receiver's fuel covers any bytes that arrive, with a frame being collected or none. -/
theorem rxFuel_covers (s : State) (n : Nat) (hs : s.collected ≤ 245) : s.rxWork n ≤ rxFuel n := by
  unfold State.rxWork rxFuel
  omega

/-- One byte before more: the byte is taken, and the bytes it gives back are received before the rest (R175). -/
theorem rxLoop_cons (b : Byte) (rest : List Byte) (s : State) (hs : s.collected ≤ 245) :
    rxLoop (rxFuel (b :: rest).length) (b :: rest) s =
      rxLoop (rxFuel ((s.takeByte b).1 ++ rest).length) ((s.takeByte b).1 ++ rest) (s.takeByte b).2 := by
  obtain ⟨h1, h2⟩ := takeByte_work b rest.length s hs
  have hf := rxFuel_covers s (rest.length + 1) hs
  have hl : ((s.takeByte b).1 ++ rest).length = (s.takeByte b).1.length + rest.length := List.length_append
  obtain ⟨k, hk⟩ : ∃ k, rxFuel (b :: rest).length = k + 1 := ⟨rxFuel (b :: rest).length - 1, by unfold rxFuel; omega⟩
  rw [hk, rxLoop]
  refine rxLoop_fuel _ _ _ _ h1 ?_ (rxFuel_covers _ _ h1)
  rw [hl]
  simp only [List.length_cons] at hk
  omega

end Sys2Proof.Machine
end

