-- ==== Sys2Proof/Laws/Sessions.lean ====
section
/-! SUPPORT. What the end of a proving session and a rejection within a run do (R164, R166, R170, R171). -/

namespace Sys2Proof.Machine

/-- R170, R171: the end of a run, whatever its status. -/
theorem endRun_over (p : Session) (st : Status) (s : State) : s.RunOver (s.endRun p st) p st := by
  refine ⟨_, rfl, ?_, joinNotice_with _ _⟩
  unfold State.SameButNotices State.setChainState
  rw [State.joinNotice_eq]
  rfl

/-- The end of a run reads the tag and the results of its session alone. -/
theorem State.RunOver.congr {s t : State} {p q : Session} {st : Status} (h : s.RunOver t p st) (hp : q.tag = p.tag)
    (hr : q.results = p.results) : s.RunOver t q st := by
  obtain ⟨u, hu, hs, hn⟩ := h
  exact ⟨u, hu, by unfold State.sessionOver at *; rw [hp, hr]; exact hs, hn⟩

/-- The end of a run leaves the cards. -/
theorem endRun_ring (p : Session) (st : Status) (s : State) :
    (s.endRun p st).ring = s.ring ∧ (s.endRun p st).freeCount = s.freeCount := by
  unfold State.endRun
  rw [(Ripple.finish _).ring, (Ripple.finish _).freeCount]
  unfold State.setChainState
  rw [State.joinNotice_eq]
  exact ⟨rfl, rfl⟩

/-- R164, R171: the end of a session in WAITING, before the consequences. -/
theorem endWaiting_eq (p : Session) (st : Status) (s : State) : s.endWaiting p st = s.sessionOver p s.chain.st st [] := by
  simp [State.endWaiting, State.sessionOver, State.wantLook, State.refuse, State.reply, State.withSession]

/-- R166: a rejection counts itself and sets the next frame; one of test frame 0 loses the readback as well. -/
theorem afterRejected_eq (p : Session) : p.afterRejected = { p with
    rejected := p.rejected + 1, next := p.afterRejected.next, readback := p.readback && p.next != .test 0 } := by
  unfold Session.afterRejected
  rcases hn : p.next with (_ | k) | ⟨k, n⟩ <;> simp

end Sys2Proof.Machine
end

