-- ==== Sys2Proof/Laws/Starts.lean ====
section
/-! SUPPORT. The notice pending set a warm or soft start leaves (R188, R195): the chain, and what the start changed. -/

namespace Sys2Proof.Machine

/-- R185: what the notice pending set holds after a join. -/
theorem mem_joinNotice (s : State) (o x : Obj) :
    x ∈ (s.joinNotice o).link.notices ↔ x ∈ s.link.notices ∨ (x = o ∧ s.tables.mask.on o = true) := by
  rw [State.joinNotice_notices]
  by_cases hm : s.tables.mask.on o = true <;> by_cases ho : o ∈ s.link.notices <;> simp [hm, ho]
  rintro rfl; exact ho

/-- From `s` to `t` the objects of `p` have joined, as far as their kinds are not masked, and nothing else has happened. -/
structure Joined (s t : State) (p : Obj → Prop) : Prop where
  same : State.SameButNotices s t
  mem : ∀ o, o ∈ t.link.notices ↔ o ∈ s.link.notices ∨ (p o ∧ s.tables.mask.on o = true)

namespace Joined

variable {s t u : State} {p q : Obj → Prop}

theorem refl (s : State) : Joined s s fun _ => False := ⟨rfl, by simp⟩

theorem tables (h : Joined s t p) : t.tables = s.tables := (congrArg State.tables h.same :)

theorem trans (h : Joined s t p) (k : Joined t u q) : Joined s u fun o => p o ∨ q o := by
  refine ⟨?_, fun o => ?_⟩
  · have a := h.same; have b := k.same
    unfold State.SameButNotices at *
    conv_rhs => rw [← a, ← b]
  · rw [k.mem, h.mem, h.tables]; tauto

theorem congr (h : Joined s t p) (hpq : ∀ o, p o ↔ q o) : Joined s t q := ⟨h.same, fun o => by rw [h.mem, hpq]⟩

/-- A join made where a condition holds. -/
theorem join (s : State) (c : Prop) [Decidable c] (x : Obj) :
    Joined s (if c then s.joinNotice x else s) fun o => c ∧ o = x := by
  split
  · rename_i hc
    exact ⟨by rw [State.joinNotice_eq]; rfl, fun o => by rw [mem_joinNotice]; constructor <;> (intro h; aesop)⟩
  · rename_i hc
    exact (refl s).congr fun o => by simp [hc]

/-- A walk over numbers: each joins its object where its condition, which the walk does not change, holds. -/
theorem foldl {α : Type} (f : State → α → State) (p : α → Obj → Prop) (hf : ∀ t a, Joined t (f t a) (p a)) (l : List α) (s : State) :
    Joined s (l.foldl f s) fun o => ∃ a ∈ l, p a o := by
  induction l generalizing s with
  | nil => exact (refl s).congr (by simp)
  | cons a l ih => exact ((hf s a).trans (ih _)).congr (by simp)

end Joined


/-- R69: a number has turned stale, or has come to be mapped or unmapped, exactly where INPUTS is among what a start changed. -/
theorem inputs_turned (s u : State) :
    ((s.inputsRecord.zip u.inputsRecord).any fun x => inputTurned x.1 x.2) = true ↔ s.StartChanges u .inputs := by
  unfold State.inputsRecord
  rw [List.zip_map', List.any_map, List.any_eq_true]
  simp only [List.mem_range, Function.comp, State.StartChanges]
  refine exists_congr fun n => ?_
  rw [show (n < 32) ↔ (n ≤ 31) by omega]
  refine and_congr_right fun _ => ?_
  cases s.tables.findPos (· == .inp n) <;> cases u.tables.findPos (· == .inp n) <;>
    simp [inputTurned, State.inputAt, State.staleAt]

/-- R1: a valve's record, its table fields included, is the same in two states. -/
theorem sameValve_iff (s u : State) (v : Nat) : s.sameValve u v = true ↔
    (u.valve v).shown = (s.valve v).shown ∧ u.tables.valve v = s.tables.valve v ∧ u.tables.drivePos v = s.tables.drivePos v
      ∧ u.tables.openPos v = s.tables.openPos v ∧ u.tables.closedPos v = s.tables.closedPos v := by
  simp only [State.sameValve, TableStore.posFields, Bool.and_eq_true, beq_iff_eq, Prod.mk.injEq, and_assoc]
  simp only [eq_comm]

/-- Section 1.4: an owner's record, the table fields of a branch included, is the same in two states. -/
theorem sameOwner_iff (s u : State) (o : Owner) : s.sameOwner u o = true ↔
    (u.owner o).shown = (s.owner o).shown ∧ ∀ b, o = .branch b → u.tables.branch b = s.tables.branch b := by
  unfold State.sameOwner
  cases o <;> simp only [Bool.and_eq_true, beq_iff_eq, Owner.branch.injEq, forall_eq', reduceCtorEq, IsEmpty.forall_iff, implies_true,
    and_true] <;> simp only [eq_comm]

theorem mem_allOwners : (∀ b, .branch b ∈ allOwners ↔ b < 48) ∧ (∀ g, .segment g ∈ allOwners ↔ g < 4) ∧ .main ∈ allOwners := by
  simp [allOwners, branchOwners, wideOwners]

/-- The notice objects of owners. -/
theorem obj_eq (o : Owner) : (∀ v, Obj.valve v ≠ o.obj) ∧ (∀ z, Obj.zone z ≠ o.obj) ∧ (∀ k, Obj.job k ≠ o.obj) ∧ Obj.chain ≠ o.obj
    ∧ Obj.inputs ≠ o.obj ∧ (∀ b, Obj.branch b = o.obj ↔ o = .branch b) ∧ (∀ g, Obj.segment g = o.obj ↔ o = .segment g)
    ∧ (Obj.main = o.obj ↔ o = .main) := by
  cases o <;> simp [Owner.obj, eq_comm]

/-- A join made unless a condition holds. -/
theorem Joined.joinUnless (s : State) (c : Prop) [Decidable c] (x : Obj) :
    Joined s (if c then s else s.joinNotice x) fun o => ¬ c ∧ o = x := by
  by_cases h : c
  · rw [if_pos h]; exact (Joined.refl s).congr fun o => by simp [h]
  · rw [if_neg h]; simpa [h] using Joined.join s True x

/-- What joins at a warm or soft start, the chain apart, is what the start changed (log 21). -/
theorem joinStartNotices_joined (s u : State) :
    Joined u (u.joinStartNotices s) fun o => o ≠ .chain ∧ s.StartChanges u o := by
  have h1 : Joined u (u.joinInputsIfStale s) _ := Joined.join u _ .inputs
  have h2 := Joined.foldl _ _ (fun t v => Joined.joinUnless t (s.sameValve u v = true) (.valve v)) valveNumbers (u.joinInputsIfStale s)
  have h3 := Joined.foldl _ _ (fun t o => Joined.joinUnless t (s.sameOwner u o = true) o.obj) allOwners
  have h4 := Joined.foldl _ _ (fun t z => Joined.joinUnless t ((s.zone z).st = (u.zone z).st) (.zone z)) zoneNumbers
  have h5 := Joined.foldl _ _ (fun t k => Joined.join t ((u.job k).isSome = true) (.job k)) jobSlotNumbers
  refine ((((h1.trans h2).trans (h3 _)).trans (h4 _)).trans (h5 _)).congr fun o => ?_
  rw [inputs_turned]
  simp only [sameValve_iff, sameOwner_iff, valveNumbers, zoneNumbers, jobSlotNumbers, List.mem_range]
  have ho := obj_eq
  cases o <;> simp only [ho, ne_eq, reduceCtorEq, not_false_eq_true, not_true_eq_false, true_and, and_false, or_false, false_or,
    exists_false, and_true, exists_eq_right_right, exists_eq_right_right', Obj.valve.injEq, Obj.zone.injEq, Obj.job.injEq,
    State.StartChanges, mem_allOwners, Owner.branch.injEq, forall_eq', IsEmpty.forall_iff, implies_true, not_and_or,
    Nat.lt_succ_iff (n := 105), Nat.lt_succ_iff (n := 63), Nat.lt_succ_iff (n := 47),
    Nat.lt_succ_iff (n := 3), Nat.lt_succ_iff (n := 15), eq_comm]

/-- What a start changed does not depend on the notice pending set. -/
theorem startChanges_congr {s t u : State} (h : State.SameButNotices t u) (o : Obj) : s.StartChanges u o ↔ s.StartChanges t o := by
  unfold State.SameButNotices at h
  rw [← h]
  cases o <;> rfl

/-- The notice pending set a warm or soft start leaves, before the consequences (R188, R195; log 21). -/
theorem mem_startNotices {s t : State} (h : t.link.notices = if t.tables.mask.chain then [.chain] else []) (o : Obj) :
    o ∈ (t.joinStartNotices s).link.notices ↔ t.tables.mask.on o = true ∧ s.StartChanges (t.joinStartNotices s) o := by
  have hj := joinStartNotices_joined s t
  rw [startChanges_congr hj.same, hj.mem, h]
  by_cases hc : o = .chain
  · subst hc
    cases hm : t.tables.mask.chain <;> simp [NoticeMask.on, hm, State.StartChanges]
  · cases t.tables.mask.chain <;> simp [hc, and_comm]

/-- R195, R196: the set a start that keeps the table store leaves. -/
theorem warmStart_notices (kind : StartKind) (rate : Bool) (s : State) : ∃ u : State, s.warmStart kind rate = u.finish
    ∧ u.tables = s.tables ∧ ∀ o, o ∈ u.link.notices ↔ s.tables.mask.on o = true ∧ s.StartChanges u o := by
  have ht : s.cutFrame.cutCommit.tables = s.tables := by
    unfold State.cutCommit
    rw [State.cutFrame_eq]
    dsimp only
    split <;> rfl
  refine ⟨_, rfl, ?_, fun o => ?_⟩
  · rw [(joinStartNotices_joined s _).tables]
    exact ht
  · rw [mem_startNotices (by rfl)]
    rw [← ht]; rfl

/-- R196: the set a reload of the table store leaves, before the zones kept WET are handed over. -/
theorem tablesStart_notices (rate : Bool) (s : State) : ∃ x : State,
    s.tablesStart rate = (zoneNumbers.foldl (fun t z => State.handKept z s t) x).finish
    ∧ ∀ o, o ∈ x.link.notices ↔ x.tables.mask.on o = true ∧ s.StartChanges x o := by
  refine ⟨_, rfl, fun o => ?_⟩
  rw [mem_startNotices (by rfl), (joinStartNotices_joined s _).tables]

end Sys2Proof.Machine
end

