-- ==== Sys2Proof/Tests/Slice0.lean ====
section
/-! SUPPORT. The model's own tests: ill-formed commands that the check refuses, single steps on small states, and for each
statement of Certificates/Slice0 with hypotheses a state and operands that meet them. -/

namespace Sys2Proof.Tests

open Sys2Proof.Machine

set_option Elab.async false

/-! ## Ill-formed commands (WellFormed.lean) -/

theorem test_illFormed_link : ∀ i ∈ [Instr.unknownKind 0 256, .unknownKind 0 0x10, .frameReceived []], WellFormed.check i = false := by decide

theorem test_illFormed_tables : ∀ i ∈ [Instr.defineCard 0 256 1 8, .defineCard 0 0 256 8, .defineCard 0 0 1 256,
    .mapPosition 0 256 0 0 0 0, .mapPosition 0 0 256 0 0 0, .mapPosition 0 0 0 256 0 0, .mapPosition 0 0 0 0 256 0,
    .mapPosition 0 0 0 0 0 256, .defineValve 0 256 1 100 0, .defineValve 0 0 256 100 0, .defineValve 0 0 1 65536 0,
    .defineValve 0 0 1 100 256, .defineMeter 0 256 1 1 1, .defineMeter 0 0 256 1 1, .defineMeter 0 0 1 65536 1,
    .defineMeter 0 0 1 1 256, .defineBranch 0 256 1 0 0 0, .defineBranch 0 0 256 0 0 0, .defineBranch 0 0 1 256 0 0,
    .defineBranch 0 0 1 0 256 0, .defineBranch 0 0 1 0 0 65536], WellFormed.check i = false := by decide

theorem test_illFormed_zones : ∀ i ∈ [Instr.defineZone 0 256 1 0 1 1 0 0 0 1 0, .defineZone 0 0 256 0 1 1 0 0 0 1 0,
    .defineZone 0 0 1 256 1 1 0 0 0 1 0, .defineZone 0 0 1 0 256 1 0 0 0 1 0, .defineZone 0 0 1 0 1 256 0 0 0 1 0,
    .defineZone 0 0 1 0 1 1 256 0 0 1 0, .defineZone 0 0 1 0 1 1 0 256 0 1 0, .defineZone 0 0 1 0 1 1 0 0 256 1 0,
    .defineZone 0 0 1 0 1 1 0 0 0 65536 0, .defineZone 0 0 1 0 1 1 0 0 0 1 65536, .setPlan 0 256 [], .setPlan 0 0 [(256, 0)],
    .setPlan 0 0 [(0, 256)], .setPlan 0 0 (List.replicate 120 (0, 0))], WellFormed.check i = false := by decide +kernel

theorem test_illFormed_settings : ∀ i ∈ [Instr.setLimits 0 65536 0 1 100 0 0 0 0, .setLimits 0 1 65536 1 100 0 0 0 0,
    .setLimits 0 1 0 256 100 0 0 0 0, .setLimits 0 1 0 1 65536 0 0 0 0, .setLimits 0 1 0 1 100 65536 0 0 0,
    .setLimits 0 1 0 1 100 0 65536 0 0, .setLimits 0 1 0 1 100 0 0 65536 0, .setLimits 0 1 0 1 100 0 0 0 65536,
    .setScan 0 256 0 5 0 0 10 0, .setScan 0 0 256 5 0 0 10 0, .setScan 0 0 0 65536 0 0 10 0, .setScan 0 0 0 5 256 0 10 0,
    .setScan 0 0 0 5 0 256 10 0, .setScan 0 0 0 5 0 0 65536 0, .setScan 0 0 0 5 0 0 10 256, .setNotices 0 256 0 0 0 0 0 0 0,
    .setNotices 0 0 256 0 0 0 0 0 0, .setNotices 0 0 0 256 0 0 0 0 0, .setNotices 0 0 0 0 256 0 0 0 0,
    .setNotices 0 0 0 0 0 256 0 0 0, .setNotices 0 0 0 0 0 0 256 0 0, .setNotices 0 0 0 0 0 0 0 256 0,
    .setNotices 0 0 0 0 0 0 0 0 256, .lock 0 256 0 0, .lock 0 0 256 0, .lock 0 0 0 256, .restartRuntime 0 256,
    .restartRuntime 0 1], WellFormed.check i = false := by decide

theorem test_illFormed_requests : ∀ i ∈ [Instr.activate 0 256, .deactivate 0 256, .hold 0 256 0, .hold 0 0 256, .unhold 0 256 0,
    .unhold 0 0 256, .ackZone 0 256 0, .ackZone 0 0 256, .ackZone 0 0 1, .ackZoneDeclareDry 0 256, .releaseJob 0 256,
    .clearFault 0 256, .zoneEnable 0 256 0, .zoneEnable 0 0 256, .valveMove 0 256 0, .valveMove 0 0 256, .service 0 256 0,
    .prove 0 256 0 2, .prove 0 0 256 2, .prove 0 0 0 256, .writeOutputs 0 [(256, 0)], .writeOutputs 0 [(0, 256)],
    .writeOutputs 0 (List.replicate 120 (0, 0)), .readPositions 0 256 1, .readPositions 0 0 256, .readObject 0 256 0,
    .readObject 0 0 256, .readWindow 0 256 1, .readWindow 0 0 256, .readMoves 0 256 1, .readMoves 0 0 256],
    WellFormed.check i = false := by decide +kernel

theorem test_illFormed_frames : ∀ l ∈ [List.replicate 7 false, List.replicate 265 false], ∀ i ∈ [Instr.scanAccepted l .valvesZonesFlow,
    .scanRejected l, .serviceCommandAccepted l, .serviceFetchAccepted l, .serviceFrameRejected l, .adoptionServiceAccepted l,
    .adoptionEchoAccepted l, .adoptionFrameRejected l, .probeAccepted l .valvesZonesFlow, .probeRejected l, .testFrameAccepted l,
    .reloadFrameAccepted l, .provingFrameRejected l], WellFormed.check i = false := by decide +kernel

theorem test_illFormed_timers : ∀ i ∈ [Instr.strokeTimeArrival 106, .strokeTimeout 106, .drainTimerEnd (.branch 48),
    .fillTimerEnd (.segment 4), .spacingEnd (.segmentSame 4)], WellFormed.check i = false := by decide

theorem test_wellFormed : ∀ i ∈ [Instr.defineCard 0 255 255 255, .ackZone 0 63 0, .restartRuntime 0 0, .hold 0 2 255,
    .drainTimerEnd (.branch 47), .spacingEnd (.segmentSame 3), .strokeTimeout 105, .unknownKind 0 3,
    .scanAccepted (List.replicate 264 false) .valvesZonesFlow, .setPlan 0 63 (List.replicate 119 (255, 255))],
    WellFormed.check i = true := by decide +kernel

/-! ## Small states -/

/-- The state after a command; the state itself where it stops. -/
def after (c : Instr) (s : State) : State :=
  match exec c s with
  | .next t => t
  | _ => s

/-- Tables of a small rack: three cards; valves 14 and 15 with both switches, fail OPEN; valves 0 and 1 switchless; branch 7 with
valves 14 and 15; DRIP zone 5 with plan branch 7; BALANCE zone 20 on branch 7. -/
def benchTables : TableStore :=
  { TableStore.empty with
    cards := [16, 16, 8]
    map := [⟨0, 0, .drive 14⟩, ⟨0, 1, .openSw 14⟩, ⟨0, 2, .closedSw 14⟩, ⟨0, 3, .drive 15⟩, ⟨0, 4, .openSw 15⟩,
      ⟨0, 5, .closedSw 15⟩, ⟨0, 7, .drip 5 false⟩, ⟨0, 8, .flow 14⟩, ⟨1, 0, .out 0⟩, ⟨1, 1, .inp 0⟩, ⟨1, 2, .drive 0⟩,
      ⟨1, 3, .drive 1⟩]
    valves := (((TableStore.empty.valves.put 14 ⟨true, 800, .opened⟩).put 15 ⟨true, 800, .opened⟩).put 0
      ⟨true, 3000, .closed⟩).put 1 ⟨true, 3000, .closed⟩
    meters := TableStore.empty.meters.put 14 ⟨true, 100, 2⟩
    branches := TableStore.empty.branches.put 7 ⟨true, 0, false, .close, 300⟩
    zones := (TableStore.empty.zones.put 5 ⟨true, .drip, 3, 10, true, true, 0, 1, 0, true⟩).put 20
      ⟨true, .balance, 3, 10, true, false, 7, 10, 40, true⟩
    plans := TableStore.empty.plans.put 5 [.branch 7] }

/-- The bench: those tables, the chain RUNNING and adopted with the image all 0, branch 7 INACTIVE, both its valves OPEN. -/
def bench : State :=
  { State.reset with
    tables := benchTables
    chain := { Chain.start .running with adopted := true }
    image := { Image.start 40 3 with
      ret := (List.replicate 40 false |>.set 1 true).set 4 true, fresh := true, lastFrameAt := some 0 }
    ring := [⟨List.replicate 16 false, List.replicate 16 false, 0, List.replicate 16 false⟩,
      ⟨List.replicate 16 false, List.replicate 16 false, 0, List.replicate 16 false⟩,
      ⟨List.replicate 8 false, List.replicate 8 false, 0, List.replicate 8 false⟩]
    periodicFrom := some 0
    link := Link.start []
    zones := (State.reset.zones.put 5 (ZoneRec.fresh .dry)).put 20 (ZoneRec.fresh .dry)
    valves := (((State.reset.valves.put 14 (ValveRec.fresh .opened)).put 15 (ValveRec.fresh .opened)).put 0
      (ValveRec.fresh .closed)).put 1 (ValveRec.fresh .closed)
    owners := State.reset.owners.put 7 (OwnerRec.start .inactive true) }

/-- The bench with a zone in another state. -/
def benchZone (z : Nat) (st : ZoneState) : State := bench.setZone z (ZoneRec.fresh st)

/-- The bench with valve 14's record replaced. -/
def benchValve (r : ValveRec) : State := { bench with valves := bench.valves.put 14 r }

/-- The bench with an owner's record replaced. -/
def benchOwner (o : Owner) (r : OwnerRec) : State := { bench with owners := bench.owners.put o.index r }

/-- The bench with a job of zone 5 in slot 0. -/
def benchJob (st : ZoneState) : State :=
  (benchZone 5 st).setJob 0 (some ⟨5, 0, [⟨.branch 7, none, .absent, .waiting⟩], .active⟩)

/-- A frame of a purpose over the whole chain, or over the cards' words, sent at 0 with the marker 0xA5. -/
def frameOf (p : Purpose) : Frame := ⟨p, false, List.replicate (if p.kind = .service then 48 else 40) false, 0, 2, false, 50⟩

/-- What comes back of such a frame with the marker intact, and with the next marker. -/
def returnOf (p : Purpose) : List Bool := List.replicate (frameOf p).payload.length false ++ markerBits false
def brokenReturnOf (p : Purpose) : List Bool := List.replicate (frameOf p).payload.length false ++ markerBits true

/-- The bench in a chain state with such a frame in flight. -/
def benchFlight (st : ChainState) (p : Purpose) : State :=
  { bench with chain := { bench.chain with st := st, inFlight := some (frameOf p) } }

/-- A proving session over the bench, in phase FRAMES. -/
def benchSession (n : NextFrame) : Session :=
  ⟨9, false, 0, 2, false, true, false, n, true, 1, 0, 0, false, List.replicate 3 CardProof.start⟩

theorem bench_ready : bench.Ready := ⟨by decide +kernel, by decide +kernel⟩
theorem bench_unlocked (lock : Bool) (h : lock = false) : bench.Unlocked lock := ⟨h, rfl⟩

theorem noJobs_of {s : State} (h : s.jobs = Table.fill 16 none) : s.NoJobs := by
  intro k
  unfold State.job Table.getD
  rw [h, Table.fill, Vector.toList_replicate, List.getD_eq_getElem?_getD, List.getElem?_replicate]
  split <;> rfl

theorem good_returns (st : ChainState) (p : Purpose) (h : (frameOf p).accepts (returnOf p) = true) :
    (benchFlight st p).Returns p (frameOf p) (returnOf p) true := ⟨⟨rfl, rfl, rfl, rfl⟩, h⟩

theorem bad_returns (st : ChainState) (p : Purpose) (h : (frameOf p).accepts (brokenReturnOf p) = false) :
    (benchFlight st p).Returns p (frameOf p) (brokenReturnOf p) false := ⟨⟨rfl, rfl, rfl, rfl⟩, h⟩

/-! ## The hypotheses of the statements are met -/

theorem witness_EmptyQueueTicks :
    (bench.pending = [] ∧ bench.power.retainedLost = false)
    ∧ ∃ s : State, s.pending = [] ∧ s.power.retainedLost = true :=
  ⟨⟨rfl, rfl⟩, { bench with power := ⟨false, false, true⟩ }, rfl, rfl⟩

theorem witness_PinsHoldThePart : ∀ p ∈ [⟨true, false, false⟩, ⟨false, true, false⟩, (⟨false, false, true⟩ : Power)],
    powerCommand .periodic = false ∧ Power.running p = false := by decide

theorem witness_ColdStartSequence :
    (∃ s : State, ∃ T, s.commit = none ∧ s.stored.load = some T ∧ T.cards = [16, 16, 8])
    ∧ (∃ s : State, s.commit ≠ none ∧ s.stored.load ≠ none) ∧ bench.stored.load = none
    ∧ (∃ s t : State, s ≠ t ∧ s.stored = t.stored ∧ s.commit.isSome = t.commit.isSome ∧ s.ring = t.ring
      ∧ s.freeCount = t.freeCount ∧ s.chain.inFlight = t.chain.inFlight ∧ s.pending = t.pending) :=
  ⟨⟨{ bench with stored := .whole benchTables benchTables.crc }, benchTables, rfl, by simp [StoredCopy.load], rfl⟩,
   ⟨{ bench with stored := .whole benchTables benchTables.crc, commit := some ⟨0, benchTables, 0⟩ }, by simp,
     by simp [StoredCopy.load]⟩, rfl,
   ⟨bench, bench.trigger, fun h => (nomatch (congrArg State.scanDue h : false = true)), by and_intros <;> rfl⟩⟩

/-- A bench held by RESET_N, with zone 5 in a state. -/
def heldBench (st : ZoneState) : State := { benchZone 5 st with power := ⟨true, false, false⟩ }

theorem witness_WarmStartKeepsRetained :
    ((heldBench .wet).power.haltedBy .resetRise = true ∧ ((heldBench .wet).power.after .resetRise).running = true
      ∧ ((heldBench .wet).zone 5).st = .wet ∧ ((heldBench .acked).zone 5).st = .acked
      ∧ ((heldBench .suspect).zone 5).st = .suspect ∧ WellFormed.owner (.segment 3) = true ∧ (3 : Nat) < 4)
    ∧ (heldBench .wet).commit = none ∧ { heldBench .wet with commit := some ⟨0, benchTables, 0⟩ }.commit ≠ none
    ∧ (∃ (c : Nat) (r : CardRegs), (heldBench .wet).ring[c]? = some r ∧ (heldBench .wet).tables.cards[c]? = some r.shift.length)
    ∧ (heldBench .wet).chain.inFlight = none
    ∧ (∃ f, (benchFlight .running .command).chain.inFlight = some f ∧ f.purpose.kind ≠ .scan)
    ∧ (∃ p : Power, p.haltedBy .vmainReturn = true ∧ (p.after .vmainReturn).running = true) :=
  ⟨by decide +kernel, rfl, by simp, ⟨2, ⟨List.replicate 8 false, List.replicate 8 false, 0, List.replicate 8 false⟩, rfl, rfl⟩,
   rfl, ⟨frameOf .command, rfl, by decide⟩, ⟨⟨false, true, false⟩, rfl, rfl⟩⟩

/-- A warm start empties the notice pending set; the chain and what the start changed join. -/
theorem test_warmStart_notices :
    ∀ n ∈ [(after (.warmStart .resetRise false)
        { heldBench .suspect with link := { bench.link with notices := [.job 3, .zone 20] } }).link.notices],
      Obj.chain ∈ n ∧ Obj.inputs ∈ n ∧ Obj.valve 14 ∈ n ∧ Obj.zone 5 ∈ n ∧ Obj.zone 20 ∉ n ∧ Obj.job 3 ∉ n := by decide +kernel

/-- The bench with its RESTART reply being sent. -/
def restarting (scope : Scope) : State := { bench with link := { bench.link with restart := .sending scope } }

theorem witness_SoftStartByScope :
    (restarting .runtime).power.running = true ∧ (restarting .runtime).link.restart = .sending .runtime
    ∧ (restarting .tables).link.restart = .sending .tables
    ∧ (∃ s : State, ∃ T, s.link.restart = .sending .tables ∧ s.commit = none ∧ s.stored.load = some T)
    ∧ (∃ s : State, s.link.restart = .sending .tables ∧ s.commit ≠ none)
    ∧ (restarting .tables).stored.load = none :=
  ⟨rfl, rfl, rfl,
   ⟨{ restarting .tables with stored := .whole benchTables benchTables.crc }, benchTables, rfl, rfl, by simp [StoredCopy.load]⟩,
   ⟨{ restarting .tables with commit := some ⟨0, benchTables, 0⟩ }, rfl, by simp⟩, rfl⟩

/-- The same for scope TABLES over a table store, zone 5 in a state, branch 7 held by the host. -/
def reloading (T : TableStore) (st : ZoneState) : State :=
  { restarting .tables with
    tables := T
    zones := bench.zones.put 5 ⟨st, 1, 2, some .sense, some 0⟩
    owners := bench.owners.put 7 { OwnerRec.start .isolated true with hostHold := true, holds := 1 } }

/-- The bench's tables without the branch. -/
def bareTables : TableStore := { benchTables with branches := TableStore.empty.branches, plans := TableStore.empty.plans }

theorem witness_SoftStartByScope_kept : WellFormed.owner (.branch 7) = true
    ∧ ((benchJob .wet).job 0).isSome = true ∧ ((benchZone 5 .wet).zone 5).st = .wet ∧ ((benchZone 5 .suspect).zone 5).st = .suspect
    ∧ (bench.zone 5).st = .dry ∧ (bench.zone 63).st = .undefined ∧ (restarting .runtime).chain.inFlight = none
    ∧ (benchFlight .running .command).chain.inFlight.map (·.purpose.kind) = some .service := by decide +kernel

def reloaded (T : TableStore) (st : ZoneState) : State := after (.softStart false) (reloading T st)

theorem witness_SoftStartByScope_tables : (reloading benchTables .wet).link.restart = .sending .tables
    ∧ ((reloaded benchTables .wet).tables.branch 7).defined = true
    ∧ ((reloading benchTables .wet).zone 5).st = .wet ∧ ((reloaded benchTables .wet).tables.zone 5).auto = true
    ∧ (reloaded benchTables .wet).tables.plan 5 ≠ [] ∧ (reloading benchTables .wet).job 0 = none
    ∧ ((reloaded benchTables .wet).job 0).map (·.zone) = some 5
    ∧ (reloaded benchTables .wet).zone 5 = ⟨.wet, 0, 0, some .sense, some 0⟩
    ∧ ((reloaded benchTables .wet).owner (.branch 7)).holds = 2 := by decide +kernel

theorem witness_SoftStartByScope_bare : ((reloaded bareTables .acked).tables.branch 7).defined = false
    ∧ ((reloaded bareTables .acked).owner (.branch 7)).hostHold = false ∧ ((reloaded bareTables .acked).owner (.branch 7)).holds = 0
    ∧ ((reloaded bareTables .acked).zone 5).st = .acked ∧ (reloaded bareTables .acked).job 0 = none := by decide +kernel

/-- The bench with a command waiting and one entry in the shock window. -/
def busyBench : State :=
  { bench with pending := [.periodic], sched := { bench.sched with window := [⟨14, true, .closeMove, 0, 75⟩] } }

theorem mapDisjoint_of (m : List MapEntry)
    (h : m.Pairwise fun a b => a.card ≠ b.card ∨ a.offset + a.fn.width ≤ b.offset ∨ b.offset + b.fn.width ≤ a.offset) :
    MapDisjoint m := by
  refine h.imp fun {a b} h card offset ⟨ha, hb⟩ => ?_
  simp only [MapEntry.covers, Bool.and_eq_true, decide_eq_true_eq, beq_iff_eq] at ha hb
  omega

theorem bench_sound : benchTables.Sound := by
  refine ⟨?_, ?_, ?_, mapDisjoint_of _ (by decide), ?_⟩
  · unfold Limits.InRange; decide
  · unfold ScanSettings.InRange; decide
  · unfold CardsInRange; decide
  · unfold MapInside; decide

theorem witness_StepKeeps : (∃ t, step busyBench = .next t) ∧ busyBench.TablesSound ∧ busyBench.NoticesOnce
    ∧ busyBench.WindowCounted ∧ busyBench.WindowBudgeted ∧ busyBench.Bounded
    ∧ (∀ rate, busyBench.pending.head? ≠ some (.coldStart rate)) := by
  refine ⟨⟨_, rfl⟩, ⟨bench_sound, ⟨fun r h => (nomatch h), fun T crc h => (nomatch h)⟩⟩, ?_, ?_, Or.inr rfl, ?_,
    fun rate h => (nomatch h)⟩
  · exact List.nodup_nil
  · show 1 ≤ 8; decide
  · unfold State.Bounded; decide

theorem witness_FramesSpellRequests : ([] : List (Byte × Byte)).length ≤ 255 ∧ (List.replicate 255 ((0 : Byte), (1 : Byte))).length ≤ 255
    ∧ [(0 : Byte)].length ≠ 0 ∧ [(0 : Byte), 0].length ≠ 3 ∧ (List.replicate 16 (0 : Byte)).length ≠ 15
    ∧ [(7 : Byte), 0, 1].length ≠ 2 * (1 : Byte).toNat ∧ 0xFF ∉ requestKinds ∧ 0x44 ∉ requestKinds ∧ 0 ∉ requestKinds := by
  decide +kernel

theorem witness_FrameRoundTrip : bench.power.running = true ∧ bench.link.rxBuf = none ∧ 255 < 256
    ∧ (List.replicate 240 (0 : Byte)).length ≤ 240 := ⟨rfl, rfl, by decide, by rw [List.length_replicate]⟩

/-- The bench with replies and requests waiting. -/
def crowded (n : Nat) : State :=
  { bench with link := { bench.link with replies := List.replicate 2 ⟨1, 0, .ok, []⟩, rxQueue := List.replicate n (.request (.identify 0)) } }

theorem witness_RequestsWaitTheirTurn : requestCommand (.identify 0) = true ∧ (crowded 3).power.running = true
    ∧ (crowded 3).canDispatch = false ∧ (crowded 3).link.rxQueue.length < 4
    ∧ (crowded 4).canDispatch = false ∧ 4 ≤ (crowded 4).link.rxQueue.length ∧ bench.Ready ∧ 0x03 ∉ requestKinds :=
  ⟨rfl, rfl, by decide, by decide, by decide, by decide, bench_ready, by decide⟩

theorem witness_FramesDiscarded : bench.power.running = true ∧ bench.link.rxBuf = none ∧ (1 : Byte).toNat < 2
    ∧ 242 < (243 : Byte).toNat ∧ crc16 [2, 1, 0] ≠ ((0 : Byte) ++ (0 : Byte))
    ∧ (∃ s : State, ∃ buf, s.power.running = true ∧ s.link.rxBuf = some buf) :=
  ⟨rfl, rfl, by decide, by decide, by decide +kernel, { bench with link := { bench.link with rxBuf := some [4] } }, [4], rfl, rfl⟩

theorem witness_FramesDiscarded_search : [(0 : Byte), 1] ≠ [] ∧ 0xC5 ∉ [(0 : Byte), 1] ∧ 2 ≤ (3 : Byte).toNat ∧ (3 : Byte).toNat ≤ 242
    ∧ [(1 : Byte), 2, 3].length = (3 : Byte).toNat ∧ crc16 ((3 : Byte) :: [1, 2, 3]) ≠ (0 : Byte) ++ (0 : Byte)
    ∧ 0xC5 ∉ (3 : Byte) :: [1, 2, 3] ++ [0, 0] := by decide +kernel

theorem witness_TransmitterSends :
    (∃ s : State, ∃ r rest, s.power.running = true ∧ s.link.replies = r :: rest ∧ s.mayTransmit = true ∧ r.status ≠ .unknownKind
      ∧ s.link.rxQueue = [])
    ∧ (∃ s : State, ∃ o rest, s.power.running = true ∧ s.link.notices = o :: rest ∧ s.link.replies = [] ∧ s.mayTransmit = true) :=
  ⟨⟨crowded 0, _, _, rfl, rfl, rfl, by decide, rfl⟩, ⟨State.reset, _, _, rfl, rfl, rfl, rfl⟩⟩

theorem witness_ReadsOnlyReply : bench.Ready
    ∧ (31 ≤ 31 ∧ 31 < 32 ∧ 105 ≤ 105 ∧ 105 < 106 ∧ 39 < bench.tables.length ∧ bench.tables.length ≤ 40
      ∧ 63 < 64 ∧ 47 < 48 ∧ 3 < 4 ∧ 15 < 16 ∧ 96 < 97)
    ∧ (∃ n, (10, n) ∈ [(0, 64), (1, 48), (2, 4), (3, 1), (4, 106), (5, 16), (6, 1), (7, 1), (8, 16), (9, 97), (10, 64)] ∧ 63 < n)
    ∧ (∀ n, (10, n) ∈ [(0, 64), (1, 48), (2, 4), (3, 1), (4, 106), (5, 16), (6, 1), (7, 1), (8, 16), (9, 97), (10, 64)] → n ≤ 64) :=
  ⟨bench_ready, by decide, ⟨64, by decide, by decide⟩, by
    intro n h
    simp at h
    omega⟩

theorem witness_ReadsOnlyReply_records : (bench.job 0 = none ∧ ((benchJob .wet).job 0).isSome = true) ∧ ∀ b, Owner.main ≠ .branch b :=
  ⟨by decide +kernel, fun _ => by simp⟩

theorem witness_ConsequencesSpare : (∃ s : State, s.scanDue = true) ∧ bench.NoJobs
    ∧ ((benchValve (ValveRec.fresh .fault)).valve 14).st = .fault ∧ (benchValve (ValveRec.fresh .fault)).hasEntry 14 = false
    ∧ (bench.valve 105).st = .undefined ∧ bench.hasEntry 105 = false :=
  ⟨⟨bench.trigger, rfl⟩, noJobs_of rfl, by decide +kernel, rfl, by decide +kernel, rfl⟩

/-- Valve 14 is the one driven at position 0. -/
theorem bench_drive0 : ∀ v, benchTables.drivePos v = some 0 → v = 14 := by
  intro v h
  obtain ⟨e, he, hp⟩ := Option.map_eq_some_iff.1 h
  have hf := List.find?_some he
  have only : ∀ e ∈ benchTables.map, benchTables.posOf e.card e.offset = 0 → e.fn = .drive 14 := by decide +kernel
  rw [only e (List.mem_of_find?_eq_some he) hp] at hf
  exact (show 14 = v by simpa using hf).symm

theorem witness_ConsequencesSpare_output : ∀ s ∈ [benchValve (ValveRec.fresh .fault)], s.tables.drivePos 14 = some 0
    ∧ ∀ v, s.tables.drivePos v = some 0 → s.hasEntry v = false
      ∧ ((s.valve v).st = .fault ∨ (s.valve v).st = .unknown ∨ (s.valve v).st = .undefined) := by
  simp only [List.mem_singleton, forall_eq]
  refine ⟨by decide +kernel, fun v h => ?_⟩
  rw [bench_drive0 v h]
  decide +kernel

/-- The bench with a job of zone 5 in slot 0 whose branch has failed, its segment as the argument gives it. -/
def failedJob (segment : OwnerMode) : State :=
  { benchJob .wet with
    owners := (bench.owners.put 7 { OwnerRec.start .failed true with holds := 1 }).put 48 (OwnerRec.start segment true)
    activeJobs := 1 }

theorem witness_ConsequencesSpare_jobs : ((failedJob .opened).job 0).isSome = true
    ∧ (∀ j ∈ (failedJob .opened).job 0, j.entries.length ≤ 16)
    ∧ ((failedJob .opened).owner (.segment 0)).mode ≠ .noValves ∧ ((failedJob .noValves).owner (.segment 0)).mode = .noValves
    ∧ ((failedJob .noValves).owner .main).mode = .noValves
    ∧ (∀ j ∈ (failedJob .opened).finish.job 0, j.entries.map (·.status) = [.failed, .inProgress]
        ∧ j.entries.map (·.esc) = [.entry 1, .absent] ∧ j.entries.map (·.origin) = [none, some 0] ∧ j.st = .active
        ∧ (failedJob .opened).job 0 ≠ some j)
    ∧ ((failedJob .opened).finish.owner (.segment 0)).holds = 1
    ∧ (∀ j ∈ (failedJob .noValves).finish.job 0, j.entries.map (·.esc) = [.nothing] ∧ j.st = .uncontained)
    ∧ ((benchOwner (.branch 7) (OwnerRec.start .isolated true)).entryStatus (.branch 7)) = .done := by decide +kernel

theorem witness_ConsequencesSpare_branches : ∀ b, ((failedJob .opened).tables.branch b).segment ≤ 3 := by
  have h : ∀ d ∈ (failedJob .opened).tables.branches.toList, BranchDef.segment d ≤ 3 := by decide +kernel
  intro b
  by_cases hb : b < 48
  · exact h _ (by simp [TableStore.branch, Table.getD, hb])
  · simp [TableStore.branch, Table.getD, hb]; decide

theorem witness_ConsequencesSpare_look : { bench with sched := { bench.sched with lookDue := true } }.sched.lookDue = true
    ∧ (∃ s ∈ [{ failedJob .noValves with tables := { benchTables with scan := { benchTables.scan with holdOnWet := true } } }],
      0 < s.activeJobs ∧ s.finish.activeJobs = 0 ∧ s.tables.scan.holdOnWet = true) := by decide +kernel

theorem witness_DefineCardTaken : bench.Ready ∧ bench.Unlocked bench.locks.tables ∧ bench.tables.anyActivated = false ∧ bench.NoJobs
    ∧ bench.chain.session = none ∧ bench.chain.queue = []
    ∧ (3 ≤ bench.tables.cards.length ∧ (∀ e ∈ bench.tables.map, e.card = 3 → e.offset + e.fn.width ≤ takenWidth 7)
      ∧ (bench.tables.cards ++ [takenWidth 7]).sum ≤ 256)
    ∧ ((∀ e ∈ bench.tables.map, e.card = 0 → e.offset + e.fn.width ≤ takenWidth 65)
      ∧ (bench.tables.cards.set 0 (takenWidth 65)).sum ≤ 256)
    ∧ (2 + 1 = bench.tables.cards.length ∧ ∀ e ∈ bench.tables.map, e.card ≠ 2) ∧ (bench.ring[2]?).isSome = true
    ∧ bench.chain.st = .running :=
  ⟨bench_ready, bench_unlocked _ rfl, by decide +kernel, noJobs_of rfl, rfl, rfl, by decide, by decide, by decide, rfl, rfl⟩

/-- A lock of another group is not in a request's way. -/
theorem witness_Unlocked : ∃ s : State, s.Ready ∧ s.locks = ⟨false, true, true⟩ ∧ s.Unlocked s.locks.tables :=
  ⟨{ bench with locks := ⟨false, true, true⟩ }, ⟨rfl, rfl⟩, rfl, rfl, rfl⟩

theorem witness_MapPositionTaken : bench.Ready ∧ bench.Unlocked bench.locks.tables
    ∧ (15 < bench.tables.cards.getD 0 0 ∧ mapFnOfCode 6 0 1 = some (some (.cardOk 0 true))
      ∧ (⟨0, 15, .drive 105⟩ : MapEntry) ∉ bench.tables.map ∧ mapFnOfCode 1 105 0 = some (some (.drive 105))
      ∧ (∀ c ∈ bench.tables.mapConflicts ⟨2, 7, .drive 105⟩, c.1 = false) ∧ bench.mapBusy (.drive 105) false = false
      ∧ mapFnOfCode 5 96 0 = some (some (.flow 96)) ∧ (∀ c ∈ bench.tables.mapConflicts ⟨2, 0, .flow 96⟩, c.1 = false)
      ∧ bench.mapBusy (.flow 96) false = false ∧ mapFnOfCode 5 14 0 = some (some (.flow 14))
      ∧ (⟨0, MapFn.offsetTaken (.flow 14) 15, .flow 14⟩ : MapEntry) ∈ bench.tables.map
      ∧ bench.tables.entryAt 0 15 = some ⟨0, 8, .flow 14⟩ ∧ bench.mapBusy (.flow 14) true = false
      ∧ bench.tables.entryAt 2 0 = none)
    ∧ bench.tables.Sound
    ∧ ((bench.valve 105).st = .undefined ∧ bench.hasEntry 105 = false ∧ MapFn.valve (.drive 105) = some 105
      ∧ bench.mapBusy (.openSw 14) false = false ∧ bench.mapBusy (.openSw 14) true = false
      ∧ mapFnOfCode 8 31 0 = some (some (.inp 31)) ∧ (∀ c ∈ bench.tables.mapConflicts ⟨2, 0, .inp 31⟩, c.1 = false)
      ∧ bench.tables.entryAt 1 1 = some ⟨1, 1, .inp 0⟩ ∧ bench.mapBusy (.inp 0) true = false
      ∧ bench.tables.entryAt 1 0 = some ⟨1, 0, .out 0⟩ ∧ bench.mapBusy (.out 0) true = false) :=
  ⟨bench_ready, bench_unlocked _ rfl, by decide +kernel, bench_sound, by decide +kernel⟩

theorem witness_DefineValveTaken : bench.Ready ∧ bench.Unlocked bench.locks.tables
    ∧ (posOfCode 1 = some .closed ∧ bench.valveBusy 105 false = false ∧ (bench.tables.valve 105).present = false
      ∧ bench.valveBusy 14 false = false ∧ (bench.tables.valve 14).present = true ∧ (bench.tables.valve 14).fail ≠ .closed
      ∧ bench.valveBusy 0 true = false ∧ max 100 (min 30000 99) ≠ 99
      ∧ bench.tables.valve 14 ≠ ⟨true, 100, .opened⟩ ∧ bench.tables.valve 0 ≠ ValveDef.absent) :=
  ⟨bench_ready, bench_unlocked _ rfl, by decide +kernel⟩

/-- Main valve 105 is present, the main lacks its other valve. -/
def halfMain : State := { bench with tables := { benchTables with valves := benchTables.valves.put 105 ⟨true, 800, .opened⟩ } }

theorem witness_DefineValveTaken_stroke : bench.NoJobs ∧ halfMain.NoJobs ∧ (bench.valveBusy 14 false = false
    ∧ (bench.tables.valve 14).present = true ∧ (bench.tables.valve 14).fail = .opened ∧ valveOwner 14 = .branch 7
    ∧ halfMain.valveBusy 105 false = false ∧ (halfMain.tables.valve 105).present = true
    ∧ (halfMain.tables.valve 105).fail = .opened ∧ valveOwner 105 = .main ∧ halfMain.tables.hasValves .main = false
    ∧ (halfMain.owner .main).mode = .noValves) := ⟨noJobs_of rfl, noJobs_of rfl, by decide +kernel⟩

theorem witness_DefineMeterTaken : bench.Ready ∧ bench.Unlocked bench.locks.tables
    ∧ ((bench.tables.meter 96).defined = false ∧ (bench.tables.meter 14).defined = true
      ∧ (bench.tables.meter 14).kFactor = max 1 (min 4000 100) ∧ (bench.tables.meter 14).kFactor ≠ max 1 (min 4000 4001)
      ∧ { bench with zones := State.reset.zones }.meterInUse 14 = false) :=
  ⟨bench_ready, bench_unlocked _ rfl, by decide +kernel⟩

/-- The bench with valves 94 and 95 of branch 47 complete, and with no plan. -/
def branchBench : State :=
  { bench with tables := { benchTables with
      plans := TableStore.empty.plans
      valves := (benchTables.valves.put 94 ⟨true, 100, .opened⟩).put 95 ⟨true, 100, .opened⟩
      map := benchTables.map ++ [⟨2, 0, .drive 94⟩, ⟨2, 1, .drive 95⟩] } }

theorem witness_DefineBranchTaken : branchBench.Ready ∧ branchBench.Unlocked branchBench.locks.tables
    ∧ (parkOfCode 1 = some .release
      ∧ (branchBench.owner (.branch 47)).mode = .undefined ∧ (branchBench.owner (.branch 7)).mode = .inactive
      ∧ branchBench.tables.hasValves (.branch 47) = true ∧ branchBench.tables.hasValves (.branch 7) = true
      ∧ (branchBench.tables.branch 47).defined = false ∧ (branchBench.tables.branch 7).defined = true
      ∧ branchBench.tables.planned (.branch 7) = false)
    ∧ (∀ v, v / 2 = 7 → (branchBench.valve v).st.isMoving = false ∧ branchBench.hasEntry v = false) := by
  refine ⟨⟨by decide +kernel, by decide +kernel⟩, ⟨rfl, rfl⟩, by decide +kernel, fun v hv => ?_⟩
  have : v = 14 ∨ v = 15 := by omega
  rcases this with rfl | rfl <;> exact ⟨by decide +kernel, rfl⟩

theorem witness_DefineZoneTaken : (benchZone 5 .off).Ready ∧ (benchZone 5 .off).Unlocked (benchZone 5 .off).locks.plan
    ∧ (((benchZone 5 .off).zone 5).st = .off ∧ (bench.zone 63).st = .undefined ∧ (47 : Nat) ≤ 47) :=
  ⟨⟨by decide +kernel, rfl⟩, ⟨rfl, rfl⟩, by decide +kernel⟩

theorem witness_SetPlanTaken : bench.Ready ∧ bench.Unlocked bench.locks.plan
    ∧ (ownersOf [(0, 7), (1, 3), (2, 0)] = some [.branch 7, .segment 3, .main]
      ∧ [Owner.branch 7, .segment 3, .main].length ≤ 8 ∧ [Owner.branch 7, .segment 3, .main].Nodup ∧ (bench.zone 5).st ≠ .undefined
      ∧ (∀ o ∈ [Owner.branch 7, .segment 3, .main], bench.ownerUndefined o = false) ∧ bench.zoneEngaged 5 = false
      ∧ ownersOf [] = some []) :=
  ⟨bench_ready, bench_unlocked _ rfl, by decide +kernel⟩

theorem witness_SetLimitsTaken : bench.Ready ∧ bench.Unlocked bench.locks.limits ∧ bench.sched.window = []
    ∧ busyBench.Ready ∧ busyBench.Unlocked busyBench.locks.limits
    ∧ busyBench.sched.window ≠ [] ∧ busyBench.tables.limits.budget = 600 ∧ (601 : Nat) ≠ busyBench.tables.limits.budget :=
  ⟨bench_ready, bench_unlocked _ rfl, rfl, ⟨rfl, rfl⟩, ⟨rfl, rfl⟩, by decide, rfl, by decide⟩

/-- The bench with a proving session. -/
def sessionBench (st : ChainState) (p : Session) : State := { bench with chain := { bench.chain with st := st, session := some p } }

theorem witness_PatternsAndMaskStored : bench.Ready ∧ bench.Unlocked bench.locks.limits ∧ bench.chain.session = none
    ∧ (sessionBench .proving (benchSession (.test 0))).Ready
    ∧ (sessionBench .proving (benchSession (.test 0))).Unlocked (sessionBench .proving (benchSession (.test 0))).locks.limits
    ∧ (sessionBench .proving (benchSession (.test 0))).chain.session ≠ none
    ∧ (∃ s : State, s.Ready ∧ s.locks = ⟨true, true, true⟩ ∧ s.commit = none) ∧ (∃ s : State, s.Ready ∧ s.commit ≠ none)
    ∧ (∃ x ∈ [0, 0, 0, 0, 0, 0, 0, 2], 1 < x) :=
  ⟨bench_ready, bench_unlocked _ rfl, rfl, ⟨rfl, rfl⟩, ⟨rfl, rfl⟩, by decide,
   ⟨{ bench with locks := ⟨true, true, true⟩ }, ⟨rfl, rfl⟩, rfl, rfl⟩,
   ⟨{ bench with commit := some ⟨0, benchTables, 0⟩ }, ⟨rfl, rfl⟩, by simp⟩, by decide⟩

theorem witness_SetScanTaken : bench.Ready ∧ bench.Unlocked bench.locks.limits ∧ rateOfCode 4 = some 2000
    ∧ (∃ s : State, s.periodicFrom = some 0 ∧ 10 ≠ s.tables.scan.interval ∧ 0 + 10 * 2000 ≤ s.clock)
    ∧ (bench.periodicFrom = some 0 ∧ 10 ≠ bench.tables.scan.interval ∧ bench.clock < 0 + 10 * 2000)
    ∧ State.reset.periodicFrom = none
    ∧ (∃ s : State, s.tables.scan.image = false ∧ s.image.out ≠ s.image.copy) :=
  ⟨bench_ready, bench_unlocked _ rfl, rfl, ⟨{ bench with clock := 20000 }, rfl, by decide, by decide⟩, ⟨rfl, by decide, by decide⟩, rfl,
   ⟨{ bench with tables := { benchTables with scan := { benchTables.scan with image := false } }
                 image := { bench.image with out := [true] } }, rfl, by decide⟩⟩

theorem witness_LockedRequestsRefused : (∃ s : State, s.Ready ∧ s.locks.tables = true ∧ s.locks.plan = true ∧ s.locks.limits = true)
    ∧ (∃ s : State, s.Ready ∧ s.locks = ⟨false, false, false⟩ ∧ s.commit ≠ none) ∧ 15 < bench.tables.cards.getD 0 0
    ∧ mapFnOfCode 4 63 1 = some (some (.drip 63 true)) ∧ ownersOf [(0, 47)] = some [.branch 47] :=
  ⟨⟨{ bench with locks := ⟨true, true, true⟩ }, ⟨rfl, rfl⟩, rfl, rfl, rfl⟩,
   ⟨{ bench with commit := some ⟨0, benchTables, 0⟩ }, ⟨rfl, rfl⟩, rfl, by simp⟩, by decide, by decide, by decide⟩

/-- The bench with branch 7 activated. -/
def activeBench : State :=
  { bench with tables := { benchTables with branches := benchTables.branches.put 7 ⟨true, 0, true, .close, 300⟩ } }

theorem witness_ActivatedFlagSet : bench.Ready ∧ activeBench.Ready
    ∧ ((bench.tables.branch 7).defined = true ∧ (bench.tables.branch 7).activated = false
      ∧ (activeBench.tables.branch 7).defined = true ∧ (activeBench.tables.branch 7).activated = true) :=
  ⟨bench_ready, ⟨rfl, rfl⟩, by decide +kernel⟩

/-- The bench with branch 7 held by the host. -/
def heldOwner : State := benchOwner (.branch 7) { OwnerRec.start .isolated true with hostHold := true, holds := 1 }

theorem witness_HostHolds : bench.Ready ∧ heldOwner.Ready
    ∧ (ownerOfCode 0 7 = some (.branch 7) ∧ bench.ownerUndefined (.branch 7) = false
      ∧ (bench.owner (.branch 7)).hostHold = false ∧ ownerOfCode 1 3 = some (.segment 3) ∧ ownerOfCode 2 255 = some .main
      ∧ heldOwner.ownerUndefined (.branch 7) = false ∧ (heldOwner.owner (.branch 7)).hostHold = true) :=
  ⟨bench_ready, ⟨rfl, rfl⟩, by decide +kernel⟩

/-- The bench of branch 7 activated, its segment in a state, the branch in a state with a number of holds. -/
def coursing (path mode : OwnerMode) (holds : Nat) : State :=
  { activeBench with
    owners := (bench.owners.put 7 { OwnerRec.start mode true with holds := holds }).put 48 (OwnerRec.start path true) }

/-- What an owner must be to begin a course: derived, in a state that evaluates, not on that course, no valve in FAULT. -/
def starts (s : State) (o : Owner) (out : Outcome) : Bool :=
  (s.owner o).settled && !([.undefined, .failed, .noValves].contains (s.owner o).mode) && !(s.owner o).mode.follows out
    && !s.anyValveFault o && s.outcome o == out

theorem witness_HostHolds_courses : WellFormed.owner (.branch 7) = true
    ∧ starts (coursing .opened .inService 1) (.branch 7) .isolate = true
    ∧ starts (coursing .noValves .inactive 0) (.branch 7) .restore = true
    ∧ starts (coursing .isolated .inService 0) (.branch 7) .suspend = true
    ∧ (activeBench.tables.branch 7).activated = true ∧ (coursing .isolated .inService 0).pathOpen 7 = false
    ∧ starts (benchOwner (.branch 7) (OwnerRec.start .inService true)) (.branch 7) .park = true
    ∧ starts (benchOwner (.segment 0) (OwnerRec.start .isolated true)) (.segment 0) .restore = true
    ∧ (State.reset.owner .main).mode = .noValves ∧ (coursing .opened .inService 0).evaluateOne (.branch 7) = coursing .opened .inService 0
    ∧ ((benchOwner (.branch 7) (OwnerRec.start .inactive false)).owner (.branch 7)).settled = false := by decide +kernel

theorem witness_ZoneAcknowledged : (benchZone 5 .wet).Ready
    ∧ (((benchZone 5 .wet).zone 63).st = .undefined ∧ 63 < 64 ∧ ((benchZone 5 .wet).zone 5).st = .wet
      ∧ ((benchZone 5 .acked).zone 5).st ≠ .wet ∧ ((benchZone 5 .acked).zone 5).st ≠ .undefined
      ∧ (bench.tables.zone 20).kind = .balance ∧ ((benchZone 20 .wet).zone 20).st = .wet
      ∧ ((benchZone 20 .acked).zone 20).st = .acked
      ∧ ((benchZone 20 .wet).owner (.branch ((benchZone 20 .wet).tables.zone 20).branch)).mode ≠ .inService
      ∧ (bench.tables.zone 5).kind = .drip ∧ (bench.zone 20).st ≠ .wet ∧ (bench.zone 20).st ≠ .acked
      ∧ ((benchOwner (.branch 7) (OwnerRec.start .inService true)).owner (.branch 7)).mode = .inService) :=
  ⟨⟨rfl, rfl⟩, by decide +kernel⟩

/-- The bench with a job of DRY zone 5 with these entries, zone 20 waiting with the plan branch 7, owners `rs` put in place. -/
def releasing (entries : List JobEntry) (rs : List (Owner × OwnerRec)) : State :=
  { benchZone 5 .dry with
    tables := { benchTables with plans := benchTables.plans.put 20 [.branch 7] }
    jobs := bench.jobs.put 0 (some ⟨5, 0, entries, .active⟩)
    valves := bench.valves.put 14 (ValveRec.fresh .closed)
    owners := rs.foldl (fun l r => l.put r.1.index r.2) bench.owners
    waitList := [20] }

/-- An owner in the drain of its isolate sequence, with one hold. -/
def midDrain : OwnerRec :=
  { OwnerRec.start .isolating true with holds := 1, step := some 2, needed := true, phase := some ⟨0, 1500⟩ }

/-- Branch 7 drains under zone 5's job. -/
def releasingDrain : State := releasing [⟨.branch 7, none, .absent, .inProgress⟩] [(.branch 7, midDrain)]

/-- Branch 7 has FAILED under zone 5's job, and the segment it escalated to drains. -/
def releasingEscalated : State :=
  releasing [⟨.branch 7, none, .entry 1, .failed⟩, ⟨.segment 0, some 0, .absent, .inProgress⟩]
    [(.branch 7, { OwnerRec.start .failed true with holds := 1 }), (.segment 0, midDrain)]

theorem witness_ReleaseJobTaken_held : releasingDrain.Ready
    ∧ (releasingDrain.jobSlotOf 5 = some 0 ∧ (releasingDrain.zone 5).st = .dry ∧ (releasingDrain.zone 5).st ≠ .undefined
      ∧ releasingDrain.waitList = 20 :: [] ∧ WellFormed.owner (.branch 7) = true ∧ 0 < (releasingDrain.owner (.branch 7)).holds
      ∧ (releasingDrain.owner (.branch 7)).mode = .isolating
      ∧ (∀ j ∈ releasingDrain.job 0, (∀ e ∈ j.entries, WellFormed.owner e.target = true)
          ∧ 0 < ((releasingDrain.releaseSlot 0 j).2.owner (.branch 7)).holds
          ∧ (((releasingDrain.setJob 0 none).dropHolds j.entries).offerSlot 0).sched.lookDue = true))
    ∧ (∀ b, (releasingDrain.tables.branch b).segment ≤ 3)
    ∧ (∀ y, ∀ n ∈ releasingDrain.tables.plan y, WellFormed.owner n = true) := by
  have hp : ∀ l ∈ releasingDrain.tables.plans.toList, ∀ n ∈ l, WellFormed.owner n = true := by decide +kernel
  refine ⟨⟨rfl, rfl⟩, by decide +kernel, witness_ConsequencesSpare_branches, fun y => ?_⟩
  by_cases hy : y < 64
  · exact hp _ (by simp [TableStore.plan, Table.getD, hy])
  · simp [TableStore.plan, Table.getD, hy]

theorem witness_ReleaseJobTaken : (benchJob .dry).Ready
    ∧ (benchJob .dry).waitList = [] ∧ { benchJob .dry with waitList := [20] }.waitList = 20 :: []
    ∧ ((benchJob .dry).jobSlotOf 5 = some 0 ∧ ((benchJob .dry).zone 5).st = .dry
      ∧ ((benchJob .dry).job 0).map (fun j => j.entries.map (·.target)) = some [.branch 7] ∧ [Owner.branch 7].Nodup
      ∧ WellFormed.owner (.branch 7) = true
      ∧ (benchJob .suspect).jobSlotOf 5 = some 0 ∧ ((benchJob .suspect).zone 5).st ≠ .dry) :=
  ⟨⟨rfl, rfl⟩, rfl, rfl, by decide +kernel⟩

theorem witness_ClearFaultTaken : (benchValve (ValveRec.fresh .fault)).Ready
    ∧ (((benchValve (ValveRec.fresh .fault)).tables.valve 14).present = true
      ∧ ((benchValve (ValveRec.fresh .fault)).valve 14).st = .fault ∧ (bench.valve 14).st ≠ .fault) :=
  ⟨⟨rfl, rfl⟩, by decide +kernel⟩

/-- The bench in BROKEN with a zone OFF, DRIP zone 5 failsafe or not. -/
def brokenOff (z : Nat) (failsafe : Bool) : State :=
  { benchZone z .off with
    chain := Chain.start .broken
    tables := { benchTables with zones := benchTables.zones.put 5 ⟨true, .drip, 3, 10, true, failsafe, 0, 1, 0, false⟩ } }

theorem witness_ZoneEnableTaken : (benchZone 5 .off).Ready
    ∧ (∀ s ∈ [brokenOff 5 true], s.chain.st = .broken ∧ (s.zone 5).st = .off ∧ (s.tables.zone 5).kind = .drip
      ∧ (s.tables.zone 5).failsafe = true)
    ∧ (∀ s ∈ [brokenOff 5 false], s.chain.st = .broken ∧ (s.zone 5).st = .off ∧ (s.tables.zone 5).failsafe = false)
    ∧ (∀ s ∈ [brokenOff 20 true], s.chain.st = .broken ∧ (s.zone 20).st = .off ∧ (s.tables.zone 20).kind = .balance)
    ∧ (((benchZone 5 .off).zone 5).st = .off ∧ (benchZone 5 .off).chain.st ≠ .broken
      ∧ (bench.zone 5).st = .dry ∧ ((benchZone 5 .suspect).zone 5).st = .suspect ∧ bench.zoneEngaged 5 = false
      ∧ (benchJob .dry).zoneEngaged 5 = true ∧ (bench.zone 63).st = .undefined
      ∧ ((benchZone 5 .wet).zone 5).st = .wet ∧ ((benchZone 5 .acked).zone 5).st = .acked) :=
  ⟨⟨rfl, rfl⟩, by decide +kernel⟩

theorem witness_ValveMoveTaken : bench.Ready
    ∧ (∃ s : State, s.Ready ∧ (s.tables.valve 96).present = true)
    ∧ (dirOfCode 2 = some .release ∧ dirOfCode 1 = some .closeMove ∧ (bench.tables.valve 14).present = true
      ∧ (bench.owner (.branch (14 / 2))).mode = .inactive ∧ (bench.valve 14).st ≠ .unknown ∧ (bench.valve 14).st ≠ .fault
      ∧ (bench.valve 14).st = (Dir.target (bench.tables.valve 14).fail .release).idle
      ∧ (bench.valve 14).st ≠ (Dir.target (bench.tables.valve 14).fail .closeMove).idle
      ∧ (bench.valve 14).st ≠ (Dir.target (bench.tables.valve 14).fail .closeMove).moving) :=
  ⟨bench_ready,
   ⟨{ bench with tables := { benchTables with valves := benchTables.valves.put 96 ⟨true, 800, .opened⟩ } }, ⟨rfl, rfl⟩,
    by decide +kernel⟩, by decide +kernel⟩

/-- A session in phase WAITING. -/
def waiting : Session := { benchSession (.test 0) with frames := false, cards := [] }

theorem witness_TriggersMakeScanDue : bench.power.running = true ∧ bench.canDispatch = true ∧ (crowded 3).canDispatch = false
    ∧ bench.periodicFrom = some 0 ∧ bench.chain.session = none
    ∧ (sessionBench .running waiting).chain.session = some waiting ∧ waiting.frames = false
    ∧ (benchSession (.test 0)).frames = true ∧ (sessionBench .proving (benchSession (.test 0))).chain.inFlight = none
    ∧ (∃ s : State, s.power.running = true ∧ s.chain.session = some (benchSession (.test 0)) ∧ s.chain.inFlight ≠ none) :=
  ⟨rfl, rfl, rfl, rfl, rfl, rfl, rfl, rfl, rfl,
   ⟨{ sessionBench .proving (benchSession (.test 0)) with
      chain := { (sessionBench .proving (benchSession (.test 0))).chain with inFlight := some (frameOf (.test 0)) } }, rfl, rfl,
    by decide⟩⟩

theorem witness_ProveTaken : bench.Ready
    ∧ (bench.chain.st = .running ∧ bench.chain.session = none ∧ bench.activeJobs = 0
      ∧ bench.movesPending = false ∧ State.reset.chain.st ≠ .running ∧ (sessionBench .running waiting).chain.session ≠ none
      ∧ { bench with activeJobs := 1 }.activeJobs ≠ 0 ∧ (benchValve (ValveRec.fresh .closing)).movesPending = true) :=
  ⟨bench_ready, by decide +kernel⟩

theorem witness_WriteOutputsTaken : bench.Ready
    ∧ (bench.chain.adopted = true ∧ bench.chain.st ≠ .proving
      ∧ [(16, 1)] ≠ ([] : List (Nat × Nat)) ∧ [(16, 1)].length ≤ 32 ∧ (∀ e ∈ [(16, 1)], e.2 ≤ 1)
      ∧ (∀ e ∈ [(16, 1)], e.1 < bench.tables.length) ∧ ([(16, 1)].map (·.1)).Nodup
      ∧ (∀ e ∈ [(16, 1)], (bench.tables.outNumber e.1).isSome) ∧ bench.image.out.length = bench.tables.length) :=
  ⟨bench_ready, by decide +kernel⟩

theorem witness_CommitWrites : bench.power.running = true ∧ bench.canDispatch = true ∧ bench.commit = none
    ∧ (∃ s : State, s.power.running = true ∧ s.canDispatch = true ∧ s.commit = some ⟨3, benchTables, 0⟩)
    ∧ (∃ s : State, s.power.running = true ∧ s.canDispatch = false ∧ s.commit = some ⟨3, benchTables, 0⟩) :=
  ⟨rfl, rfl, rfl, ⟨{ bench with commit := some ⟨3, benchTables, 0⟩ }, rfl, rfl, rfl⟩,
   ⟨{ crowded 0 with commit := some ⟨3, benchTables, 0⟩ }, rfl, rfl, rfl⟩⟩

theorem witness_RestartTaken : bench.Ready ∧ bench.commit = none ∧ bench.anyJob = false ∧ bench.tables.anyActivated = false
    ∧ { bench with copyValid := true }.copyValid = true ∧ bench.copyValid = false ∧ (benchJob .dry).anyJob = true
    ∧ activeBench.tables.anyActivated = true ∧ { bench with commit := some ⟨3, benchTables, 0⟩ }.commit ≠ none :=
  ⟨bench_ready, rfl, by decide +kernel, by decide +kernel, rfl, rfl, by decide +kernel, by decide +kernel, by simp⟩

/-- The bench with a service transaction waiting. -/
def serving (due : Bool) (streak : Nat) : State :=
  { bench with scanDue := due, chain := { bench.chain with queue := [⟨2, 0x1234, 17, .command⟩], streak := streak } }

theorem witness_ArbiterChoice : bench.power.running = true ∧ (benchFlight .running .scan).chain.inFlight ≠ none
    ∧ State.reset.chain.st = .unconfigured ∧ bench.chain.inFlight = none
    ∧ (∃ s : State, s.chain.st = .adopting ∧ s.chain.echoNext = false) ∧ (∃ s : State, s.chain.st = .adopting ∧ s.chain.echoNext = true)
    ∧ bench.chain.st = .running ∧ bench.chain.session = none ∧ bench.scanDue = false ∧ bench.chain.queue = []
    ∧ bench.trigger.scanDue = true
    ∧ ((serving true 7).chain.queue ≠ [] ∧ (serving true 7).scanDue = true ∧ (serving true 7).tables.scan.serviceFirst = false
        ∧ (serving true 7).chain.streak < 8) ∧ 8 ≤ (serving true 8).chain.streak ∧ (serving false 0).scanDue = false :=
  ⟨rfl, by decide, rfl, rfl, ⟨{ bench with chain := Chain.start .adopting }, rfl, rfl⟩,
   ⟨{ bench with chain := { Chain.start .adopting with echoNext := true } }, rfl, rfl⟩, rfl, rfl, rfl, rfl, rfl, by decide, by decide, rfl⟩

theorem witness_ScanAccepted : (benchFlight .running .scan).Returns .scan (frameOf .scan) (returnOf .scan) true
    ∧ (∃ s : State, s.image.out ≠ (frameOf .scan).payload ∧ s.tables.scan.image = true)
    ∧ (∃ s : State, s.flow.lastTick = some 0 ∧ 199999 / 2000 < 0 + 100)
    ∧ (∃ (c w : Nat) (r : CardRegs), bench.tables.cards[c]? = some w ∧ bench.ring[c]? = some r) :=
  ⟨good_returns _ _ (by decide +kernel), ⟨{ bench with image := { bench.image with out := [true] } }, by decide, rfl⟩,
   ⟨{ bench with flow := { bench.flow with lastTick := some 0 } }, rfl, by decide⟩, 2, 8, _, rfl, rfl⟩

/-- The bench with zone 6 a DRIP zone with no position, the BALANCE zone's branch in service, and a tick just made. -/
def tickBench : State :=
  { bench with
    tables := { benchTables with zones := benchTables.zones.put 6 ⟨true, .drip, 3, 10, true, true, 0, 1, 0, true⟩ }
    zones := bench.zones.put 6 (ZoneRec.fresh .dry)
    flow := { bench.flow with lastTick := some 0 } }

/-- A valid meter that shows a smoothed flow. -/
def showing (flow : Nat) : MeterHist := ⟨some 0, some 0, some flow, flow, true, false, false⟩

/-- The bench with branch 7 in service and both its meters valid, 51 dL/min more in than out. -/
def flowing : State :=
  { benchOwner (.branch 7) (OwnerRec.start .inService true) with
    tables := { benchTables with meters := benchTables.meters.put 15 ⟨true, 100, 2⟩ }
    flow := { bench.flow with meters := (bench.flow.meters.put 14 (showing 81)).put 15 (showing 30) } }

theorem witness_ScanAccepted_delivery : ((bench.tables.valve 14).present = true ∧ bench.reading 14 = some .opened)
    ∧ ((bench.tables.zone 5).kind = .drip ∧ (bench.zone 5).st.enabled = true ∧ bench.dripSample 5 = some none)
    ∧ ((tickBench.tables.zone 6).kind = .drip ∧ (tickBench.zone 6).st.enabled = true ∧ tickBench.dripSample 6 = none)
    ∧ bench.tickDue = true ∧ tickBench.tickDue = false ∧ { tickBench with clock := 200000 }.tickDue = true
    ∧ ((bench.tables.meter 14).defined = true ∧ bench.meterCount 14 = some 0 ∧ (bench.tables.meter 96).defined = false)
    ∧ ((bench.tables.zone 20).kind = .balance ∧ (bench.zone 20).st.enabled = true ∧ bench.balanceSample 20 = none
      ∧ flowing.balanceSample 20 = some (some .balance)) := by
  decide +kernel

theorem witness_ServiceTransactions : bench.Ready ∧ 16 ≤ 16 ∧ 2 < bench.tables.cards.length ∧ bench.chain.st ≠ .broken
    ∧ bench.chain.queue.length < 8 ∧ bench.tables.cards.length ≤ 3
    ∧ (∃ s : State, s.Ready ∧ 2 < s.tables.cards.length ∧ s.chain.st = .broken)
    ∧ (∃ s : State, s.Ready ∧ s.chain.st ≠ .broken ∧ 8 ≤ s.chain.queue.length)
    ∧ (∃ s : State, ∃ e es, s.chain.queue = e :: es ∧ s.Returns .command (frameOf .command) (returnOf .command) true)
    ∧ (∃ s : State, ∃ e es, s.chain.queue = e :: es ∧ s.Returns .fetch (frameOf .fetch) (returnOf .fetch) true) :=
  ⟨bench_ready, by decide, by decide, by decide, by decide, by decide,
   ⟨{ bench with chain := Chain.start .broken }, ⟨rfl, rfl⟩, by decide, rfl⟩,
   ⟨{ bench with chain := { bench.chain with queue := List.replicate 8 ⟨0, 0, 0, .command⟩ } }, ⟨rfl, rfl⟩, by decide, by decide⟩,
   ⟨{ serving true 0 with chain := { (serving true 0).chain with inFlight := some (frameOf .command) } }, _, _, rfl,
    ⟨rfl, rfl, rfl, rfl⟩, by decide +kernel⟩,
   ⟨{ serving true 0 with chain := { (serving true 0).chain with inFlight := some (frameOf .fetch) } }, _, _, rfl,
    ⟨rfl, rfl, rfl, rfl⟩, by decide +kernel⟩⟩

theorem witness_AdoptionAccepted :
    (benchFlight .adopting .adoptService).Returns .adoptService (frameOf .adoptService) (returnOf .adoptService) true
    ∧ (benchFlight .adopting .adoptEcho).Returns .adoptEcho (frameOf .adoptEcho) (returnOf .adoptEcho) true
    ∧ (benchFlight .adopting .adoptEcho).chain.st = .adopting :=
  ⟨good_returns _ _ (by decide +kernel), good_returns _ _ (by decide +kernel), rfl⟩

/-- The bench before its adoption's derivations, valve 14's drive bit, open switch and closed switch given, branch 7 activated. -/
def adopting (drive a b : Bool) : State :=
  { activeBench with
    image := { bench.image with out := bench.image.out.set 0 drive, ret := ((List.replicate 40 false).set 1 a).set 2 b }
    owners := bench.owners.put 7 { OwnerRec.start .inactive false with startPending := true } }

theorem witness_AdoptionAccepted_valves : (bench.tables.valve 14).present = true ∧ (bench.tables.valve 20).present = false
    ∧ bench.commandedTarget 14 = some .opened ∧ bench.tables.switchless 0 = true ∧ bench.commandedTarget 0 = some .closed
    ∧ bench.tables.switchless 14 = false
    ∧ (adopting false true true).reading 14 = some .both ∧ (adopting false true false).reading 14 = some Pos.opened.reading
    ∧ (adopting false false true).reading 14 = some Pos.opened.other.reading ∧ (adopting false false false).reading 14 = some .neither
    ∧ (∃ s ∈ [{ bench with tables := { benchTables with map := ⟨2, 0, .cardOk 0 true⟩ :: benchTables.map },
                           image := { bench.image with cardGood := [false] } }], s.reading 14 = none ∧ s.tables.switchless 14 = false) := by
  decide +kernel

/-- The same with valve 14's drive not mapped. -/
def driveless (a b : Bool) : State :=
  { adopting false a b with
    tables := { benchTables with map := benchTables.map.erase ⟨0, 0, .drive 14⟩ }, valves := bench.valves.put 14 (ValveRec.fresh .unknown) }

theorem witness_AdoptionAccepted_driveless : ((driveless true true).tables.valve 14).present = true
    ∧ (driveless true true).commandedTarget 14 = none ∧ (driveless true true).reading 14 = some .both
    ∧ (driveless true false).commandedTarget 14 = none ∧ (driveless true false).reading 14 = some .opened := by
  decide +kernel

theorem witness_AdoptionAccepted_owners : WellFormed.owner (.branch 7) = true
    ∧ (∀ s ∈ [adopting false true false], (s.owner (.branch 7)).settled = false ∧ (s.owner (.branch 7)).mode ∉ [.undefined, .noValves]
      ∧ s.valvesKnown (.branch 7) = true ∧ (s.owner (.branch 7)).startPending = true ∧ (s.owner (.branch 7)).hostHold = false
      ∧ (s.owner (.branch 7)).holds = 0 ∧ (s.tables.branch 7).activated = true ∧ s.anyValveFault (.branch 7) = false
      ∧ s.pathOpen 7 = true)
    ∧ (adopting false false true).reading 14 = some .closed ∧ (adopting false true false).reading 14 ≠ some .closed
    ∧ (benchValve (ValveRec.fresh .unknown)).valvesKnown (.branch 7) = false
    ∧ (benchValve (ValveRec.fresh .fault)).anyValveFault (.branch 7) = true
    ∧ (bench.owner (.branch 7)).holds = 0 ∧ (bench.tables.branch 7).activated = false
    ∧ (coursing .isolated .inactive 0).pathOpen 7 = false ∧ State.reset.tables.hasValves .main = false := by
  decide +kernel

theorem witness_ProbesEndBroken : (∃ s : State, s.power.running = true ∧ s.chain.st = .broken ∧ s.chain.inFlight = none
      ∧ s.chain.adopted = true ∧ s.chain.lastSelectAt = some 0)
    ∧ (∃ s : State, s.power.running = true ∧ s.chain.st = .broken ∧ s.chain.inFlight = none ∧ s.chain.adopted = false)
    ∧ (benchFlight .broken .probeEcho).Returns .probeEcho (frameOf .probeEcho) (returnOf .probeEcho) true
    ∧ (benchFlight .broken .probeScan).Returns .probeScan (frameOf .probeScan) (returnOf .probeScan) true
    ∧ (benchFlight .broken .probeScan).chain.st = .broken :=
  ⟨⟨{ bench with chain := { bench.chain with st := .broken, lastSelectAt := some 0 } }, rfl, rfl, rfl, rfl, rfl⟩,
   ⟨{ bench with chain := Chain.start .broken }, rfl, rfl, rfl, rfl⟩, good_returns _ _ (by decide +kernel),
   good_returns _ _ (by decide +kernel), rfl⟩

theorem witness_ProvingFramesSent : (sessionBench .running waiting).power.running = true
    ∧ (sessionBench .running waiting).chain.session = some waiting ∧ (sessionBench .running waiting).chain.inFlight = none
    ∧ waiting.waitHead = false ∧ (sessionBench .proving (benchSession (.test 1))).chain.st = .proving
    ∧ (benchSession (.test 1)).next = .test 1 ∧ (benchSession (.reload 0 1)).next = .reload 0 1 ∧ bench.tables.cards[2]? = some 8
    ∧ (∃ (s : State) (p : Session) (e : ServiceEntry) (es : List ServiceEntry), s.chain.session = some p ∧ s.chain.st = .running
        ∧ p.waitHead = true ∧ s.chain.inFlight = none ∧ s.chain.queue = e :: es)
    ∧ ((sessionBench .running waiting).runBlocked = false
      ∧ { sessionBench .running waiting with activeJobs := 1 }.runBlocked = true ∧ 7 < 8) :=
  ⟨rfl, rfl, rfl, rfl, rfl, rfl, rfl, rfl,
   ⟨{ serving true 0 with chain := { (serving true 0).chain with session := some { waiting with waitHead := true } } }, _, _, _,
    rfl, rfl, rfl, rfl, rfl⟩, by decide +kernel⟩

/-- A proving frame in flight, with its session. -/
def provingFlight (p : Purpose) (q : Session) : State :=
  { bench with chain := { bench.chain with st := .proving, session := some q, inFlight := some (frameOf p) } }

theorem witness_ProvingFramesAccepted :
    (provingFlight (.test 0) (benchSession (.test 0))).Returns (.test 0) (frameOf (.test 0)) (returnOf (.test 0)) true
    ∧ (provingFlight (.test 1) (benchSession (.test 1))).Returns (.test 1) (frameOf (.test 1)) (returnOf (.test 1)) true
    ∧ (provingFlight (.reload 0) (benchSession (.reload 0 1))).Returns (.reload 0) (frameOf (.reload 0)) (returnOf (.reload 0)) true
    ∧ (provingFlight (.test 0) (benchSession (.test 0))).chain.session = some (benchSession (.test 0))
    ∧ (0 + 1 ≠ (benchSession (.test 0)).count ∧ (benchSession (.test 0)).abort = false ∧ (benchSession (.test 0)).sent < 16
      ∧ 1 + 1 = (benchSession (.test 1)).count ∧ { benchSession (.test 0) with abort := true }.abort = true
      ∧ (benchSession (.reload 0 1)).next = .reload 0 1 ∧ (benchSession (.reload 0 1)).sent < 16
      ∧ 16 ≤ { benchSession (.reload 0 1) with sent := 16 }.sent) :=
  ⟨⟨⟨rfl, rfl, rfl, rfl⟩, by decide +kernel⟩, ⟨⟨rfl, rfl, rfl, rfl⟩, by decide +kernel⟩,
   ⟨⟨rfl, rfl, rfl, rfl⟩, by decide +kernel⟩, rfl, by decide⟩

theorem witness_ProvingFramesAccepted_compare :
    let s := { bench with image := { bench.image with out := bench.image.out.set 0 true } }
    let p := benchSession (.test 0)
    p.cards[0]? = some CardProof.start ∧ p.readback = true ∧ { p with readback := false }.readback = false
      ∧ (s.compareTest p 0 ((List.replicate 40 false).set 3 true))[0]? =
          some { CardProof.start with latchMismatch := 1, pendingCount := 1, firstFail := some 0 }
      ∧ ((s.compareTest p 1 (List.replicate 40 true))[2]?).map (fun r => (r.mismatched, r.firstFail)) = some (8, some 1) := by
  decide +kernel

theorem witness_RejectedFramesCounted :
    (∀ p ∈ [Purpose.scan, .command, .fetch, .adoptService, .adoptEcho, .probeScan, .probeEcho],
      (frameOf p).accepts (brokenReturnOf p) = false)
    ∧ (benchFlight .running .scan).Returns .scan (frameOf .scan) (brokenReturnOf .scan) false
    ∧ (benchFlight .running .scan).chain.rejects < 2
    ∧ (∃ s : State, ∃ e es, s.Returns .fetch (frameOf .fetch) (brokenReturnOf .fetch) false ∧ s.chain.queue = e :: es)
    ∧ (provingFlight (.test 0) (benchSession (.test 0))).Returns (.test 0) (frameOf (.test 0)) (brokenReturnOf (.test 0)) false
    ∧ (∃ s : State, ∃ f, s.power.running = true ∧ s.chain.inFlight = some f ∧ f.unchecked = true) :=
  ⟨by decide +kernel, bad_returns _ _ (by decide +kernel), by decide,
   ⟨{ serving true 0 with chain := { (serving true 0).chain with inFlight := some (frameOf .fetch) } }, _, _,
    ⟨⟨rfl, rfl, rfl, rfl⟩, by decide +kernel⟩, rfl⟩, ⟨⟨rfl, rfl, rfl, rfl⟩, by decide +kernel⟩,
   ⟨{ bench with chain := { bench.chain with inFlight := some { frameOf .scan with unchecked := true } } }, _, rfl, rfl, rfl⟩⟩

/-- A session that ATTN_N has ended, and one that has sent 16 frames. -/
theorem witness_RejectedFramesCounted_ended : ∀ p ∈ [Purpose.test 0, .test 1, .reload 0],
    ∀ q ∈ [{ benchSession (.test 0) with abort := true }, { benchSession (.reload 0 1) with sent := 16 }],
      (provingFlight p q).chain.inFlight = some (frameOf p) ∧ (frameOf p).purpose = p ∧ (frameOf p).unchecked = false
        ∧ (provingFlight p q).power.running = true ∧ (frameOf p).accepts (brokenReturnOf p) = false
        ∧ (provingFlight p q).chain.rejects < 2 ∧ (provingFlight p q).chain.session = some q ∧ (q.abort = true ∨ 16 ≤ q.sent) := by
  decide +kernel

/-- The bench in BROKEN with a rejected probe's frame in flight and the consecutive-reject count at its ceiling. -/
def probing (p : Purpose) : State :=
  { bench with chain := { bench.chain with st := .broken, rejects := 3, inFlight := some (frameOf p) } }

theorem witness_RejectedFramesCounted_probe :
    (probing .probeScan).Returns .probeScan (frameOf .probeScan) (brokenReturnOf .probeScan) false
    ∧ (probing .probeEcho).Returns .probeEcho (frameOf .probeEcho) (brokenReturnOf .probeEcho) false
    ∧ (probing .probeEcho).chain.st = .broken ∧ (probing .probeEcho).chain.rejects = 3 :=
  ⟨⟨⟨rfl, rfl, rfl, rfl⟩, by decide +kernel⟩, ⟨⟨rfl, rfl, rfl, rfl⟩, by decide +kernel⟩, rfl, rfl⟩

/-- A scan in flight after two rejections, zone 5 in a state. -/
def failing (st : ZoneState) : State :=
  { benchZone 5 st with chain := { bench.chain with rejects := 2, inFlight := some (frameOf .scan) } }

theorem witness_ThirdRejectionBreaks : (failing .dry).Returns .scan (frameOf .scan) (brokenReturnOf .scan) false
    ∧ ((failing .dry).chain.rejects = 2 ∧ (failing .dry).chain.st ≠ .broken ∧ ((failing .dry).tables.zone 5).kind = .drip
      ∧ ((failing .dry).tables.zone 5).failsafe = true ∧ ((failing .dry).zone 5).st = .dry
      ∧ ((failing .suspect).zone 5).st = .suspect ∧ ((failing .wet).zone 5).st = .wet ∧ ((failing .acked).zone 5).st = .acked
      ∧ ((failing .dry).tables.zone 20).kind = .balance ∧ ((failing .wet).zone 5).cause ≠ some .chainLoss) :=
  ⟨⟨⟨rfl, rfl, rfl, rfl⟩, by decide +kernel⟩, by decide +kernel⟩

/-- The bench with valve 14's record and its two switch bits. -/
def switches (r : ValveRec) (a b : Bool) : State :=
  { benchValve r with image := { bench.image with ret := ((List.replicate 40 false).set 1 a).set 2 b } }

theorem witness_ReadingsChecked :
    (∃ s ∈ [{ switches ⟨.closing, none, some .closed, some 0, 0, none, none⟩ false true with clock := 1 }],
      (s.valve 14).st = Pos.closed.moving ∧ (s.valve 14).target = some .closed ∧ (s.valve 14).driveSent = some 0
        ∧ 0 < s.clock ∧ s.reading 14 = some Pos.closed.reading)
    ∧ ((switches (ValveRec.fresh .opened) true true).reading 14 = some .both
      ∧ ((switches (ValveRec.fresh .opened) true true).valve 14).st ≠ .undefined
      ∧ ((switches (ValveRec.fresh .opened) true true).valve 14).st ≠ .fault)
    ∧ (switches (ValveRec.fresh .opened) false true).reading 14 = some Pos.opened.other.reading
    ∧ ((switches (ValveRec.fresh .opened) false true).valve 14).st = Pos.opened.idle
    ∧ ((switches { ValveRec.fresh .opened with mismatch := 1 } false true).valve 14).mismatch ≠ 0
    ∧ (switches (ValveRec.fresh .opened) false false).reading 14 = some .neither
    ∧ (((switches (ValveRec.fresh .unknown) true false).valve 14).st = .unknown
      ∧ (switches (ValveRec.fresh .unknown) true false).commandedTarget 14 = some .opened
      ∧ (switches (ValveRec.fresh .unknown) true false).reading 14 = some Pos.opened.reading)
    ∧ (switches (ValveRec.fresh .unknown) false true).reading 14 = some Pos.closed.reading := by
  decide +kernel

/-- The switches' card not good, so that valve 14 shows nothing. -/
def blind (r : ValveRec) : State :=
  { benchValve r with
    tables := { benchTables with map := ⟨0, 12, .cardOk 0 true⟩ :: benchTables.map }
    image := { bench.image with cardGood := [false, true, true] } }

theorem witness_ReadingsChecked_sent :
    (∃ s ∈ [switches ⟨.closing, none, some .closed, none, 0, none, none⟩ false true],
      (s.valve 14).st.isMoving = true ∧ (s.valve 14).driveSent = none ∧ s.tables.drivePos 14 = some 0
        ∧ s.driveSentNow 14 = true ∧ { s with image := { s.image with out := s.image.out.set 0 true } }.driveSentNow 14 = false)
    ∧ ((blind (ValveRec.fresh .opened)).tables.valve 14).present = true ∧ (blind (ValveRec.fresh .opened)).reading 14 = none
    ∧ (blind (ValveRec.fresh .opened)).tables.switchless 14 = false ∧ ((blind (ValveRec.fresh .unknown)).valve 14).st = .unknown
    ∧ ((blind { ValveRec.fresh .opened with mismatch := 1 }).checkValve 14).valve 14 = ValveRec.fresh .opened
    ∧ (bench.tables.valve 0).present = true ∧ bench.reading 0 = none ∧ bench.tables.switchless 0 = true
    ∧ (∃ s ∈ [{ bench with valves := bench.valves.put 0 (ValveRec.fresh .unknown) }],
      (s.valve 0).st = .unknown ∧ s.commandedTarget 0 = some .closed ∧ (s.checkValve 0).valve 0 =
        { ValveRec.fresh .closed with target := some .closed }) := by
  decide +kernel

/-- A closing valve with its stroke timer running, 14 with switches, 0 without. -/
def stroking (v : Nat) : State :=
  { bench with valves := bench.valves.put v ⟨.closing, none, some .closed, some 0, 0, none, some ⟨0, some 0, 800⟩⟩ }

theorem witness_StrokeTimersExpire : (stroking 14).power.running = true ∧ ((stroking 14).valve 14).timer = some ⟨0, some 0, 800⟩
    ∧ ((stroking 14).valve 14).st.isMoving = true ∧ ((stroking 14).valve 14).target = some .closed
    ∧ (stroking 14).tables.switchless 14 = false ∧ (stroking 0).tables.switchless 0 = true
    ∧ ((stroking 0).valve 0).timer = some ⟨0, some 0, 800⟩ := by
  decide +kernel

/-- Branch 7 at its timer step, valve 15 with a record. -/
def draining (m : OwnerMode) (r : ValveRec) : State :=
  { benchOwner (.branch 7) { OwnerRec.start m true with step := some 2, needed := true, phase := some ⟨0, 1500⟩ } with
    valves := bench.valves.put 15 r }

theorem witness_PhaseTimersEnd : (draining .isolating (ValveRec.fresh .opened)).power.running = true
    ∧ WellFormed.owner (.branch 7) = true ∧ ((draining .isolating (ValveRec.fresh .opened)).owner (.branch 7)).phase = some ⟨0, 1500⟩
    ∧ (draining .isolating (ValveRec.fresh .opened)).stepMove (.branch 7) 3 = (15, .closeMove)
    ∧ ((draining .isolating (ValveRec.fresh .opened)).valve 15).st = Pos.closed.other.idle
    ∧ ((draining .parking (ValveRec.fresh .closed)).valve 15).st = Pos.closed.idle
    ∧ ((draining .parking (ValveRec.fresh .closed)).owner (.branch 7)).mode = .parking
    ∧ (draining .restoring (ValveRec.fresh .opened)).stepMove (.branch 7) 3 = (14, .openMove)
    ∧ ((draining .isolating (ValveRec.fresh .fault)).valve 15).st = .fault := by
  decide +kernel

/-- The busy bench with an entry in the move queue. -/
def queued (urgent : Bool) : State :=
  { busyBench with sched := { busyBench.sched with queue := [⟨15, .closeMove, urgent, .step (.branch 7) 3, 0⟩], lastRack := some 0 } }

theorem witness_WindowAndSpacingEnd : busyBench.power.running = true ∧ earliest busyBench.sched.window = some 0
    ∧ (queued true).spacingDue .rackOther = some 50 ∧ (queued true).sched.queue ≠ [] ∧ busyBench.sched.queue = [] :=
  ⟨rfl, rfl, rfl, by decide, rfl⟩

theorem witness_AdmissionRule :
    (∃ s t : State, s.lookOnce = some t ∧ s.sched.queue = [⟨15, .closeMove, true, .step (.branch 7) 3, 0⟩]
      ∧ s.sched.lastRack = some 0 ∧ s.sched.lastSeg.getD 0 none = some 0
      ∧ (s.valveSegment 15 = some 0 ∧ s.tables.drivePos 15 = some 3 ∧ 3 < s.image.out.length))
    ∧ bench.valveSegment 104 = none := by
  refine ⟨⟨{ queued true with
      clock := 400000, sched := { (queued true).sched with lastSeg := Table.fill 4 (some 0) } }, _,
    (Option.map_eq_some_iff.2 ⟨⟨15, .closeMove, true, .step (.branch 7) 3, 0⟩, by decide +kernel, rfl⟩),
    rfl, rfl, by decide +kernel, by decide +kernel⟩, rfl⟩

theorem witness_SamplesCounted : (∃ s : State, (s.zone 5).st = .dry ∧ (s.tables.zone 5).confirm ≤ 1)
    ∧ (bench.zone 5).st = .dry ∧ 1 < (bench.tables.zone 5).confirm
    ∧ ((benchZone 5 .suspect).zone 5).st = .suspect ∧ ((benchZone 5 .suspect).zone 5).wet + 1 < (bench.tables.zone 5).confirm
    ∧ (bench.tables.zone 5).confirm ≤ ((bench.setZone 5 ⟨.suspect, 2, 0, some .sense, none⟩).zone 5).wet + 1
    ∧ ((benchZone 5 .wet).zone 5).st = .wet ∧ ((benchZone 5 .acked).zone 5).st = .acked
    ∧ (bench.tables.zone 5).clear ≤ min 255 (((bench.setZone 5 ⟨.acked, 0, 9, some .sense, some 0⟩).zone 5).dry + 1)
    ∧ min 255 (((benchZone 5 .acked).zone 5).dry + 1) < (bench.tables.zone 5).clear
    ∧ ((benchZone 5 .off).zone 5).st = .off ∧ (bench.zone 63).st = .undefined
    ∧ ((benchZone 5 .wet).zone 5).cause ≠ some .sense
    ∧ ((bench.setZone 5 ⟨.acked, 0, 3, some .sense, some 0⟩).zone 5).cause = some .sense
    ∧ (((benchZone 5 .suspect).takeSample 5 (some .sense)).zone 5).st = .suspect
    ∧ (((benchZone 5 .wet).takeSample 5 none).zone 5).st = .wet :=
  ⟨⟨{ bench with tables := { benchTables with zones := benchTables.zones.put 5 ⟨true, .drip, 1, 10, true, true, 0, 1, 0, true⟩ } },
    by decide +kernel⟩, by decide +kernel⟩

theorem witness_WetZoneHandedOver : (∃ s : State, s.jobSlotOf 5 = none ∧ s.freeSlot = none)
    ∧ (bench.tables.zone 5).auto = true ∧ bench.tables.plan 5 ≠ [] ∧ bench.tables.plan 20 = []
    ∧ bench.jobSlotOf 5 = none ∧ bench.freeSlot = some 0 ∧ (benchJob .wet).jobSlotOf 5 = some 0
    ∧ (bench.tables.plan 5).Nodup ∧ (∀ o ∈ bench.tables.plan 5, WellFormed.owner o = true) :=
  ⟨⟨{ bench with jobs := Table.fill 16 (some ⟨6, 0, [], .contained⟩) }, by decide +kernel⟩, by decide +kernel⟩

/-- The first hold of a job starts the isolate sequence of its owner; the last one that comes off parks a branch not activated. -/
theorem test_jobHolds_evaluate : (∀ r ∈ [(bench.enterWet 5 .sense).owner (.branch 7)], r.mode = .isolating ∧ r.holds = 1)
    ∧ (∀ r ∈ [(heldOwner.dropHolds [⟨.branch 7, none, .absent, .done⟩]).owner (.branch 7)], r.mode = .parking ∧ r.holds = 0) := by
  decide +kernel

theorem witness_FlowArithmetic : (3 : Nat) < 256 ∧ 250 < 256 ∧ (4000 : Nat) ≤ 4000 ∧ 64 ≤ 64 ∧ (85 : Nat) ≤ 85
    ∧ 240 < 241 ∧ (240 : Nat) ≤ 240 ∧ 5000 < 5001 - 0 ∧ 5000 - 0 ≤ 5000 ∧ MeterHist.lost.prevCount = none
    ∧ (showing 81).prevCount = some 0 ∧ (showing 81).prevTick = some 0 := by decide

/-! ## The clauses of the statements that pin an operation -/

theorem witness_RequestsWaitTheirTurn_dispatch :
    (∀ s ∈ [{ bench with link := { bench.link with rxQueue := [.badLength 1 2, .unknown 1 3] } }],
      s.link.rxQueue = .badLength 1 2 :: [.unknown 1 3] ∧ s.link.replies.length < 2 ∧ s.link.restart = .none
        ∧ s.dispatchAll.link.replies.map (·.status) = [.badLength, .unknownKind])
    ∧ bench.link.rxQueue = [] ∧ 2 ≤ (crowded 3).link.replies.length ∧ (restarting .runtime).link.restart ≠ .none := by
  decide +kernel

theorem witness_TransmitterSends_line : bench.link.tx = none ∧ (after .notice State.reset).link.tx.isSome = true
    ∧ (after .notice State.reset).rateHigh = false ∧ (after (.coldStart true) bench).rateHigh = true
    ∧ bench.mayTransmit = true ∧ (restarting .runtime).mayTransmit = false := by decide +kernel

theorem witness_MapPositionTaken_places : (⟨0, 0, .drive 14⟩ : MapEntry) ∈ bench.tables.map
    ∧ (∀ x ∈ bench.tables.map, x.fn = .drive 14 → x = ⟨0, 0, .drive 14⟩) ∧ (∀ x ∈ bench.tables.map, x.fn ≠ .drive 20)
    ∧ bench.tables.cards[2]? = some 8 ∧ 7 < 8 ∧ bench.tables.length ≤ 40 := by decide +kernel

theorem witness_DefineValveTaken_wide : 96 ≤ 105 ∧ bench.valveBusy 105 true = false ∧ valveOwner 105 = .main
    ∧ bench.valveBusy 96 true = false ∧ valveOwner 96 = .segment 0 := by decide +kernel

theorem witness_SetPlanTaken_main : ownersOf ((2, 255) :: [(0, 7)]) = some [.main, .branch 7] ∧ ownersOf [(0, 7)] = some [.branch 7] := by
  decide

theorem witness_LockedRequestsRefused_kinds : ∀ x ∈ [(0, 255), (1, 47)], x.1 = 1 → x.2 ≤ 47 := by decide

/-- The course of branch 7 from its two valves as they stand, the path open. -/
def course (mode : OwnerMode) (holds : Nat) (a b : ValveState) : State :=
  { coursing .opened mode holds with valves := (bench.valves.put 14 (ValveRec.fresh a)).put 15 (ValveRec.fresh b) }

/-- What an owner's evaluation leaves: its mode, its step, whether it needed a move, and the move queue. -/
structure Begun where
  mode : OwnerMode
  step : Option Nat
  needed : Bool
  queue : List MoveEntry
  deriving DecidableEq

def begun (s : State) (o : Owner) : Begun :=
  let t := s.evaluateOne o
  ⟨(t.owner o).mode, (t.owner o).step, (t.owner o).needed, t.sched.queue⟩

theorem witness_HostHolds_begins :
    (∀ s ∈ [course .inService 1 .opened .opened, course .inService 1 .closing .opened, course .inService 1 .unknown .opened,
        course .inService 1 .fault .opened, course .inService 1 .closed .opened, course .inService 1 .closed .closed],
      (s.owner (.branch 7)).settled = true ∧ (s.owner (.branch 7)).mode ∉ [.undefined, .failed, .noValves]
        ∧ s.outcome (.branch 7) = .isolate ∧ (s.owner (.branch 7)).mode.follows .isolate = false
        ∧ s.sequence (.branch 7) .isolating = (14, 15, .closeMove)) := by decide +kernel

theorem witness_HostHolds_begun :
    begun (course .inService 1 .opened .opened) (.branch 7) =
      ⟨.isolating, some 1, true, [⟨14, .closeMove, true, .step (.branch 7) 1, 0⟩]⟩
    ∧ begun (course .inService 1 .closing .opened) (.branch 7) = ⟨.isolating, some 1, true, []⟩
    ∧ begun (course .inService 1 .unknown .opened) (.branch 7) = ⟨.isolating, some 1, false, []⟩
    ∧ (begun (course .inService 1 .fault .opened) (.branch 7)).mode = .failed
    ∧ begun (course .inService 1 .closed .opened) (.branch 7) =
      ⟨.isolating, some 3, true, [⟨15, .closeMove, true, .step (.branch 7) 3, 0⟩]⟩
    ∧ (begun (course .inService 1 .closed .closed) (.branch 7)).mode = .isolated
    ∧ begun (course .isolated 0 .closed .closed) (.branch 7) =
      ⟨.restoring, some 1, true, [⟨15, .openMove, false, .step (.branch 7) 1, 0⟩]⟩
    ∧ (begun (coursing .isolated .inService 0) (.branch 7)).mode = .suspended := by decide +kernel

/-- Branch 7 on its isolate course, its URGENT close still waiting, let go with both valves OPEN. -/
def letGo : State :=
  { course .isolating 0 .opened .opened with
    sched := { bench.sched with queue := [⟨14, .closeMove, true, .step (.branch 7) 1, 0⟩], window := [⟨0, false, .openMove, 0, 30⟩] } }

theorem witness_HostHolds_inPlace : starts letGo (.branch 7) .restore = true
    ∧ letGo.sequence (.branch 7) .restoring = (15, 14, .openMove)
    ∧ (letGo.valve 15).st = (Dir.openMove.target (letGo.tables.valve 15).fail).idle
    ∧ (letGo.valve 14).st = (Dir.openMove.target (letGo.tables.valve 14).fail).idle
    ∧ begun letGo (.branch 7) = ⟨.inService, none, false, []⟩
    ∧ (letGo.evaluateOne (.branch 7)).sched.window = letGo.sched.window := by decide +kernel

/-- Segment 0 in a state, with a number of holds, its valves open. -/
def segmentBench (mode : OwnerMode) (holds : Nat) : State :=
  { benchOwner (.segment 0) { OwnerRec.start mode true with holds := holds } with
    valves := (bench.valves.put 96 (ValveRec.fresh .opened)).put 97 (ValveRec.fresh .opened) }

theorem witness_HostHolds_names : ownerOfCode 0 48 = none ∧ ownerOfCode 1 4 = none ∧ ownerOfCode 3 0 = none
    ∧ ownerOfCode 0 47 = some (.branch 47) ∧ bench.ownerUndefined (.branch 47) = true
    ∧ (begun (segmentBench .opened 1) (.segment 0)).mode = .isolating ∧ (begun (segmentBench .isolated 0) (.segment 0)).mode = .opened
    ∧ (begun (segmentBench .opened 0) (.segment 0)).mode = .opened := by decide +kernel

theorem witness_ArbiterChoice_frame : (returnOf .scan).length = (frameOf .scan).payload.length + 8
    ∧ (frameOf .scan).accepts (returnOf .scan) = true ∧ (frameOf .scan).accepts (brokenReturnOf .scan) = false := by decide +kernel

theorem witness_ScanAccepted_readings :
    (∀ s ∈ [blind (ValveRec.fresh .opened)], (⟨0, 12, .cardOk 0 true⟩ : MapEntry) ∈ s.tables.map
      ∧ (∀ x ∈ s.tables.map, x.fn = .cardOk 0 true ∨ x.fn = .cardOk 0 false → x = ⟨0, 12, .cardOk 0 true⟩)
      ∧ (∀ x ∈ s.tables.map, x.fn ≠ .cardOk 1 true ∧ x.fn ≠ .cardOk 1 false)
      ∧ s.tables.findPos (· == .flow 14) = some 8 ∧ s.goodAt 8 = false ∧ s.meterCount 14 = none)
    ∧ bench.tables.findPos (· == .flow 14) = some 8 ∧ bench.goodAt 8 = true ∧ 8 + 8 ≤ bench.image.ret.length
    ∧ bench.tables.findPos (· == .flow 96) = none := by decide +kernel

theorem witness_ServiceTransactions_slot : 16 * 2 + 16 ≤ (frameOf .command).payload.length := by decide +kernel

/-- The bench with the main's valves in the tables, the main in a state. -/
def mainBench (mode : OwnerMode) (st : ValveState) : State :=
  { benchOwner .main (OwnerRec.start mode true) with
    tables := { benchTables with
      valves := (benchTables.valves.put 104 ⟨true, 800, .opened⟩).put 105 ⟨true, 800, .opened⟩
      map := benchTables.map ++ [⟨2, 0, .drive 104⟩, ⟨2, 1, .drive 105⟩] }
    valves := (bench.valves.put 104 (ValveRec.fresh st)).put 105 (ValveRec.fresh .opened) }

theorem witness_AdoptionAccepted_noValves :
    (∀ s ∈ [mainBench .noValves .opened], s.tables.hasValves .main = true ∧ (s.owner .main).mode = .noValves
      ∧ s.valvesKnown .main = true ∧ ((s.checkNoValves .main).owner .main).mode = .opened)
    ∧ (mainBench .opened .opened).tables.hasValves .main = true ∧ ((mainBench .opened .opened).owner .main).mode ≠ .noValves
    ∧ (mainBench .noValves .unknown).valvesKnown .main = false
    ∧ bench.tables.hasValves .main = false ∧ (bench.owner .main).mode = .noValves
    ∧ (∀ s ∈ [benchOwner .main { OwnerRec.start .opened true with holds := 2 }], s.tables.hasValves .main = false
      ∧ (s.owner .main).mode ≠ .noValves ∧ ((s.checkNoValves .main).owner .main).mode = .noValves
      ∧ ((s.checkNoValves .main).owner .main).holds = 2) := by decide +kernel

/-- Branch 7 not derived yet, activated, with a number of holds, its segment in a state. -/
def underived (path : OwnerMode) (holds : Nat) : State :=
  { coursing path .inactive holds with
    owners := (bench.owners.put 7 { OwnerRec.start .inactive false with holds := holds, startPending := false }).put 48 (OwnerRec.start path true) }

theorem witness_AdoptionAccepted_begins :
    (∀ s ∈ [underived .opened 1, underived .isolated 0, underived .opened 0],
      (s.owner (.branch 7)).settled = false ∧ (s.owner (.branch 7)).startPending = false ∧ s.anyValveFault (.branch 7) = false
        ∧ s.valvesKnown (.branch 7) = true)
    ∧ 0 < ((underived .opened 1).owner (.branch 7)).holds ∧ (underived .isolated 0).pathOpen 7 = false
    ∧ (underived .opened 0).pathOpen 7 = true
    ∧ (((underived .opened 1).deriveOne (.branch 7)).owner (.branch 7)).mode = .isolating
    ∧ (((underived .isolated 0).deriveOne (.branch 7)).owner (.branch 7)).mode = .suspended
    ∧ (((underived .opened 0).deriveOne (.branch 7)).owner (.branch 7)).mode = .inService := by decide +kernel

theorem witness_ProbesEndBroken_first : (Chain.start .broken).lastSelectAt = none := rfl

/-- The third rejection while a stroke timer runs, and while one stands paused. -/
theorem witness_ThirdRejectionBreaks_timers :
    let s (since : Option Nat) := { failing .dry with
      valves := bench.valves.put 14 ⟨.closing, none, some .closed, some 0, 0, none, some ⟨5, since, 800⟩⟩ }
    ((after (.scanRejected (brokenReturnOf .scan)) (s (some 0))).valve 14).timer = some ⟨5 + (frameOf .scan).clockEnd, none, 800⟩
    ∧ ((after (.scanRejected (brokenReturnOf .scan)) (s none)).valve 14).timer = some ⟨5, none, 800⟩ := by decide +kernel

/-- The bench without one of valve 14's switches. -/
def oneSwitch (fn : MapFn) : State :=
  { bench with tables := { benchTables with map := benchTables.map.filter fun e => e.fn != fn } }

theorem witness_ReadingsChecked_switches :
    ((oneSwitch (.closedSw 14)).tables.openPos 14 = some 1 ∧ (oneSwitch (.closedSw 14)).tables.closedPos 14 = none
      ∧ (oneSwitch (.closedSw 14)).goodAt 1 = true ∧ (oneSwitch (.closedSw 14)).reading 14 = some .opened)
    ∧ ((oneSwitch (.openSw 14)).tables.openPos 14 = none ∧ (oneSwitch (.openSw 14)).tables.closedPos 14 = some 2
      ∧ (oneSwitch (.openSw 14)).reading 14 = some .opened)
    ∧ (bench.tables.openPos 14 = some 1 ∧ bench.tables.closedPos 14 = some 2 ∧ bench.goodAt 1 = true ∧ bench.goodAt 2 = true)
    ∧ (blind (ValveRec.fresh .opened)).goodAt 1 = false
    ∧ ((switches (ValveRec.fresh .fault) true false).valve 14).st = .fault
    ∧ ((switches (ValveRec.fresh .undefined) true false).valve 14).st = .undefined
    ∧ (bench.valve 105).st = .undefined ∧ bench.reading 105 = none := by decide +kernel

/-- Branch 7 at a step of an isolate, its two valves as they stand, the step's move asked for or not, the drain time. -/
def stepping (step : Nat) (needed : Bool) (a b : ValveState) (drain : Nat) : State :=
  { course .inService 1 a b with
    tables := { activeBench.tables with limits := { activeBench.tables.limits with drain := drain } }
    owners := bench.owners.put 7 { OwnerRec.start .isolating true with holds := 1, step := some step, needed := needed } }

theorem witness_PhaseTimersEnd_reports :
    (∀ s ∈ [stepping 1 true .opened .opened 1500], ((s.owner (.branch 7)).step = some 1 ∧ (s.valve 14).st ≠ .closed))
    ∧ (∀ s ∈ [stepping 1 true .closed .opened 1500], (s.valve 14).st = .closed ∧ 0 < s.tables.limits.drain
      ∧ ((s.valveReport 14).owner (.branch 7)).phase = some ⟨0, 1500⟩)
    ∧ (∀ s ∈ [stepping 1 false .closed .opened 1500, stepping 1 true .closed .opened 0], (s.valve 14).st = .closed
      ∧ (s.valveReport 14).sched.queue = [⟨15, .closeMove, true, .step (.branch 7) 3, 0⟩])
    ∧ (stepping 2 true .closed .opened 1500).valveReport 15 = stepping 2 true .closed .opened 1500
    ∧ (((stepping 3 true .closed .closed 1500).valveReport 15).owner (.branch 7)).mode = .isolated
    ∧ (stepping 3 true .closed .closed 1500).valveReport 14 = stepping 3 true .closed .closed 1500 := by decide +kernel

theorem witness_PhaseTimersEnd_owners : valveOwner 14 = .branch 7 ∧ valveOwner 104 = .main
    ∧ (bench.owner (.branch 0)).mode = .undefined ∧ (underived .opened 0).chain.adopted = true
    ∧ (((underived .opened 0).valveReport 14).owner (.branch 7)).mode = .inService
    ∧ (((mainBench .noValves .opened).valveReport 104).owner .main).mode = .opened
    ∧ bench.valveReport 14 = bench
    ∧ (((course .failed 1 .closed .closed).valveReport 14).owner (.branch 7)).mode = .isolated
    ∧ (course .failed 1 .fault .closed).valveReport 14 = course .failed 1 .fault .closed
    ∧ (((course .inService 0 .fault .opened).faultReport 14).owner (.branch 7)).mode = .failed
    ∧ bench.faultReport 14 = bench := by decide +kernel

/-- Two entries of a branch in service in the queue under a small budget: the first costs too much, the second does not. -/
def budgeted : State :=
  { benchOwner (.branch 7) (OwnerRec.start .inService true) with
    tables := { benchTables with limits := { benchTables.limits with budget := 120 } }
    sched := { bench.sched with
      window := [⟨0, true, .closeMove, 0, 75⟩]
      queue := [⟨14, .closeMove, true, .step (.branch 7) 1, 0⟩, ⟨15, .openMove, true, .step (.branch 7) 3, 0⟩] } }

theorem witness_AdmissionRule_look : budgeted.countTest = true ∧ budgeted.chain.st = .running ∧ budgeted.proveWaiting = false
    ∧ budgeted.budgetTest ⟨14, .closeMove, true, .step (.branch 7) 1, 0⟩ = false
    ∧ budgeted.budgetTest ⟨15, .openMove, true, .step (.branch 7) 3, 0⟩ = true
    ∧ budgeted.spacingTest ⟨15, .openMove, true, .step (.branch 7) 3, 0⟩ = true
    ∧ budgeted.lookOnce.map (fun t => t.sched.queue.map (·.valve)) = some [14]
    ∧ (queued true).sched.queue ≠ [] ∧ (queued true).lookOnce = none ∧ (sessionBench .running waiting).proveWaiting = true := by
  decide +kernel

/-- The bench with a returned bit of zone 5's position, its card good or not, the zone failsafe or not. -/
def dripping (wet good failsafe : Bool) : State :=
  { bench with
    tables := { benchTables with zones := benchTables.zones.put 5 ⟨true, .drip, 3, 10, true, failsafe, 0, 1, 0, true⟩ }
    image := { bench.image with ret := bench.image.ret.set 7 wet, cardGood := [good, true, true] } }

theorem witness_SamplesCounted_drip : (⟨0, 7, .drip 5 false⟩ : MapEntry) ∈ bench.tables.map
    ∧ (∀ e ∈ bench.tables.map, e.fn ≠ .drip 6 false ∧ e.fn ≠ .drip 6 true) ∧ bench.tables.posOf 0 7 = 7 ∧ bench.goodAt 7 = true
    ∧ (dripping true true true).dripSample 5 = some (some .sense) ∧ (dripping false true true).dripSample 5 = some none
    ∧ (dripping true false true).goodAt 7 = false ∧ (dripping true false true).dripSample 5 = some (some .cardFault)
    ∧ (dripping true false false).dripSample 5 = none := by decide +kernel

theorem witness_SamplesCounted_balance : (flowing.tables.zone 20).branch = 7 ∧ (flowing.owner (.branch 7)).mode = .inService
    ∧ (∀ m ∈ [14, 15], (flowing.tables.meter m).defined = true ∧ (flowing.meter m).valid = true ∧ (flowing.meter m).stale = false)
    ∧ (flowing.tables.zone 20).threshold + (flowing.meter 15).smooth < (flowing.meter 14).smooth
    ∧ (flowing.tables.zone 20).minFlow ≤ (flowing.meter 14).smooth
    ∧ (∀ s ∈ [{ flowing with flow := { flowing.flow with meters := flowing.flow.meters.put 15 (showing 81) } }],
      (s.meter 14).smooth ≤ (s.tables.zone 20).threshold + (s.meter 15).smooth ∧ s.balanceSample 20 = some none)
    ∧ bench.balanceSample 20 = none := by decide +kernel

theorem witness_FlowArithmetic_flow :
    flowing.meterValid 14 = true ∧ flowing.branchFlow 7 = 81
    ∧ (∀ s ∈ [{ flowing with flow := { flowing.flow with meters := bench.flow.meters.put 15 (showing 30) } }],
      s.meterValid 14 = false ∧ s.meterValid 15 = true ∧ s.branchFlow 7 = 30)
    ∧ (∀ s ∈ [benchOwner (.branch 7) (OwnerRec.start .inService true)], s.meterValid 14 = false ∧ s.meterValid 15 = false
      ∧ s.branchFlow 7 = 300 ∧ s.ownerFlow (.segment 0) = 300 ∧ s.ownerFlow .main = 300)
    ∧ bench.branchFlow 7 = 0 ∧ (bench.tables.branch 8).defined = false ∧ bench.meterValid 96 = false
    ∧ (∀ s ∈ [{ bench with
        tables := { benchTables with meters := benchTables.meters.put 96 ⟨true, 100, 2⟩ }
        flow := { bench.flow with meters := bench.flow.meters.put 96 (showing 70) } }], s.meterValid 96 = true ∧ s.ownerFlow .main = 70)
    ∧ valveOwner 95 = .branch 47 ∧ valveOwner 96 = .segment 0 ∧ valveOwner 103 = .segment 3 ∧ valveOwner 105 = .main := by
  decide +kernel

/-- A register that takes one bit at a time, such as the checks of R190 and section 10.3 are, exists. -/
theorem witness_bitRegister {α : Type} (start : α) (shift : α → Bool → α) :
    ∃ register : List Bool → α, register [] = start ∧ ∀ l x, register (l ++ [x]) = shift (register l) x :=
  ⟨fun l => l.foldl shift start, rfl, fun l x => by simp⟩

theorem witness_TransmitterSends_blocked : (restarting .runtime).power.running = true ∧ (restarting .runtime).mayTransmit = false
    ∧ bench.link.replies = [] ∧ bench.link.notices = [] ∧ (crowded 0).link.replies ≠ [] := by decide +kernel

/-- The bench with four positions of DRIP zone 5. -/
def fourDrips : State :=
  { benchZone 5 .off with
    tables := { benchTables with
      map := benchTables.map ++ [⟨2, 0, .drip 5 false⟩, ⟨2, 1, .drip 5 false⟩, ⟨2, 2, .drip 5 true⟩] } }

theorem witness_MapPositionTaken_refused :
    (mapFnOfCode 1 0 0 = some (some (.drive 0)) ∧ (⟨1, 2, .drive 0⟩ : MapEntry) ∈ bench.tables.map
      ∧ (⟨2, 0, .drive 0⟩ : MapEntry) ∉ bench.tables.map)
    ∧ (mapFnOfCode 6 1 1 = some (some (.cardOk 1 true)) ∧ (⟨0, 1, .openSw 14⟩ : MapEntry).covers 0 1 = true)
    ∧ (mapFnOfCode 4 5 0 = some (some (.drip 5 false)) ∧ (⟨2, 3, .drip 5 false⟩ : MapEntry) ∉ fourDrips.tables.map
      ∧ (∀ x ∈ fourDrips.tables.map, x.covers 2 3 = false ∧ x.fn.sameObject (.drip 5 false) = false)
      ∧ (fourDrips.tables.map.filter fun x => match x.fn with | .drip y _ => y == 5 | _ => false).length = 4)
    ∧ ((∀ x ∈ bench.tables.map, x.covers 2 3 = false) ∧ bench.mapBusy (.drip 5 false) false = true)
    ∧ (bench.tables.entryAt 0 0 = some ⟨0, 0, .drive 14⟩ ∧ bench.mapBusy (.drive 14) true = true)
    ∧ mapFnOfCode 9 0 0 = none ∧ mapFnOfCode 4 5 2 = none ∧ bench.tables.cards.getD 15 0 ≤ 0
    ∧ bench.tables.cards.getD 2 0 ≤ 8 := by decide +kernel

theorem test_mapPosition_refused :
    after (.mapPosition 0 2 0 1 0 0) bench = bench.refuse 0x11 0 .conflict
    ∧ after (.mapPosition 0 0 6 6 1 1) bench = bench.refuse 0x11 0 .conflict
    ∧ after (.mapPosition 0 2 3 4 5 0) fourDrips = fourDrips.refuse 0x11 0 .full
    ∧ after (.mapPosition 0 2 3 4 5 0) bench = bench.refuse 0x11 0 .busy
    ∧ after (.mapPosition 0 0 0 0 0 0) bench = bench.refuse 0x11 0 .busy
    ∧ after (.mapPosition 0 2 8 0 0 0) bench = bench.refuse 0x11 0 .notDefined := by decide +kernel

theorem witness_DefineValveTaken_refused : (benchOwner (.branch 7) (OwnerRec.start .inService true)).valveBusy 14 false = true
    ∧ (benchValve (ValveRec.fresh .closing)).valveBusy 14 false = true ∧ bench.valveBusy 14 false = false
    ∧ bench.valveBusy 14 true = true ∧ bench.valveBusy 0 true = false ∧ 105 < 106 ∧ 1 < 2 := by decide +kernel

theorem witness_DefineMeterTaken_refused : (bench.tables.meter 96).defined = false
    ∧ (bench.tables.meter 14).defined = true ∧ bench.meterInUse 14 = true ∧ 96 < 97 := by decide +kernel

theorem witness_DefineBranchTaken_refused :
    (∀ s ∈ [benchOwner (.branch 7) (OwnerRec.start .inService true)], (s.owner (.branch 7)).mode ≠ .undefined
      ∧ (s.owner (.branch 7)).mode ≠ .inactive)
    ∧ ((bench.owner (.branch 1)).mode = .undefined ∧ bench.tables.hasValves (.branch 1) = false)
    ∧ ((bench.owner (.branch 7)).mode = .inactive ∧ bench.tables.planned (.branch 7) = true)
    ∧ ((benchValve (ValveRec.fresh .closing)).valve 14).st.isMoving = true := by decide +kernel

theorem witness_DefineZoneTaken_refused : (bench.zone 5).st.enabled = true ∧ (bench.zone 63).st = .undefined := by decide +kernel

theorem witness_SetPlanTaken_refused : ownersOf [(0, 48)] = none
    ∧ ownersOf (List.replicate 9 (2, 0)) = some (List.replicate 9 .main) ∧ (bench.zone 63).st = .undefined
    ∧ (ownersOf [(0, 1)] = some [.branch 1] ∧ bench.ownerUndefined (.branch 1) = true)
    ∧ (ownersOf [(2, 0), (2, 1)] = some [.main, .main] ∧ bench.ownerUndefined .main = false ∧ ¬ [Owner.main, .main].Nodup)
    ∧ (benchJob .wet).zoneEngaged 5 = true ∧ bench.ownerUndefined (.branch 7) = false := by decide +kernel

/-- A SCAN of the bench that a card table change has overtaken. -/
def overtaken : State := { bench with chain := { bench.chain with inFlight := some { frameOf .scan with unchecked := true } } }

theorem witness_TriggersMakeScanDue_flight : overtaken.chain.inFlight.isSome = true ∧ overtaken.scanInFlight = false
    ∧ (benchFlight .running .scan).scanInFlight = true ∧ (benchFlight .running .command).scanInFlight = false := by decide +kernel

/-- The mapped IN position of the bench is fresh, and one returned bit changes it; with the fresh flag clear it is stale. -/
theorem witness_ScanAccepted_inputs :
    bench.InputsFresh ∧ bench.InputsChange { bench with image := { bench.image with ret := bench.image.ret.set 17 true } }
    ∧ bench.InputsChange { bench with image := { bench.image with fresh := false } } ∧ ¬ bench.InputsChange bench
    ∧ ¬ State.InputsFresh { bench with image := { bench.image with fresh := false } } := by
  have at17 : bench.tables.findPos (· == .inp 0) = some 17 := by decide +kernel
  refine ⟨⟨0, by decide, 17, at17, by decide +kernel⟩, ⟨0, by decide, 17, at17, by decide +kernel⟩,
    ⟨0, by decide, 17, at17, by decide +kernel⟩, fun ⟨n, _, p, _, h⟩ => h rfl, fun ⟨n, _, p, _, h⟩ => ?_⟩
  simp [State.inputAt] at h

theorem witness_ThirdRejectionBreaks_off : (bench.zone 63).st = .undefined
    ∧ (∀ s ∈ [failing .off], (s.tables.zone 5).kind = .drip ∧ (s.tables.zone 5).failsafe = true ∧ (s.zone 5).st = .off
      ∧ (after (.scanRejected (brokenReturnOf .scan)) s).chain.st = .broken
      ∧ (after (.scanRejected (brokenReturnOf .scan)) s).zone 5 = s.zone 5) := by decide +kernel

theorem witness_AdmissionRule_drive : (queued true).tables.drivePos 15 = some 3 ∧ bench.tables.drivePos 20 = none
    ∧ (∀ s ∈ [{ queued true with clock := 400000 }], bitAt s.image.out 3 = false ∧ s.scanDue = false
      ∧ s.lookOnce.map (fun t => (bitAt t.image.out 3, t.scanDue)) = some (true, true)) := by decide +kernel

/-- A stored copy with a mapped IN: INPUTS is among the notices of the cold start. -/
theorem witness_ColdStartSequence_inputs :
    (∃ s : State, s.commit = none ∧ s.stored.load = some benchTables)
    ∧ benchTables.findPos (· == .inp 0) = some 17 ∧ benchTables.mask.on .inputs = true ∧ benchTables.mask.on .chain = true :=
  ⟨⟨{ bench with stored := .whole benchTables benchTables.crc }, rfl, by simp [StoredCopy.load]⟩, by decide +kernel⟩

theorem test_service_broken :
    (∀ s ∈ [{ bench with chain := { bench.chain with st := .broken } }], after (.service 0 9 0) s = s.refuse 0x31 0 .notDefined
      ∧ after (.service 0 2 0) s = s.refuse 0x31 0 .chainDown) := by decide +kernel

/-! ## Single steps -/

/-- The statuses of the replies waiting, oldest first. -/
def statuses (s : State) : List Status := s.link.replies.map (·.status)

/-- Bench of branch 7 in service. -/
def serviceBench : State := { activeBench with owners := bench.owners.put 7 (OwnerRec.start .inService true) }

/-- The check value of the CRC-16 of R174, over the nine digits 1 to 9. -/
theorem test_crc16 : crc16 [0x31, 0x32, 0x33, 0x34, 0x35, 0x36, 0x37, 0x38, 0x39] = 0x29B1 := by decide +kernel

theorem test_pins : (after .resetNFall bench).alertAsserted = true ∧ (after .vmainLoss bench).alertAsserted = true
    ∧ (after .vholdLoss bench).power.running = false ∧ bench.alertAsserted = false := by decide +kernel

theorem test_coldStart : (after (.coldStart true) bench).chain.st = .unconfigured ∧ (after (.coldStart true) bench).rateHigh = true
    ∧ (after (.coldStart true) bench).link.notices = [.chain] := by decide +kernel

theorem test_warmStart : (after (.warmStart .resetRise false) (heldBench .wet)).chain.st = .adopting
    ∧ ((after (.warmStart .resetRise false) (heldBench .suspect)).zone 5).st = .dry := by decide +kernel

theorem test_softStart : (after (.softStart false) (restarting .runtime)).lastStart = .restartRuntime
    ∧ (after (.softStart false) (restarting .tables)).tables.cards = [16, 16, 8] := by decide +kernel

/-- IDENTIFY with TAG 7, and HOLD of branch 7 with TAG 18, byte by byte. -/
theorem test_frameReceived : (after (.frameReceived [0xC5, 2, 1, 7, 0xE1, 0x2A]) bench).link.replies.map (·.tag) = [7]
    ∧ statuses (after (.frameReceived [0x00, 0xC5, 4, 0x22, 18, 0, 7, 0x1F, 0xC8]) bench) = [.ok] := by decide +kernel

theorem test_frameReceived_badCheck : (after (.frameReceived [0xC5, 2, 1, 7, 0, 0]) bench).link.checkDiscards = 1 := by
  decide +kernel

/-- R175: after a bad CHECK the search finds the SYNC among the collected bytes, and the frame from there. -/
theorem test_frameReceived_search :
    (after (.frameReceived [0xC5, 4, 0xC5, 2, 1, 7, 0xE1, 0x2A]) bench).link.checkDiscards = 1
    ∧ (after (.frameReceived [0xC5, 4, 0xC5, 2, 1, 7, 0xE1, 0x2A]) bench).link.replies.map (·.tag) = [7] := by decide +kernel

theorem test_gapDiscard : (after .gapDiscard (after (.frameReceived [0xC5, 2]) bench)).link.gapDiscards = 1
    ∧ (after .gapDiscard (after (.frameReceived [0xC5, 2]) bench)).clock = 10001 := by decide +kernel

theorem test_framingError : (after .framingError (after (.frameReceived [0xC5]) bench)).link.rxBuf = none := by decide +kernel

theorem test_unknownKind : statuses (after (.unknownKind 1 0x7F) bench) = [.unknownKind] := by decide +kernel

theorem test_replyTransmit : (after .replyTransmit (after (.identify 7) bench)).link.tx.map (fun f => f.bytes.take 5) =
    some [0xC5, 23, 0x81, 7, 0x00] := by decide +kernel

theorem test_notice : (after .notice State.reset).link.tx.map (fun f => f.bytes.drop 2 |>.take 5) = some [0xE0, 0, 6, 0, 0] := by
  decide +kernel

theorem test_reads : statuses (after (.readStatus 0) bench) = [.ok] ∧ statuses (after (.readJobs 0) bench) = [.ok]
    ∧ statuses (after (.readWindow 0 32 1) bench) = [.badField] ∧ statuses (after (.readMoves 0 0 17) bench) = [.adjusted]
    ∧ statuses (after (.readObject 0 11 0) bench) = [.badField] := by decide +kernel

/-- R68 over an output, an input and an unmapped position: chain state, adopted, age 0, then three entries. -/
theorem test_readPositions : (after (.readPositions 0 16 3) bench).link.replies.map (·.fields) =
    [[2, 1, 0, 0, 3, 7, 0, 0, 0, 8, 0, 0, 0, 1, 0, 0, 0]] := by decide +kernel

theorem test_defineCard : (after (.defineCard 0 3 1 12) bench).tables.cards = [16, 16, 8, 16]
    ∧ statuses (after (.defineCard 0 3 1 12) bench) = [.adjusted] ∧ statuses (after (.defineCard 0 5 1 8) bench) = [.notDefined] := by
  decide +kernel

/-- The bench with every bit of card 2's latch set. -/
def latched : State := { bench with ring := bench.ring.set 2 ⟨List.replicate 8 false, List.replicate 8 true, 0, List.replicate 8 false⟩ }

/-- R31: the latch of a card that leaves the table and comes back wider holds; so does one a cold start to no tables leaves out. -/
theorem test_latch_holds :
    ((after (.defineCard 0 2 1 16) (after (.defineCard 0 2 0 8) latched)).ring[2]?).map (fun r => r.latch.take 8) =
      some (List.replicate 8 true)
    ∧ (after (.coldStart false) latched).tables.cards = []
    ∧ ((after (.coldStart false) latched).ring[2]?).map (·.latch) = some (List.replicate 8 true) := by decide +kernel

/-- Section 3.6: an offset rounded down for a FLOW field; a position inside another field; a CARD_OK of another card. -/
theorem test_mapPosition : statuses (after (.mapPosition 0 2 3 5 9 0) bench) = [.adjusted]
    ∧ statuses (after (.mapPosition 0 0 12 8 2 0) bench) = [.conflict]
    ∧ statuses (after (.mapPosition 0 2 3 6 0 1) bench) = [.conflict] := by decide +kernel

theorem test_defineValve : ((after (.defineValve 0 14 1 50 1) bench).valve 14).st = .unknown
    ∧ (after (.defineValve 0 14 1 50 1) bench).link.replies.map (·.fields) = [[0, 100]] := by decide +kernel

theorem test_defineMeter : statuses (after (.defineMeter 0 14 1 4001 2) bench) = [.adjusted]
    ∧ statuses (after (.defineMeter 0 14 0 1 2) bench) = [.busy] := by decide +kernel

theorem test_defineBranch : ((after (.defineBranch 0 47 1 3 1 4000) branchBench).owner (.branch 47)).mode = .inactive
    ∧ statuses (after (.defineBranch 0 47 1 3 1 4001) branchBench) = [.adjusted] := by decide +kernel

theorem test_defineZone : ((after (.defineZone 0 63 1 0 16 1 1 1 0 0 0) bench).zone 63).st = .off
    ∧ statuses (after (.defineZone 0 5 1 0 1 1 1 1 0 0 0) bench) = [.busy] := by decide +kernel

theorem test_setPlan : (after (.setPlan 0 20 [(0, 7), (2, 0)]) bench).tables.plan 20 = [.branch 7, .main]
    ∧ statuses (after (.setPlan 0 20 [(0, 7), (0, 7)]) bench) = [.conflict] := by decide +kernel

theorem test_setLimits : (after (.setLimits 0 100 500 33 50 200 50 1500 1000) bench).tables.limits =
    ⟨100, 100, 32, 100, 200, 50, 1500, 1000⟩ := by decide +kernel

theorem test_settings : (after (.setPatterns 0 1 2 3 4) bench).tables.patterns = ⟨1, 2, 3, 4⟩
    ∧ (after (.setScan 0 1 0 4 1 4 5 1) bench).tables.scan = ⟨false, true, 5, true, 2000, 10, true⟩
    ∧ (after (.setNotices 0 1 0 0 0 0 0 0 0) bench).tables.mask.zone = false := by decide +kernel

/-- Both valves stand open under an open path: the restore ends at once. -/
theorem test_activate : ((after (.activate 0 7) bench).owner (.branch 7)).mode = .inService
    ∧ (after (.deactivate 0 7) serviceBench).sched.window.map (·.valve) = [14] := by decide +kernel

/-- Section 1.10: a hold on a branch in service sets the supply valve closing and makes a scan due. -/
theorem test_hold : ((after (.hold 0 0 7) serviceBench).owner (.branch 7)).mode = .isolating
    ∧ ((after (.hold 0 0 7) serviceBench).valve 14).st = .closing ∧ bitAt (after (.hold 0 0 7) serviceBench).image.out 0 = true
    ∧ (after (.hold 0 0 7) serviceBench).scanDue = true ∧ statuses (after (.hold 0 0 7) heldOwner) = [.held] := by decide +kernel

theorem test_unhold : ((after (.unhold 0 0 7) heldOwner).owner (.branch 7)).holds = 0
    ∧ statuses (after (.unhold 0 0 7) bench) = [.busy] := by decide +kernel

theorem test_ackZone : ((after (.ackZone 0 5 0) (benchZone 5 .wet)).zone 5).st = .acked
    ∧ ((after (.ackZoneDeclareDry 0 20) (benchZone 20 .wet)).zone 20).st = .dry
    ∧ statuses (after (.ackZoneDeclareDry 0 5) (benchZone 5 .wet)) = [.busy] := by decide +kernel

theorem test_releaseJob : (after (.releaseJob 0 5) (benchJob .dry)).job 0 = none
    ∧ statuses (after (.releaseJob 0 5) (benchJob .wet)) = [.notAcked] := by decide +kernel

/-- R138: a branch in its drain that the next job holds again keeps its timer, no move is queued, and the release counts it. -/
theorem test_release_held_again : ∀ r ∈ [releasingDrain.releaseSlot 0 ⟨5, 0, [⟨.branch 7, none, .absent, .inProgress⟩], .active⟩],
    r.1 = 1 ∧ r.2.owner (.branch 7) = midDrain ∧ r.2.sched.queue = [] ∧ (r.2.job 0).map (·.zone) = some 20 := by decide +kernel

/-- R138: so does a segment that the next job reaches by escalation. -/
theorem test_release_escalated_again : ∀ r ∈ [releasingEscalated.releaseSlot 0
      ⟨5, 0, [⟨.branch 7, none, .entry 1, .failed⟩, ⟨.segment 0, some 0, .absent, .inProgress⟩], .active⟩],
    r.2.owner (.segment 0) = midDrain ∧ (r.2.owner (.branch 7)).holds = 1 := by decide +kernel

theorem test_clearFault : ((after (.clearFault 0 14) (benchValve { ValveRec.fresh .fault with cause := some .uncommanded })).valve 14) =
    ValveRec.fresh .unknown := by decide +kernel

theorem test_zoneEnable : ((after (.zoneEnable 0 5 1) bench).zone 5).st = .off
    ∧ ((after (.zoneEnable 0 5 0) (benchZone 5 .off)).zone 5).st = .dry := by decide +kernel

theorem test_valveMove : ((after (.valveMove 0 14 1) bench).valve 14).st = .closing
    ∧ statuses (after (.valveMove 0 14 3) bench) = [.badField] := by decide +kernel

theorem test_scanNow : (after (.scanNow 0) bench).link.replies.map (·.fields) = [[2, 1, 0, 0, 0]] := by decide +kernel

theorem test_service : (after (.service 17 2 0x1234) bench).chain.queue = [⟨2, 0x1234, 17, .command⟩] := by decide +kernel

theorem test_prove : ((after (.prove 0 0 0 9) bench).chain.session.map (·.count)) = some 8
    ∧ (after .arbiterChoice (after (.prove 0 0 0 2) bench)).chain.st = .proving := by decide +kernel

theorem test_writeOutputs : bitAt (after (.writeOutputs 0 [(16, 1)]) bench).image.out 16 = true
    ∧ statuses (after (.writeOutputs 0 [(17, 1)]) bench) = [.notOutput] := by decide +kernel

theorem test_lock : (after (.lock 0 1 0 1) bench).locks = ⟨true, false, true⟩ := by decide +kernel

theorem test_commit : (after (.commit 0) bench).commit.isSome = true
    ∧ statuses (after (.commitWriteEnd (.disagrees 5)) (after (.commit 0) bench)) = [.aborted] := by decide +kernel

theorem test_restart : (after (.restartRuntime 0 0) bench).link.restart = .answered .runtime
    ∧ statuses (after (.restartTables 0) bench) = [.notDefined] := by decide +kernel

theorem test_arbiterChoice : (after .arbiterChoice bench.trigger).chain.inFlight.map (·.purpose) = some .scan
    ∧ (after .arbiterChoice (serving true 8)).chain.inFlight.map (·.purpose) = some .command := by decide +kernel

theorem test_probe : (after .probe { bench with chain := Chain.start .broken }).chain.inFlight.map (·.purpose) = some .probeEcho := by
  decide +kernel

theorem test_scanAccepted : (after (.scanAccepted (returnOf .scan) .valvesZonesFlow) (benchFlight .running .scan)).image.fresh = true
    ∧ ((after (.scanAccepted (returnOf .scan) .valvesZonesFlow) (benchFlight .running .scan)).valve 14).latest = some .neither := by
  decide +kernel

theorem test_scanRejected : (after (.scanRejected (brokenReturnOf .scan)) (benchFlight .running .scan)).chain.rejects = 1
    ∧ (after (.scanRejected (brokenReturnOf .scan)) (failing .dry)).chain.st = .broken
    ∧ ((after (.scanRejected (brokenReturnOf .scan)) (failing .dry)).job 0).isSome = true := by decide +kernel

theorem test_service_frames : statuses (after (.serviceFetchAccepted (returnOf .fetch))
      { serving true 0 with chain := { (serving true 0).chain with inFlight := some (frameOf .fetch) } }) = [.ok] := by decide +kernel

theorem test_adoptionEchoAccepted :
    (after (.adoptionEchoAccepted (returnOf .adoptEcho)) (benchFlight .adopting .adoptEcho)).chain.st = .running
    ∧ (after (.adoptionEchoAccepted (returnOf .adoptEcho)) (benchFlight .adopting .adoptEcho)).scanDue = true := by decide +kernel

theorem test_probeAccepted :
    (after (.probeAccepted (returnOf .probeEcho) .valvesZonesFlow) (benchFlight .broken .probeEcho)).chain.st = .adopting := by
  decide +kernel

theorem test_testFrameAccepted :
    (after (.testFrameAccepted (returnOf (.test 0))) (provingFlight (.test 0) (benchSession (.test 0)))).chain.session.map (·.next) =
      some (.test 1)
    ∧ statuses (after (.testFrameAccepted (returnOf (.test 1))) (provingFlight (.test 1) (benchSession (.test 1)))) = [.ok] := by
  decide +kernel

theorem test_attention : statuses (after .attention (sessionBench .running waiting)) = [.aborted]
    ∧ (after .attention bench).scanDue = true := by decide +kernel

theorem test_periodic : (after .periodic bench).clock = 40000 ∧ (after .periodic bench).scanDue = true := by decide +kernel

theorem test_strokeTimeArrival : ((after (.strokeTimeArrival 0) (stroking 0)).valve 0).st = .closed
    ∧ ((after (.strokeTimeout 14) (stroking 14)).valve 14).cause = some .strokeTimeout := by decide +kernel

theorem test_drainTimerEnd : ((after (.drainTimerEnd (.branch 7)) (draining .isolating (ValveRec.fresh .opened))).valve 15).st = .closing
    ∧ ((after (.drainTimerEnd (.branch 7)) (draining .parking (ValveRec.fresh .closed))).owner (.branch 7)).mode = .inactive := by
  decide +kernel

theorem test_windowAging : (after .windowAging (queued true)).sched.window.map (·.valve) = [15]
    ∧ (after .windowAging (queued true)).ms = 2000 := by decide +kernel

theorem test_spacingEnd : (after (.spacingEnd .rackOther) (queued true)).sched.window.map (·.valve) = [14, 15] := by decide +kernel

/-- Section 5.7 and 8.9: 300 dL/min through a FAST closing costs 75 TU, 3 dL/min through a FAST opening 1. -/
theorem test_costs : moveCost 300 64 true = 75 ∧ moveCost 3 64 false = 1 ∧ moveCost 4000 64 true = 1000 := by decide

/-- R29, R78: a SET_SCAN taken in flight leaves that frame's gap alone; its selects stay asserted through the tail. -/
theorem test_gap_of_select :
    let s := after (.scanAccepted (returnOf .scan) .valvesZonesFlow) (after (.setScan 0 0 0 20 0 3 900 0) (after .arbiterChoice bench.trigger))
    s.tables.scan.gap = 900 ∧ s.chain.idleAt = (frameOf .scan).releaseAt + 100 ∧ s.clock = (frameOf .scan).clockEnd
      ∧ s.selA = true ∧ s.selB = false ∧ { s with clock := (frameOf .scan).releaseAt }.selA = false := by decide +kernel

/-- R1, R14, R101: a field out of range is brought in and answered ADJUSTED at a removal too. -/
theorem test_removals_adjusted : statuses (after (.defineValve 0 105 0 50 0) bench) = [.adjusted]
    ∧ statuses (after (.defineBranch 0 7 0 0 0 4001) branchBench) = [.adjusted]
    ∧ statuses (after (.defineZone 0 5 0 0 16 1 0 0 0 0 0) (benchZone 5 .off)) = [.adjusted] := by decide +kernel

/-- R27: deriving the last UNKNOWN valve of an activated branch takes it out of INACTIVE, and its maintenance entry goes. -/
theorem test_maintenance_withdrawn :
    let s := { adopting false true false with
      valves := bench.valves.put 15 (ValveRec.fresh .unknown)
      sched := { bench.sched with queue := [⟨14, .closeMove, false, .maintenance, 0⟩] } }
    (s.deriveValve 15).sched.queue = [] ∧ ((s.deriveValve 15).owner (.branch 7)).mode = .restoring := by decide +kernel

/-- R11: at the adoption a valve whose switch card is not-good takes its target from its drive bit, and waits. -/
theorem test_adoption_target :
    let s := { bench with
      tables := { benchTables with map := ⟨0, 12, .cardOk 0 true⟩ :: benchTables.map }
      valves := bench.valves.put 14 (ValveRec.fresh .unknown)
      image := { bench.image with cardGood := [false, true, true] } }
    (s.adoptValves.valve 14).target = some .opened ∧ (s.adoptValves.valve 14).st = .unknown := by decide +kernel

/-- R11: at the adoption a valve with no drive that reads BOTH faults, and any other reading of one is kept while it waits. -/
theorem test_adoption_driveless : ((driveless true true).adoptValves.valve 14).st = .fault
    ∧ ((driveless true true).adoptValves.valve 14).cause = some .switchConflict
    ∧ ((driveless true false).adoptValves.valve 14) = { ValveRec.fresh .unknown with latest := some .opened } := by decide +kernel

/-- R31, R59: an OUT set to NONE while a SCAN that carries its 1 flies leaves that frame as it is, and its latch takes the 1. -/
theorem test_latch_in_flight :
    let s := after (.mapPosition 0 1 0 0 0 0) (after .arbiterChoice (after (.writeOutputs 0 [(16, 1)]) bench))
    let t := after (.scanAccepted (returnOf .scan) .valvesZonesFlow) s
    bitAt s.image.out 16 = false ∧ (t.ring[1]?).map (fun r => bitAt r.latch 0) = some true ∧ t.scanDue = true := by decide +kernel

/-- R185: a join at the tail, one that keeps its place, one masked off. -/
theorem test_joinNotice :
    let s := { bench with link := { bench.link with notices := [.valve 14, .chain] } }
    (s.joinNotice (.zone 5)).link.notices = [.valve 14, .chain, .zone 5] ∧ (s.joinNotice (.valve 14)).link.notices = [.valve 14, .chain]
    ∧ ((after (.setNotices 0 1 0 0 0 0 0 0 0) s).joinNotice (.zone 5)).link.notices = [.valve 14, .chain] := by decide +kernel

/-- R166, R171: a rejected test frame of a session that has sent 16 frames ends the run. -/
theorem test_provingFrameRejected_ends :
    let s := provingFlight (.test 0) { benchSession (.test 0) with sent := 16 }
    statuses (after (.provingFrameRejected (brokenReturnOf (.test 0))) s) = [.aborted]
    ∧ (after (.provingFrameRejected (brokenReturnOf (.test 0))) s).chain.st = .running := by decide +kernel

/-- R188, R1: a reload that changes a valve's stroke time joins the valve, its state unchanged. -/
theorem test_reload_joins :
    let s := { bench with valves := bench.valves.put 14 (ValveRec.fresh .unknown) }
    let t := { s with tables := { benchTables with valves := benchTables.valves.put 14 ⟨true, 900, .opened⟩ } }
    Obj.valve 14 ∈ (t.joinStartNotices s).link.notices ∧ Obj.valve 15 ∉ (t.joinStartNotices s).link.notices := by decide +kernel

/-- On an empty queue a step is one tick. -/
theorem test_step : (match step bench with | .next t => t.clock | _ => 0) = 1
    ∧ (match step { bench with pending := [.periodic] } with | .next t => t.pending | _ => [.periodic]) = [] := by decide +kernel

/-- No row of the table gives bits, so no word spells a command. -/
theorem test_decodeTableWord : decodeTableWord 8 0 = none ∧ bench.withFetchWord 8 0 = bench := by decide +kernel

end Sys2Proof.Tests
end

