-- ==== Sys2Proof/Proofs/ZoneEnable.lean ====
section
/-! ZONE_ENABLE (R103, R112): what its checks let through, what enabling and disabling a zone do, and the obligation O37. -/

namespace Sys2Proof.Machine

/-! ## Tables and notices -/

theorem table_put_put {α : Type} {n : Nat} (t : Table α n) (i : Nat) (x y : α) : (t.put i x).put i y = t.put i y :=
  Vector.setIfInBounds_setIfInBounds ..

/-- A notice that joins before a reply is all that sets the two outcomes apart. -/
theorem reply_joinNotice_same (s : State) (o : Obj) (k : Nat) (tag : Byte) (st : Status) (fs : List Byte) :
    State.SameButNotices (s.reply k tag st fs) ((s.joinNotice o).reply k tag st fs) := by
  rw [State.joinNotice_eq]; rfl

/-- A reply with the zone's record joins after what spared events changed; the record it carries is the one that stands after it. -/
theorem spared_zoneReply {s t : State} (h : Spared s t) (k : Nat) (tag : Byte) (z : Nat) :
    Spared (s.reply k tag .ok ((State.zoneReply k tag z t).zoneRecord z)) (State.zoneReply k tag z t) :=
  h.reply k tag .ok (t.zoneRecord z)

theorem zoneReply_zones (s : State) (k : Nat) (tag : Byte) (z : Nat) : (State.zoneReply k tag z s).zones = s.zones := rfl

theorem zoneReply_noticed {s : State} {o : Obj} (h : s.Noticed o) (k : Nat) (tag : Byte) (z : Nat) :
    (State.zoneReply k tag z s).Noticed o := h

/-! ## Zones that go wet -/

/-- R127: the creation of a job leaves the zones alone. -/
theorem createJob_zones (slot z : Nat) (s : State) : (s.createJob slot z).zones = s.zones := by
  unfold State.createJob
  have holds := fun u : State => Settles.foldl (fun s o => Settles.raiseHold o s) (s.tables.plan z) u
  exact (holds _).zones.trans (by simp)

theorem handOff_zones (z : Nat) (s : State) : (s.handOff z).zones = s.zones := by
  unfold State.handOff
  split
  · rfl
  · split
    · exact createJob_zones _ _ _
    · split <;> rfl

/-- R106: the record of a zone that enters WET. -/
theorem enterWet_zones (z : Nat) (c : WetCause) (s : State) :
    (s.enterWet z c).zones = s.zones.put z ⟨.wet, 0, 0, some c, some s.ms⟩ := by
  have entered : ∀ r, ((s.setZone z r).joinNotice (.zone z)).zones = s.zones.put z r := fun r => by
    rw [State.joinNotice_eq]; rfl
  unfold State.enterWet
  split
  · rw [handOff_zones, entered]
  · exact entered _

/-- R112: a zone that is not a failsafe DRIP zone does not feel the loss of the chain. -/
theorem zoneChainLoss_untouched {s : State} {z : Nat}
    (h : (s.tables.zone z).kind = .balance ∨ (s.tables.zone z).failsafe = false) : s.zoneChainLoss z = s := by
  unfold State.zoneChainLoss
  rw [if_neg]
  rintro ⟨hk, hf⟩
  rcases h with hb | hn
  · exact absurd (hk.symm.trans hb) (by decide)
  · exact absurd (hf.symm.trans hn) (by decide)

/-- R112: a failsafe DRIP zone in DRY enters WET with cause CHAIN_LOSS. -/
theorem zoneChainLoss_dry {s : State} {z : Nat} (hk : (s.tables.zone z).kind = .drip)
    (hf : (s.tables.zone z).failsafe = true) (hz : (s.zone z).st = .dry) : s.zoneChainLoss z = s.enterWet z .chainLoss := by
  unfold State.zoneChainLoss
  simp only [hk, hf, hz, and_self, if_true]

/-! ## Zones with a job or a place on the wait list -/

theorem jobSlotOf_isSome_iff (s : State) (z : Nat) :
    (s.jobSlotOf z).isSome = true ↔ ∃ k j, s.job k = some j ∧ j.zone = z := by
  unfold State.jobSlotOf
  rw [List.find?_isSome]
  constructor
  · rintro ⟨k, -, hk⟩
    cases hj : s.job k with
    | none => simp [hj] at hk
    | some j => exact ⟨k, j, hj, by simpa [hj] using hk⟩
  · rintro ⟨k, j, hj, hz⟩
    have hk : k < 16 := by
      by_contra hk
      simp [job_beyond s (Nat.le_of_not_lt hk)] at hj
    exact ⟨k, List.mem_range.2 hk, by simp [hj, hz]⟩

theorem zoneEngaged_iff (s : State) (z : Nat) :
    s.zoneEngaged z = true ↔ (∃ k j, s.job k = some j ∧ j.zone = z) ∨ z ∈ s.waitList := by
  unfold State.zoneEngaged
  rw [Bool.or_eq_true, jobSlotOf_isSome_iff, List.contains_iff_mem]

/-- R103: an OFF to be turned away BUSY. -/
theorem offBusy_iff (s : State) (z : Nat) :
    s.offBusy z = true ↔ (s.zone z).st = .wet ∨ (s.zone z).st = .acked
      ∨ (((s.zone z).st = .dry ∨ (s.zone z).st = .suspect) ∧ s.zoneEngaged z = true) := by
  unfold State.offBusy
  cases (s.zone z).st <;> simp

/-! ## The checks of ZONE_ENABLE (R103) -/

/-- A ready part answers a ZONE_ENABLE whose setting is on (0) or off (1) by the zone's own checks. -/
theorem exec_zoneEnable {s : State} (h : s.Ready) (tag : Byte) (z : Nat) {x : Nat} {on : Bool} (hx : onOff x = some on) :
    exec (.zoneEnable tag z x) s = .next (s.zoneSetting tag z on) := by
  change execZoneEnable tag z x s = _
  unfold execZoneEnable answerZoneEnable
  rw [request_ready h, hx]

theorem exec_zoneEnable_badSetting {s : State} (h : s.Ready) (tag : Byte) (z : Nat) {x : Nat} (hx : onOff x = none) :
    exec (.zoneEnable tag z x) s = .next (s.refuse 0x27 tag .badField) := by
  change execZoneEnable tag z x s = _
  unfold execZoneEnable answerZoneEnable
  rw [request_ready h, hx]

/-- A setting is on, off, or no setting at all. -/
theorem onOff_isSome_iff (x : Nat) : (onOff x).isSome = true ↔ x ≤ 1 := by
  match x with
  | 0 => decide
  | 1 => decide
  | _ + 2 => simp [onOff]

/-- R103's order of refusals, over what a taken ZONE_ENABLE does. -/
theorem zoneSetting_eq (s : State) (tag : Byte) (z : Nat) (on : Bool) :
    s.zoneSetting tag z on =
      if 63 < z then s.refuse 0x27 tag .badField
      else if (s.zone z).st = .undefined then s.refuse 0x27 tag .notDefined
      else if on = false ∧ s.offBusy z = true then s.refuse 0x27 tag .busy
      else State.zoneReply 0x27 tag z (if on then (if (s.zone z).st = .off then s.enableZone z else s)
        else if (s.zone z).st = .off then s else s.disableZone z) := by
  have hz : Config.numZones ≤ z ↔ 63 < z := Iff.rfl
  unfold State.zoneSetting
  simp [checked_cons, hz]

section Taken

variable {s : State} {tag : Byte} {z : Nat}

/-- ZONE_ENABLE on, for a defined zone: an OFF zone is enabled, any other answered as it stands. -/
theorem zoneSetting_on (hz : z ≤ 63) (hd : (s.zone z).st ≠ .undefined) :
    s.zoneSetting tag z true = State.zoneReply 0x27 tag z (if (s.zone z).st = .off then s.enableZone z else s) := by
  simp [zoneSetting_eq, hz, hd]

/-- ZONE_ENABLE off, for a zone that may go OFF or is OFF. -/
theorem zoneSetting_off (hz : z ≤ 63) (hd : (s.zone z).st ≠ .undefined) (hb : ¬ s.offBusy z = true) :
    s.zoneSetting tag z false = State.zoneReply 0x27 tag z (if (s.zone z).st = .off then s else s.disableZone z) := by
  simp [zoneSetting_eq, hz, hd, hb]

end Taken

/-! ## Enabling a zone (R103, R112) -/

/-- R103: the zone table with a zone's enabled flag set. -/
def State.zoneEnabledIn (z : Nat) (s : State) : State := s.putZoneDef z { s.tables.zone z with enabled := true }

/-- R103: an OFF zone has entered DRY, and R112 is still to come. -/
def State.zoneTurnedOn (z : Nat) (s : State) : State :=
  ((s.zoneEnabledIn z).setZone z (ZoneRec.fresh .dry)).joinNotice (.zone z)

theorem enableZone_eq (z : Nat) (s : State) :
    s.enableZone z = (if s.chain.st = .broken then (s.zoneTurnedOn z).zoneChainLoss z else s.zoneTurnedOn z).finish := by
  have hc : (s.zoneTurnedOn z).chain = s.chain := by unfold State.zoneTurnedOn; rw [State.joinNotice_eq]; rfl
  rw [← hc]; rfl

theorem zoneTurnedOn_ripple (z : Nat) (s : State) : Ripple (s.zoneEnabledIn z) (s.zoneTurnedOn z) :=
  (Ripple.setZone _ _ _).trans (Ripple.joinNotice _ _)

theorem zoneTurnedOn_zones (z : Nat) (s : State) : (s.zoneTurnedOn z).zones = s.zones.put z (ZoneRec.fresh .dry) := by
  unfold State.zoneTurnedOn; rw [State.joinNotice_eq]; rfl

theorem zoneTurnedOn_dry {z : Nat} (hz : z ≤ 63) (s : State) : ((s.zoneTurnedOn z).zone z).st = .dry := by
  rw [State.zone_put s z z _ _ (zoneTurnedOn_zones z s), if_pos ⟨rfl, by omega⟩]; rfl

/-- Enabling a zone leaves its kind and its failsafe flag. -/
theorem zoneTurnedOn_def {z : Nat} (hz : z ≤ 63) (s : State) :
    (s.zoneTurnedOn z).tables.zone z = { s.tables.zone z with enabled := true } := by
  rw [(zoneTurnedOn_ripple z s).tables]
  exact Table.getD_put_self _ _ _ (by omega)

/-- What follows the zone's entry into DRY is a ripple. -/
theorem enableZone_ripple_of_turnedOn (z : Nat) (s : State) : Ripple (s.zoneTurnedOn z) (s.enableZone z) := by
  rw [enableZone_eq]
  exact (Ripple.ite (Ripple.zoneChainLoss z _) (Ripple.refl _)).trans (Ripple.finish _)

/-- Enabling a zone sets its flag; the rest is what consequences may change. -/
theorem enableZone_ripple (z : Nat) (s : State) : Ripple (s.zoneEnabledIn z) (s.enableZone z) :=
  (zoneTurnedOn_ripple z s).trans (enableZone_ripple_of_turnedOn z s)

theorem enableZone_noticed (z : Nat) (s : State) : (s.enableZone z).Noticed (.zone z) :=
  have h := enableZone_ripple_of_turnedOn z s
  (State.joinNotice_noticed _ _).mono (congrArg TableStore.mask h.tables) h.joins

/-- R103: an enabled zone stays in DRY, but for a failsafe DRIP zone in BROKEN. -/
theorem enableZone_zones_dry {s : State} {z : Nat} (hz : z ≤ 63)
    (h : s.chain.st ≠ .broken ∨ (s.tables.zone z).kind = .balance ∨ (s.tables.zone z).failsafe = false) :
    (s.enableZone z).zones = s.zones.put z (ZoneRec.fresh .dry) := by
  rw [enableZone_eq, (Settles.finish _).zones]
  split
  case isTrue hc =>
    rw [zoneChainLoss_untouched (by rw [zoneTurnedOn_def hz]; exact h.resolve_left (absurd hc)), zoneTurnedOn_zones]
  case isFalse => exact zoneTurnedOn_zones z s

/-- R112: a failsafe DRIP zone enabled in BROKEN ends in WET. -/
theorem enableZone_zones_wet {s : State} {z : Nat} (hz : z ≤ 63) (hc : s.chain.st = .broken)
    (hk : (s.tables.zone z).kind = .drip) (hf : (s.tables.zone z).failsafe = true) :
    (s.enableZone z).zones = s.zones.put z ⟨.wet, 0, 0, some .chainLoss, some s.ms⟩ := by
  have hms : (s.zoneTurnedOn z).ms = s.ms := (zoneTurnedOn_ripple z s).ms
  have hloss : (s.zoneTurnedOn z).zoneChainLoss z = (s.zoneTurnedOn z).enterWet z .chainLoss :=
    zoneChainLoss_dry (by rw [zoneTurnedOn_def hz]; exact hk) (by rw [zoneTurnedOn_def hz]; exact hf) (zoneTurnedOn_dry hz s)
  rw [enableZone_eq, (Settles.finish _).zones, if_pos hc, hloss, enterWet_zones, zoneTurnedOn_zones, table_put_put, hms]

/-- R103: the answer to a taken ZONE_ENABLE on, whatever record the zone ends with. -/
theorem exec_zoneEnable_on {s : State} (h : s.Ready) (tag : Byte) {z : Nat} (hz : z ≤ 63) (ho : (s.zone z).st = .off)
    {r : ZoneRec} (hr : (s.enableZone z).zones = s.zones.put z r) :
    ∃ t : State, exec (.zoneEnable tag z 0) s = .next t
      ∧ Spared (State.reply 0x27 tag .ok (t.zoneRecord z) (s.zoneEnabledIn z)) t
      ∧ t.zones = s.zones.put z r ∧ t.Noticed (.zone z) := by
  refine ⟨State.zoneReply 0x27 tag z (s.enableZone z), ?_, ?_, (zoneReply_zones ..).trans hr, zoneReply_noticed (enableZone_noticed z s) _ _ _⟩
  · rw [exec_zoneEnable h tag z rfl, zoneSetting_on hz (by simp [ho]), if_pos ho]
  · exact spared_zoneReply (enableZone_ripple z s).toSpared 0x27 tag z

/-! ## Disabling a zone (R103) -/

/-- R103: the answer to a taken ZONE_ENABLE off for an enabled zone. -/
theorem exec_zoneEnable_off {s : State} (h : s.Ready) (tag : Byte) {z : Nat} (hz : z ≤ 63)
    (hd : (s.zone z).st = .dry ∨ (s.zone z).st = .suspect) (he : s.zoneEngaged z = false) :
    ∃ t : State, exec (.zoneEnable tag z 1) s = .next t
      ∧ State.SameButNotices (State.reply 0x27 tag .ok (t.zoneRecord z)
          { s with zones := s.zones.put z (ZoneRec.fresh .off), tables := { s.tables with
            zones := s.tables.zones.put z { s.tables.zone z with enabled := false } } }) t
      ∧ t.link.notices = s.noticesWith (.zone z) := by
  have hb : ¬ s.offBusy z = true := by rw [offBusy_iff]; rcases hd with hd | hd <;> simp [hd, he]
  refine ⟨State.zoneReply 0x27 tag z (s.disableZone z), ?_, reply_joinNotice_same _ _ _ _ _ _, joinNotice_with _ _⟩
  rw [exec_zoneEnable h tag z rfl, zoneSetting_off hz (by rcases hd with hd | hd <;> simp [hd]) hb,
    if_neg (by rcases hd with hd | hd <;> simp [hd])]

/-- Settles O37: each clause is one branch of R103's checks, the taken ones read off what enabling and disabling do. -/
theorem zoneEnableTaken : Obligations.ZoneEnableTaken := by
  intro s tag z h
  refine ⟨fun hz => ⟨?on, ?chainLoss, ?enabled, ?off, ?disable, ?busy, ?notDefined⟩, ?badField, zoneEngaged_iff s z⟩
  case on => exact fun ho hc => exec_zoneEnable_on h tag hz ho (enableZone_zones_dry hz hc)
  case chainLoss => exact fun ho hc hk hf => exec_zoneEnable_on h tag hz ho (enableZone_zones_wet hz hc hk hf)
  case enabled =>
    intro he
    have hs : (s.zone z).st ≠ .undefined ∧ (s.zone z).st ≠ .off := by rcases he with he | he | he | he <;> simp [he]
    rw [exec_zoneEnable h tag z rfl, zoneSetting_on hz hs.1, if_neg hs.2]; rfl
  case off =>
    intro ho
    have hb : ¬ s.offBusy z = true := by simp [offBusy_iff, ho]
    rw [exec_zoneEnable h tag z rfl, zoneSetting_off hz (by simp [ho]) hb, if_pos ho]; rfl
  case disable => exact fun hd he => exec_zoneEnable_off h tag hz hd he
  case busy =>
    intro hb
    have hd : (s.zone z).st ≠ .undefined := by rcases hb with hb | hb | ⟨hb | hb, -⟩ <;> simp [hb]
    rw [exec_zoneEnable h tag z rfl, zoneSetting_eq, if_neg (by omega), if_neg hd, if_pos ⟨rfl, (offBusy_iff s z).2 hb⟩]
  case notDefined =>
    intro hu x hx
    obtain ⟨on, hon⟩ := Option.isSome_iff_exists.1 ((onOff_isSome_iff x).2 hx)
    rw [exec_zoneEnable h tag z hon, zoneSetting_eq, if_neg (by omega), if_pos hu]
  case badField =>
    intro x hbad
    cases hon : onOff x with
    | none => exact exec_zoneEnable_badSetting h tag z hon
    | some on =>
      have hx : x ≤ 1 := (onOff_isSome_iff x).1 (by simp [hon])
      rw [exec_zoneEnable h tag z hon, zoneSetting_eq, if_pos (by omega)]

end Sys2Proof.Machine
end

