-- ==== Sys2Proof/Proofs/LinkSettings.lean ====
section
/-! SET_PATTERNS (R162), SET_NOTICES (R187) and how an object joins the notice pending set (R185): what the checks of the two
requests let through, which settings make a mask, and the obligation O29. -/

namespace Sys2Proof.Machine

/-! ## SET_PATTERNS (R162) -/

/-- R162's order of refusals (log 63), over the pattern slots a taken SET_PATTERNS stores and answers with. -/
theorem exec_setPatterns {s : State} (h : s.Ready) (tag p0 p1 p2 p3 : Byte) :
    exec (.setPatterns tag p0 p1 p2 p3) s = .next
      (if s.locks.limits then s.refuse 0x18 tag .locked
      else if s.commit.isSome then s.refuse 0x18 tag .busy
      else if s.chain.session.isSome then s.refuse 0x18 tag .busy
      else State.reply 0x18 tag .ok [p0, p1, p2, p3]
        { s with tables := { s.tables with patterns := ⟨p0, p1, p2, p3⟩ } }) := by
  change execSetPatterns tag p0 p1 p2 p3 s = _
  unfold execSetPatterns answerSetPatterns
  rw [request_ready h]
  simp only [State.lockChecks, List.cons_append, List.nil_append, checked_cons, checked_nil]
  rfl

/-- With its lock clear and no COMMIT running, only a session stands in the way of a SET_PATTERNS. -/
theorem exec_setPatterns_unlocked {s : State} (h : s.Ready) (hu : s.Unlocked s.locks.limits) (tag p0 p1 p2 p3 : Byte) :
    exec (.setPatterns tag p0 p1 p2 p3) s = .next
      (if s.chain.session.isSome then s.refuse 0x18 tag .busy
      else State.reply 0x18 tag .ok [p0, p1, p2, p3]
        { s with tables := { s.tables with patterns := ⟨p0, p1, p2, p3⟩ } }) := by
  obtain ⟨hlock, hcommit⟩ := hu
  simp [exec_setPatterns h, hlock, hcommit]

/-! ## The settings of a mask (R187) -/

/-- On is 0 and off is 1. -/
theorem onOff_not_toNat (b : Bool) : onOff (!b).toNat = some b := by cases b <;> rfl

section Settings

variable {zone branch segment main valve job chain inputs : Nat}

/-- Eight settings make a mask exactly when each is the on or off of its own kind. -/
theorem maskOf_eq_some_iff (m : NoticeMask) :
    maskOf zone branch segment main valve job chain inputs = some m ↔
      onOff zone = some m.zone ∧ onOff branch = some m.branch ∧ onOff segment = some m.segment ∧ onOff main = some m.main
      ∧ onOff valve = some m.valve ∧ onOff job = some m.job ∧ onOff chain = some m.chain
      ∧ onOff inputs = some m.inputs := by
  obtain ⟨a, b, c, d, e, f, g, h⟩ := m
  unfold maskOf
  split
  case h_1 ha hb hc hd he hf hg hh => simp [ha, hb, hc, hd, he, hf, hg, hh]
  case h_2 hnone =>
    refine ⟨nofun, fun ⟨ha, hb, hc, hd, he, hf, hg, hh⟩ => ?_⟩
    exact (hnone a b c d e f g h ha hb hc hd he hf hg hh).elim

/-- A setting other than on or off makes no mask. -/
theorem maskOf_eq_none (hx : ∃ x ∈ [zone, branch, segment, main, valve, job, chain, inputs], 1 < x) :
    maskOf zone branch segment main valve job chain inputs = none := by
  rw [Option.eq_none_iff_forall_ne_some]
  intro m hm
  have hle : ∀ {x : Nat} {b : Bool}, onOff x = some b → x ≤ 1 := fun hb => (onOff_isSome_iff _).1 (by simp [hb])
  obtain ⟨ha, hb, hc, hd, he, hf, hg, hh⟩ := (maskOf_eq_some_iff m).1 hm
  have hall : ∀ x ∈ [zone, branch, segment, main, valve, job, chain, inputs], x ≤ 1 := by
    simp [hle ha, hle hb, hle hc, hle hd, hle he, hle hf, hle hg, hle hh]
  obtain ⟨x, hmem, hlt⟩ := hx
  exact absurd (hall x hmem) (by omega)

/-! ## SET_NOTICES (R187) -/

/-- A ready part takes a SET_NOTICES whose settings make a mask, whatever the locks, unless a COMMIT runs. -/
theorem exec_setNotices {s : State} (h : s.Ready) (tag : Byte) {m : NoticeMask}
    (hm : maskOf zone branch segment main valve job chain inputs = some m) :
    exec (.setNotices tag zone branch segment main valve job chain inputs) s = .next
      (if s.commit.isSome then s.refuse 0x1A tag .busy else (s.storeMask m).reply 0x1A tag .ok m.bytes) := by
  change execSetNotices tag zone branch segment main valve job chain inputs s = _
  unfold execSetNotices answerSetNotices
  rw [request_ready h, hm]
  simp only [checked_cons, checked_nil]
  rfl

theorem exec_setNotices_badSetting {s : State} (h : s.Ready) (tag : Byte)
    (hm : maskOf zone branch segment main valve job chain inputs = none) :
    exec (.setNotices tag zone branch segment main valve job chain inputs) s = .next (s.refuse 0x1A tag .badField) := by
  change execSetNotices tag zone branch segment main valve job chain inputs s = _
  unfold execSetNotices answerSetNotices
  rw [request_ready h, hm]

end Settings

/-- The settings that name a mask, as SET_NOTICES carries them. -/
theorem maskOf_settings (m : NoticeMask) :
    maskOf (!m.zone).toNat (!m.branch).toNat (!m.segment).toNat (!m.main).toNat (!m.valve).toNat (!m.job).toNat
      (!m.chain).toNat (!m.inputs).toNat = some m := by
  simp [maskOf_eq_some_iff, onOff_not_toNat]

/-! ## Joining the notice pending set (R185) -/

/-- A join leaves everything but the notice pending set, and that as R185 says. -/
theorem joinNotice_eq_noticesWith (s : State) (o : Obj) :
    s.joinNotice o = { s with link := { s.link with notices := s.noticesWith o } } := by
  rw [State.joinNotice_eq, joinNotice_with]

/-! ## The obligation -/

/-- Settles O29, from the answer of each request written out and the spec of a join. -/
theorem patternsAndMaskStored : Obligations.PatternsAndMaskStored := by
  unfold Obligations.PatternsAndMaskStored
  refine ⟨?patterns, ?mask, ?badField, joinNotice_eq_noticesWith, ?kinds⟩
  case patterns =>
    intro s tag p0 p1 p2 p3 h hu
    rw [exec_setPatterns_unlocked h hu]
    exact ⟨fun hnone => by simp [hnone], fun hsome => by simp [Option.isSome_iff_ne_none.2 hsome]⟩
  case mask =>
    intro s tag m h
    rw [exec_setNotices h tag (maskOf_settings m)]
    refine ⟨fun hnone => ?_, fun hsome => by rw [if_pos (Option.isSome_iff_ne_none.2 hsome)]⟩
    rw [if_neg (by simp [hnone])]
    rfl
  case badField => exact fun s tag _ _ _ _ _ _ _ _ h hx => exec_setNotices_badSetting h tag (maskOf_eq_none hx)
  case kinds => exact fun _ _ => ⟨rfl, rfl, rfl, rfl, rfl, rfl, rfl, rfl⟩

end Sys2Proof.Machine
end

