-- ==== Sys2Proof/Proofs/Keeps.lean ====
section
/-! The invariants of Safety.lean along one command: `Keeps s t` says that each of them holds of `t` where it holds of `s`, and that
no lock is cleared. Here the shared operations; the requests and the events follow in files of their own. -/

namespace Sys2Proof.Machine

/-- Every invariant of Safety.lean that `s` has, `t` has; every lock set in `s` is set in `t`. -/
structure Keeps (s t : State) : Prop where
  tables : s.TablesSound → t.TablesSound
  once : s.NoticesOnce → t.NoticesOnce
  window : s.WindowLimited → t.WindowLimited
  bounded : s.Bounded → t.Bounded
  locks : s.locks.Within t.locks

/-- What the invariants read of a state. -/
def State.kept (s : State) : TableStore × Option CommitRun × StoredCopy × Locks × List Obj × List Received × List ServiceEntry × Nat
    × Nat × List WindowEntry :=
  (s.tables, s.commit, s.stored, s.locks, s.link.notices, s.link.rxQueue, s.chain.queue, s.chain.rejects, s.chain.streak,
    s.sched.window)

theorem Locks.Within.refl (l : Locks) : l.Within l := ⟨id, id, id⟩

theorem Locks.Within.trans {a b c : Locks} (h : a.Within b) (k : b.Within c) : a.Within c :=
  ⟨k.1 ∘ h.1, k.2.1 ∘ h.2.1, k.2.2 ∘ h.2.2⟩

namespace Keeps

variable {s t u : State}

theorem ofKept (h : t.kept = s.kept) : Keeps s t := by
  simp only [State.kept, Prod.mk.injEq] at h
  obtain ⟨htables, hcommit, hstored, hlocks, hnotices, hrx, hqueue, hrejects, hstreak, hwindow⟩ := h
  constructor
  · intro ht; rwa [State.TablesSound, htables, hcommit, hstored]
  · intro hn; rwa [State.NoticesOnce, hnotices]
  · exact WindowLimited.congr hwindow (congrArg TableStore.limits htables)
  · intro hb; rwa [State.Bounded, hrx, hqueue, hrejects, hstreak]
  · rw [hlocks]; exact Locks.Within.refl _

theorem refl (s : State) : Keeps s s := ofKept rfl

theorem trans (h : Keeps s t) (k : Keeps t u) : Keeps s u :=
  ⟨k.tables ∘ h.tables, k.once ∘ h.once, k.window ∘ h.window, k.bounded ∘ h.bounded, h.locks.trans k.locks⟩

theorem ite {c : Prop} [Decidable c] {a b : State} (h : Keeps s a) (k : Keeps s b) : Keeps s (if c then a else b) := by
  split <;> assumption

theorem foldl {α : Type} {f : State → α → State} (hf : ∀ s a, Keeps s (f s a)) (l : List α) (s : State) :
    Keeps s (l.foldl f s) := by
  induction l generalizing s with
  | nil => exact refl s
  | cons a l ih => exact (hf s a).trans (ih _)

/-- What a ripple leaves alone or keeps is all the invariants read. -/
theorem ofRipple (h : Ripple s t) : Keeps s t where
  tables := by intro ht; rwa [State.TablesSound, h.tables, h.commit, h.stored]
  once := h.once
  window := h.window
  bounded := by
    have hrx : t.link.rxQueue = s.link.rxQueue := (congrArg Link.rxQueue h.link :)
    intro hb; rwa [State.Bounded, hrx, h.chain]
  locks := by rw [h.locks]; exact Locks.Within.refl _

/-! ## Updates of one part -/

theorem reply (k : Nat) (tag : Byte) (st : Status) (fs : List Byte) (h : Keeps s t) : Keeps s (t.reply k tag st fs) :=
  h.trans (ofKept rfl)

theorem refuse (k : Nat) (tag : Byte) (st : Status) (s : State) : Keeps s (s.refuse k tag st) := ofKept rfl

theorem joinNotice (o : Obj) (s : State) : Keeps s (s.joinNotice o) := ofRipple (.joinNotice s o)

theorem finish (h : Keeps s t) : Keeps s t.finish := h.trans (ofRipple (.finish t))

theorem advanceTo (n : Nat) (s : State) : Keeps s (s.advanceTo n) := ofKept rfl

/-- New tables that are sound where the old ones were, and hold the same limits. -/
theorem withTables (s : State) (T : TableStore) (hs : s.tables.Sound → T.Sound) (hl : T.limits = s.tables.limits) : Keeps s (s.withTables T) where
  tables h := ⟨hs h.1, h.2⟩
  once := id
  window := WindowLimited.congr rfl hl
  bounded := id
  locks := Locks.Within.refl _

/-- A chain record whose service queue is no longer, and whose counts stay in their ranges. -/
theorem withChain {c : Chain} (hq : c.queue.length ≤ s.chain.queue.length) (hr : c.rejects = s.chain.rejects ∨ c.rejects ≤ 3)
    (hs : c.streak = s.chain.streak ∨ c.streak ≤ 8) : Keeps s (s.withChain c) where
  tables := id
  once := id
  window := id
  bounded := by
    rintro ⟨hrx, hqueue, hrejects, hstreak⟩
    exact ⟨hrx, hq.trans hqueue, by simp only [State.withChain]; omega, by simp only [State.withChain]; omega⟩
  locks := Locks.Within.refl _

/-- The shock window loses entries. -/
theorem window_sublist {w : List WindowEntry} (hw : w.Sublist s.sched.window) (sched : Sched) (h : sched.window = w) :
    Keeps s { s with sched := sched } where
  tables := id
  once := id
  window := by
    rintro ⟨hc, hb⟩
    subst h
    have hlen := hw.length_le
    refine ⟨hlen.trans hc, ?_⟩
    rcases hb with hb | hb
    · exact .inl ((List.Sublist.sum_le_sum (hw.map _) fun _ _ => Nat.zero_le _).trans hb)
    · rcases Nat.lt_or_ge sched.window.length s.sched.window.length with hlt | hge
      · refine .inl ?_
        have : sched.window = [] := List.length_eq_zero_iff.1 (by omega)
        simp [State.windowSum, this]
      · exact .inr (show sched.window.length = 1 by omega)
  bounded := id
  locks := Locks.Within.refl _

/-- A frame that completes waits, or is counted as lost (R176). -/
theorem enqueue (r : Received) (s : State) : Keeps s (s.enqueue r) := by
  unfold State.enqueue
  split
  next hlt =>
    refine ⟨id, id, id, ?_, Locks.Within.refl _⟩
    rintro ⟨-, hrest⟩
    simp only [Config.rxQueueMax] at hlt
    exact ⟨by simp only [List.length_append, List.length_singleton]; omega, hrest⟩
  next => exact ofKept rfl

/-- A checked request keeps them where taking it, its checks passed, does. -/
theorem checked (k : Nat) (tag : Byte) (l : List (Bool × Status)) (f : State → State) (s : State)
    (hf : (∀ c ∈ l, c.1 = false) → Keeps s (f s)) : Keeps s (s.checked k tag l f) := by
  rcases checked_cases s k tag l f with ⟨st, h⟩ | ⟨hpass, h⟩
  · rw [h]; exact refuse k tag st s
  · rw [h]; exact hf hpass

theorem whenRunning {f : State → State} (hf : Keeps s (f s)) : Keeps s (s.whenRunning f) := ite hf (refl s)

theorem setChainState (st : ChainState) (s : State) : Keeps s (s.setChainState st) := by
  have hstreak : ∀ n, (if s.chain.st = st then n else 0) = n ∨ (if s.chain.st = st then n else 0) ≤ 8 := fun n => by
    split <;> omega
  have hc : Keeps s (s.withChain { s.chain with st := st, streak := if s.chain.st = st then s.chain.streak else 0 }) :=
    withChain le_rfl (.inl rfl) (hstreak _)
  exact hc.trans (joinNotice _ _)

end Keeps

end Sys2Proof.Machine
end

