-- ==== Sys2Proof/Proofs/KeptByRequests.lean ====
section
/-! The invariants along the answer to a request (`Keeps`): what DEFINE_CARD and MAP_POSITION leave of the position map, the ranges
SET_LIMITS and SET_SCAN bring their settings into, and then every request in turn. -/

namespace Sys2Proof.Machine

/-! ## Settings in range (R77, R157) -/

theorem le_clamp {lo hi : Nat} (h : lo ≤ hi) (n : Nat) : lo ≤ clamp lo hi n ∧ clamp lo hi n ≤ hi := by
  unfold clamp; omega

theorem limitsTaken_inRange (l : Limits) : (limitsTaken l).InRange := by
  have hb := le_clamp (show 1 ≤ 2000 by decide) l.budget
  have hc := le_clamp (show 1 ≤ 32 by decide) l.count
  have hw := le_clamp (show 100 ≤ 10000 by decide) l.window
  unfold limitsTaken Limits.InRange
  dsimp only
  omega

theorem rateOfCode_mem {n r : Nat} (h : rateOfCode n = some r) : r ∈ [125, 250, 500, 1000, 2000] := by
  unfold rateOfCode at h
  split at h <;> simp at h <;> simp [← h]

theorem scanTaken_inRange {n g r : Nat} {code : Nat} (hr : rateOfCode code = some r) (i a p h : Bool) :
    ScanSettings.InRange ⟨i, a, clamp 5 1000 n, p, r, clamp 10 1000 g, h⟩ := by
  have hn := le_clamp (show 5 ≤ 1000 by decide) n
  have hg := le_clamp (show 10 ≤ 1000 by decide) g
  exact ⟨hn.1, hn.2, hg.1, hg.2, rateOfCode_mem hr⟩

/-! ## The card table (R37, R38) -/

theorem takenWidth_inRange (w : Nat) : 8 ≤ takenWidth w ∧ takenWidth w ≤ 64 ∧ takenWidth w % 8 = 0 := by
  unfold takenWidth clamp; omega

theorem mapFn_width_pos (fn : MapFn) : 0 < fn.width := by cases fn <;> simp [MapFn.width]

/-- A taken definition of a card: the widths stay in range, and so do the entries on them. -/
theorem cardsAfter_defined {T : TableStore} (hT : CardsInRange T.cards) (hm : MapInside T.cards T.map) {card w : Nat}
    (hc : card < 16) (hn : card ≤ T.cards.length) (hw : 8 ≤ w ∧ w ≤ 64 ∧ w % 8 = 0)
    (hfit : ∀ e ∈ T.map, e.card = card → e.offset + e.fn.width ≤ w) (hsum : (cardsAfter T.cards card true w).sum ≤ 256) :
    CardsInRange (cardsAfter T.cards card true w) ∧ MapInside (cardsAfter T.cards card true w) T.map := by
  obtain ⟨hlen, -, hwidths⟩ := hT
  simp only [cardsAfter, if_true] at hsum ⊢
  split
  next hlt =>
    rw [if_pos hlt] at hsum
    refine ⟨⟨by simpa using hlen, hsum, fun x hx => ?_⟩, fun e he => ?_⟩
    · rcases List.mem_or_eq_of_mem_set hx with hx | rfl
      · exact hwidths x hx
      · exact hw
    · by_cases hec : e.card = card
      · simpa [hec, List.getD_eq_getElem?_getD, List.getElem?_set, hlt] using hfit e he hec
      · simpa [List.getD_eq_getElem?_getD, List.getElem?_set, Ne.symm hec] using hm e he
  next hge =>
    rw [if_neg hge] at hsum
    have heq : card = T.cards.length := by omega
    refine ⟨⟨by simp; omega, hsum, fun x hx => ?_⟩, fun e he => ?_⟩
    · rcases List.mem_append.1 hx with hx | hx
      · exact hwidths x hx
      · rw [List.mem_singleton.1 hx]; exact hw
    · have hin := hm e he
      have hpos := mapFn_width_pos e.fn
      rcases Nat.lt_or_ge e.card T.cards.length with hlt | hle
      · rwa [List.getD_append _ _ _ _ hlt]
      · rw [List.getD_eq_default _ _ hle] at hin; omega

/-- A taken removal of the last card, which no entry lies on. -/
theorem cardsAfter_removed {T : TableStore} (hT : CardsInRange T.cards) (hm : MapInside T.cards T.map) {card w : Nat}
    (hlast : card + 1 = T.cards.length) (hfree : ∀ e ∈ T.map, e.card ≠ card) :
    CardsInRange (cardsAfter T.cards card false w) ∧ MapInside (cardsAfter T.cards card false w) T.map := by
  obtain ⟨hlen, hsum, hwidths⟩ := hT
  have hsub : T.cards.dropLast.Sublist T.cards := List.dropLast_sublist _
  have hafter : cardsAfter T.cards card false w = T.cards.dropLast := rfl
  rw [hafter]
  refine ⟨⟨hsub.length_le.trans hlen, ?_, fun x hx => hwidths x (hsub.subset hx)⟩, fun e he => ?_⟩
  · exact (List.Sublist.sum_le_sum hsub fun _ _ => Nat.zero_le _).trans hsum
  · have hin := hm e he
    have hpos := mapFn_width_pos e.fn
    have hlt : e.card < T.cards.length := by
      by_contra hle
      rw [List.getD_eq_default _ _ (by omega)] at hin; omega
    have := hfree e he
    rw [List.getD_eq_getElem?_getD, List.getElem?_dropLast, if_pos (by omega), ← List.getD_eq_getElem?_getD]
    exact hin

theorem TableStore.Sound.cards {T : TableStore} (h : T.Sound) : CardsInRange T.cards := h.2.2.1
theorem TableStore.Sound.inside {T : TableStore} (h : T.Sound) : MapInside T.cards T.map := h.2.2.2.2

/-! ## The position map (R56, R57, R60) -/

theorem covers_iff (e : MapEntry) (card offset : Nat) :
    e.covers card offset = true ↔ e.card = card ∧ e.offset ≤ offset ∧ offset < e.offset + e.fn.width := by
  simp [MapEntry.covers, and_assoc]

theorem MapDisjoint.append {m : List MapEntry} {e : MapEntry} (h : MapDisjoint m)
    (he : ∀ x ∈ m, ∀ i < e.fn.width, x.covers e.card (e.offset + i) = false) : MapDisjoint (m ++ [e]) := by
  refine List.pairwise_append.2 ⟨h, List.pairwise_singleton .., ?_⟩
  rintro x hx y hy card offset ⟨hxc, hyc⟩
  obtain rfl := List.mem_singleton.1 hy
  obtain ⟨rfl, hlo, hhi⟩ := (covers_iff y card offset).1 hyc
  have := he x hx (offset - y.offset) (by omega)
  rw [Nat.add_sub_cancel' hlo, hxc] at this
  cases this

/-- R57: an entry that meets no conflict covers no place that is covered. -/
theorem mapConflicts_free {T : TableStore} {e : MapEntry} (h : ∀ c ∈ T.mapConflicts e, c.1 = false) :
    ∀ x ∈ T.map, ∀ i < e.fn.width, x.covers e.card (e.offset + i) = false := by
  intro x hx i hi
  have hfirst := h _ (List.mem_cons_self ..)
  simp only [List.any_eq_false, List.mem_range, Option.isSome_iff_ne_none, ne_eq, not_not] at hfirst
  have hnone := hfirst i hi
  simpa using List.find?_eq_none.1 hnone x hx

/-- R57: the places of a FLOW field start at a multiple of 8, so a field that starts on its card ends on it. -/
theorem offsetTaken_inside {fn : MapFn} {offset w : Nat} (h : offset < w) (h8 : w % 8 = 0) :
    fn.offsetTaken offset + fn.width ≤ w := by
  cases fn <;> simp only [MapFn.offsetTaken, MapFn.width] <;> omega

theorem TableStore.Sound.mapped {T : TableStore} (h : T.Sound) {card offset : Nat} {fn : MapFn} (ho : offset < T.cards.getD card 0)
    (hc : ∀ c ∈ T.mapConflicts ⟨card, fn.offsetTaken offset, fn⟩, c.1 = false) :
    TableStore.Sound { T with map := T.map ++ [⟨card, fn.offsetTaken offset, fn⟩] } := by
  obtain ⟨hlimits, hscan, hcards, hdisjoint, hinside⟩ := h
  refine ⟨hlimits, hscan, hcards, hdisjoint.append (mapConflicts_free hc), fun e he => ?_⟩
  rcases List.mem_append.1 he with he | he
  · exact hinside e he
  · obtain rfl := List.mem_singleton.1 he
    refine offsetTaken_inside ho ?_
    rw [List.getD_eq_getElem?_getD] at ho ⊢
    cases hw : T.cards[card]? with
    | none => simp
    | some w => exact (hcards.2.2 w (List.mem_of_getElem? hw)).2.2

theorem TableStore.Sound.unmapped {T : TableStore} (h : T.Sound) (e : MapEntry) :
    TableStore.Sound { T with map := T.map.erase e } := by
  obtain ⟨hlimits, hscan, hcards, hdisjoint, hinside⟩ := h
  exact ⟨hlimits, hscan, hcards, hdisjoint.sublist List.erase_sublist, fun x hx => hinside x (List.mem_of_mem_erase hx)⟩

namespace Keeps

variable {s t u : State}

/-! ## Requests that define -/

/-- A card table change with tables that are sound where the old ones were. -/
theorem changeCards {cards : List Nat} (h : s.tables.Sound → CardsInRange cards ∧ MapInside cards s.tables.map) :
    Keeps s (s.changeCards cards) := by
  have hcards : Keeps s (s.withTables { s.tables with cards := cards }) :=
    withTables _ _ (fun ⟨hl, hs, _, hd, hi⟩ => ⟨hl, hs, (h ⟨hl, hs, ‹_›, hd, hi⟩).1, hd, (h ⟨hl, hs, ‹_›, hd, hi⟩).2⟩) rfl
  have hchain (t : State) : Keeps t t.recardChain :=
    (setChainState _ t).trans (withChain le_rfl (.inr (Nat.zero_le _)) (.inl rfl))
  have himage (t : State) : Keeps t t.recardImage := ofKept rfl
  have hvalve (t : State) (v : Nat) : Keeps t (t.recardValve s.tables v) := by
    unfold State.recardValve
    have hset : Ripple t (if (t.tables.valve v).present then
        (t.setValve v (ValveRec.fresh .unknown)).withdraw fun e => e.valve == v else t) :=
      Ripple.ite ((Ripple.setValve ..).trans (Ripple.withdraw ..)) (Ripple.refl t)
    exact ofRipple (Ripple.ite hset (hset.trans (Ripple.joinNotice ..)))
  have howner (t : State) (o : Owner) : Keeps t (t.recardOwner o) := ofRipple (Ripple.setOwner ..)
  unfold State.changeCards
  refine finish (trans ?_ (foldl howner _ _))
  refine trans ?_ (foldl hvalve _ _)
  exact ((hcards.trans (hchain _)).trans (himage _)).trans (ofRipple (Ripple.joinInputsIfStale ..))

theorem defineCard (tag : Byte) (card defined width : Nat) (s : State) : Keeps s (answerDefineCard tag card defined width s) := by
  unfold answerDefineCard
  split
  case h_2 => exact refuse _ _ _ _
  case h_1 d _ =>
    split
    case isTrue => exact refuse _ _ _ _
    case isFalse hcard =>
      simp only [Config.maxCards, not_le] at hcard
      unfold State.defineCard
      refine checked _ _ _ _ s fun hpass => ?_
      refine reply _ _ _ _ (changeCards fun hsound => ?_)
      simp only [State.lockChecks, List.cons_append, List.nil_append, List.forall_mem_cons] at hpass
      obtain ⟨-, -, -, hbeyond, -, hlast, hfree, hfit, hfull, -⟩ := hpass
      cases d with
      | true =>
        simp only [Bool.true_and, decide_eq_false_iff_not, Nat.not_lt, Config.maxPositions, List.any_eq_false, Bool.and_eq_true,
          beq_iff_eq, decide_eq_true_eq, not_and] at hbeyond hfit hfull
        exact cardsAfter_defined hsound.cards hsound.inside hcard hbeyond
          (takenWidth_inRange width)
          hfit (Nat.not_lt.1 (of_decide_eq_false hfull))
      | false =>
        simp only [Bool.not_false, Bool.true_and, bne_eq_false_iff_eq, List.any_eq_false, beq_iff_eq] at hlast hfree
        exact cardsAfter_removed hsound.cards hsound.inside hlast hfree

theorem clearField (e : MapEntry) (s : State) : Keeps s (s.clearField e) :=
  foldl (fun s _ => ofRipple (Ripple.writeImageBit _ false s)) _ _

theorem afterMap (e : MapEntry) (s : State) : Keeps s (s.afterMap e) := by
  unfold State.afterMap
  refine (clearField e s).trans ?_
  generalize s.clearField e = t
  split
  · exact ofKept rfl
  · exact joinNotice _ _
  · split
    · exact ofRipple (((Ripple.ite (Ripple.valveToUnknown _ _) (Ripple.refl t)).trans (Ripple.joinNotice _ _)).trans
        (Ripple.checkNoValves _ _))
    · exact refl t

theorem mapPosition (tag : Byte) (card offset function number level : Nat) (s : State) :
    Keeps s (answerMapPosition tag card offset function number level s) := by
  have after {m : List MapEntry} (e : MapEntry) (st : Status) (t : State)
      (hm : t.tables.Sound → TableStore.Sound { t.tables with map := m }) :
      Keeps t ((((t.withTables { t.tables with map := m }).afterMap e).finish).mapReply tag st e.card e.offset) :=
    reply _ _ _ _ (finish ((withTables _ _ hm rfl).trans (afterMap e _)))
  unfold answerMapPosition
  split
  case h_1 => exact refuse _ _ _ _
  case h_2 fn _ =>
    refine checked _ _ _ _ s fun hpass => ?_
    simp only [State.lockChecks, List.cons_append, List.nil_append, List.forall_mem_cons] at hpass
    obtain ⟨-, hplace, -⟩ := hpass
    have ho : offset < s.tables.cards.getD card 0 := by simpa using hplace
    cases fn with
    | none =>
      dsimp only
      unfold State.unmapAt
      split
      · exact reply _ _ _ _ (refl s)
      · exact checked _ _ _ _ s fun _ => after _ _ s fun h => h.unmapped _
    | some fn =>
      refine ite (reply _ _ _ _ (refl s)) (checked _ _ _ _ s fun hfree => ?_)
      exact after _ _ s fun h => h.mapped ho fun c hc => hfree c (List.mem_append_left _ hc)

theorem defineValve (tag : Byte) (v present stroke fail : Nat) (s : State) :
    Keeps s (answerDefineValve tag v present stroke fail s) := by
  have redefine (d : ValveDef) (t : State) : Keeps t (t.redefineValve v d) := by
    have hput : Keeps t (t.putValveDef v d) := withTables _ _ id rfl
    have hset : Ripple (t.putValveDef v d) (if !d.present then (t.putValveDef v d).setValve v (ValveRec.fresh .undefined)
        else if !(t.tables.valve v).present then (t.putValveDef v d).setValve v
          { ValveRec.fresh .unknown with target := (t.putValveDef v d).commandedTarget v }
        else if (t.tables.valve v).fail != d.fail then (t.putValveDef v d).valveToUnknown v
        else t.putValveDef v d) :=
      .ite (.setValve ..) (.ite (.setValve ..) (.ite (.valveToUnknown ..) (.refl _)))
    exact hput.trans (ofRipple ((Ripple.ite hset (hset.trans (.joinNotice ..))).trans (.checkNoValves ..)))
  unfold answerDefineValve State.defineValve
  split
  · refine ite (refuse _ _ _ _) (checked _ _ _ _ s fun _ => ?_)
    exact reply _ _ _ _ (finish (redefine _ s))
  · exact refuse _ _ _ _

theorem defineMeter (tag : Byte) (m defined k shift : Nat) (s : State) : Keeps s (answerDefineMeter tag m defined k shift s) := by
  have redefine (d : MeterDef) (t : State) : Keeps t (t.redefineMeter m d) :=
    have hput : Keeps t (t.putMeterDef m d) := withTables _ _ id rfl
    ite hput (hput.trans (ofKept rfl))
  unfold answerDefineMeter State.defineMeter
  split
  · exact ite (refuse _ _ _ _) (checked _ _ _ _ s fun _ => reply _ _ _ _ (redefine _ s))
  · exact refuse _ _ _ _

theorem putBranchDef (b : Nat) (d : BranchDef) (s : State) : Keeps s (s.putBranchDef b d) := withTables _ _ id rfl

theorem defineBranch (tag : Byte) (b defined segment park nominal : Nat) (s : State) :
    Keeps s (answerDefineBranch tag b defined segment park nominal s) := by
  have redefine (d : Bool) (g : Nat) (p : ParkAction) (n : Nat) (t : State) : Keeps t (t.redefineBranch b d g p n) :=
    have put (d : BranchDef) (r : OwnerRec) : Keeps t ((t.putBranchDef b d).setOwner (.branch b) r) :=
      (putBranchDef b d t).trans (ofRipple (.setOwner ..))
    (ite (put _ _) (ite (putBranchDef _ _ t) (put _ _))).trans (joinNotice _ _)
  unfold answerDefineBranch State.defineBranch
  split
  · refine ite (refuse _ _ _ _) (checked _ _ _ _ s fun _ => ?_)
    exact reply _ _ _ _ (finish (redefine _ _ _ _ s))
  · exact refuse _ _ _ _

theorem putZoneDef (z : Nat) (d : ZoneDef) (s : State) : Keeps s (s.putZoneDef z d) := withTables _ _ id rfl
theorem putPlan (z : Nat) (p : List Owner) (s : State) : Keeps s (s.putPlan z p) := withTables _ _ id rfl
theorem setZone (z : Nat) (r : ZoneRec) (s : State) : Keeps s (s.setZone z r) := ofRipple (.setZone s z r)

theorem defineZone (tag : Byte) (z defined kind confirm clear auto failsafe branch threshold minFlow : Nat) (s : State) :
    Keeps s (answerDefineZone tag z defined kind confirm clear auto failsafe branch threshold minFlow s) := by
  have redefine (d : Option ZoneDef) (t : State) : Keeps t (t.redefineZone z d) := by
    unfold State.redefineZone
    refine trans ?_ (joinNotice _ _)
    cases d with
    | none => exact ((putZoneDef _ _ t).trans (putPlan _ _ _)).trans (setZone _ _ _)
    | some d => exact (putZoneDef _ _ t).trans (setZone _ _ _)
  unfold answerDefineZone
  split
  · exact ite (refuse _ _ _ _) (checked _ _ _ _ s fun _ => reply _ _ _ _ (redefine _ s))
  · exact refuse _ _ _ _

theorem setPlan (tag : Byte) (z : Nat) (l : List (Nat × Nat)) (s : State) : Keeps s (answerSetPlan tag z l s) := by
  unfold answerSetPlan
  split
  · exact refuse _ _ _ _
  · exact checked _ _ _ _ s fun _ => reply _ _ _ _ (putPlan _ _ s)

/-! ## Settings -/

/-- R157: with an entry in the shock window the limits of the window do not move. -/
theorem withLimits {l : Limits} (hl : l.InRange) (hw : s.sched.window = [] ∨ l.windowPart = s.tables.limits.windowPart) :
    Keeps s (s.withTables { s.tables with limits := l }) where
  tables h := ⟨⟨hl, h.1.2⟩, h.2⟩
  once := id
  window := by
    rintro ⟨hc, hb⟩
    rcases hw with hw | hw
    · exact ⟨by simp [State.WindowCounted, State.withTables, hw], .inl (by simp [State.windowSum, State.withTables, hw])⟩
    · simp only [Limits.windowPart, Prod.mk.injEq] at hw
      obtain ⟨hbudget, -, hcount, -⟩ := hw
      exact ⟨by simpa [State.WindowCounted, State.withTables, hcount] using hc,
        by simpa [State.WindowBudgeted, State.windowSum, State.withTables, hbudget] using hb⟩
  bounded := id
  locks := Locks.Within.refl _

theorem wantLook (s : State) : Keeps s s.wantLook := ofRipple (.wantLook s)
theorem trigger (s : State) : Keeps s s.trigger := ofRipple (.trigger s)

theorem setLimits (tag : Byte) (a b c d e f g h : Nat) (s : State) : Keeps s (answerSetLimits tag a b c d e f g h s) := by
  unfold answerSetLimits State.setLimits
  refine checked _ _ _ _ s fun hpass => ?_
  simp only [State.lockChecks, List.cons_append, List.nil_append, List.forall_mem_cons] at hpass
  obtain ⟨-, -, hbusy, -⟩ := hpass
  refine reply _ _ _ _ (finish ?_)
  have hput := withLimits (s := s) (limitsTaken_inRange ⟨a, b, c, d, e, f, g, h⟩) (by
    rw [Bool.and_eq_false_iff] at hbusy
    rcases hbusy with hempty | hsame
    · exact .inl (by simpa using hempty)
    · exact .inr (bne_eq_false_iff_eq.1 hsame).symm)
  split
  · exact hput
  · exact hput.trans (wantLook _)

theorem setPatterns (tag a b c d : Byte) (s : State) : Keeps s (answerSetPatterns tag a b c d s) :=
  checked _ _ _ _ s fun _ => reply _ _ _ _ (withTables _ _ id rfl)

theorem newInterval (old : ScanSettings) (s : State) : Keeps s (s.newInterval old) := by
  unfold State.newInterval
  split
  · exact ite (ofKept rfl) (refl s)
  · exact refl s

theorem storeScan {c : ScanSettings} (hc : c.InRange) (s : State) : Keeps s (s.storeScan c) := by
  unfold State.storeScan
  have hput : Keeps s ((s.withTables { s.tables with scan := c }).newInterval s.tables.scan) :=
    (withTables s { s.tables with scan := c } (fun h => ⟨h.1, hc, h.2.2⟩) rfl).trans (newInterval _ _)
  have himage := ite (c := (!s.tables.scan.image && c.image) = true) (hput.trans (ofRipple (.imageTrigger _))) hput
  exact finish (ite (himage.trans (wantLook _)) himage)

theorem setScan (tag : Byte) (a b c d e f g : Nat) (s : State) : Keeps s (answerSetScan tag a b c d e f g s) := by
  unfold answerSetScan
  split
  case h_1 hr _ => exact checked _ _ _ _ s fun _ => reply _ _ _ _ (storeScan (scanTaken_inRange hr _ _ _ _) s)
  case h_2 => exact refuse _ _ _ _

theorem storeMask (m : NoticeMask) (s : State) : Keeps s (s.storeMask m) where
  tables := id
  once := List.Nodup.filter _
  window := id
  bounded := id
  locks := Locks.Within.refl _

theorem setNotices (tag : Byte) (a b c d e f g h : Nat) (s : State) : Keeps s (answerSetNotices tag a b c d e f g h s) := by
  unfold answerSetNotices
  split
  · exact refuse _ _ _ _
  · exact checked _ _ _ _ s fun _ => reply _ _ _ _ (storeMask _ s)

/-! ## Requests that command -/

theorem activation (k : Nat) (tag : Byte) (b : Nat) (on : Bool) (s : State) : Keeps s (s.activation k tag b on) := by
  refine checked _ _ _ _ s fun _ => reply _ _ _ _ (ite (refl s) (finish ?_))
  exact (putBranchDef _ _ s).trans (ofRipple ((Ripple.joinNotice ..).trans (.evaluate ..)))

theorem hold (tag : Byte) (k n : Nat) (s : State) : Keeps s (answerHold tag k n s) := by
  unfold answerHold
  split
  · exact refuse _ _ _ _
  · exact checked _ _ _ _ s fun _ => reply _ _ _ _ (finish (ofRipple ((Ripple.setOwner ..).trans (.raiseHold ..))))

theorem unhold (tag : Byte) (k n : Nat) (s : State) : Keeps s (answerUnhold tag k n s) := by
  unfold answerUnhold
  split
  · exact refuse _ _ _ _
  · exact checked _ _ _ _ s fun _ => reply _ _ _ _ (finish (ofRipple ((Ripple.setOwner ..).trans (.lowerHold ..))))

theorem declareDry (tag : Byte) (z : Nat) (s : State) : Keeps s (s.declareDry tag z) :=
  checked _ _ _ _ s fun _ => reply _ _ _ _ (finish (ofRipple (.enterDry z s)))

theorem ackZone (tag : Byte) (z d : Nat) (s : State) : Keeps s (answerAckZone tag z d s) := by
  unfold answerAckZone
  split
  · exact refuse _ _ _ _
  · exact checked _ _ _ _ s fun _ => reply _ _ _ _ ((setZone _ _ s).trans (joinNotice _ _))
  · exact declareDry tag z s

theorem releaseJob (tag : Byte) (z : Nat) (s : State) : Keeps s (answerReleaseJob tag z s) := by
  unfold answerReleaseJob
  refine ite (refuse _ _ _ _) ?_
  split
  · exact refuse _ _ _ _
  · split
    · exact refuse _ _ _ _
    · exact checked _ _ _ _ s fun _ => reply _ _ _ _ (finish (ofRipple (.releaseSlot _ _ s)))

theorem clearFault (tag : Byte) (v : Nat) (s : State) : Keeps s (answerClearFault tag v s) :=
  checked _ _ _ _ s fun _ => reply _ _ _ _ (ofRipple (.setValve ..))

theorem zoneEnable (tag : Byte) (z x : Nat) (s : State) : Keeps s (answerZoneEnable tag z x s) := by
  have enable : Keeps s (s.enableZone z) := (putZoneDef _ _ s).trans (ofRipple (enableZone_ripple z s))
  have disable : Keeps s (s.disableZone z) := ((putZoneDef _ _ s).trans (setZone _ _ _)).trans (joinNotice _ _)
  unfold answerZoneEnable
  split
  · exact refuse _ _ _ _
  · exact checked _ _ _ _ s fun _ => reply _ _ _ _ (ite (ite enable (refl s)) (ite (refl s) disable))

theorem joinMove (e : MoveEntry) (s : State) : Keeps s (s.joinMove e) := ofKept rfl

theorem valveMove (tag : Byte) (v d : Nat) (s : State) : Keeps s (answerValveMove tag v d s) := by
  unfold answerValveMove
  split
  · exact refuse _ _ _ _
  · exact checked _ _ _ _ s fun _ => reply _ _ _ _ (finish (ite (ofRipple (.withdraw ..)) (joinMove _ _)))

theorem service (tag : Byte) (c : Nat) (w : Word) (s : State) : Keeps s (answerService tag c w s) := by
  unfold answerService
  refine checked _ _ _ _ s fun hpass => ?_
  simp only [List.forall_mem_cons] at hpass
  obtain ⟨-, -, -, hfull, -⟩ := hpass
  have hlt : s.chain.queue.length < 8 := Nat.lt_of_not_le (of_decide_eq_false hfull)
  refine ⟨id, id, id, ?_, Locks.Within.refl _⟩
  rintro ⟨hrx, -, hcounts⟩
  exact ⟨hrx, by simpa [State.joinService, State.withChain] using hlt, hcounts⟩

theorem prove (tag : Byte) (f st n : Nat) (s : State) : Keeps s (answerProve tag f st n s) := by
  unfold answerProve
  split
  · exact refuse _ _ _ _
  · exact checked _ _ _ _ s fun _ => ofKept rfl

theorem writeOutputs (tag : Byte) (l : List (Nat × Nat)) (s : State) : Keeps s (answerWriteOutputs tag l s) := by
  refine checked _ _ _ _ s fun _ => reply _ _ _ _ (ite (refl s) ?_)
  have hput : Keeps s { s with image := { s.image with out := writeBits s.image.out l } } := ofKept rfl
  exact hput.trans (ofRipple (.imageTrigger _))

/-! ## Reads, locks, the stored copy -/

theorem readObject (tag : Byte) (k n : Nat) (s : State) : Keeps s (answerReadObject tag k n s) := by
  unfold answerReadObject
  split
  · exact reply _ _ _ _ (refl s)
  · exact refuse _ _ _ _

/-- R189: a LOCK sets locks and clears none. -/
theorem lock (tag : Byte) (a b c : Nat) (s : State) : Keeps s (answerLock tag a b c s) := by
  unfold answerLock
  split
  · refine reply _ _ _ _ ⟨id, id, id, id, ?_⟩
    exact ⟨fun h => by simp [Locks.set, h], fun h => by simp [Locks.set, h], fun h => by simp [Locks.set, h]⟩
  · exact refuse _ _ _ _

/-- R191: the snapshot of a COMMIT is the table store as it stands. -/
theorem commit (tag : Byte) (s : State) : Keeps s (answerCommit tag s) :=
  checked _ _ _ _ s fun _ => ⟨fun h => ⟨h.1, fun r hr => by obtain rfl := Option.some.inj hr; exact h.1, h.2.2⟩, id, id, id,
    Locks.Within.refl _⟩

theorem restartTables (tag : Byte) (s : State) : Keeps s (answerRestartTables tag s) :=
  checked _ _ _ _ s fun _ => ofKept rfl

theorem restartRuntime (tag : Byte) (x : Nat) (s : State) : Keeps s (answerRestartRuntime tag x s) := by
  unfold answerRestartRuntime
  split
  · exact refuse _ _ _ _
  · exact ofKept rfl
  · exact restartTables tag s

/-- What the owner of any request does with it keeps the invariants; a command that is no request has no owner. -/
theorem answerOf (c : Instr) (s : State) : Keeps s (answerOf c s) := by
  cases c
  case defineCard => exact defineCard _ _ _ _ s
  case mapPosition => exact mapPosition _ _ _ _ _ _ s
  case defineValve => exact defineValve _ _ _ _ _ s
  case defineMeter => exact defineMeter _ _ _ _ _ s
  case defineBranch => exact defineBranch _ _ _ _ _ _ s
  case defineZone => exact defineZone _ _ _ _ _ _ _ _ _ _ _ s
  case setPlan => exact setPlan _ _ _ s
  case setLimits => exact setLimits _ _ _ _ _ _ _ _ _ s
  case setPatterns => exact setPatterns _ _ _ _ _ s
  case setScan => exact setScan _ _ _ _ _ _ _ _ s
  case setNotices => exact setNotices _ _ _ _ _ _ _ _ _ s
  case activate => exact activation _ _ _ _ s
  case deactivate => exact activation _ _ _ _ s
  case hold => exact hold _ _ _ s
  case unhold => exact unhold _ _ _ s
  case ackZone => exact ackZone _ _ _ s
  case ackZoneDeclareDry => exact declareDry _ _ s
  case releaseJob => exact releaseJob _ _ s
  case clearFault => exact clearFault _ _ s
  case zoneEnable => exact zoneEnable _ _ _ s
  case valveMove => exact valveMove _ _ _ s
  case service => exact service _ _ _ s
  case prove => exact prove _ _ _ _ s
  case writeOutputs => exact writeOutputs _ _ s
  case readObject => exact readObject _ _ _ s
  case lock => exact lock _ _ _ _ s
  case commit => exact commit _ s
  case restartRuntime => exact restartRuntime _ _ s
  case restartTables => exact restartTables _ s
  case identify | readStatus | readJobs => exact ofKept rfl
  case scanNow => exact reply _ _ _ _ (trigger s)
  case readPositions | readWindow | readMoves => exact checked _ _ _ _ s fun _ => reply _ _ _ _ (refl s)
  all_goals exact refl s

end Keeps

end Sys2Proof.Machine
end

