-- ==== Sys2Proof/Proofs/StepInvariants.lean ====
section
/-! The invariants along every command (`Keeps`): the link, the chain, the timers, the starts; and the obligations O9 to O13. -/

namespace Sys2Proof.Machine

namespace Keeps

variable {s t u : State}

/-! ## The link (chapter 10) -/

theorem dispatch (r : Received) (s : State) : Keeps s (s.dispatch r) := by
  cases r with
  | request c => exact answerOf c s
  | badLength tag kind => exact refuse _ _ _ _
  | unknown tag kind => exact refuse _ _ _ _

/-- The receive queue is shortened. -/
theorem rxRest {r : Received} {rest : List Received} (h : s.link.rxQueue = r :: rest) :
    Keeps s { s with link := { s.link with rxQueue := rest } } where
  tables := id
  once := id
  window := id
  bounded := by
    rintro ⟨hrx, hrest⟩
    rw [h, List.length_cons] at hrx
    exact ⟨Nat.le_of_succ_le hrx, hrest⟩
  locks := Locks.Within.refl _

theorem dispatchLoop (n : Nat) (s : State) : Keeps s (dispatchLoop n s) := by
  induction n generalizing s with
  | zero => exact refl s
  | succ n ih =>
    unfold Machine.dispatchLoop
    split
    · exact refl s
    · rename_i hq
      exact ite (((rxRest hq).trans (dispatch _ _)).trans (ih _)) (refl s)

theorem dispatchAll (s : State) : Keeps s s.dispatchAll := dispatchLoop _ s

theorem request (c : Instr) {f : State → State} (hf : Keeps s (f s)) : Keeps s (s.request c f) :=
  whenRunning (ite hf (enqueue _ s))

theorem withRx (buf : Option (List Byte)) (s : State) : Keeps s (s.withRx buf) := ofKept rfl

theorem takeByte (b : Byte) (s : State) : Keeps s (s.takeByte b).2 := by
  unfold State.takeByte
  split
  · exact ite (withRx _ s) (refl s)
  · split
    · exact withRx _ s
    · exact ofKept rfl
    · exact ofKept rfl
    · exact ((withRx _ s).trans (enqueue _ _)).trans (dispatchAll _)

theorem rxLoop (n : Nat) (l : List Byte) (s : State) : Keeps s (rxLoop n l s) := by
  induction n generalizing l s with
  | zero => exact refl s
  | succ n ih =>
    cases l with
    | nil => exact refl s
    | cons b rest => exact (takeByte b s).trans (ih _ _)

theorem abandonFrame (s : State) : Keeps s s.abandonFrame := ofKept rfl

theorem received (bytes : List Byte) (s : State) : Keeps s
    (Machine.rxLoop (rxFuel bytes.length) bytes
      { (if s.gapPassed then s.abandonFrame else s) with
        link := { (if s.gapPassed then s.abandonFrame else s).link with
          lastByteAt := (if s.gapPassed then s.abandonFrame else s).clock } }) := by
  refine trans ?_ (rxLoop _ _ _)
  exact (ite (abandonFrame s) (refl s)).trans (ofKept rfl)

theorem sendReply (r : Reply) (rest : List Reply) (s : State) : Keeps s (s.sendReply r rest) := ofKept rfl

/-- The object at the head of the set leaves it (R186). -/
theorem sendNotice {o : Obj} {rest : List Obj} (h : s.link.notices = o :: rest) : Keeps s (s.sendNotice o rest) where
  tables := id
  once hn := by rw [State.NoticesOnce, h] at hn; exact (List.nodup_cons.1 hn).2
  window := id
  bounded := id
  locks := Locks.Within.refl _

/-! ## The chain (chapters 2 and 9) -/

theorem selectFrame (p : Purpose) (payload : List Bool) (s : State) : Keeps s (s.selectFrame p payload) := ofKept rfl

theorem countAccept (s : State) : Keeps s s.countAccept :=
  withChain (s := s) (c := { s.chain with rejects := 0 }) le_rfl (.inr (Nat.zero_le _)) (.inl rfl)

theorem countReject (s : State) : Keeps s s.countReject :=
  withChain (s := s) (c := { s.chain with rejects := min 3 (s.chain.rejects + 1), rejectTotal := s.chain.rejectTotal + 1 })
    le_rfl (.inr (Nat.min_le_left _ _)) (.inl rfl)

/-- The end of a frame keeps what the frame's user keeps. -/
theorem atFrameEnd (p : Purpose → Bool) (good : Bool) (cdi : List Bool) {k : Frame → List Bool → State → State}
    (hk : ∀ f ret t, Keeps t (k f ret t)) (s : State) : Keeps s (s.atFrameEnd p good cdi k) := by
  have hend (f : Frame) : Keeps s (s.endFrame f) := ofKept rfl
  have hgood (f : Frame) (ret : List Bool) (t : State) : Keeps t (t.ringAccepted f.purpose.kind f.payload ret) := ofKept rfl
  have hbad (f : Frame) (t : State) : Keeps t (t.ringDisturbed f.purpose.kind) := ofKept rfl
  unfold State.atFrameEnd
  refine whenRunning ?_
  dsimp only
  split
  · rename_i f _
    refine ite (ite ?_ ?_) (refl s)
    · exact (((hend f).trans (hgood f _ _)).trans (countAccept _)).trans (hk ..)
    · exact (((hend f).trans (hbad f _)).trans (countReject _)).trans (hk ..)
  · exact refl s

theorem withSession (p : Option Session) (s : State) : Keeps s (s.withSession p) := ofKept rfl

theorem mapTimers (f : StrokeTimer → StrokeTimer) (s : State) : Keeps s (s.mapTimers f) := ofKept rfl

theorem dropService (s : State) : Keeps s s.dropService := by
  unfold State.dropService
  refine (foldl (fun s e => refuse 0x31 e.tag .chainDown s) s.chain.queue s).trans ?_
  exact withChain (Nat.zero_le _) (.inl rfl) (.inr (Nat.zero_le _))

theorem dropSession (s : State) : Keeps s s.dropSession := by
  unfold State.dropSession
  split
  · exact ofKept rfl
  · exact refl s

theorem enterBroken (s : State) : Keeps s s.enterBroken := by
  have hzone (t : State) (z : Nat) : Keeps t
      (if (t.tables.zone z).kind = .drip && (t.tables.zone z).failsafe then (t.zoneChainLoss z).finish else t) :=
    ite (finish (ofRipple (.zoneChainLoss z t))) (refl t)
  unfold State.enterBroken
  refine trans ?_ (foldl hzone _ _)
  refine trans (((setChainState .broken s).trans (dropService _)).trans (dropSession _)) ?_
  exact (mapTimers _ _).trans (withChain le_rfl (.inl rfl) (.inl rfl))

theorem afterReject {next : State → State} (hn : Keeps s (next s)) : Keeps s (s.afterReject next) :=
  ite (enterBroken s) hn

theorem deliver (order : ScanOrder) (s : State) : Keeps s (s.deliver order) :=
  have hflow : Keeps s { s with flow := (s.deliver order).flow } := ofKept rfl
  hflow.trans (ofRipple (.deliver order s))

theorem takeImage (payload ret : List Bool) (s : State) : Keeps s (s.takeImage payload ret) := by
  have hput : Keeps s { s with
      image := { s.image with ret := ret, copy := payload, cardGood := s.cardGoodOf ret, fresh := true, lastFrameAt := some s.clock }
      periodicFrom := some s.clock } := ofKept rfl
  exact (hput.trans (ofRipple (.imageTrigger _))).trans (ofRipple (.joinInputsIfChanged _ _))

theorem acceptScan (f : Frame) (ret : List Bool) (order : ScanOrder) (s : State) : Keeps s (s.acceptScan f ret order) :=
  finish ((takeImage _ _ s).trans (deliver _ _))

theorem adopt (ret : List Bool) (s : State) : Keeps s (s.adopt ret) := by
  have himage : Keeps s (s.adoptImage ret) := by
    have hput : Keeps s { s with image := ⟨s.adoptedImage ret, s.adoptedImage ret, ret, s.cardGoodOf ret, false, some s.clock⟩ } :=
      ofKept rfl
    exact hput.trans (ofRipple (.joinInputsIfStale _ _))
  have hchain (t : State) : Keeps t (State.loseFlow { t with chain := { t.chain with adopted := true, echoNext := false } }) :=
    ofKept rfl
  unfold State.adopt
  refine finish (trans ?_ (ofRipple ((Ripple.trigger _).trans (Ripple.wantLook _))))
  refine trans ?_ (setChainState _ _)
  exact (himage.trans (hchain _)).trans (ofRipple ((Ripple.adoptValves _).trans (Ripple.adoptOwners _)))

theorem echoNext (b : Bool) (s : State) : Keeps s (s.withChain { s.chain with echoNext := b }) := ofKept rfl

theorem setHeadStage (g : Stage) (s : State) : Keeps s (s.setHeadStage g) := by
  unfold State.setHeadStage
  split
  next e es hq => exact withChain (by rw [hq]; rfl) (.inl rfl) (.inl rfl)
  next => exact refl s

theorem endService (ret : List Bool) (s : State) : Keeps s (s.endService ret) := by
  unfold State.endService
  split
  next e es hq =>
    refine reply _ _ _ _ (withChain (by rw [hq]; exact Nat.le_succ _) (.inl rfl) ?_)
    dsimp only
    split
    · exact .inr (Nat.zero_le _)
    · exact .inl rfl
  next => exact refl s

theorem endWaiting (p : Session) (st : Status) (s : State) : Keeps s (s.endWaiting p st) := ofKept rfl

theorem endRun (p : Session) (st : Status) (s : State) : Keeps s (s.endRun p st) := by
  unfold State.endRun
  refine finish (reply _ _ _ _ (trans ?_ (ofRipple ((Ripple.trigger _).trans (Ripple.wantLook _)))))
  exact (withSession none s).trans (setChainState _ _)

theorem continueRun (p : Session) (s : State) : Keeps s (s.continueRun p) := ite (endRun _ _ s) (withSession _ s)

theorem testAccepted (p : Session) (k : Nat) (ret : List Bool) (s : State) : Keeps s (s.testAccepted p k ret) :=
  ite (endRun _ _ s) (continueRun _ s)

theorem reloadAccepted (p : Session) (s : State) : Keeps s (s.reloadAccepted p) := by
  unfold State.reloadAccepted
  split <;> exact continueRun _ s

theorem abortSession (p : Session) (s : State) : Keeps s (s.abortSession p) :=
  ite (finish ((endWaiting p _ s).trans (trigger _))) (ite (withSession _ s) (endRun p _ s))

theorem atIdle (s : State) : Keeps s s.atIdle := advanceTo _ s

theorem sendService (e : ServiceEntry) (s : State) : Keeps s (s.sendService e) := by
  have hstreak : Keeps s (s.atIdle.withChain { s.chain with streak := 0 }) :=
    (atIdle s).trans (withChain (c := { s.chain with streak := 0 }) le_rfl (.inl rfl) (.inr (Nat.zero_le _)))
  unfold State.sendService
  split
  · exact hstreak.trans (selectFrame _ _ _)
  · exact hstreak.trans (selectFrame _ _ _)

theorem sendScan (s : State) : Keeps s s.sendScan := by
  have hstreak (n : Nat) (hn : n = s.chain.streak ∨ n ≤ 8) : Keeps s (s.atIdle.withChain { s.chain with streak := n }) :=
    (atIdle s).trans (withChain (c := { s.chain with streak := n }) le_rfl (.inl rfl) hn)
  refine (hstreak _ ?_).trans (selectFrame _ _ _)
  split
  · exact .inl rfl
  · exact .inr (Nat.min_le_left _ _)

theorem ordinaryChoice (s : State) : Keeps s s.ordinaryChoice := by
  unfold State.ordinaryChoice
  split
  · exact sendScan s
  · exact ite (sendService _ s) (sendScan s)
  · exact sendService _ s
  · exact refl s

theorem enterProving (p : Session) (s : State) : Keeps s (s.enterProving p) := by
  have hstale : Keeps s { s with image := { s.image with fresh := false } } := ofKept rfl
  exact (((hstale.trans (ofRipple (.joinInputsIfStale _ s))).trans (setChainState .proving _)).trans (withSession _ _))

theorem waitingChoice (p : Session) (s : State) : Keeps s (s.waitingChoice p) := by
  unfold State.waitingChoice
  refine ite ?_ (ite ?_ ((atIdle s).trans (enterProving p _)))
  · split
    · exact sendService _ s
    · exact refl s
  · exact (finish ((atIdle s).trans (endWaiting p _ _))).trans (ordinaryChoice _)

theorem sendProving (p : Session) (s : State) : Keeps s (s.sendProving p) := by
  unfold State.sendProving
  split
  · exact (withSession _ s).trans (selectFrame _ _ _)
  · exact (withSession _ s).trans (selectFrame _ _ _)

theorem choose (s : State) : Keeps s s.choose := by
  unfold State.choose
  split
  · exact refl s
  · exact refl s
  · exact ite ((atIdle s).trans (selectFrame _ _ _)) ((atIdle s).trans (selectFrame _ _ _))
  · split
    · exact (atIdle s).trans (sendProving _ _)
    · exact refl s
  · split
    · exact waitingChoice _ s
    · exact ordinaryChoice s

theorem endBroken (f : Frame) (ret : List Bool) (order : ScanOrder) (s : State) : Keeps s (s.endBroken f ret order) := by
  have hflow (t : State) : Keeps t t.loseFlow := ofKept rfl
  unfold State.endBroken
  refine ite ?_ ?_
  · exact ((((setChainState _ s).trans (mapTimers _ _)).trans (hflow _)).trans (wantLook _)).trans (acceptScan _ _ _ _)
  · exact (setChainState _ s).trans (withChain le_rfl (.inl rfl) (.inl rfl))

/-! ## Timers -/

theorem strokeExpiry (v times : Nat) (p : Bool) {f : State → State} (hf : ∀ t, Ripple t (f t)) (s : State) :
    Keeps s (s.strokeExpiry v times p f) := by
  unfold State.strokeExpiry
  split
  · exact ite (finish ((advanceTo _ s).trans (ofRipple (hf _)))) (refl s)
  · exact refl s

theorem endPhase (o : Owner) (p : OwnerMode → Bool) (s : State) : Keeps s (s.endPhase o p) := by
  unfold State.endPhase
  split
  · exact ite (finish ((advanceTo _ s).trans (ofRipple (.ofStir (Stir.ownerOp o _ _ (Walks.takeStep3 o true _).toStir))))) (refl s)
  · exact refl s

theorem ageWindow (s : State) : Keeps s s.ageWindow := by
  have hage : Keeps s { s with sched := { s.sched with
      window := s.sched.window.filter fun w => s.ms < w.start + s.tables.limits.window } } :=
    window_sublist List.filter_sublist _ rfl
  exact ite hage (hage.trans (wantLook _))

/-! ## The stored copy (R191) -/

/-- A write that agrees stores the snapshot. -/
theorem endCommit_agrees {r : CommitRun} (h : s.commit = some r) :
    Keeps s (s.endCommit r (.whole r.snapshot r.snapshot.crc) r.snapshot.crc true) where
  tables hs := by
    refine ⟨hs.1, fun r hr => by (cases hr), fun T crc hT => ?_⟩
    obtain ⟨rfl, -⟩ := StoredCopy.whole.inj hT
    exact hs.2.1 r h
  once := id
  window := id
  bounded := id
  locks := Locks.Within.refl _

/-- A write that disagrees leaves no tables in the copy. -/
theorem endCommit_disagrees (r : CommitRun) (crc : BitVec 32) (s : State) :
    Keeps s (s.endCommit r (.spoiled (some crc)) crc false) where
  tables hs := ⟨hs.1, fun r hr => by (cases hr), fun T crc hT => by cases hT⟩
  once := id
  window := id
  bounded := id
  locks := Locks.Within.refl _

/-! ## Starts (chapter 11) -/

/-- A start that ends a running COMMIT leaves no copy (R191). -/
theorem cutCommit (s : State) : Keeps s s.cutCommit := by
  unfold State.cutCommit
  split
  · refine ⟨fun h => ⟨h.1, fun r hr => ?_, fun T crc hs => ?_⟩, id, id, id, Locks.Within.refl _⟩
    · cases hr
    · cases hs
  · exact refl s

theorem cutFrame (s : State) : Keeps s s.cutFrame := by
  unfold State.cutFrame
  split
  · exact ofKept rfl
  · exact refl s

/-- The start values of the blocks: empty queues and window, the chain alone in the notice pending set. -/
theorem startBlocks (s : State) : Keeps s s.startBlocks where
  tables := id
  once _ := by
    have hn : s.startBlocks.link.notices = if s.tables.mask.chain then [.chain] else [] := rfl
    rw [State.NoticesOnce, hn]
    split <;> simp
  window _ := ⟨Nat.zero_le _, .inl (Nat.zero_le _)⟩
  bounded _ := ⟨Nat.zero_le _, Nat.zero_le _, Nat.zero_le _, Nat.zero_le _⟩
  locks := Locks.Within.refl _

theorem joinStartNotices (s before : State) : Keeps s (s.joinStartNotices before) := by
  unfold State.joinStartNotices
  refine ofRipple (Ripple.trans ?_ (.foldl (fun t k => .ite (.joinNotice ..) (.refl t)) _ _))
  refine Ripple.trans ?_ (.foldl (fun t k => .ite (.refl t) (.joinNotice ..)) _ _)
  refine Ripple.trans ?_ (.foldl (fun t k => .ite (.refl t) (.joinNotice ..)) _ _)
  exact Ripple.trans (.joinInputsIfStale ..) (.foldl (fun t k => .ite (.refl t) (.joinNotice ..)) _ _)

theorem warmStart (kind : StartKind) (rate : Bool) (s : State) : Keeps s (s.warmStart kind rate) := by
  have hstrap (t : State) : Keeps t { t with lastStart := kind, rateHigh := rate } := ofKept rfl
  have hzones (t : State) : Keeps t (State.fitRing { t with zones := t.zones.mapIdx fun _ r => r.warm }) := ofKept rfl
  refine finish (trans ?_ (joinStartNotices _ s))
  exact ((((cutFrame s).trans (cutCommit _)).trans (hstrap _)).trans (startBlocks _)).trans (hzones _)

/-- A stored copy that loads is one of the tables the invariant speaks of. -/
theorem load_sound (h : s.TablesSound) {T : TableStore} (hT : s.stored.load = some T) : T.Sound := by
  unfold StoredCopy.load at hT
  split at hT
  next T' crc hs =>
    split at hT
    · obtain rfl := Option.some.inj hT; exact h.2.2 _ _ hs
    · cases hT
  next => cases hT
  next => cases hT

/-- R118, R196: the table store reloaded, then the start values of every block, so that nothing read the limits before them. -/
theorem reloadedBlocks (s : State) (owners : Table OwnerRec 53) :
    Keeps s (State.startBlocks { s.reloadTables with owners := owners }) where
  tables h := by
    refine ⟨?_, h.2⟩
    change (s.stored.load.getD s.tables).Sound
    cases hl : s.stored.load with
    | none => exact h.1
    | some T => exact load_sound h hl
  once h := (startBlocks { s.reloadTables with owners := owners }).once h
  window _ := ⟨Nat.zero_le _, .inl (Nat.zero_le _)⟩
  bounded _ := ⟨Nat.zero_le _, Nat.zero_le _, Nat.zero_le _, Nat.zero_le _⟩
  locks := Locks.Within.refl _

theorem handKept (z : Nat) (before s : State) : Keeps s (State.handKept z before s) := ite (ofRipple (.handOff z s)) (refl s)

theorem tablesStart (rate : Bool) (s : State) : Keeps s (s.tablesStart rate) := by
  have hstrap (t : State) : Keeps t { t with lastStart := .restartTables, rateHigh := rate } := ofKept rfl
  have hzones (t : State) (zones : Table ZoneRec 64) : Keeps t (State.fitRing { t with zones := zones }) := ofKept rfl
  unfold State.tablesStart
  refine finish (trans ?_ (foldl (fun t z => handKept z s t) _ _))
  refine trans ?_ (joinStartNotices _ s)
  exact ((((cutFrame s).trans (cutCommit _)).trans (hstrap _)).trans (reloadedBlocks _ _)).trans (hzones _ _)

/-- The locks are the one thing of the invariants that a cold start does not keep. -/
theorem withLocks (h : Keeps s t) (l : Locks) : Keeps { s with locks := l } { t with locks := l } :=
  ⟨h.tables, h.once, h.window, h.bounded, Locks.Within.refl l⟩

end Keeps

theorem TableStore.empty_sound : TableStore.empty.Sound := by
  refine ⟨?limits, ?scan, ⟨by decide, by decide, fun w hw => ?noCard⟩, List.Pairwise.nil, fun e he => ?noEntry⟩
  case limits => unfold Limits.InRange; decide
  case scan => unfold ScanSettings.InRange; decide
  case noCard => exact absurd hw List.not_mem_nil
  case noEntry => exact absurd he List.not_mem_nil

/-- A cold start keeps all but the locks, which it clears (R193). -/
theorem coldStart_keeps (rate : Bool) (s : State) : Keeps { s with locks := ⟨false, false, false⟩ } (s.coldStart rate) := by
  have hload (t : State) : Keeps { t with locks := ⟨false, false, false⟩ } (t.coldClear rate).coldLoad.startBlocks := by
    refine ⟨fun h => ⟨?_, h.2⟩, (Keeps.startBlocks (t.coldClear rate).coldLoad).once, fun _ => ⟨Nat.zero_le _, .inl (Nat.zero_le _)⟩,
      fun _ => ⟨Nat.zero_le _, Nat.zero_le _, Nat.zero_le _, Nat.zero_le _⟩, Locks.Within.refl _⟩
    change (t.stored.load.getD TableStore.empty).Sound
    cases hl : t.stored.load with
    | none => exact TableStore.empty_sound
    | some T => exact Keeps.load_sound h hl
  have hzones (t : State) (zones : Table ZoneRec 64) : Keeps t (State.fitRing { t with zones := zones }) := Keeps.ofKept rfl
  have hcut := ((Keeps.cutFrame s).trans (Keeps.cutCommit _)).withLocks ⟨false, false, false⟩
  exact ((hcut.trans (hload _)).trans (hzones _ _)).trans (Keeps.ofRipple (.joinInputsIfStale ..))

/-! ## Every command -/

/-- A request command completes at the link, and its owner answers it (R177). -/
theorem exec_request {c : Instr} (h : requestCommand c = true) (s : State) : exec c s = .next (s.request c (answerOf c)) := by
  cases c <;> cases h <;> rfl

/-- A warm start that the other cause still holds back changes the pins alone (R195; log 26). -/
theorem Keeps.execWarmStart (cause : WarmCause) (rate : Bool) (s : State) :
    Keeps s (if s.power.haltedBy cause then
      (if (s.power.after cause).running then State.warmStart .warm rate { s with power := s.power.after cause }
        else { s with power := s.power.after cause }) else s) := by
  have hpins : Keeps s { s with power := s.power.after cause } := ofKept rfl
  exact ite (ite (hpins.trans (warmStart ..)) hpins) (refl s)

/-- Every command but a cold start keeps the invariants and clears no lock. -/
theorem exec_keeps {c : Instr} (hc : ∀ rate, c ≠ .coldStart rate) (s : State) : ∃ t, exec c s = .next t ∧ Keeps s t := by
  by_cases hreq : requestCommand c = true
  · exact ⟨_, exec_request hreq s, Keeps.request c (Keeps.answerOf c s)⟩
  cases c
  case coldStart rate => exact absurd rfl (hc rate)
  case warmStart cause rate => exact ⟨_, rfl, Keeps.execWarmStart cause rate s⟩
  case resetNFall | vmainLoss | vholdLoss => exact ⟨_, rfl, Keeps.ofKept rfl⟩
  case softStart rate =>
    refine ⟨_, rfl, Keeps.whenRunning ?_⟩
    split
    · exact (Keeps.advanceTo _ s).trans (Keeps.warmStart _ _ _)
    · exact (Keeps.advanceTo _ s).trans (Keeps.tablesStart _ _)
    · exact Keeps.refl s
  case frameReceived bytes => exact ⟨_, rfl, Keeps.whenRunning (Keeps.ite (Keeps.refl s) (Keeps.received bytes s))⟩
  case gapDiscard =>
    exact ⟨_, rfl, Keeps.whenRunning (Keeps.ite ((Keeps.advanceTo _ s).trans (Keeps.abandonFrame _)) (Keeps.refl s))⟩
  case unknownKind tag kind =>
    exact ⟨_, rfl, Keeps.whenRunning (Keeps.ite (Keeps.refl s) (Keeps.ite (Keeps.refuse _ _ _ s) (Keeps.enqueue _ s)))⟩
  case replyTransmit =>
    refine ⟨_, rfl, Keeps.whenRunning ?_⟩
    split
    · exact Keeps.ite ((Keeps.sendReply _ _ s).trans (Keeps.dispatchAll _)) (Keeps.refl s)
    · exact Keeps.refl s
  case notice =>
    refine ⟨_, rfl, Keeps.whenRunning ?_⟩
    split
    next hn => exact Keeps.ite (Keeps.sendNotice hn) (Keeps.refl s)
    next => exact Keeps.refl s
  case commitWriteEnd result =>
    refine ⟨_, rfl, Keeps.whenRunning ?_⟩
    split
    · exact Keeps.refl s
    next r hr => cases result with
      | agrees => exact Keeps.endCommit_agrees hr
      | disagrees crc => exact Keeps.endCommit_disagrees r crc s
  case arbiterChoice => exact ⟨_, rfl, Keeps.whenRunning (Keeps.ite (Keeps.choose s) (Keeps.refl s))⟩
  case probe =>
    refine ⟨_, rfl, Keeps.whenRunning (Keeps.ite ?_ (Keeps.refl s))⟩
    have hidle := (Keeps.atIdle s).trans (Keeps.advanceTo s.probeDue _)
    exact Keeps.ite (hidle.trans (Keeps.selectFrame _ _ _)) (hidle.trans (Keeps.selectFrame _ _ _))
  case scanAccepted => exact ⟨_, rfl, Keeps.atFrameEnd _ _ _ (fun _ _ t => Keeps.acceptScan _ _ _ t) s⟩
  case scanRejected =>
    exact ⟨_, rfl, Keeps.atFrameEnd _ _ _ (fun _ _ t => (Keeps.trigger t).trans (Keeps.afterReject (Keeps.refl _))) s⟩
  case serviceCommandAccepted => exact ⟨_, rfl, Keeps.atFrameEnd _ _ _ (fun _ _ t => Keeps.setHeadStage _ t) s⟩
  case serviceFetchAccepted => exact ⟨_, rfl, Keeps.atFrameEnd _ _ _ (fun _ _ t => Keeps.endService _ t) s⟩
  case serviceFrameRejected =>
    exact ⟨_, rfl, Keeps.atFrameEnd _ _ _ (fun _ _ t => Keeps.afterReject (Keeps.setHeadStage _ t)) s⟩
  case adoptionServiceAccepted =>
    exact ⟨_, rfl, Keeps.atFrameEnd _ _ _ (fun _ _ t => Keeps.echoNext true t) s⟩
  case adoptionEchoAccepted => exact ⟨_, rfl, Keeps.atFrameEnd _ _ _ (fun _ _ t => Keeps.adopt _ t) s⟩
  case adoptionFrameRejected =>
    exact ⟨_, rfl, Keeps.atFrameEnd _ _ _ (fun _ _ t => Keeps.afterReject (Keeps.echoNext false t)) s⟩
  case probeAccepted => exact ⟨_, rfl, Keeps.atFrameEnd _ _ _ (fun _ _ t => Keeps.endBroken _ _ _ t) s⟩
  case probeRejected => exact ⟨_, rfl, Keeps.atFrameEnd _ _ _ (fun _ _ t => Keeps.ite (Keeps.trigger t) (Keeps.refl t)) s⟩
  case testFrameAccepted =>
    refine ⟨_, rfl, Keeps.atFrameEnd _ _ _ (fun f _ t => ?_) s⟩
    split
    · exact Keeps.testAccepted _ _ _ t
    · exact Keeps.refl t
  case reloadFrameAccepted =>
    refine ⟨_, rfl, Keeps.atFrameEnd _ _ _ (fun _ _ t => ?_) s⟩
    split
    · exact Keeps.reloadAccepted _ t
    · exact Keeps.refl t
  case provingFrameRejected =>
    refine ⟨_, rfl, Keeps.atFrameEnd _ _ _ (fun _ _ t => Keeps.afterReject ?_) s⟩
    split
    · exact Keeps.continueRun _ t
    · exact Keeps.refl t
  case frameEndUnchecked =>
    refine ⟨_, rfl, Keeps.whenRunning ?_⟩
    have hover (f : Frame) : Keeps s ((s.endFrame f).ringDisturbed f.purpose.kind) := Keeps.ofKept rfl
    split
    · exact Keeps.ite (Keeps.ite ((hover _).trans (Keeps.trigger _)) (hover _)) (Keeps.refl s)
    · exact Keeps.refl s
  case attention =>
    have hsession (t : State) (h : Keeps s t) : Keeps s (match t.chain.session with | some p => t.abortSession p | none => t) := by
      split
      · exact h.trans (Keeps.abortSession _ t)
      · exact h
    exact ⟨_, rfl, Keeps.whenRunning (hsession _ (Keeps.ite (Keeps.trigger s) (Keeps.refl s)))⟩
  case periodic =>
    refine ⟨_, rfl, Keeps.whenRunning ?_⟩
    split
    · exact Keeps.ofKept rfl
    · exact Keeps.refl s
  case strokeTimeArrival v => exact ⟨_, rfl, Keeps.whenRunning (Keeps.strokeExpiry v 1 _ (.arrive v) s)⟩
  case strokeTimeout v => exact ⟨_, rfl, Keeps.whenRunning (Keeps.strokeExpiry v 2 _ (.faultValve v _) s)⟩
  case drainTimerEnd o => exact ⟨_, rfl, Keeps.whenRunning (Keeps.endPhase o _ s)⟩
  case fillTimerEnd o => exact ⟨_, rfl, Keeps.whenRunning (Keeps.endPhase o _ s)⟩
  case windowAging =>
    refine ⟨_, rfl, Keeps.whenRunning ?_⟩
    split
    · exact Keeps.finish ((Keeps.advanceTo _ s).trans (Keeps.ageWindow _))
    · exact Keeps.refl s
  case spacingEnd w =>
    refine ⟨_, rfl, Keeps.whenRunning ?_⟩
    split
    · exact Keeps.ite (Keeps.refl s) (Keeps.finish ((Keeps.advanceTo _ s).trans (Keeps.wantLook _)))
    · exact Keeps.refl s
  case framingError => exact ⟨_, rfl, Keeps.whenRunning (Keeps.ite (Keeps.abandonFrame s) (Keeps.refl s))⟩
  all_goals exact absurd rfl hreq

/-! ## Every step -/

theorem Keeps.tick (s : State) : Keeps s s.tick := ite (refl s) (ofKept rfl)

/-- A step whose front command is no cold start keeps the invariants and clears no lock. -/
theorem step_keeps {s t : State} (h : step s = .next t) (hcold : ∀ rate, s.pending.head? ≠ some (.coldStart rate)) : Keeps s t := by
  unfold step at h
  split at h
  next c rest hp =>
    obtain ⟨u, hu, hk⟩ := exec_keeps (c := c) (fun rate hr => hcold rate (by simp [hp, hr])) (s.withPending rest)
    rw [hu] at h
    obtain rfl := Host.Outcome.next.inj h
    have hpending : Keeps s (s.withPending rest) := Keeps.ofKept rfl
    exact hpending.trans hk
  next =>
    obtain rfl := Host.Outcome.next.inj h
    exact Keeps.tick s

/-- Any step keeps the invariants, a cold start too. -/
theorem step_keeps_or_cold {s t : State} (h : step s = .next t) : Keeps s t ∨ Keeps { s with locks := ⟨false, false, false⟩ } t := by
  by_cases hcold : ∀ rate, s.pending.head? ≠ some (.coldStart rate)
  · exact .inl (step_keeps h hcold)
  · simp only [not_forall, not_not] at hcold
    obtain ⟨rate, hr⟩ := hcold
    obtain ⟨rest, hp⟩ := List.head?_eq_some_iff.1 hr
    have hstep : step s = .next ((s.withPending rest).coldStart rate) := by unfold step; rw [hp]; rfl
    obtain rfl := Host.Outcome.next.inj (hstep.symm.trans h)
    have hpending : Keeps s (s.withPending rest) := Keeps.ofKept rfl
    exact .inr ((hpending.withLocks _).trans (coldStart_keeps rate _))

/-- Settles O9. -/
theorem stepKeepsTablesSound : Obligations.StepKeepsTablesSound :=
  fun _ _ h hs => (step_keeps_or_cold h).elim (fun hk => hk.tables hs) (fun hk => hk.tables hs)

/-- Settles O10. -/
theorem stepKeepsNoticesOnce : Obligations.StepKeepsNoticesOnce :=
  fun _ _ h hs => (step_keeps_or_cold h).elim (fun hk => hk.once hs) (fun hk => hk.once hs)

/-- Settles O11. -/
theorem stepKeepsWindowLimited : Obligations.StepKeepsWindowLimited :=
  fun _ _ h hs => (step_keeps_or_cold h).elim (fun hk => hk.window hs) (fun hk => hk.window hs)

/-- Settles O12. -/
theorem stepKeepsQueuesBounded : Obligations.StepKeepsQueuesBounded :=
  fun _ _ h hs => (step_keeps_or_cold h).elim (fun hk => hk.bounded hs) (fun hk => hk.bounded hs)

/-- Settles O13. -/
theorem locksStaySet : Obligations.LocksStaySet := fun _ _ h hcold => (step_keeps h hcold).locks

/-- Settles O4: the empty tables are sound, and every queue and count is empty. -/
theorem resetIsSound : Obligations.ResetIsSound :=
  ⟨⟨TableStore.empty_sound, fun r hr => (by cases hr), fun T crc hT => (by cases hT)⟩, List.nodup_singleton _, Nat.zero_le _, .inl (Nat.zero_le _),
    Nat.zero_le _, Nat.zero_le _, Nat.zero_le _, Nat.zero_le _⟩

end Sys2Proof.Machine
end

