-- ==== Sys2Proof/Proofs/StepAndPins.lean ====
section
/-! The step, the state after reset, the pins (R115, R192): the obligations O1, O2, O3 and O5. -/

namespace Sys2Proof.Machine

/-- Settles O1, by the definition of a step. -/
theorem stepRunsFrontCommand : Obligations.StepRunsFrontCommand := fun _ _ _ => rfl

/-- Settles O2, by the cases of a tick: retained memory lost or not. -/
theorem emptyQueueTicks : Obligations.EmptyQueueTicks := by
  refine fun s => ⟨rfl, fun hp => ?_⟩
  have hstep : step s = .next s.tick := by rw [step, hp]
  rw [hstep, State.tick]
  exact ⟨fun h => by rw [if_neg (by simp [h])], fun h => by rw [if_pos h]⟩

/-- Settles O3: every table of the reset state is filled with one value, which each slot reads back. -/
theorem resetState : Obligations.ResetState := by
  have howner : ∀ b < 48, (State.reset.owner (.branch b)).mode = .undefined := fun b hb => by
    change (ownersEmpty.getD b _).mode = _
    rw [ownersEmpty, Table.getD_mapIdx _ _ () _ (by omega), if_pos hb]; rfl
  refine ⟨rfl, rfl, rfl, rfl, rfl, fun v hv => ?_, fun z hz => ?_, howner, fun z hz => Table.getD_fill _ _ hz, fun m hm => ?_, rfl,
    rfl, rfl, rfl, rfl, rfl, rfl, fun k hk => Table.getD_fill _ _ hk, rfl, by decide +kernel, rfl⟩
  · exact congrArg ValveRec.st (Table.getD_fill _ _ hv)
  · exact congrArg ZoneRec.st (Table.getD_fill _ _ hz)
  · exact congrArg MeterDef.defined (Table.getD_fill _ _ hm)

/-! ## The pins -/

theorem running_iff (p : Power) :
    p.running = true ↔ p.resetLow = false ∧ p.vmainLost = false ∧ p.retainedLost = false := by
  simp [Power.running, and_assoc]

/-- A halted part asserts ALERT_N. -/
theorem alert_of_halted {s : State} (h : s.power.running = false) : s.alertAsserted = true := by
  simp [State.alertAsserted, h]

theorem whenRunning_halted {s : State} (h : s.power.running = false) (f : State → State) : s.whenRunning f = s := by
  rw [State.whenRunning, if_neg (by simp [h])]

theorem request_halted {s : State} (h : s.power.running = false) (c : Instr) (f : State → State) : s.request c f = s :=
  whenRunning_halted h _

/-- A command that is neither a request nor one of the power is one of a part that runs. -/
theorem exec_whenRunning {c : Instr} (hc : powerCommand c = false) (hr : ¬ requestCommand c = true) (s : State) :
    ∃ f : State → State, exec c s = .next (s.whenRunning f) := by
  cases c <;> first
    | exact absurd rfl hr
    | exact Bool.noConfusion hc
    | exact ⟨_, rfl⟩

/-- A halted part takes no command but those of its power. -/
theorem exec_halted {c : Instr} (hc : powerCommand c = false) {s : State} (h : s.power.running = false) : exec c s = .next s := by
  by_cases hr : requestCommand c = true
  · rw [exec_request hr, request_halted h]
  · obtain ⟨f, hf⟩ := exec_whenRunning hc hr s
    rw [hf, whenRunning_halted h]

/-- Settles O5: the pins set their flag alone; a halted part takes no command; the rest is the flags' truth table. -/
theorem pinsHoldThePart : Obligations.PinsHoldThePart := by
  refine ⟨fun s => ⟨_, _, _, rfl, rfl, ?_, rfl, rfl, ?_, rfl, rfl, ?_⟩, fun c s hc h => exec_halted hc h,
    fun p => ⟨running_iff p, fun c => ?_, rfl, rfl⟩⟩
  · exact alert_of_halted (by simp [Power.running])
  · exact alert_of_halted (by simp [Power.running])
  · exact alert_of_halted (by simp [Power.running])
  · cases c <;> simp [Power.haltedBy]

end Sys2Proof.Machine
end

