-- ==== Sys2Proof/Proofs/Reception.lean ====
section
/-! The receiver byte by byte (R175), the check (R174) and what bodies spell (R173): the obligations O14, O15 and O17. -/

namespace Sys2Proof.Machine

/-! ## Bytes at the receiver -/

/-- Bytes at the receiver, with fuel for all of them. -/
def State.receive (s : State) (bytes : List Byte) : State := rxLoop (rxFuel bytes.length) bytes s

/-- The frame being collected is short of the longest one. -/
def State.Collects (s : State) : Prop := s.collected ≤ 245

theorem collects_hunting {s : State} (h : s.link.rxBuf = none) : s.Collects := by
  simp [State.Collects, State.collected, h]

theorem collects_buf {s : State} {buf : List Byte} (h : s.link.rxBuf = some buf) (hl : buf.length ≤ 244) : s.Collects := by
  simp only [State.Collects, State.collected, h]; omega

theorem receive_nil (s : State) : s.receive [] = s := rfl

theorem receive_cons {s : State} (h : s.Collects) (b : Byte) (rest : List Byte) :
    s.receive (b :: rest) = (s.takeByte b).2.receive ((s.takeByte b).1 ++ rest) := rxLoop_cons b rest s h

/-- Bytes reach a hunting part at once. -/
theorem exec_frameReceived {s : State} (hr : s.power.running = true) (hb : s.link.rxBuf = none) {bytes : List Byte}
    (hne : bytes ≠ []) :
    exec (.frameReceived bytes) s
      = .next (({ s with link := { s.link with lastByteAt := s.clock } } : State).receive bytes) := by
  have hgap : s.gapPassed = false := by simp [State.gapPassed, hb]
  change Host.Outcome.next (s.whenRunning _) = _
  rw [whenRunning_of hr, if_neg (by simpa using hne), hgap]
  rfl

theorem withRx_none {s : State} (h : s.link.rxBuf = none) : s.withRx none = s := by
  rw [State.withRx, ← h]

/-! ### A byte while hunting -/

theorem takeByte_dropped {s : State} (h : s.link.rxBuf = none) {b : Byte} (hb : b ≠ 0xC5) : s.takeByte b = ([], s) := by
  have hb' : b ≠ Config.sync := hb
  simp only [State.takeByte, h, if_neg hb']

theorem takeByte_sync {s : State} (h : s.link.rxBuf = none) : s.takeByte 0xC5 = ([], s.withRx (some [])) := by
  simp [State.takeByte, h, Config.sync]

/-- While hunting, bytes without a SYNC change nothing. -/
theorem receive_dropped {bytes : List Byte} (hb : 0xC5 ∉ bytes) {s : State} (h : s.link.rxBuf = none) : s.receive bytes = s := by
  induction bytes with
  | nil => rfl
  | cons b rest ih =>
    obtain ⟨h1, h2⟩ := not_or.mp (mt List.mem_cons.mpr hb)
    rw [receive_cons (collects_hunting h), takeByte_dropped h (Ne.symm h1)]
    exact ih h2

theorem receive_sync {s : State} (h : s.link.rxBuf = none) (rest : List Byte) :
    s.receive (0xC5 :: rest) = (s.withRx (some [])).receive rest := by
  rw [receive_cons (collects_hunting h), takeByte_sync h]; rfl

/-! ### A byte of a frame -/

theorem takeByte_more {s : State} {buf : List Byte} (h : s.link.rxBuf = some buf) {b : Byte}
    (hv : rxVerdict (buf ++ [b]) = .more) : s.takeByte b = ([], s.withRx (some (buf ++ [b]))) := by
  simp [State.takeByte, h, hv]

theorem rxVerdict_badLen {len : Byte} (h : len.toNat < 2 ∨ 242 < len.toNat) (buf : List Byte) :
    rxVerdict (len :: buf) = .badLen := by
  simp only [rxVerdict, if_pos h]

theorem rxVerdict_short {len : Byte} (h2 : 2 ≤ len.toNat) (h242 : len.toNat ≤ 242) {buf : List Byte}
    (hl : buf.length < len.toNat + 2) : rxVerdict (len :: buf) = .more := by
  simp only [rxVerdict]
  rw [if_neg (by omega), if_pos (by simp only [List.length_cons]; omega)]

/-- A frame of LEN and as many bytes as it says: its check decides. -/
theorem rxVerdict_whole {len kind tag hi lo : Byte} {body : List Byte} (h242 : len.toNat ≤ 242)
    (hl : body.length + 2 = len.toNat) :
    rxVerdict (len :: (kind :: tag :: body ++ [hi, lo])) =
      if crc16 (len :: kind :: tag :: body) = hi ++ lo then .complete (receivedOf kind.toNat tag body) else .badCheck := by
  simp only [rxVerdict]
  rw [if_neg (by omega), if_neg (by simp only [List.length_cons, List.length_append, List.length_nil]; omega), ← hl]
  simp

/-- The bytes of a frame are collected up to its last but one. -/
theorem receive_collected {len : Byte} (h2 : 2 ≤ len.toNat) (h242 : len.toNat ≤ 242) (l : List Byte) :
    ∀ {pre : List Byte} {s : State}, s.link.rxBuf = some (len :: pre) → pre.length + l.length < len.toNat + 2 →
      ∀ rest, s.receive (l ++ rest) = (s.withRx (some (len :: (pre ++ l)))).receive rest := by
  induction l with
  | nil =>
    intro pre s hb _ rest
    rw [List.append_nil, ← hb]; rfl
  | cons b l ih =>
    intro pre s hb hl rest
    simp only [List.length_cons] at hl
    have hv : rxVerdict (len :: pre ++ [b]) = .more := rxVerdict_short h2 h242 (by simp; omega)
    rw [List.cons_append, receive_cons (collects_buf hb (by simp only [List.length_cons]; omega)), takeByte_more hb hv]
    have := ih (pre := pre ++ [b]) (s := s.withRx (some (len :: pre ++ [b]))) rfl (by simp; omega) rest
    rw [List.append_assoc] at this
    exact this

/-- After SYNC the LEN of a frame opens its buffer. -/
theorem receive_len {s : State} (h : s.link.rxBuf = none) {len : Byte} (h2 : 2 ≤ len.toNat) (h242 : len.toNat ≤ 242)
    (rest : List Byte) : s.receive (0xC5 :: len :: rest) = (s.withRx (some [len])).receive rest := by
  have hb : (s.withRx (some [])).link.rxBuf = some [] := rfl
  have hv : rxVerdict ([] ++ [len]) = .more := rxVerdict_short h2 h242 (by simp)
  rw [receive_sync h, receive_cons (collects_buf hb (by simp)), takeByte_more hb hv]
  rfl

/-- A whole frame but its last byte. -/
theorem receive_frame {s : State} (h : s.link.rxBuf = none) {len hi lo : Byte} {bytes : List Byte} (h2 : 2 ≤ len.toNat)
    (h242 : len.toNat ≤ 242) (hl : bytes.length = len.toNat) (more : List Byte) :
    s.receive (0xC5 :: len :: bytes ++ [hi, lo] ++ more)
      = (s.withRx (some (len :: (bytes ++ [hi])))).receive (lo :: more) := by
  have hsplit : 0xC5 :: len :: bytes ++ [hi, lo] ++ more = 0xC5 :: len :: ((bytes ++ [hi]) ++ lo :: more) := by simp
  rw [hsplit, receive_len h h2 h242, receive_collected h2 h242 (bytes ++ [hi]) (pre := []) rfl (by simp; omega)]
  rfl

theorem collects_frame {s : State} {len hi : Byte} {bytes : List Byte} (h242 : len.toNat ≤ 242)
    (hl : bytes.length = len.toNat) : (s.withRx (some (len :: (bytes ++ [hi])))).Collects :=
  collects_buf (buf := len :: (bytes ++ [hi])) rfl (by simp only [List.length_cons, List.length_append, List.length_nil]; omega)

/-! ### Frames discarded -/

/-- A frame with a bad LEN is counted, and LEN is searched again. -/
theorem receive_badLen {s : State} (h : s.link.rxBuf = none) {len : Byte} (hlen : len.toNat < 2 ∨ 242 < len.toNat)
    (more : List Byte) : s.receive (0xC5 :: len :: more) =
      ({ s with link := { s.link with lengthDiscards := s.link.lengthDiscards + 1 } } : State).receive (len :: more) := by
  have hb : (s.withRx (some [])).link.rxBuf = some [] := rfl
  rw [receive_sync h, receive_cons (collects_buf hb (by simp))]
  simp only [State.takeByte, hb, List.nil_append, rxVerdict_badLen hlen]
  rw [← h]; rfl

theorem bytes_of_length {bytes : List Byte} (h : 2 ≤ bytes.length) : ∃ kind tag body, bytes = kind :: tag :: body := by
  match bytes, h with
  | kind :: tag :: body, _ => exact ⟨kind, tag, body, rfl⟩

/-- A frame whose check disagrees is counted, and its bytes after SYNC are searched again. -/
theorem receive_badCheck {s : State} (h : s.link.rxBuf = none) {len hi lo : Byte} {bytes : List Byte} (h2 : 2 ≤ len.toNat)
    (h242 : len.toNat ≤ 242) (hl : bytes.length = len.toNat) (hc : crc16 (len :: bytes) ≠ hi ++ lo) (more : List Byte) :
    s.receive (0xC5 :: len :: bytes ++ [hi, lo] ++ more) =
      ({ s with link := { s.link with checkDiscards := s.link.checkDiscards + 1 } } : State).receive
        (len :: bytes ++ [hi, lo] ++ more) := by
  obtain ⟨kind, tag, body, rfl⟩ := bytes_of_length (h2.trans hl.ge)
  have hv : rxVerdict (len :: (kind :: tag :: body ++ [hi, lo])) = .badCheck := by
    rw [rxVerdict_whole h242 hl, if_neg hc]
  have hb : len :: (kind :: tag :: body ++ [hi]) ++ [lo] = len :: (kind :: tag :: body ++ [hi, lo]) := by simp
  rw [receive_frame h h2 h242 hl, receive_cons (collects_frame h242 hl)]
  simp only [State.takeByte, State.withRx, hb, hv]
  rw [← h]; rfl

/-! ### A frame received -/

theorem u16_append (w : Word) : u16 w.toNat = [w.extractLsb' 8 8, w.setWidth 8]
    ∧ w.extractLsb' 8 8 ++ w.setWidth 8 = w := by
  constructor
  · simp only [u16, List.cons.injEq, and_true]
    constructor <;> (apply BitVec.eq_of_toNat_eq; simp [Nat.shiftRight_eq_div_pow])
  · apply BitVec.eq_of_getLsbD_eq
    intro i hi
    simp only [BitVec.getLsbD_append, BitVec.getLsbD_setWidth, BitVec.getLsbD_extractLsb']
    by_cases h : i < 8
    · simp [h]
    · simp [h, show i - 8 < 8 by omega, show 8 + (i - 8) = i by omega]

theorem frameBytes_eq (kind : Nat) (tag : Byte) (body : List Byte) :
    ∃ hi lo : Byte, frameBytes kind tag body
        = 0xC5 :: BitVec.ofNat 8 (body.length + 2) :: (BitVec.ofNat 8 kind :: tag :: body) ++ [hi, lo]
      ∧ crc16 (BitVec.ofNat 8 (body.length + 2) :: BitVec.ofNat 8 kind :: tag :: body) = hi ++ lo := by
  obtain ⟨hu, hw⟩ := u16_append (crc16 (BitVec.ofNat 8 (body.length + 2) :: BitVec.ofNat 8 kind :: tag :: body))
  refine ⟨_, _, ?_, hw.symm⟩
  rw [← hu]; rfl

/-- A good frame is received as its KIND, TAG and BODY. -/
theorem receive_frameBytes {s : State} (h : s.link.rxBuf = none) {kind : Nat} (hk : kind < 256) (tag : Byte) {body : List Byte}
    (hl : body.length ≤ 240) :
    s.receive (frameBytes kind tag body) = (s.enqueue (receivedOf kind tag body)).dispatchAll := by
  obtain ⟨hi, lo, hf, hc⟩ := frameBytes_eq kind tag body
  have hlen : (BitVec.ofNat 8 (body.length + 2)).toNat = body.length + 2 := by simp; omega
  have hkind : (BitVec.ofNat 8 kind).toNat = kind := by simp; omega
  have hcount : (BitVec.ofNat 8 kind :: tag :: body).length = (BitVec.ofNat 8 (body.length + 2)).toNat := by rw [hlen]; rfl
  have hv := rxVerdict_whole (len := BitVec.ofNat 8 (body.length + 2)) (kind := BitVec.ofNat 8 kind) (tag := tag) (hi := hi)
    (lo := lo) (body := body) (by omega) hlen.symm
  rw [if_pos hc, hkind] at hv
  have hb : BitVec.ofNat 8 (body.length + 2) :: (BitVec.ofNat 8 kind :: tag :: body ++ [hi]) ++ [lo]
      = BitVec.ofNat 8 (body.length + 2) :: (BitVec.ofNat 8 kind :: tag :: body ++ [hi, lo]) := by simp
  rw [hf, ← List.append_nil (_ ++ [hi, lo]), receive_frame h (by omega) (by omega) hcount,
    receive_cons (collects_frame (by omega) hcount)]
  simp only [State.takeByte, State.withRx, hb, hv]
  rw [← h]; rfl

/-! ## The check (R174) -/

section Register

variable {n : Nat} (g : BitVec (n + 8))

/-- One step of a check register with generator `g`. -/
def crcShift (r : BitVec (n + 8)) : BitVec (n + 8) := if r.msb then (r <<< 1) ^^^ g else r <<< 1

/-- One step of a check register that takes a bit. -/
def crcStep (r : BitVec (n + 8)) (x : Bool) : BitVec (n + 8) := (r <<< 1) ^^^ (if r.msb = x then 0 else g)

/-- The bits of a byte, most significant first. -/
def bitsOfByte (b : Byte) : List Bool := (List.range 8).map fun i => b.getLsbD (7 - i)

/-- A step of the register over a word that waits above it: its top bit is taken, the rest waits on. -/
theorem crcShift_xor (r w : BitVec (n + 8)) : crcShift g (r ^^^ w) = crcStep g r w.msb ^^^ (w <<< 1) := by
  have hshift : (r ^^^ w) <<< 1 = (r <<< 1) ^^^ (w <<< 1) := BitVec.shiftLeft_xor_distrib r w 1
  rw [crcShift, BitVec.msb_xor, hshift, crcStep]
  cases r.msb <;> cases w.msb <;> simp [BitVec.xor_assoc, BitVec.xor_comm (w <<< 1)]

/-- So after `k` steps. -/
theorem crcShifts_xor (r w : BitVec (n + 8)) (k : Nat) :
    (List.range k).foldl (fun r _ => crcShift g r) (r ^^^ w)
      = ((List.range k).map fun i => (w <<< i).msb).foldl (crcStep g) r ^^^ (w <<< k) := by
  induction k with
  | zero => simp
  | succ k ih =>
    rw [List.range_succ, List.foldl_append, List.map_append, List.foldl_append, ih]
    simp only [List.foldl_cons, List.foldl_nil, List.map_cons, List.map_nil]
    rw [crcShift_xor, ← BitVec.shiftLeft_add]

/-- A byte at the top of a word waits bit by bit. -/
theorem waiting_msb (b : Byte) {i : Nat} (h : i < 8) :
    ((b.setWidth (n + 8) <<< n : BitVec (n + 8)) <<< i).msb = b.getLsbD (7 - i) := by
  rw [BitVec.msb_eq_getLsbD_last, BitVec.getLsbD_shiftLeft, BitVec.getLsbD_shiftLeft, BitVec.getLsbD_setWidth]
  simp [show n + 7 - i - n = 7 - i by omega, show ¬ (n + 7 < i) by omega, show ¬ (n + 7 - i < n) by omega,
    show 7 - i < n + 8 by omega, show n + 7 - i < n + 8 by omega]

/-- The register over a byte. -/
def crcByte (r : BitVec (n + 8)) (b : Byte) : BitVec (n + 8) :=
  (List.range 8).foldl (fun r _ => crcShift g r) (r ^^^ (b.setWidth (n + 8) <<< n))

/-- A byte is taken bit by bit, most significant first. -/
theorem crcByte_eq (r : BitVec (n + 8)) (b : Byte) : crcByte g r b = (bitsOfByte b).foldl (crcStep g) r := by
  have hw : (b.setWidth (n + 8) <<< n : BitVec (n + 8)) <<< 8 = 0 := by
    rw [← BitVec.shiftLeft_add]
    exact BitVec.shiftLeft_eq_zero (le_refl _)
  have hbits : ((List.range 8).map fun i => ((b.setWidth (n + 8) <<< n : BitVec (n + 8)) <<< i).msb) = bitsOfByte b :=
    List.map_congr_left fun i hi => waiting_msb b (List.mem_range.mp hi)
  rw [crcByte, crcShifts_xor, hw, hbits]
  exact BitVec.xor_zero

/-- The check of a list of bytes is the register that takes their bits one by one. -/
theorem crc_eq_register {init : BitVec (n + 8)} (register : List Bool → BitVec (n + 8)) (h0 : register [] = init)
    (hs : ∀ l x, register (l ++ [x]) = crcStep g (register l) x) (bytes : List Byte) :
    bytes.foldl (crcByte g) init = register (bytes.flatMap bitsOfByte) := by
  have hfold : ∀ l : List Bool, l.foldl (crcStep g) init = register l := fun l => by
    induction l using List.reverseRecOn with
    | nil => exact h0.symm
    | append_singleton l x ih => rw [List.foldl_append, ih, hs]; rfl
  rw [← hfold, List.foldl_flatMap]
  congr 1
  funext r b
  exact crcByte_eq g r b

end Register

/-- Settles O14, by the collection of the frame's bytes and its check. -/
theorem frameRoundTrip : Obligations.FrameRoundTrip := by
  refine fun s kind tag body hr hb hk hl => ⟨?_, fun covered hc => ?_, by decide +kernel, fun register h0 hs =>
    crc_eq_register (n := 8) 0x1021 register h0 hs body⟩
  · have hne : frameBytes kind tag body ≠ [] := by simp [frameBytes]
    rw [exec_frameReceived hr hb hne, receive_frameBytes (s := { s with link := { s.link with lastByteAt := s.clock } }) hb hk tag hl]
  · rw [hc]; rfl

/-! ## Discards and gaps -/

theorem exec_frameReceived_hunting {s : State} (hr : s.power.running = true) (hb : s.link.rxBuf = none) (b : Byte) (l : List Byte) :
    exec (.frameReceived (b :: l)) s
      = .next (({ s with link := { s.link with lastByteAt := s.clock } } : State).receive (b :: l)) :=
  exec_frameReceived hr hb (List.cons_ne_nil b l)

theorem exec_gapDiscard {s : State} (hr : s.power.running = true) {buf : List Byte} (hb : s.link.rxBuf = some buf) :
    exec .gapDiscard s = .next { s with
      clock := max s.clock (s.link.lastByteAt + 10001)
      link := { s.link with rxBuf := none, gapDiscards := s.link.gapDiscards + 1 } } := by
  change Host.Outcome.next (s.whenRunning _) = _
  rw [whenRunning_of hr, if_pos (by rw [hb]; rfl)]
  rfl

theorem exec_framingError {s : State} (hr : s.power.running = true) :
    exec .framingError s = .next (if s.link.rxBuf.isSome then s.abandonFrame else s) := by
  change Host.Outcome.next (s.whenRunning _) = _
  rw [whenRunning_of hr]

/-- Settles O17: a discarded frame's bytes are received again with the SYNC gone, whatever follows them. -/
theorem framesDiscarded : Obligations.FramesDiscarded := by
  refine ⟨fun s len hi lo bytes more hr hb => ⟨fun hne hs => ?_, fun hlen => ⟨?_, ?_⟩, fun h2 h242 hl hc => ⟨?_, fun hs => ?_⟩⟩,
    fun s hr => ⟨fun buf hbuf => ⟨exec_gapDiscard hr hbuf, ?_⟩, fun hn => ?_⟩⟩
  · rw [exec_frameReceived hr hb hne, receive_dropped hs (by exact hb)]
  · rw [exec_frameReceived_hunting hr hb, exec_frameReceived_hunting (by exact hr) (by exact hb),
      receive_badLen (by exact hb) hlen]
  · have hsync : 0xC5 ∉ [len] := by
      intro h
      rw [← List.mem_singleton.mp h] at hlen
      revert hlen; decide
    rw [exec_frameReceived_hunting hr hb, receive_badLen (by exact hb) hlen, receive_dropped hsync (by exact hb)]
  · have := receive_badCheck (s := { s with link := { s.link with lastByteAt := s.clock } }) hb h2 h242 hl hc more
    exact (exec_frameReceived_hunting hr hb _ _).trans ((congrArg _ this).trans
      (exec_frameReceived_hunting (s := { s with link := { s.link with checkDiscards := s.link.checkDiscards + 1 } }) hr hb _ _).symm)
  · have := receive_badCheck (s := { s with link := { s.link with lastByteAt := s.clock } }) hb h2 h242 hl hc []
    rw [List.append_nil, List.append_nil, receive_dropped hs (by exact hb)] at this
    exact (exec_frameReceived_hunting hr hb _ _).trans (congrArg _ this)
  · rw [exec_framingError hr, if_pos (by rw [hbuf]; rfl)]; rfl
  · rw [exec_framingError hr, if_neg (by simp [hn])]

end Sys2Proof.Machine
end

