-- ==== Sys2Proof/Proofs/LinkRules.lean ====
section
/-! What bodies spell (R173), dispatch (R177) and transmission (R178, R186): the obligations O15, O16 and O18. -/

namespace Sys2Proof.Machine

/-! ## Bodies (R173) -/

/-- The lengths of the BODY of the kinds without a list field. -/
def bodyLengths : List (Nat × Nat) :=
  [(0x01, 0), (0x02, 0), (0x10, 3), (0x11, 5), (0x12, 5), (0x13, 5), (0x14, 6), (0x15, 12), (0x17, 15), (0x18, 4),
    (0x19, 9), (0x1A, 8), (0x20, 1), (0x21, 1), (0x22, 2), (0x23, 2), (0x24, 2), (0x25, 1), (0x26, 1), (0x27, 2), (0x28, 2),
    (0x30, 0), (0x31, 3), (0x32, 3), (0x34, 2), (0x40, 2), (0x41, 2), (0x42, 2), (0x43, 0), (0x50, 3), (0x51, 0), (0x52, 1)]

/-- A BODY of the wrong length spells no request: the bodies of at most fifteen bytes one by one, and the longer ones. -/
theorem requestOf_wrongLength (tag : Byte) (body : List Byte) : ∀ p ∈ bodyLengths, body.length ≠ p.2 → requestOf p.1 tag body = none := by
  intro p hp h
  rcases body with _ | ⟨a, _ | ⟨b, _ | ⟨c, _ | ⟨d, _ | ⟨e, _ | ⟨f, _ | ⟨g, _ | ⟨h, _ | ⟨i, _ | ⟨j, _ | ⟨k, _ | ⟨l, _ | ⟨m, _ | ⟨n, _ | ⟨o, _ | ⟨_, rest⟩⟩⟩⟩⟩⟩⟩⟩⟩⟩⟩⟩⟩⟩⟩⟩ <;>
    (fin_cases hp <;> first | rfl | exact absurd rfl h)

theorem bodyLengths_kind : ∀ p ∈ bodyLengths, requestKinds.contains p.1 = true := by decide

theorem receivedOf_none {kind : Nat} {tag : Byte} {body : List Byte} (hk : requestKinds.contains kind = true)
    (h : requestOf kind tag body = none) : receivedOf kind tag body = .badLength tag kind := by
  rw [receivedOf, if_pos hk, h]

theorem receivedOf_some {kind : Nat} {tag : Byte} {body : List Byte} {c : Instr} (hk : requestKinds.contains kind = true)
    (h : requestOf kind tag body = some c) : receivedOf kind tag body = .request c := by
  rw [receivedOf, if_pos hk, h]

theorem receivedOf_badLength {kind n : Nat} (hk : (kind, n) ∈ bodyLengths) (tag : Byte) {body : List Byte} (hl : body.length ≠ n) :
    receivedOf kind tag body = .badLength tag kind :=
  receivedOf_none (bodyLengths_kind _ hk) (requestOf_wrongLength tag body _ hk hl)

theorem receivedOf_unknown {kind : Nat} (hk : kind ∉ requestKinds) (tag : Byte) (body : List Byte) :
    receivedOf kind tag body = .unknown tag kind := by
  rw [receivedOf, if_neg (by simpa using hk)]

/-- A list of pairs is read back. -/
theorem pairsOf_flatMap (l : List (Byte × Byte)) :
    pairsOf (l.flatMap fun p => [p.1, p.2]) = some (l.map fun p => (p.1.toNat, p.2.toNat)) := by
  induction l with
  | nil => rfl
  | cons p l ih =>
    have hcons : ((p :: l).flatMap fun p => [p.1, p.2]) = p.1 :: p.2 :: l.flatMap fun p => [p.1, p.2] := rfl
    rw [hcons, pairsOf, ih]; rfl

theorem pairsOf_length : ∀ {body : List Byte} {l : List (Nat × Nat)}, pairsOf body = some l → body.length = 2 * l.length
  | [], _, h => by cases h; rfl
  | [_], _, h => by cases h
  | _ :: _ :: rest, _, h => by
    obtain ⟨l, hl, rfl⟩ := Option.map_eq_some_iff.mp h
    have := pairsOf_length hl
    simp only [List.length_cons]; omega

theorem listOf_flatMap {l : List (Byte × Byte)} (hl : l.length ≤ 255) :
    listOf (u8 l.length ++ l.flatMap fun p => [p.1, p.2]) = some (l.map fun p => (p.1.toNat, p.2.toNat)) := by
  have hn : (BitVec.ofNat 8 l.length).toNat = l.length := by simp; omega
  have : u8 l.length ++ (l.flatMap fun p => [p.1, p.2]) = BitVec.ofNat 8 l.length :: l.flatMap fun p => [p.1, p.2] := rfl
  rw [this, listOf, pairsOf_flatMap]
  simp only [List.length_map, hn, if_true]

/-- A count that disagrees with the bytes behind it spells no list. -/
theorem listOf_miscounted {n : Byte} {entries : List Byte} (h : entries.length ≠ 2 * n.toNat) : listOf (n :: entries) = none := by
  rw [listOf]
  cases hp : pairsOf entries with
  | none => rfl
  | some l =>
    have := pairsOf_length hp
    exact if_neg (by omega)

/-- Settles O15: each KIND's BODY by its row of `requestOf`, the wrong lengths by `length_of_requestOf`. -/
theorem framesSpellRequests : Obligations.FramesSpellRequests := by
  refine ⟨rfl, fun _ _ => rfl, fun tag a b c d e f g h i j k l m n o => ?_, fun tag z l entries hl he => ?_,
    fun tag body kind n hk hn => receivedOf_badLength hk tag hn, fun tag z n entries hn => ?_,
    fun tag body kind hk => receivedOf_unknown hk tag body⟩
  · exact ⟨rfl, rfl, rfl, rfl, rfl, rfl, rfl, rfl, rfl, rfl, rfl, rfl, rfl, rfl, rfl, rfl, rfl, rfl, rfl, rfl, rfl, rfl, rfl, rfl,
      rfl, rfl, rfl, rfl, rfl, rfl, rfl, rfl⟩
  · subst he
    have hlist := listOf_flatMap hl
    constructor
    · exact receivedOf_some rfl (congrArg (Option.map fun l => Instr.setPlan tag z.toNat l) hlist)
    · exact receivedOf_some rfl (congrArg (Option.map fun l => Instr.writeOutputs tag l) hlist)
  · have hlist := listOf_miscounted hn
    refine ⟨receivedOf_none rfl ?_, receivedOf_none rfl ?_, rfl, rfl, rfl⟩
    · exact congrArg (Option.map fun l => Instr.setPlan tag z.toNat l) hlist
    · exact congrArg (Option.map fun l => Instr.writeOutputs tag l) hlist

/-! ## Dispatch (R177) -/

theorem canDispatch_iff (s : State) :
    s.canDispatch = true ↔ s.link.restart = .none ∧ s.link.rxQueue = [] ∧ s.link.replies.length < 2 := by
  simp only [State.canDispatch, Config.dispatchLimit, Bool.and_eq_true, List.isEmpty_iff, beq_iff_eq]
  exact ⟨fun ⟨⟨hq, hl⟩, hr⟩ => ⟨hr, hq, of_decide_eq_true hl⟩, fun ⟨hr, hq, hl⟩ => ⟨⟨hq, decide_eq_true hl⟩, hr⟩⟩

/-- A ready part dispatches a request as it completes. -/
theorem exec_ready {c : Instr} (h : requestCommand c = true) {s : State} (hs : s.Ready) :
    exec c s = .next (s.dispatch (.request c)) := by
  rw [exec_request h, request_ready hs]; rfl

theorem enqueue_room {s : State} (h : s.link.rxQueue.length < 4) (r : Received) :
    s.enqueue r = { s with link := { s.link with rxQueue := s.link.rxQueue ++ [r] } } := if_pos h

theorem enqueue_full {s : State} (h : 4 ≤ s.link.rxQueue.length) (r : Received) :
    s.enqueue r = { s with link := { s.link with overflowDiscards := s.link.overflowDiscards + 1 } } := if_neg (Nat.not_lt.mpr h)

theorem dispatch_answers (r : Received) (s : State) : Answers s (s.dispatch r) := by
  cases r with
  | request c => exact answerOf_answers c s
  | badLength tag kind => exact .refuse ..
  | unknown tag kind => exact .refuse ..

theorem dispatchAll_stays {s : State} (h : s.link.rxQueue = [] ∨ 2 ≤ s.link.replies.length ∨ s.link.restart ≠ .none) :
    s.dispatchAll = s := by
  rw [State.dispatchAll]
  cases hq : s.link.rxQueue with
  | nil => rfl
  | cons r rest =>
    rw [List.length_cons, dispatchLoop, hq]
    refine if_neg fun ⟨hl, hn⟩ => ?_
    simp only [Config.dispatchLimit] at hl
    rcases h with h | h | h
    · rw [hq] at h; cases h
    · omega
    · exact h hn

theorem dispatchAll_next {s : State} {r : Received} {rest : List Received} (hq : s.link.rxQueue = r :: rest)
    (hl : s.link.replies.length < 2) (hr : s.link.restart = .none) :
    s.dispatchAll = (State.dispatch r { s with link := { s.link with rxQueue := rest } }).dispatchAll := by
  have hrest := (dispatch_answers r { s with link := { s.link with rxQueue := rest } }).rxQueue
  rw [State.dispatchAll, hq, List.length_cons, dispatchLoop, hq]
  simp only
  rw [if_pos ⟨hl, hr⟩, State.dispatchAll, hrest]

/-- Settles O16, by the cases of a request that may not be dispatched and of the dispatch loop. -/
theorem requestsWaitTheirTurn : Obligations.RequestsWaitTheirTurn := by
  refine ⟨fun c s hc hr hd => ?_, fun s tag kind hs hk => ?_, canDispatch_iff, fun s r rest =>
    ⟨dispatchAll_stays, dispatchAll_next⟩, fun _ _ _ => ⟨rfl, rfl⟩, fun c s hc hs => exec_ready hc hs⟩
  · rw [exec_request hc, request_waits hr hd]
    exact ⟨fun h => by rw [enqueue_room h], fun h => by rw [enqueue_full h]⟩
  · obtain ⟨hr, hd⟩ := hs
    refine ⟨⟨kind, tag, .unknownKind, []⟩, ?_, rfl, rfl⟩
    change Host.Outcome.next (s.whenRunning _) = _
    rw [whenRunning_of hr, if_neg (by simpa using hk), if_pos hd]
    rfl

/-! ## Transmission (R178, R186) -/

theorem mayTransmit_iff (s : State) : s.mayTransmit = true ↔ ∀ scope, s.link.restart ≠ .sending scope := by
  rw [State.mayTransmit]
  cases s.link.restart with
  | sending scope => exact iff_of_false Bool.false_ne_true fun h => h scope rfl
  | none => exact iff_of_true rfl fun _ h => by cases h
  | answered _ => exact iff_of_true rfl fun _ h => by cases h

theorem exec_replyTransmit_nil {s : State} (hr : s.power.running = true) (hq : s.link.replies = []) :
    exec .replyTransmit s = .next s := by
  change Host.Outcome.next (s.whenRunning _) = _
  rw [whenRunning_of hr, hq]

theorem exec_replyTransmit_cons {s : State} (hr : s.power.running = true) {r : Reply} {rest : List Reply}
    (hq : s.link.replies = r :: rest) :
    exec .replyTransmit s = .next (if s.mayTransmit then (s.sendReply r rest).dispatchAll else s) := by
  change Host.Outcome.next (s.whenRunning _) = _
  rw [whenRunning_of hr, hq]

theorem exec_notice_nil {s : State} (hr : s.power.running = true) (hn : s.link.notices = []) : exec .notice s = .next s := by
  change Host.Outcome.next (s.whenRunning _) = _
  rw [whenRunning_of hr, hn]

theorem exec_notice_cons {s : State} (hr : s.power.running = true) {o : Obj} {rest : List Obj} (hn : s.link.notices = o :: rest) :
    exec .notice s = .next (if s.link.replies.isEmpty && s.mayTransmit then s.sendNotice o rest else s) := by
  change Host.Outcome.next (s.whenRunning _) = _
  rw [whenRunning_of hr, hn]

/-- A reply's frame carries its KIND plus 0x80, unless it answers an unknown KIND. -/
theorem frame_of_known {r : Reply} (h : r.status ≠ .unknownKind) :
    r.frame = frameBytes (r.kind + 0x80) r.tag (u8 r.status.code ++ r.fields) := by
  rw [Reply.frame, Reply.frameKind, if_neg h]

/-- R186: the record a notice carries, by the kind of its object. -/
theorem noticeBody_eq (s : State) (n : Nat) :
    (n < 64 → s.noticeBody (.zone n) = u8 0 ++ u8 n ++ s.zoneRecord n)
    ∧ (n < 48 → s.noticeBody (.branch n) = u8 1 ++ u8 n ++ s.branchRecord n)
    ∧ (n < 4 → s.noticeBody (.segment n) = u8 2 ++ u8 n ++ s.wideRecord (.segment n))
    ∧ s.noticeBody .main = u8 3 ++ u8 0 ++ s.wideRecord .main
    ∧ (n < 106 → s.noticeBody (.valve n) = u8 4 ++ u8 n ++ s.valveRecord n)
    ∧ (n < 16 → s.noticeBody (.job n) = u8 5 ++ u8 n ++ s.jobRecord n)
    ∧ s.noticeBody .chain = u8 6 ++ u8 0 ++ s.chainRecord ∧ s.noticeBody .inputs = u8 7 ++ u8 0 ++ s.inputsBytes := by
  have body : ∀ (o : Obj) (k i : Nat) (bytes : List Byte), o.kindNumber = (k, i) → s.objectRecord k i = some bytes →
      s.noticeBody o = u8 k ++ u8 i ++ bytes := fun o k i bytes hk hb => by
    simp only [State.noticeBody, hk, hb, Option.getD_some]
  exact ⟨fun h => body _ _ _ _ rfl (if_pos h), fun h => body _ _ _ _ rfl (if_pos h), fun h => body _ _ _ _ rfl (if_pos h),
    body _ _ _ _ rfl rfl, fun h => body _ _ _ _ rfl (if_pos h), fun h => body _ _ _ _ rfl (if_pos h),
    body _ _ _ _ rfl rfl, body _ _ _ _ rfl rfl⟩

/-- Settles O18, by the two commands of the transmitter. -/
theorem transmitterSends : Obligations.TransmitterSends := by
  refine ⟨fun s r rest hr hq hm => ⟨s.sendReply r rest, ?_, rfl, frame_of_known, fun h => dispatchAll_stays (Or.inl h)⟩,
    fun s o rest hr hn hq hm => ⟨_, rfl, ?_⟩, fun s hr => ⟨fun h => ?_, fun h => ?_⟩,
    fun s => ⟨mayTransmit_iff s, fun h => ?_, fun f baud hf hb => ?_⟩, fun p r => ?_, noticeBody_eq⟩
  · rw [exec_replyTransmit_cons hr hq, if_pos hm]
  · rw [exec_notice_cons hr hn, if_pos (by rw [hq, hm]; rfl)]; rfl
  · cases hq : s.link.replies with
    | nil => exact exec_replyTransmit_nil hr hq
    | cons r rest =>
      rw [exec_replyTransmit_cons hr hq, if_neg]
      rcases h with h | h
      · simp [h]
      · rw [hq] at h; cases h
  · cases hn : s.link.notices with
    | nil => exact exec_notice_nil hr hn
    | cons o rest =>
      rw [exec_notice_cons hr hn, if_neg]
      rcases h with h | h | h
      · simp [h]
      · simp [h]
      · rw [hn] at h; cases h
  · rw [State.txEnd, h]
  · rw [State.txEnd, hf, hb]; rfl
  · cases p <;> rfl

end Sys2Proof.Machine
end

