-- ==== Sys2Proof/Proofs/Settings.lean ====
section
/-! The checks of a request (R180, R189, R191) and the requests that set one field each: the obligations O24, O26, O27, O28, O30
and O31. -/

namespace Sys2Proof.Machine

/-! ## Checks and codes -/

/-- What a ready part does with a request is what its owner does. -/
theorem exec_answer {c : Instr} (h : requestCommand c = true) {s : State} (hs : s.Ready) : exec c s = .next (answerOf c s) :=
  exec_ready h hs

theorem checked_pass {b : Bool} (h : b = false) (s : State) (k : Nat) (tag : Byte) (st : Status) (l : List (Bool × Status))
    (f : State → State) : s.checked k tag ((b, st) :: l) f = s.checked k tag l f := by
  rw [checked_cons, if_neg (by simp [h])]

theorem checked_fail {b : Bool} (h : b = true) (s : State) (k : Nat) (tag : Byte) (st : Status) (l : List (Bool × Status))
    (f : State → State) : s.checked k tag ((b, st) :: l) f = s.refuse k tag st := by
  rw [checked_cons, if_pos h]; rfl

/-- The lock of the group is clear and no COMMIT runs: the two checks pass (R189, R191). -/
theorem checked_unlocked {s : State} {lock : Bool} (h : s.Unlocked lock) (k : Nat) (tag : Byte) (l : List (Bool × Status))
    (f : State → State) : s.checked k tag (s.lockChecks lock ++ l) f = s.checked k tag l f := by
  obtain ⟨hl, hc⟩ := h
  exact (checked_pass hl ..).trans (checked_pass (by rw [hc]; rfl) ..)

/-- What the lock of a group, or a COMMIT behind a clear lock, refuses a request with (R189, R191). -/
def State.LockedOut (s : State) (lock : Bool) (st : Status) : Prop :=
  (lock = true ∧ st = .locked) ∨ (lock = false ∧ s.commit ≠ none ∧ st = .busy)

theorem checked_lockedOut {s : State} {lock : Bool} {st : Status} (h : s.LockedOut lock st) (k : Nat) (tag : Byte)
    (l : List (Bool × Status)) (f : State → State) : s.checked k tag (s.lockChecks lock ++ l) f = s.refuse k tag st := by
  rcases h with ⟨hl, rfl⟩ | ⟨hl, hc, rfl⟩
  · exact checked_fail hl ..
  · exact (checked_pass hl ..).trans (checked_fail (by rwa [Option.isSome_iff_ne_none]) ..)

theorem checked_onlyLockedOut {s : State} {lock : Bool} {st : Status} (h : s.LockedOut lock st) (k : Nat) (tag : Byte)
    (f : State → State) : s.checked k tag (s.lockChecks lock) f = s.refuse k tag st := by
  rw [← List.append_nil (s.lockChecks lock)]
  exact checked_lockedOut h k tag [] f

theorem takenStatus_eq {b : Bool} {p : Prop} [Decidable p] (h : b = false ↔ p) :
    takenStatus b = if p then .ok else .adjusted := by
  cases b
  · rw [if_pos (h.mp rfl)]; rfl
  · rw [if_neg (mt h.mpr Bool.true_eq_false_eq_False)]; rfl

theorem yesNo_toNat (b : Bool) : yesNo b.toNat = some b := by cases b <;> rfl

theorem yesNo_le {n : Nat} (h : n ≤ 1) : ∃ b, yesNo n = some b := by
  match n, h with
  | 0, _ => exact ⟨_, rfl⟩
  | 1, _ => exact ⟨_, rfl⟩

theorem yesNo_none {n : Nat} (h : 1 < n) : yesNo n = none := by
  match n, h with
  | _ + 2, _ => rfl

/-- A code of two values, yes or no read for each. -/
theorem le_of_yesNo {n : Nat} {b : Bool} (h : yesNo n = some b) : n ≤ 1 :=
  Nat.le_of_not_lt fun hn => by rw [yesNo_none hn] at h; cases h

/-! ## DEFINE_METER (R87, R88) -/

theorem answerDefineMeter_badField {m defined : Nat} (h : 96 < m ∨ 1 < defined) (tag : Byte) (k shift : Nat) (s : State) :
    answerDefineMeter tag m defined k shift s = s.refuse 0x13 tag .badField := by
  rw [answerDefineMeter]
  cases hd : yesNo defined with
  | none => rfl
  | some d => exact if_pos (h.resolve_right (by have := le_of_yesNo hd; omega))

theorem answerDefineMeter_eq {m : Nat} (h : m ≤ 96) (tag : Byte) {n : Nat} {defined : Bool} (hn : yesNo n = some defined)
    (k shift : Nat) (s : State) : answerDefineMeter tag m n k shift s = s.defineMeter tag m defined k shift := by
  rw [answerDefineMeter, hn]
  exact if_neg (by simp only [Config.numMeters]; omega)

/-- R88: the effect of a DEFINE_METER is on the tables and the flow unit alone. -/
theorem redefineMeter_eq (m : Nat) (d : MeterDef) (s : State) : s.redefineMeter m d = { s with
    tables := { s.tables with meters := s.tables.meters.put m d }
    flow := if (s.tables.meter m).defined && d.defined && (s.tables.meter m).kFactor == d.kFactor then s.flow
      else { s.flow with meters := s.flow.meters.put m MeterHist.lost } } := by
  unfold State.redefineMeter
  dsimp only
  split <;> rfl

/-- R88: flow history is kept where only the shift changes. -/
theorem redefineMeter_kept {s : State} {m : Nat} {d : MeterDef} (h : (s.tables.meter m).defined = true) (hd : d.defined = true)
    (hk : (s.tables.meter m).kFactor = d.kFactor) (n : Nat) : (s.redefineMeter m d).meter n = s.meter n := by
  rw [redefineMeter_eq, if_pos (by simp [h, hd, hk])]; rfl

theorem redefineMeter_lost {s : State} {m : Nat} (hm : m ≤ 96) {d : MeterDef}
    (h : (s.tables.meter m).defined = false ∨ d.defined = false ∨ (s.tables.meter m).kFactor ≠ d.kFactor) :
    (s.redefineMeter m d).meter m = MeterHist.lost := by
  rw [redefineMeter_eq, if_neg (by rcases h with h | h | h <;> simp [h])]
  exact Table.getD_put_self _ _ _ (by omega)

theorem redefineMeter_other {s : State} {m n : Nat} (h : n ≠ m) (d : MeterDef) :
    (s.redefineMeter m d).meter n = s.meter n := by
  rw [redefineMeter_eq]
  split
  · rfl
  · exact Table.getD_put_ne _ _ _ (Ne.symm h)

theorem meterInUse_iff (s : State) (m : Nat) : s.meterInUse m = true ↔ m ≤ 95 ∧ ∃ z ≤ 63, (s.tables.zone z).kind = .balance
    ∧ (s.tables.zone z).branch = m / 2 ∧ (s.zone z).st.enabled = true := by
  simp only [State.meterInUse, Bool.and_eq_true, decide_eq_true_iff, List.any_eq_true, zoneNumbers, List.mem_range, beq_iff_eq]
  constructor
  · rintro ⟨hm, z, hz, ⟨hk, hb⟩, he⟩; exact ⟨by omega, z, by omega, hk, hb, he⟩
  · rintro ⟨hm, z, hz, hk, hb, he⟩; exact ⟨by omega, z, by omega, ⟨hk, hb⟩, he⟩

/-- R87: a taken DEFINE_METER with its reply. -/
def State.meterTaken (tag : Byte) (m : Nat) (defined : Bool) (k shift : Nat) (s : State) : State :=
  let t := s.redefineMeter m (if defined then ⟨true, clamp 1 4000 k, min 4 shift⟩ else MeterDef.absent)
  t.reply 0x13 tag (takenStatus (defined && (clamp 1 4000 k != k || min 4 shift != shift))) (t.meterRecord m)

/-- R87: the checks of a DEFINE_METER past its lock. -/
theorem defineMeter_unlocked {s : State} (h : s.Unlocked s.locks.tables) (tag : Byte) (m : Nat) (defined : Bool) (k shift : Nat) :
    s.defineMeter tag m defined k shift =
      if defined = false ∧ (s.tables.meter m).defined = false then s.refuse 0x13 tag .notDefined
      else if defined = false ∧ s.meterInUse m = true then s.refuse 0x13 tag .busy
      else s.meterTaken tag m defined k shift := by
  unfold State.defineMeter
  rw [checked_unlocked h]
  simp [checked_cons, State.meterTaken]

theorem redefineMeter_lastTick (m : Nat) (d : MeterDef) (s : State) : (s.redefineMeter m d).flow.lastTick = s.flow.lastTick := by
  unfold State.redefineMeter
  dsimp only
  split <;> rfl

/-- Settles O24, by the checks in their order and what a redefinition does to the history. -/
theorem defineMeterTaken : Obligations.DefineMeterTaken := by
  refine ⟨fun s tag m defined k shift hs h => ?_, fun s tag m k shift hs hu hm => ?_⟩
  · rw [exec_answer rfl hs]; exact congrArg _ (answerDefineMeter_badField h tag k shift s)
  have hexec : ∀ {n : Nat} {defined : Bool}, yesNo n = some defined →
      exec (.defineMeter tag m n k shift) s = .next (s.defineMeter tag m defined k shift) := fun hn => by
    rw [exec_answer rfl hs]
    exact congrArg _ (answerDefineMeter_eq hm tag hn k shift s)
  refine ⟨⟨s.meterTaken tag m true k shift, ?_, ?_, ?_, redefineMeter_lastTick m _ s, fun h hk => redefineMeter_kept h rfl hk m,
    fun h => redefineMeter_lost hm (h.imp_right .inr), fun n hn => redefineMeter_other hn _⟩,
    fun hd hb => ⟨s.meterTaken tag m false k shift, ?_, ?_, ?_, redefineMeter_lost hm (.inr (.inl rfl))⟩, fun hd => ?_,
    fun hd hb => ?_, meterInUse_iff s m⟩
  · rw [hexec rfl, defineMeter_unlocked hu]; simp
  · rw [State.meterTaken, redefineMeter_eq]; rfl
  · rw [State.meterTaken, takenStatus_eq (p := 1 ≤ k ∧ k ≤ 4000 ∧ shift ≤ 4), redefineMeter_eq]
    · rfl
    · simp only [clamp, Bool.true_and, Bool.or_eq_false_iff, bne_eq_false_iff_eq]; omega
  · rw [hexec rfl, defineMeter_unlocked hu]; simp [hd, hb]
  · rw [State.meterTaken, redefineMeter_eq]; rfl
  · rw [State.meterTaken, redefineMeter_eq]; rfl
  · rw [hexec rfl, defineMeter_unlocked hu, if_pos ⟨rfl, hd⟩]
  · rw [hexec rfl, defineMeter_unlocked hu, if_neg (by simp [hd]), if_pos ⟨rfl, hb⟩]

end Sys2Proof.Machine
end

