-- ==== Sys2Proof/Proofs/ZonesPlansLimits.lean ====
section
/-! DEFINE_ZONE, SET_PLAN, SET_LIMITS and SET_SCAN (R77, R78, R101, R102, R120, R121, R157, R158): the obligations O26, O27, O28
and O30. -/

namespace Sys2Proof.Machine

/-! ## DEFINE_ZONE (R101, R102) -/

/-- A zone kind by its code: a BALANCE zone or a DRIP zone. -/
def zoneKindOf (balance : Bool) : ZoneKind := if balance then .balance else .drip

theorem zoneKindOfCode_toNat (b : Bool) : zoneKindOfCode b.toNat = some (zoneKindOf b) := by cases b <;> rfl

/-- The parameters a DEFINE_ZONE gives, and whether one was brought into range. -/
theorem answerDefineZone_eq {z branch : Nat} {balance : Bool} (hz : z ≤ 63) (hb : balance = false ∨ branch ≤ 47) (tag : Byte)
    (defined auto failsafe : Bool) (confirm clear threshold minFlow : Nat) (s : State) :
    answerDefineZone tag z defined.toNat balance.toNat confirm clear auto.toNat failsafe.toNat branch threshold minFlow s =
      s.defineZone tag z
        (if defined then some (zoneTaken (zoneKindOf balance) confirm clear auto failsafe branch threshold minFlow) else none)
        (zoneAdjusted (zoneTaken (zoneKindOf balance) confirm clear auto failsafe branch threshold minFlow) confirm clear
          threshold minFlow) := by
  rw [answerDefineZone, yesNo_toNat, zoneKindOfCode_toNat, yesNo_toNat, yesNo_toNat]
  refine if_neg ?_
  simp only [Config.numZones, Config.numBranches, not_or, not_and]
  refine ⟨by omega, fun hk => ?_⟩
  rcases hb with rfl | hb
  · cases hk
  · omega

/-- R102: a taken DEFINE_ZONE with its reply. -/
def State.zoneDefined (tag : Byte) (z : Nat) (d : Option ZoneDef) (adjusted : Bool) (s : State) : State :=
  let t := s.redefineZone z d
  t.reply 0x15 tag (takenStatus adjusted) (t.zoneRecord z)

/-- R101: the checks of a DEFINE_ZONE past its lock. -/
theorem defineZone_unlocked {s : State} (h : s.Unlocked s.locks.plan) (tag : Byte) (z : Nat) (d : Option ZoneDef) (adjusted : Bool) :
    s.defineZone tag z d adjusted =
      if d = none ∧ (s.zone z).st = .undefined then s.refuse 0x15 tag .notDefined
      else if (s.zone z).st.enabled = true then s.refuse 0x15 tag .busy
      else s.zoneDefined tag z d adjusted := by
  unfold State.defineZone
  rw [checked_unlocked h]
  simp [checked_cons, State.zoneDefined]

theorem exec_defineZone {s : State} (hs : s.Ready) (hu : s.Unlocked s.locks.plan) {z branch : Nat} {balance : Bool}
    (hz : z ≤ 63) (hb : balance = false ∨ branch ≤ 47) (tag : Byte) (defined auto failsafe : Bool)
    (confirm clear threshold minFlow : Nat) {d : ZoneDef}
    (hd : d = zoneTaken (zoneKindOf balance) confirm clear auto failsafe branch threshold minFlow) :
    exec (.defineZone tag z defined.toNat balance.toNat confirm clear auto.toNat failsafe.toNat branch threshold minFlow) s =
      .next (if (if defined then some d else none) = none ∧ (s.zone z).st = .undefined then s.refuse 0x15 tag .notDefined
        else if (s.zone z).st.enabled = true then s.refuse 0x15 tag .busy
        else s.zoneDefined tag z (if defined then some d else none) (zoneAdjusted d confirm clear threshold minFlow)) := by
  subst hd
  rw [exec_answer rfl hs, ← defineZone_unlocked hu]
  exact congrArg _ (answerDefineZone_eq hz hb ..)

/-- R102: a zone that is not enabled takes a definition. -/
theorem zoneDefined_taken (s : State) (tag : Byte) (z : Nat) (d : ZoneDef) (adjusted : Bool) :
    State.SameButNotices (State.reply 0x15 tag (takenStatus adjusted) ((s.zoneDefined tag z (some d) adjusted).zoneRecord z)
        { s with zones := s.zones.put z (ZoneRec.fresh .off),
                 tables := { s.tables with zones := s.tables.zones.put z d } }) (s.zoneDefined tag z (some d) adjusted)
      ∧ (s.zoneDefined tag z (some d) adjusted).link.notices = s.noticesWith (.zone z) :=
  ⟨reply_joinNotice_same _ _ _ _ _ _, joinNotice_with _ _⟩

/-- R102: a zone that is not enabled is removed with its plan. -/
theorem zoneDefined_removed (s : State) (tag : Byte) (z : Nat) (adjusted : Bool) :
    State.SameButNotices (State.reply 0x15 tag (takenStatus adjusted) ((s.zoneDefined tag z none adjusted).zoneRecord z)
        { s with zones := s.zones.put z (ZoneRec.fresh .undefined),
                 tables := { s.tables with zones := s.tables.zones.put z ZoneDef.absent,
                                           plans := s.tables.plans.put z [] } }) (s.zoneDefined tag z none adjusted)
      ∧ (s.zoneDefined tag z none adjusted).link.notices = s.noticesWith (.zone z) :=
  ⟨reply_joinNotice_same _ _ _ _ _ _, joinNotice_with _ _⟩

theorem enabled_false {st : ZoneState} (h : st = .off ∨ st = .undefined) : st.enabled = false := by
  rcases h with rfl | rfl <;> rfl

/-- Which parameters a DEFINE_ZONE leaves as given. -/
theorem zoneAdjusted_false (balance auto failsafe : Bool) (confirm clear branch threshold minFlow : Nat) :
    zoneAdjusted (zoneTaken (zoneKindOf balance) confirm clear auto failsafe branch threshold minFlow) confirm clear threshold
        minFlow = false
      ↔ 1 ≤ confirm ∧ confirm ≤ 15 ∧ 1 ≤ clear ∧ clear ≤ 255
        ∧ (balance = true → 1 ≤ threshold ∧ threshold ≤ 500 ∧ minFlow ≤ 4000) := by
  cases balance
  · simp [zoneAdjusted, zoneTaken, zoneKindOf, clamp]; omega
  · simp [zoneAdjusted, zoneTaken, zoneKindOf, clamp]; omega

/-- Settles O26, by the checks of R101 and the definition each kind of zone takes. -/
theorem defineZoneTaken : Obligations.DefineZoneTaken := by
  refine ⟨fun s tag z confirm clear branch threshold minFlow defined balance auto failsafe hs hu hz hb => ⟨fun he => ?_, fun he => ?_⟩,
    fun s tag z confirm clear branch threshold minFlow auto failsafe hs hu hz hst => ⟨fun d hd => ?_, fun d hb hd => ?_,
      fun balance status ho hb hst' => ?_⟩⟩
  · have hne : (s.zone z).st ≠ .undefined := by rintro h; rw [h] at he; cases he
    rw [exec_defineZone hs hu hz (.inr hb) tag defined auto failsafe _ _ _ _ rfl, if_neg (fun h => hne h.2), if_pos he]
  · exact (exec_defineZone hs hu hz (.inr hb) tag false auto failsafe _ _ _ _ rfl).trans (congrArg _ (if_pos ⟨rfl, he⟩))
  · have hadj := zoneAdjusted_false false auto failsafe confirm clear branch threshold minFlow
    have hd' : d = zoneTaken (zoneKindOf false) confirm clear auto failsafe branch threshold minFlow := hd
    rw [← hd'] at hadj
    have hp : zoneAdjusted d confirm clear threshold minFlow = false ↔ d.confirm = confirm ∧ d.clear = clear := by
      rw [hadj, hd]; simp only [Bool.false_eq_true, false_imp_iff, and_true]; omega
    refine ⟨s.zoneDefined tag z (some d) (zoneAdjusted d confirm clear threshold minFlow), ?_, ?_⟩
    · have hexec := exec_defineZone hs hu hz (.inl rfl) tag true auto failsafe confirm clear threshold minFlow hd'
      rw [if_neg (by simp), if_neg (by simp [enabled_false hst])] at hexec
      exact hexec
    · rw [← takenStatus_eq hp]; exact zoneDefined_taken ..
  · have hadj := zoneAdjusted_false true auto failsafe confirm clear branch threshold minFlow
    have hd' : d = zoneTaken (zoneKindOf true) confirm clear auto failsafe branch threshold minFlow := hd
    rw [← hd'] at hadj
    have hp : zoneAdjusted d confirm clear threshold minFlow = false ↔
        d.confirm = confirm ∧ d.clear = clear ∧ d.threshold = threshold ∧ d.minFlow = minFlow := by
      rw [hadj, hd]; simp only [true_imp_iff]; omega
    refine ⟨s.zoneDefined tag z (some d) (zoneAdjusted d confirm clear threshold minFlow), ?_, ?_⟩
    · have hexec := exec_defineZone hs hu hz (.inr hb) tag true auto failsafe confirm clear threshold minFlow hd'
      rw [if_neg (by simp), if_neg (by simp [enabled_false hst])] at hexec
      exact hexec
    · rw [← takenStatus_eq hp]; exact zoneDefined_taken ..
  · have hadj := zoneAdjusted_false balance auto failsafe confirm clear branch threshold minFlow
    have hexec := exec_defineZone hs hu hz hb tag false auto failsafe confirm clear threshold minFlow rfl
    rw [if_neg (by simp [ho]), if_neg (by simp [enabled_false hst])] at hexec
    refine ⟨_, hexec, ?_⟩
    rw [hst', ← takenStatus_eq hadj]; exact zoneDefined_removed ..

/-! ## SET_PLAN (R120, R121) -/

/-- R121: a taken SET_PLAN with its reply. -/
def State.planSet (tag : Byte) (z : Nat) (plan : List Owner) (s : State) : State :=
  let t := s.putPlan z plan
  t.reply 0x16 tag .ok (t.tables.planRecord z)

/-- R120: the checks of a SET_PLAN. -/
theorem answerSetPlan_eq {s : State} (h : s.Unlocked s.locks.plan) (tag : Byte) (z : Nat) {targets : List (Nat × Nat)}
    {plan : List Owner} (hp : ownersOf targets = some plan) :
    answerSetPlan tag z targets s =
      if 63 < z then s.refuse 0x16 tag .badField
      else if 8 < plan.length then s.refuse 0x16 tag .full
      else if (s.zone z).st = .undefined ∨ ∃ o ∈ plan, s.ownerUndefined o = true then s.refuse 0x16 tag .notDefined
      else if ¬ plan.Nodup then s.refuse 0x16 tag .conflict
      else if s.zoneEngaged z = true then s.refuse 0x16 tag .busy
      else s.planSet tag z plan := by
  have hz : Config.numZones ≤ z ↔ 63 < z := Iff.rfl
  have hl : Config.maxTargets < plan.length ↔ 8 < plan.length := Iff.rfl
  rw [answerSetPlan, hp]
  dsimp only
  rw [List.append_assoc, List.cons_append, List.cons_append, List.nil_append, checked_cons, checked_cons, checked_unlocked h]
  simp [checked_cons, hz, hl, State.planSet]

theorem exec_setPlan {s : State} (hs : s.Ready) (tag : Byte) (z : Nat) (targets : List (Nat × Nat)) :
    exec (.setPlan tag z targets) s = .next (answerSetPlan tag z targets s) := exec_answer rfl hs

theorem answerSetPlan_none {targets : List (Nat × Nat)} (h : ownersOf targets = none) (tag : Byte) (z : Nat) (s : State) :
    answerSetPlan tag z targets s = s.refuse 0x16 tag .badField := by rw [answerSetPlan, h]

/-- Targets are read one by one. -/
theorem ownersOf_cons_iff {targets : List (Nat × Nat)} {plan : List Owner} (h : ownersOf targets = some plan) (x : Nat × Nat)
    (os : List Owner) : ownersOf (x :: targets) = some os ↔ ∃ o, ownerOfCode x.1 x.2 = some o ∧ os = o :: plan := by
  rw [ownersOf, h]
  cases ownerOfCode x.1 x.2 with
  | none => simp
  | some o => simp [eq_comm]

/-- Settles O27, by the order of R120's checks. -/
theorem setPlanTaken : Obligations.SetPlanTaken := by
  refine ⟨fun s tag z targets hs hu => ⟨fun h => ?_, fun plan undefined hz hp hun => ?_⟩,
    fun s tag z targets plan hs hu hz hp hl hn hst ho he => ⟨s.planSet tag z plan, ?_, rfl, ?_, fun y hy => ?_,
      fun x os => ⟨rfl, ownersOf_cons_iff hp x os⟩⟩⟩
  · rw [exec_setPlan hs]
    rcases h with h | h
    · cases hp : ownersOf targets with
      | none => rw [answerSetPlan_none hp]
      | some plan => rw [answerSetPlan_eq hu tag z hp, if_pos h]
    · rw [answerSetPlan_none h]
  · subst hun
    rw [exec_setPlan hs, answerSetPlan_eq hu tag z hp, if_neg (by omega)]
    refine ⟨fun hl => by rw [if_pos hl], fun hl h => by rw [if_neg (by omega), if_pos h], fun hl h hn => ?_, fun hl h hn he => ?_⟩
    · rw [if_neg (by omega), if_neg h, if_pos hn]
    · rw [if_neg (by omega), if_neg h, if_neg (not_not.mpr hn), if_pos he]
  · have hd : ¬ ((s.zone z).st = .undefined ∨ ∃ o ∈ plan, s.ownerUndefined o = true) := by
      rintro (h | ⟨o, ho', h⟩)
      · exact hst h
      · rw [ho o ho'] at h; cases h
    rw [exec_setPlan hs, answerSetPlan_eq hu tag z hp, if_neg (by omega), if_neg (by omega), if_neg hd, if_neg (not_not.mpr hn),
      if_neg (by simp [he])]
  · exact Table.getD_put_self _ _ _ (by omega)
  · exact Table.getD_put_ne _ _ _ (Ne.symm hy)

/-! ## SET_LIMITS (R157, R158) -/

theorem clamp_eq {lo hi n : Nat} : clamp lo hi n = max lo (min hi n) := rfl

/-- R158: a taken SET_LIMITS before its reply. -/
def State.limitsStored (l : Limits) (s : State) : State :=
  let t := s.withTables { s.tables with limits := l }
  (if s.tables.limits.admissionPart = l.admissionPart then t else t.wantLook).finish

theorem setLimits_unlocked {s : State} (h : s.Unlocked s.locks.limits) (tag : Byte) (l : Limits) :
    s.setLimits tag l =
      if s.sched.window ≠ [] ∧ s.tables.limits.windowPart ≠ (limitsTaken l).windowPart then s.refuse 0x17 tag .busy
      else (s.limitsStored (limitsTaken l)).reply 0x17 tag (takenStatus (limitsTaken l != l)) (limitsTaken l).bytes := by
  unfold State.setLimits
  rw [checked_unlocked h]
  simp [checked_cons, State.limitsStored]

theorem windowPart_ne_iff (a b : Limits) : a.windowPart ≠ b.windowPart ↔
    b.budget ≠ a.budget ∨ b.reserve ≠ a.reserve ∨ b.count ≠ a.count ∨ b.window ≠ a.window := by
  simp only [Limits.windowPart, ne_eq, Prod.mk.injEq, not_and_or, eq_comm]

/-- Storing the limits leaves the rest but for a look and what it admits. -/
theorem limitsStored_settles (l : Limits) (s : State) : Settles (s.withTables { s.tables with limits := l }) (s.limitsStored l) := by
  refine Settles.trans ?_ (Settles.finish _)
  split
  · exact .refl _
  · exact .ofStir (.wantLook _) fun o => ⟨le_refl _, rfl, rfl, rfl⟩

/-- Settles O28, by the window check of R158. -/
theorem setLimitsTaken : Obligations.SetLimitsTaken := by
  intro s tag b r n w ss so d f l hs hu hl
  have hexec : exec (.setLimits tag b r n w ss so d f) s = .next (s.setLimits tag ⟨b, r, n, w, ss, so, d, f⟩) := exec_answer rfl hs
  have htaken : limitsTaken ⟨b, r, n, w, ss, so, d, f⟩ = l := hl.symm
  rw [setLimits_unlocked hu, htaken] at hexec
  refine ⟨fun h => ?_, fun hw h => by rw [hexec, if_pos ⟨hw, (windowPart_ne_iff _ _).mpr h⟩]⟩
  have hfree : ¬ (s.sched.window ≠ [] ∧ s.tables.limits.windowPart ≠ l.windowPart) := by
    rw [windowPart_ne_iff]
    tauto
  rw [if_neg hfree, takenStatus_eq (p := l = ⟨b, r, n, w, ss, so, d, f⟩) (by simp)] at hexec
  have hsettles := limitsStored_settles l s
  generalize s.limitsStored l = u at hexec hsettles
  exact ⟨_, hexec, hsettles.toSpared.reply .., hsettles.zones⟩

/-! ## SET_SCAN (R77, R78) -/

theorem onOffFlags (i a f w : Bool) : enabledDisabled (!i).toNat = some i ∧ enabledDisabled (!a).toNat = some a
    ∧ serviceFirstOfCode f.toNat = some f ∧ offOn w.toNat = some w :=
  ⟨onOff_not_toNat i, onOff_not_toNat a, yesNo_toNat f, yesNo_toNat w⟩

theorem answerSetScan_eq {rate kbit : Nat} (hr : rateOfCode rate = some kbit) (tag : Byte) (image attention first wet : Bool)
    (interval gap : Nat) (s : State) :
    answerSetScan tag (!image).toNat (!attention).toNat interval first.toNat rate gap wet.toNat s =
      s.setScan tag ⟨image, attention, clamp 5 1000 interval, first, kbit, clamp 10 1000 gap, wet⟩
        (clamp 5 1000 interval != interval || clamp 10 1000 gap != gap) := by
  obtain ⟨hi, ha, hf, hw⟩ := onOffFlags image attention first wet
  rw [answerSetScan, hi, ha, hf, hr, hw]

theorem setScan_unlocked {s : State} (h : s.Unlocked s.locks.limits) (tag : Byte) (c : ScanSettings) (adjusted : Bool) :
    s.setScan tag c adjusted = (s.storeScan c).reply 0x19 tag (takenStatus adjusted) c.bytes := by
  unfold State.setScan
  rw [← List.append_nil (s.lockChecks _), checked_unlocked h, checked_nil]

/-- R78: the tables with other scan settings, the periodic timer counted anew. -/
def State.scanStored (c : ScanSettings) (s : State) : State := (s.withTables { s.tables with scan := c }).newInterval s.tables.scan

/-- R78: the periodic timer expires at once where the new interval has passed. -/
theorem scanStored_expired {s : State} {c : ScanSettings} {since : Nat} (hp : s.periodicFrom = some since)
    (hi : c.interval ≠ s.tables.scan.interval) (ht : since + c.interval * 2000 ≤ s.clock) :
    s.scanStored c = { s with tables := { s.tables with scan := c }, periodicFrom := some s.clock, scanDue := true } := by
  have hcond : (s.tables.scan.interval != c.interval && since + c.interval * Config.ticksPerMs ≤ s.clock) = true := by
    simp [Ne.symm hi, Config.ticksPerMs, ht]
  simp only [State.scanStored, State.newInterval, State.withTables, hp, hcond, if_true]
  rfl

theorem scanStored_running {s : State} {c : ScanSettings}
    (h : ∀ since, s.periodicFrom = some since → c.interval = s.tables.scan.interval ∨ s.clock < since + c.interval * 2000) :
    s.scanStored c = s.withTables { s.tables with scan := c } := by
  cases hp : s.periodicFrom with
  | none => simp only [State.scanStored, State.newInterval, State.withTables, hp]
  | some since =>
    have hcond : (s.tables.scan.interval != c.interval && since + c.interval * Config.ticksPerMs ≤ s.clock) = false := by
      rcases h since hp with h | h
      · simp [h]
      · have hlate : ¬ since + c.interval * Config.ticksPerMs ≤ s.clock := by simp only [Config.ticksPerMs]; omega
        simp [hlate]
    simp only [State.scanStored, State.newInterval, State.withTables, hp, hcond, Bool.false_eq_true, if_false]

theorem scanStored_eq (c : ScanSettings) (s : State) : s.scanStored c = { s with
    tables := { s.tables with scan := c }, periodicFrom := (s.scanStored c).periodicFrom, scanDue := (s.scanStored c).scanDue } := by
  unfold State.scanStored State.newInterval
  split
  · split <;> rfl
  · rfl

/-- R78: what follows the storing: an IMAGE trigger, a look, the end of the event. -/
theorem storeScan_settles (c : ScanSettings) (s : State) : Ripple (s.scanStored c) (s.storeScan c)
    ∧ (s.storeScan c).zones = s.zones
    ∧ (s.tables.scan.image = false → c.image = true → s.image.out ≠ s.image.copy → (s.storeScan c).scanDue = true) := by
  have himage : (s.scanStored c).image = s.image := by rw [scanStored_eq]
  have hscan : (s.scanStored c).tables.scan = c := by rw [scanStored_eq]
  have hz : (s.scanStored c).zones = s.zones := by rw [scanStored_eq]
  have hlook : ∀ x : State, Settles x (if s.tables.scan.holdOnWet && !c.holdOnWet then x.wantLook else x).finish := fun x => by
    refine Settles.trans ?_ (Settles.finish _)
    split
    · exact .ofStir (.wantLook _) fun o => ⟨le_refl _, rfl, rfl, rfl⟩
    · exact .refl _
  have hx := hlook (if !s.tables.scan.image && c.image then (s.scanStored c).imageTrigger else s.scanStored c)
  refine ⟨(Ripple.ite (Ripple.imageTrigger _) (Ripple.refl _)).trans hx.toRipple, hx.zones.trans ?_, fun hi hc hd => hx.due ?_⟩
  · split
    · unfold State.imageTrigger; split <;> exact hz
    · exact hz
  · have hdiff : ((s.scanStored c).image.differs && (s.scanStored c).tables.scan.image) = true := by
      rw [himage, hscan, hc, Image.differs]; simp [hd]
    rw [if_pos (by simp [hi, hc]), State.imageTrigger, if_pos hdiff]; rfl

/-- Settles O30, by the interval and the IMAGE trigger of R78. -/
theorem setScanTaken : Obligations.SetScanTaken := by
  intro s tag image attention first wet interval rate gap kbit c hs hu hr hc
  have hexec : exec (.setScan tag (!image).toNat (!attention).toNat interval first.toNat rate gap wet.toNat) s =
      .next ((s.storeScan c).reply 0x19 tag (if c.interval = interval ∧ c.gap = gap then .ok else .adjusted) c.bytes) := by
    rw [exec_answer rfl hs]
    refine congrArg _ ((answerSetScan_eq hr ..).trans ?_)
    rw [setScan_unlocked hu, takenStatus_eq (p := c.interval = interval ∧ c.gap = gap), hc]
    · rfl
    · simp [hc, clamp]
  obtain ⟨hripple, hzones, himage⟩ := storeScan_settles c s
  generalize s.storeScan c = u at hexec hripple hzones himage
  refine ⟨_, hexec, ?_, hzones, fun since hp hi ht => ?_, rfl, fun n hn => ?_, fun since hp h => ?_, fun hp => ?_, fun hi hon hd => ?_⟩
  · have hspared := hripple.toSpared
    rw [scanStored_eq] at hspared
    exact { (hspared.reply 0x19 tag (if c.interval = interval ∧ c.gap = gap then .ok else .adjusted) c.bytes) with periodicFrom := rfl }
  · have hx := scanStored_expired hp hi ht
    exact ⟨hripple.due (by rw [hx]), hripple.periodicFrom.trans (by rw [hx])⟩
  · match n, hn with
    | _ + 5, _ => rfl
  · refine hripple.periodicFrom.trans ?_
    rw [scanStored_running (fun since' hp' => by rw [hp] at hp'; cases hp'; exact h)]
    rfl
  · refine hripple.periodicFrom.trans ?_
    rw [scanStored_running (fun since' hp' => by rw [hp] at hp'; cases hp')]
    exact hp
  · exact himage hi (by rw [hc]; exact hon) hd

end Sys2Proof.Machine
end

