-- ==== Sys2Proof/Proofs/LockedRequests.lean ====
section
/-! LOCK, and what a set lock or a running COMMIT does to the requests of its group (R189, R191): the obligation O31. -/

namespace Sys2Proof.Machine

/-! ## Codes of two values -/

theorem posOfCode_le {n : Nat} (h : n ≤ 1) : ∃ p, posOfCode n = some p := by
  match n, h with
  | 0, _ => exact ⟨_, rfl⟩
  | 1, _ => exact ⟨_, rfl⟩

theorem parkOfCode_le {n : Nat} (h : n ≤ 1) : ∃ p, parkOfCode n = some p := by
  match n, h with
  | 0, _ => exact ⟨_, rfl⟩
  | 1, _ => exact ⟨_, rfl⟩

theorem zoneKindOfCode_le {n : Nat} (h : n ≤ 1) : ∃ k, zoneKindOfCode n = some k ∧ (k = .balance → n = 1) := by
  match n, h with
  | 0, _ => exact ⟨_, rfl, nofun⟩
  | 1, _ => exact ⟨_, rfl, fun _ => rfl⟩

theorem onOff_le {n : Nat} (h : n ≤ 1) : ∃ b, onOff n = some b := Option.isSome_iff_exists.mp ((onOff_isSome_iff n).mpr h)

theorem rateOfCode_le {n : Nat} (h : n ≤ 4) : ∃ r, rateOfCode n = some r := by
  match n, h with
  | 0, _ => exact ⟨_, rfl⟩
  | 1, _ => exact ⟨_, rfl⟩
  | 2, _ => exact ⟨_, rfl⟩
  | 3, _ => exact ⟨_, rfl⟩
  | 4, _ => exact ⟨_, rfl⟩

/-! ## LOCK (R189) -/

theorem exec_lock {s : State} (hs : s.Ready) (tag : Byte) (a b c : Bool) :
    exec (.lock tag a.toNat b.toNat c.toNat) s =
      .next (State.reply 0x50 tag .ok (s.locks.set a b c).bytes { s with locks := s.locks.set a b c }) := by
  have ha : setLeave a.toNat = some a := yesNo_toNat a
  have hb : setLeave b.toNat = some b := yesNo_toNat b
  have hc : setLeave c.toNat = some c := yesNo_toNat c
  rw [exec_answer rfl hs]
  refine congrArg _ ?_
  change answerLock _ _ _ _ s = _
  rw [answerLock, ha, hb, hc]

/-! ## The requests of a lock group -/

section Tables

variable {s : State} {st : Status} (h : s.LockedOut s.locks.tables st) (tag : Byte)
include h

theorem answerDefineCard_lockedOut {card defined : Nat} (hc : card ≤ 15) (hd : defined ≤ 1) (width : Nat) :
    answerDefineCard tag card defined width s = s.refuse 0x10 tag st := by
  obtain ⟨d, hd⟩ := yesNo_le hd
  rw [answerDefineCard, hd]
  dsimp only
  rw [if_neg (by simp only [Config.maxCards]; omega)]
  unfold State.defineCard
  rw [checked_lockedOut h]

theorem answerMapPosition_lockedOut {card offset function number level : Nat} {fn : Option MapFn} (hc : card ≤ 15)
    (ho : offset < s.tables.cards.getD card 0) (hf : mapFnOfCode function number level = some fn) :
    answerMapPosition tag card offset function number level s = s.refuse 0x11 tag st := by
  rw [answerMapPosition, hf]
  dsimp only
  rw [List.cons_append, List.cons_append, List.nil_append, checked_pass (decide_eq_false (by simp only [Config.maxCards]; omega)),
    checked_pass (decide_eq_false (by omega))]
  exact checked_onlyLockedOut h ..

theorem answerDefineValve_lockedOut {v present fail : Nat} (hv : v ≤ 105) (hp : present ≤ 1) (hf : fail ≤ 1) (stroke : Nat) :
    answerDefineValve tag v present stroke fail s = s.refuse 0x12 tag st := by
  obtain ⟨p, hp⟩ := yesNo_le hp
  obtain ⟨f, hf⟩ := posOfCode_le hf
  rw [answerDefineValve, hp, hf]
  dsimp only
  rw [if_neg (by simp only [Config.numValves]; omega)]
  unfold State.defineValve
  rw [checked_lockedOut h]

theorem answerDefineMeter_lockedOut {m defined : Nat} (hm : m ≤ 96) (hd : defined ≤ 1) (k shift : Nat) :
    answerDefineMeter tag m defined k shift s = s.refuse 0x13 tag st := by
  obtain ⟨d, hd⟩ := yesNo_le hd
  rw [answerDefineMeter_eq hm tag hd]
  unfold State.defineMeter
  rw [checked_lockedOut h]

theorem answerDefineBranch_lockedOut {b defined segment park : Nat} (hb : b ≤ 47) (hd : defined ≤ 1) (hg : segment ≤ 3)
    (hp : park ≤ 1) (nominal : Nat) : answerDefineBranch tag b defined segment park nominal s = s.refuse 0x14 tag st := by
  obtain ⟨d, hd⟩ := yesNo_le hd
  obtain ⟨p, hp⟩ := parkOfCode_le hp
  rw [answerDefineBranch, hd, hp]
  dsimp only
  rw [if_neg (by simp only [Config.numBranches, Config.numSegments]; omega)]
  unfold State.defineBranch
  rw [checked_lockedOut h]

end Tables

section Plan

variable {s : State} {st : Status} (h : s.LockedOut s.locks.plan st) (tag : Byte)
include h

theorem answerDefineZone_lockedOut {z defined kind auto failsafe branch : Nat} (hz : z ≤ 63) (hd : defined ≤ 1) (hk : kind ≤ 1)
    (ha : auto ≤ 1) (hf : failsafe ≤ 1) (hb : kind = 1 → branch ≤ 47) (confirm clear threshold minFlow : Nat) :
    answerDefineZone tag z defined kind confirm clear auto failsafe branch threshold minFlow s = s.refuse 0x15 tag st := by
  obtain ⟨d, hd⟩ := yesNo_le hd
  obtain ⟨k, hk, hbal⟩ := zoneKindOfCode_le hk
  obtain ⟨a, ha⟩ := yesNo_le ha
  obtain ⟨f, hf⟩ := yesNo_le hf
  rw [answerDefineZone, hd, hk, ha, hf]
  dsimp only
  rw [if_neg (by
    simp only [Config.numZones, Config.numBranches, not_or, not_and]
    exact ⟨by omega, fun hkb => by have := hb (hbal hkb); omega⟩)]
  unfold State.defineZone
  rw [checked_lockedOut h]

theorem answerSetPlan_lockedOut {z : Nat} {targets : List (Nat × Nat)} {plan : List Owner} (hz : z ≤ 63)
    (hp : ownersOf targets = some plan) (hl : plan.length ≤ 8) : answerSetPlan tag z targets s = s.refuse 0x16 tag st := by
  rw [answerSetPlan, hp]
  dsimp only
  rw [List.append_assoc, List.cons_append, List.cons_append, List.nil_append,
    checked_pass (decide_eq_false (by simp only [Config.numZones]; omega)),
    checked_pass (decide_eq_false (by simp only [Config.maxTargets]; omega))]
  exact checked_lockedOut h ..

end Plan

section Limits

variable {s : State} {st : Status} (h : s.LockedOut s.locks.limits st) (tag : Byte)
include h

theorem answerSetLimits_lockedOut (b r n w ss so d f : Nat) : answerSetLimits tag b r n w ss so d f s = s.refuse 0x17 tag st := by
  unfold answerSetLimits State.setLimits
  rw [checked_lockedOut h]

theorem answerSetPatterns_lockedOut (p0 p1 p2 p3 : Byte) : answerSetPatterns tag p0 p1 p2 p3 s = s.refuse 0x18 tag st := by
  unfold answerSetPatterns
  rw [checked_lockedOut h]

theorem answerSetScan_lockedOut {image attention priority rate wet : Nat} (hi : image ≤ 1) (ha : attention ≤ 1)
    (hp : priority ≤ 1) (hr : rate ≤ 4) (hw : wet ≤ 1) (interval gap : Nat) :
    answerSetScan tag image attention interval priority rate gap wet s = s.refuse 0x19 tag st := by
  obtain ⟨i, hi⟩ : ∃ i, enabledDisabled image = some i := onOff_le hi
  obtain ⟨a, ha⟩ : ∃ a, enabledDisabled attention = some a := onOff_le ha
  obtain ⟨p, hp⟩ : ∃ p, serviceFirstOfCode priority = some p := yesNo_le hp
  obtain ⟨r, hr⟩ := rateOfCode_le hr
  obtain ⟨w, hw⟩ : ∃ w, offOn wet = some w := yesNo_le hw
  rw [answerSetScan, hi, ha, hp, hr, hw]
  dsimp only
  unfold State.setScan
  rw [checked_onlyLockedOut h]

end Limits

/-- Settles O31: each request of a group reaches the checks of its lock once its fields are in range. -/
theorem lockedRequestsRefused : Obligations.LockedRequestsRefused := by
  refine ⟨fun s tag a b c hs => ⟨_, exec_lock hs tag a b c, rfl⟩, fun s tag st hs => ⟨fun h => ?_, fun h => ?_, fun h => ?_⟩⟩
  · have answer : ∀ {c : Instr} {t : State}, requestCommand c = true → answerOf c s = t → exec c s = .next t :=
      fun hc ht => (exec_answer hc hs).trans (congrArg _ ht)
    exact ⟨fun card defined width hc hd => answer rfl (answerDefineCard_lockedOut h tag hc hd width),
      fun card offset function number level fn hc ho hf => answer rfl (answerMapPosition_lockedOut h tag hc ho hf),
      fun v present stroke fail hv hp hf => answer rfl (answerDefineValve_lockedOut h tag hv hp hf stroke),
      fun m defined k shift hm hd => answer rfl (answerDefineMeter_lockedOut h tag hm hd k shift),
      fun b defined segment park nominal hb hd hg hp => answer rfl (answerDefineBranch_lockedOut h tag hb hd hg hp nominal)⟩
  · exact ⟨fun z defined kind k c auto failsafe branch th mf hz hd hk ha hf hb => (exec_answer rfl hs).trans (congrArg _
        (answerDefineZone_lockedOut h tag hz hd hk ha hf hb k c th mf)),
      fun z targets plan hz hp hl => (exec_answer rfl hs).trans (congrArg _ (answerSetPlan_lockedOut h tag hz hp hl))⟩
  · exact ⟨fun b r n w ss so d f => (exec_answer rfl hs).trans (congrArg _
        (answerSetLimits_lockedOut h tag b r n w ss so d f)),
      fun p0 p1 p2 p3 => (exec_answer rfl hs).trans (congrArg _
        (answerSetPatterns_lockedOut h tag p0 p1 p2 p3)),
      fun image attention interval priority rate gap wet hi ha hp hr hw => (exec_answer rfl hs).trans (congrArg _
        (answerSetScan_lockedOut h tag hi ha hp hr hw interval gap))⟩

end Sys2Proof.Machine
end

