-- ==== Sys2Proof/Proofs/Commands.lean ====
section
/-! Requests that command valves, branches, outputs, storage and restarts: the obligations O32, O36, O38, O40, O41, O42 and O43. -/

namespace Sys2Proof.Machine

/-! ## CLEAR_FAULT (R12) -/

theorem exec_clearFault {s : State} (hs : s.Ready) (tag : Byte) {v : Nat} (hv : v ≤ 105) (hp : (s.tables.valve v).present = true) :
    exec (.clearFault tag v) s = .next (if (s.valve v).st ≠ .fault then s.refuse 0x26 tag .busy
      else (s.clearFault v).reply 0x26 tag .ok []) := by
  have hn : ¬ Config.numValves ≤ v := by simp only [Config.numValves]; omega
  rw [exec_answer rfl hs]
  refine congrArg _ ?_
  change answerClearFault _ _ s = _
  unfold answerClearFault
  simp [checked_cons, hn, hp]

/-- A record whose shown fields change joins its valve. -/
theorem setValve_changed {s : State} {v : Nat} {r : ValveRec} (h : r.shown ≠ (s.valve v).shown) :
    s.setValve v r = State.joinNotice (.valve v) { s with valves := s.valves.put v r } := if_neg h

/-- Settles O36: a valve in FAULT changes its state, so it joins. -/
theorem clearFaultTaken : Obligations.ClearFaultTaken := by
  intro s tag v hs hv hp
  refine ⟨fun hf => ⟨(s.clearFault v).reply 0x26 tag .ok [], _, ?_, rfl, ?_⟩, fun hf => ?_⟩
  · rw [exec_clearFault hs tag hv hp, if_neg (by simp [hf])]
  · rw [State.clearFault, setValve_changed (by simp [ValveRec.shown, hf])]
    exact ⟨reply_joinNotice_same _ _ _ _ _ _, joinNotice_with _ _⟩
  · rw [exec_clearFault hs tag hv hp, if_pos hf]

/-! ## VALVE_MOVE (R27, R144) -/

theorem exec_valveMove {s : State} (hs : s.Ready) (tag : Byte) {v code : Nat} {d : Dir} (hd : dirOfCode code = some d) (hv : v ≤ 105)
    (hp : (s.tables.valve v).present = true) : exec (.valveMove tag v code) s =
      .next (if s.moveBusy v = true then s.refuse 0x28 tag .busy else (s.maintain v d).reply 0x28 tag .ok []) := by
  have hn : ¬ Config.numValves ≤ v := by simp only [Config.numValves]; omega
  rw [exec_answer rfl hs]
  refine congrArg _ ?_
  change answerValveMove _ _ _ s = _
  unfold answerValveMove
  rw [hd]
  simp [checked_cons, hn, hp]

theorem valveOwner_branch {v : Nat} (h : v ≤ 95) : valveOwner v = .branch (v / 2) := if_pos (by omega)

theorem valveOwner_wide {v : Nat} (h : 96 ≤ v) : valveOwner v = .segment ((v - 96) / 2) ∨ valveOwner v = .main := by
  rw [valveOwner, if_neg (by omega)]
  split
  · exact .inl rfl
  · exact .inr rfl

theorem moveBusy_wide {s : State} {v : Nat} (h : 96 ≤ v) : s.moveBusy v = true := by
  rcases valveOwner_wide h with ho | ho <;> simp [State.moveBusy, ho]

theorem moveBusy_branch {s : State} {v : Nat} (h : v ≤ 95) (hm : (s.owner (.branch (v / 2))).mode = .inactive)
    (hu : (s.valve v).st ≠ .unknown) (hf : (s.valve v).st ≠ .fault) : s.moveBusy v = false := by
  simp [State.moveBusy, valveOwner_branch h, hm, hu, hf]

theorem dirOfCode_none {n : Nat} (h : 2 < n) : dirOfCode n = none := by
  match n, h with
  | _ + 3, _ => rfl

/-- R27: what a maintenance request does to the move queue, before the end of the event. -/
def State.maintained (v : Nat) (d : Dir) (p : Pos) (s : State) : State :=
  if (s.valve v).st = p.idle ∨ (s.valve v).st = p.moving then s.withdraw fun e => e.valve == v
  else s.joinMove { valve := v, dir := d, urgent := false, req := .maintenance, time := s.ms }

theorem withdraw_queue (s : State) (p : MoveEntry → Bool) : (s.withdraw p).sched.queue = s.sched.queue.filter fun e => !p e := by
  rw [State.withdraw_eq]

/-- A ROUTINE entry joins at the tail. -/
theorem joinMove_routine {s : State} {e : MoveEntry} (h : e.urgent = false) :
    (s.joinMove e).sched.queue = s.sched.queue.filter (fun x => x.valve != e.valve) ++ [e] := by
  simp [State.joinMove, State.wantLook, h]

theorem maintained_eq (v : Nat) (d : Dir) (p : Pos) (s : State) : s.maintained v d p = { s with sched := { s.sched with
    queue := (s.maintained v d p).sched.queue, lookDue := (s.maintained v d p).sched.lookDue } } := by
  unfold State.maintained
  split
  · rw [State.withdraw_eq]
  · rw [State.joinMove_eq]

/-- Settles O38, by the two ways of R27: the entry is withdrawn, or joins. -/
theorem valveMoveTaken : Obligations.ValveMoveTaken := by
  intro s tag v code d p hs hd hv hp hpos
  have hexec := exec_valveMove hs tag hd hv hp
  refine ⟨fun hb hm hu hf => ⟨s.maintained v d p, ?_, fun hi hmv => ?_, fun h => ?_, maintained_eq v d p s⟩, fun hw => ?_, rfl,
    fun n hn => dirOfCode_none hn⟩
  · rw [hexec, if_neg (by simp [moveBusy_branch hb hm hu hf]), State.maintain, ← hpos]; rfl
  · rw [State.maintained, if_neg (by simp [hi, hmv])]
    exact joinMove_routine rfl
  · rw [State.maintained, if_pos h]
    exact withdraw_queue s _
  · rw [hexec, if_pos (moveBusy_wide hw)]

/-! ## PROVE (R163) -/

theorem exec_prove {s : State} (hs : s.Ready) (tag : Byte) {format start : Nat} {f : Bool} (hf : yesNo format = some f) (hst : start ≤ 3)
    (count : Nat) : exec (.prove tag format start count) s =
      .next (if s.chain.st ≠ .running then s.refuse 0x32 tag .busy
        else if s.chain.session ≠ none then s.refuse 0x32 tag .busy
        else if s.runBlocked = true then s.refuse 0x32 tag .busy
        else s.withSession (some (s.newSession tag f start count))) := by
  have hf' : staggeredOfCode format = some f := hf
  have hn : ¬ 4 ≤ start := by omega
  rw [exec_answer rfl hs]
  refine congrArg _ ?_
  change answerProve _ _ _ _ s = _
  unfold answerProve
  rw [hf']
  simp [checked_cons, hn, Option.isSome_iff_ne_none]

theorem runBlocked_iff (s : State) : s.runBlocked = true ↔ 0 < s.activeJobs ∨ s.movesPending = true := by
  simp [State.runBlocked]

/-- A slot of a table, and one that its default does not satisfy, are slots of its list. -/
theorem any_toList_iff {α : Type} {n : Nat} (t : Table α n) (d : α) (p : α → Bool) (hd : p d = false) :
    t.toList.any p = true ↔ ∃ i, p (t.getD i d) = true := by
  simp only [List.any_eq_true, Table.getD]
  constructor
  · rintro ⟨x, hx, hp⟩
    obtain ⟨i, hi, rfl⟩ := List.mem_iff_getElem.mp hx
    exact ⟨i, by rwa [List.getD_eq_getElem _ _ hi]⟩
  · rintro ⟨i, hi⟩
    rcases Nat.lt_or_ge i t.toList.length with h | h
    · rw [List.getD_eq_getElem _ _ h] at hi
      exact ⟨_, List.getElem_mem h, hi⟩
    · rw [List.getD_eq_default _ _ h, hd] at hi
      cases hi

theorem isMoving_iff (st : ValveState) : st.isMoving = true ↔ st = .opening ∨ st = .closing := by cases st <;> decide

theorem movesPending_iff (s : State) :
    s.movesPending = true ↔ s.sched.queue ≠ [] ∨ ∃ v, (s.valve v).st = .opening ∨ (s.valve v).st = .closing := by
  rw [State.movesPending, Bool.or_eq_true, any_toList_iff s.valves (ValveRec.fresh .undefined) _ rfl]
  simp only [isMoving_iff, Bool.not_eq_true', List.isEmpty_eq_false_iff]
  exact Iff.rfl

/-- Settles O40, by the order of R163's refusals. -/
theorem proveTaken : Obligations.ProveTaken := by
  intro s tag format start count hs hf hst
  obtain ⟨f, hcode⟩ := yesNo_le hf
  have hexec := exec_prove hs tag hcode hst count
  have hformat : f = true ↔ format = 1 := by
    match format, hf with
    | 0, _ => cases hcode; decide
    | 1, _ => cases hcode; decide
  refine ⟨fun hc hn ha hm => ⟨s.newSession tag f start count, ?_, rfl, hformat, rfl, rfl, rfl, ?_, ?_, rfl⟩, fun h => ?_,
    movesPending_iff s⟩
  · have hb : ¬ s.runBlocked = true := by rw [runBlocked_iff]; simp [ha, hm]
    rw [hexec, if_neg (not_not.mpr hc), if_neg (not_not.mpr hn), if_neg hb]; rfl
  · simp only [State.newSession, clamp, bne_iff_ne]; omega
  · simp [State.newSession]
  · rw [hexec]
    split
    · rfl
    split
    · rfl
    next hc hn =>
      have hb : s.runBlocked = true := by
        rw [runBlocked_iff]
        rcases h with h | h | h | h
        · exact absurd h hc
        · exact absurd h hn
        · exact .inl (Nat.pos_of_ne_zero h)
        · exact .inr h
      rw [if_pos hb]

/-! ## WRITE_OUTPUTS (R67) -/

theorem writeBits_cons (out : List Bool) (e : Nat × Nat) (entries : List (Nat × Nat)) :
    writeBits out (e :: entries) = writeBits (out.set e.1 (e.2 == 1)) entries := rfl

theorem bitAt_set (l : List Bool) (i j : Nat) (b : Bool) :
    bitAt (l.set i b) j = if i = j ∧ i < l.length then b else bitAt l j := by
  simp only [bitAt, List.getD_eq_getElem?_getD, List.getElem?_set]
  by_cases h : i = j
  · subst h
    by_cases hl : i < l.length <;> simp [hl]
  · simp [h]

/-- A place no entry names keeps its bit. -/
theorem writeBits_other {entries : List (Nat × Nat)} {p : Nat} (h : p ∉ entries.map (·.1)) (out : List Bool) :
    bitAt (writeBits out entries) p = bitAt out p := by
  induction entries generalizing out with
  | nil => rfl
  | cons e entries ih =>
    rw [List.map_cons, List.mem_cons, not_or] at h
    rw [writeBits_cons, ih h.2, bitAt_set, if_neg (fun hp => h.1 hp.1.symm)]

/-- Entries that name different places are all written. -/
theorem writeBits_named {entries : List (Nat × Nat)} (hn : (entries.map (·.1)).Nodup) (out : List Bool)
    (hl : ∀ e ∈ entries, e.1 < out.length) : ∀ e ∈ entries, bitAt (writeBits out entries) e.1 = (e.2 == 1) := by
  induction entries generalizing out with
  | nil => exact fun e he => by cases he
  | cons x entries ih =>
    obtain ⟨hx, hn⟩ := List.nodup_cons.mp hn
    intro e he
    rw [writeBits_cons]
    rcases List.mem_cons.mp he with rfl | he
    · rw [writeBits_other hx, bitAt_set, if_pos ⟨rfl, hl e (List.mem_cons_self ..)⟩]
    · exact ih hn _ (fun y hy => by rw [List.length_set]; exact hl y (List.mem_cons_of_mem _ hy)) e he

/-- R62, R73: a trigger that follows where the image differs. -/
theorem imageTrigger_eq (s : State) :
    s.imageTrigger = { s with scanDue := s.scanDue || (s.image.differs && s.tables.scan.image) } := by
  unfold State.imageTrigger
  split
  next h => rw [h, Bool.or_true]; rfl
  next h => rw [Bool.eq_false_of_not_eq_true h, Bool.or_false]

theorem writeOutputs_eq (entries : List (Nat × Nat)) (s : State) : s.writeOutputs entries = { s with
    image := { s.image with out := writeBits s.image.out entries }
    scanDue := s.scanDue || (writeBits s.image.out entries != s.image.out && writeBits s.image.out entries != s.image.copy
      && s.tables.scan.image) } := by
  unfold State.writeOutputs
  dsimp only
  split
  next h => simp [h]
  next h =>
    rw [imageTrigger_eq, bne_iff_ne.mpr h, Bool.true_and]
    rfl

theorem outNumber_iff (t : TableStore) (p n : Nat) : t.outNumber p = some n ↔ ∃ e, t.entryAtPos p = some e ∧ e.fn = .out n := by
  unfold TableStore.outNumber
  cases t.entryAtPos p with
  | none => simp
  | some e => cases hf : e.fn <;> simp [hf]

theorem exec_writeOutputs {s : State} (hs : s.Ready) (tag : Byte) {entries : List (Nat × Nat)} (ha : s.chain.adopted = true)
    (hp : s.chain.st ≠ .proving) (hne : entries ≠ []) (hlen : entries.length ≤ 32) (hbit : ∀ e ∈ entries, e.2 ≤ 1)
    (hin : ∀ e ∈ entries, e.1 < s.tables.length) (hn : (entries.map (·.1)).Nodup)
    (hout : ∀ e ∈ entries, (s.tables.outNumber e.1).isSome) : exec (.writeOutputs tag entries) s =
      .next ((s.writeOutputs entries).reply 0x33 tag .ok ((s.writeOutputs entries).outputsReply entries)) := by
  rw [exec_answer rfl hs]
  refine congrArg _ ?_
  change answerWriteOutputs _ _ s = _
  unfold answerWriteOutputs
  refine checked_taken _ _ _ _ _ ?_
  simp only [List.forall_mem_cons, List.any_eq_false, decide_eq_true_iff, not_lt, not_le, ha, hn]
  refine ⟨by simp [hne, hlen], hbit, hin, by simp, fun e he => ?_, by simp [hp], fun c hc => by cases hc⟩
  simpa [Option.isSome_iff_ne_none] using hout e he

/-- Settles O41: every entry names a place of its own, so its bit stands after the write. -/
theorem writeOutputsTaken : Obligations.WriteOutputsTaken := by
  intro s tag entries out hs ha hp hne hlen hbit hin hn hout hl hw
  have hnamed : ∀ e ∈ entries, bitAt out e.1 = (e.2 == 1) := by
    rw [hw]; exact writeBits_named hn _ (by rw [hl]; exact hin)
  refine ⟨_, exec_writeOutputs hs tag ha hp hne hlen hbit hin hn hout, ?_, hnamed, fun p hp => by rw [hw]; exact writeBits_other hp _,
    outNumber_iff s.tables⟩
  have hreply : (s.writeOutputs entries).outputsReply entries =
      encList (fun e => u8 ((s.tables.outNumber e.1).getD 0) ++ flag (e.2 == 1)) entries := by
    rw [writeOutputs_eq, ← hw]
    refine congrArg (u8 entries.length ++ ·) (List.flatMap_congr fun e he => ?_)
    rw [← hnamed e he]
  rw [hreply, writeOutputs_eq, ← hw]

/-! ## COMMIT (R190, R191) -/

theorem exec_commit {s : State} (hs : s.Ready) (tag : Byte) : exec (.commit tag) s =
    .next (if s.commit ≠ none then s.refuse 0x51 tag .busy
      else { s with commit := some ⟨tag, s.tables, s.clock⟩, copyValid := false }) := by
  rw [exec_answer rfl hs]
  refine congrArg _ ?_
  change answerCommit _ s = _
  unfold answerCommit
  simp [checked_cons, Option.isSome_iff_ne_none]

theorem exec_commitWriteEnd {s : State} (hr : s.power.running = true) {r : CommitRun} (hc : s.commit = some r) :
    exec (.commitWriteEnd .agrees) s = .next (s.endCommit r (.whole r.snapshot r.snapshot.crc) r.snapshot.crc true)
    ∧ ∀ crc, exec (.commitWriteEnd (.disagrees crc)) s = .next (s.endCommit r (.spoiled (some crc)) crc false) := by
  constructor
  · change Host.Outcome.next (s.whenRunning _) = _
    rw [whenRunning_of hr, hc]
  · intro crc
    change Host.Outcome.next (s.whenRunning _) = _
    rw [whenRunning_of hr, hc]

/-- Settles O42; the CRC-32 is the register of `crc_eq_register` with the generator of R190. -/
theorem commitWrites : Obligations.CommitWrites := by
  refine fun s tag hr => ⟨fun hd hc => ?_, fun hd hc => ?_, fun r hc => ⟨⟨_, (exec_commitWriteEnd hr hc).1, ?_, rfl⟩,
    fun crc => ⟨_, (exec_commitWriteEnd hr hc).2 crc, rfl, rfl⟩⟩, rfl, fun _ => rfl, fun _ _ => rfl, fun _ => rfl,
    fun bytes register h0 hs => ?_⟩
  · rw [exec_commit ⟨hr, hd⟩, if_neg (not_not.mpr hc)]
  · rw [exec_commit ⟨hr, hd⟩, if_pos hc]
  · exact if_pos rfl
  · exact congrArg _ (crc_eq_register (n := 24) 0x04C11DB7 register h0 hs bytes)

/-! ## RESTART (R179, R196) -/

theorem exec_restartTables {s : State} (hs : s.Ready) (tag : Byte) : exec (.restartTables tag) s =
    .next (if s.commit ≠ none ∨ s.anyJob = true ∨ s.tables.anyActivated = true then s.refuse 0x52 tag .busy
      else if s.copyValid = false then s.refuse 0x52 tag .notDefined else s.takeRestart tag .tables) := by
  rw [exec_answer rfl hs]
  refine congrArg _ ?_
  change answerRestartTables _ s = _
  unfold answerRestartTables
  simp only [checked_cons, checked_nil, Option.isSome_iff_ne_none, Bool.or_eq_true, Bool.not_eq_true']
  by_cases hc : s.commit = none <;> simp [hc]

theorem anyJob_iff (s : State) : s.anyJob = true ↔ ∃ k j, s.job k = some j := by
  rw [State.anyJob, any_toList_iff s.jobs none _ rfl]
  exact exists_congr fun k => Option.isSome_iff_exists

theorem anyActivated_iff (t : TableStore) :
    t.anyActivated = true ↔ ∃ b, (t.branch b).defined = true ∧ (t.branch b).activated = true := by
  rw [TableStore.anyActivated, any_toList_iff t.branches BranchDef.absent _ rfl]
  simp only [Bool.and_eq_true]
  exact Iff.rfl

theorem takeRestart_dispatch (tag : Byte) (scope : Scope) (s : State) : (s.takeRestart tag scope).canDispatch = false := by
  simp [State.canDispatch, State.takeRestart, State.reply]

theorem exec_restartRuntime {s : State} (hs : s.Ready) (tag : Byte) (scope : Nat) :
    exec (.restartRuntime tag scope) s = .next (answerRestartRuntime tag scope s) := exec_answer rfl hs

/-- Settles O43, by the scopes and the refusals of R196. -/
theorem restartTaken : Obligations.RestartTaken := by
  intro s tag hs
  refine ⟨⟨s.takeRestart tag .runtime, exec_restartRuntime hs tag 0, takeRestart_dispatch .., rfl⟩,
    fun hc hj ha hv => ⟨s.takeRestart tag .tables, ?_, takeRestart_dispatch .., rfl⟩, ?_, fun scope hsc => ?_, anyJob_iff s,
    anyActivated_iff s.tables, fun h => ?_, fun hc hj ha hv => ?_⟩
  · rw [exec_restartTables hs, if_neg (by simp [hc, hj, ha]), if_neg (by simp [hv])]
  · exact (exec_restartRuntime hs tag 1).trans (exec_answer (c := .restartTables tag) rfl hs).symm
  · match scope, hsc with
    | _ + 2, _ => exact exec_restartRuntime hs tag _
  · rw [exec_restartTables hs, if_pos h]
  · rw [exec_restartTables hs, if_neg (by simp [hc, hj, ha]), if_pos hv]

/-! ## ACTIVATE and DEACTIVATE (R18) -/

/-- R18: a branch with its activated flag as asked, noticed; its evaluation is still to come. -/
def State.flagSet (b : Nat) (on : Bool) (s : State) : State :=
  (s.putBranchDef b { s.tables.branch b with activated := on }).joinNotice (.branch b)

theorem activation_eq {s : State} {b : Nat} (hb : b ≤ 47) (hd : (s.tables.branch b).defined = true) (kind : Nat) (tag : Byte)
    (on : Bool) : s.activation kind tag b on =
      State.reply kind tag .ok (u8 ((s.setActivated b on).owner (.branch b)).mode.branchCode) (s.setActivated b on) := by
  have hn : ¬ Config.numBranches ≤ b := by simp only [Config.numBranches]; omega
  unfold State.activation
  simp [checked_cons, hn, hd]

theorem setActivated_changed {s : State} {b : Nat} {on : Bool} (h : (s.tables.branch b).activated ≠ on) :
    s.setActivated b on = ((s.flagSet b on).evaluate (.branch b)).finish := if_neg h

/-- The flag is set, the branch re-evaluates, and nothing else changes before the end of the event. -/
theorem activation_changed {s : State} {b : Nat} (hb : b ≤ 47) (hd : (s.tables.branch b).defined = true) (kind : Nat) (tag : Byte)
    {on : Bool} (h : (s.tables.branch b).activated ≠ on) : ∃ x u : State,
      s.activation kind tag b on = u.finish.reply kind tag .ok (u8 (u.finish.owner (.branch b)).mode.branchCode)
      ∧ State.SameButNotices { s with tables := { s.tables with
          branches := s.tables.branches.put b { s.tables.branch b with activated := on } } } x
      ∧ x.link.notices = s.noticesWith (.branch b)
      ∧ u = x.evaluate (.branch b) ∧ Spared x u ∧ u.zones = s.zones ∧ u.valves = s.valves ∧ u.jobs = s.jobs := by
  have hwalks := (Walks.evaluate (.branch b) (s.flagSet b on)).toStir
  have hfields := State.joinNotice_fields (s.putBranchDef b { s.tables.branch b with activated := on }) (.branch b)
  refine ⟨s.flagSet b on, _, ?_, ?_, joinNotice_with _ _, rfl, (Ripple.ofStir hwalks).toSpared, hwalks.zones.trans ?_,
    hwalks.valves.trans ?_, hwalks.jobs.trans ?_⟩
  · rw [activation_eq hb hd, setActivated_changed h]
  · rw [State.flagSet, State.joinNotice_eq]; rfl
  · rw [State.flagSet, State.joinNotice_eq]; rfl
  · rw [State.flagSet, State.joinNotice_eq]; rfl
  · rw [State.flagSet, State.joinNotice_eq]; rfl

/-- A flag that stands as asked changes nothing. -/
theorem activation_same {s : State} {b : Nat} (hb : b ≤ 47) (hd : (s.tables.branch b).defined = true) (kind : Nat) (tag : Byte)
    {on : Bool} (h : (s.tables.branch b).activated = on) :
    s.activation kind tag b on = s.reply kind tag .ok (u8 (s.owner (.branch b)).mode.branchCode) := by
  have hs : s.setActivated b on = s := if_pos h
  rw [activation_eq hb hd, hs]

/-- Settles O32, by the two directions of the flag. -/
theorem activatedFlagSet : Obligations.ActivatedFlagSet := by
  intro s tag b hs hb hd
  have hon : exec (.activate tag b) s = .next (s.activation 0x20 tag b true) := exec_answer rfl hs
  have hoff : exec (.deactivate tag b) s = .next (s.activation 0x21 tag b false) := exec_answer rfl hs
  rw [hon, hoff]
  refine ⟨fun h => ?_, fun h => ?_, fun h => congrArg _ (activation_same hb hd _ tag h),
    fun h => congrArg _ (activation_same hb hd _ tag h)⟩
  · obtain ⟨x, u, he, hrest⟩ := activation_changed hb hd 0x20 tag (on := true) (by simp [h])
    exact ⟨x, u, congrArg _ he, hrest⟩
  · obtain ⟨x, u, he, hrest⟩ := activation_changed hb hd 0x21 tag (on := false) (by simp [h])
    exact ⟨x, u, congrArg _ he, hrest⟩

end Sys2Proof.Machine
end

