-- ==== Sys2Proof/Proofs/ChainFrames.lean ====
section
/-! Frames as bits (R34, R35, R50) and the choices that send them (R41, R45, R47, R48, R164, R166): the obligations O44 and O49. -/

namespace Sys2Proof.Machine

/-! ## Words of a SERVICE payload (R50) -/

theorem bitsNat_append_singleton (l : List Bool) (b : Bool) : bitsNat (l ++ [b]) = Nat.bit b (bitsNat l) := by
  rw [bitsNat, List.foldl_append]
  cases b <;> rfl

theorem testBit_bitsNat_reverse (l : List Bool) (i : Nat) : (bitsNat l.reverse).testBit i = bitAt l i := by
  induction l generalizing i with
  | nil => simp [bitsNat, bitAt]
  | cons b l ih =>
    rw [List.reverse_cons, bitsNat_append_singleton]
    cases i with
    | zero => rw [Nat.testBit_bit_zero]; rfl
    | succ i => rw [Nat.testBit_bit_succ, ih]; rfl

theorem bitAt_drop_take (l : List Bool) (n k : Nat) {i : Nat} (h : i < k) : bitAt ((l.drop n).take k) i = bitAt l (n + i) := by
  simp [bitAt, List.getD_eq_getElem?_getD, h]

/-- Card `c`'s slot is bits 16c to 16c + 15 of the payload, the lowest first. -/
theorem wordOf_getLsbD (payload : List Bool) (c : Nat) {i : Nat} (h : i < 16) :
    (wordOf payload c).getLsbD i = bitAt payload (16 * c + i) := by
  rw [wordOf, BitVec.getLsbD_ofNat, testBit_bitsNat_reverse, bitAt_drop_take _ _ _ h]
  simp [h]

theorem bitsLow_length (n v : Nat) : (bitsLow n v).length = n := by simp [bitsLow]

theorem wordsPayload_length (ws : List Word) : (wordsPayload ws).length = 16 * ws.length := by
  simp [wordsPayload, List.length_flatMap, bitsLow_length, Nat.mul_comm]

theorem bitAt_append (l m : List Bool) (i : Nat) : bitAt (l ++ m) i = if i < l.length then bitAt l i else bitAt m (i - l.length) := by
  simp only [bitAt, List.getD_eq_getElem?_getD, List.getElem?_append]
  split <;> rfl

theorem bitAt_wordsPayload (ws : List Word) {c i : Nat} (h : i < 16) :
    bitAt (wordsPayload ws) (16 * c + i) = (ws.getD c 0).getLsbD i := by
  induction ws generalizing c with
  | nil => simp [wordsPayload, bitAt]
  | cons w ws ih =>
    have hcons : wordsPayload (w :: ws) = bitsLow 16 w.toNat ++ wordsPayload ws := rfl
    rw [hcons, bitAt_append, bitsLow_length]
    cases c with
    | zero =>
      rw [if_pos (by omega)]
      simp [bitAt, bitsLow, h, BitVec.getLsbD]
    | succ c =>
      rw [if_neg (by omega), show 16 * (c + 1) + i - 16 = 16 * c + i by omega, ih]
      rfl

theorem wordOf_wordsPayload (ws : List Word) (c : Nat) : wordOf (wordsPayload ws) c = ws.getD c 0 :=
  BitVec.eq_of_getLsbD_eq fun _ hi => by rw [wordOf_getLsbD _ _ hi, bitAt_wordsPayload _ hi]

/-- What a SERVICE frame carries: a word to one card, no operation to the others. -/
def State.servicePayload (s : State) (card : Nat) (word : Word) : List Bool :=
  wordsPayload ((List.range s.tables.cards.length).map fun i => if i = card then word else 0)

theorem servicePayload_carries (s : State) (card : Nat) (word : Word) :
    s.Carries (s.servicePayload card word) fun c => if c = card then word else 0 := by
  refine ⟨by simp [State.servicePayload, wordsPayload_length], fun c hc => ?_⟩
  rw [State.servicePayload, wordOf_wordsPayload, List.getD_eq_getElem _ _ (by simpa using hc)]
  simp

/-! ## Frames as bits (R34, R35) -/

theorem markerBits_eq (is5A : Bool) : markerBits is5A = if is5A = true then [false, true, false, true, true, false, true, false]
    else [true, false, true, false, false, true, false, true] := by cases is5A <;> decide

theorem accepts_iff (f : Frame) (cdi : List Bool) :
    f.accepts cdi = true ↔ cdi.length = f.payload.length + 8 ∧ cdi.drop f.payload.length = markerBits f.marker5A := by
  simp [Frame.accepts]

/-- The payload comes back most distant place first. -/
theorem returned_eq {f : Frame} {cdi : List Bool} (h : cdi.length = f.payload.length + 8) :
    (f.returned cdi).length = f.payload.length
      ∧ ∀ i < f.payload.length, bitAt (f.returned cdi) i = bitAt cdi (f.payload.length - 1 - i) := by
  have hlen : (cdi.take f.payload.length).length = f.payload.length := by rw [List.length_take]; omega
  refine ⟨by rw [Frame.returned, List.length_reverse, hlen], fun i hi => ?_⟩
  simp only [Frame.returned, bitAt, List.getD_eq_getElem?_getD]
  rw [List.getElem?_reverse (by omega), hlen, List.getElem?_take_of_lt (by omega)]

/-! ## Frames sent -/

/-- A state at the time of a choice, the scan streak and the session as the choice has them. -/
def State.choosing (s : State) (now streak : Nat) (session : Option Session) : State :=
  { s with clock := now, chain := { s.chain with streak := streak, session := session } }

/-- A select at the time of a choice (R29, R35). -/
theorem sent_choosing {s : State} {p : Purpose} {k : Nat} {q : Option Session}
    (hk : p ≠ .scan → p ≠ .command → p ≠ .fetch → k = s.chain.streak)
    (hq : (∀ k, p ≠ .test k ∧ p ≠ .reload k) → q = s.chain.session) (now : Nat) (payload : List Bool) :
    Sent s ((s.choosing now k q).selectFrame p payload) now p payload where
  chain := rfl
  streak := hk
  session := hq
  due := by unfold State.selectFrame; cases p <;> cases hs : s.scanDue <;> simp [State.choosing, Purpose.kind, hs]
  rest := rfl

theorem choosing_same (s : State) (now : Nat) : s.choosing now s.chain.streak s.chain.session = { s with clock := now } := rfl

/-- A select that leaves streak and session. -/
theorem sent_at (s : State) (now : Nat) (p : Purpose) (payload : List Bool) :
    Sent s (State.selectFrame p payload { s with clock := now }) now p payload := by
  rw [← choosing_same]
  exact sent_choosing (fun _ _ _ => rfl) (fun _ => rfl) now payload

/-! ## The choice (R47, R48, R50) -/

theorem exec_arbiterChoice {s : State} (hr : s.power.running = true) :
    exec .arbiterChoice s = .next (if s.chain.inFlight.isNone then s.choose else s) := by
  change Host.Outcome.next (s.whenRunning _) = _
  rw [whenRunning_of hr]

theorem exec_arbiterChoice_idle {s : State} (hr : s.power.running = true) (hf : s.chain.inFlight = none) :
    exec .arbiterChoice s = .next s.choose := by
  rw [exec_arbiterChoice hr, hf]; rfl

/-- The frame a head transaction needs (R50). -/
def Stage.purpose : Stage → Purpose
  | .command => .command
  | .fetch => .fetch

/-- R50: a service frame goes out with its card's word, or no operation at the fetch; the scan streak becomes 0. -/
theorem sendService_sent (s : State) (e : ServiceEntry) : ∃ payload : List Bool,
    Sent s (s.sendService e) (max s.clock s.chain.idleAt) e.stage.purpose payload ∧ (s.sendService e).chain.streak = 0
    ∧ s.Carries payload (fun c => if e.stage = .command ∧ c = e.card then e.command else 0)
    ∧ (s.sendService e).chain.session = s.chain.session := by
  cases hst : e.stage with
  | command =>
    have heq : s.sendService e = (s.choosing (max s.clock s.chain.idleAt) 0 s.chain.session).selectFrame .command
        (s.servicePayload e.card e.command) := by unfold State.sendService; rw [hst]; rfl
    rw [heq]
    refine ⟨_, sent_choosing (fun _ h => absurd rfl h) (fun _ => rfl) _ _, rfl, ?_, rfl⟩
    simpa using servicePayload_carries s e.card e.command
  | fetch =>
    have heq : s.sendService e = (s.choosing (max s.clock s.chain.idleAt) 0 s.chain.session).selectFrame .fetch
        (s.servicePayload e.card 0) := by unfold State.sendService; rw [hst]; rfl
    rw [heq]
    refine ⟨_, sent_choosing (fun _ _ h => absurd rfl h) (fun _ => rfl) _ _, rfl, ?_, rfl⟩
    simpa using servicePayload_carries s e.card 0

/-- R47: a scan goes; it raises the scan streak while a service frame waits. -/
theorem sendScan_sent (s : State) : Sent s s.sendScan (max s.clock s.chain.idleAt) .scan s.image.out
    ∧ s.sendScan.chain.streak = if s.chain.queue.isEmpty then s.chain.streak else min 8 (s.chain.streak + 1) :=
  ⟨sent_choosing (fun h => absurd rfl h) (fun _ => rfl) _ _, rfl⟩

/-- Settles O44, by the chain state and the arbiter's rules. -/
theorem arbiterChoice : Obligations.ArbiterChoice := by
  refine ⟨fun s now hr hnow => ⟨fun h => ?_, fun hf hst => ⟨fun he => ?_, fun he => ?_⟩, fun hf hst hn => ?_⟩, fun _ => rfl,
    fun f cdi marker hm => ?_⟩
  · rw [exec_arbiterChoice hr]
    rcases h with h | h
    · rw [if_neg (by simp [h])]
    · split
      · rw [State.choose, h]
      · rfl
  · rw [exec_arbiterChoice_idle hr hf, State.choose, hst]
    simp only [he, Bool.false_eq_true, if_false]
    refine ⟨_, s.servicePayload 0 0, rfl, by rw [hnow]; exact sent_at s _ _ _, ?_⟩
    simpa using servicePayload_carries s 0 0
  · rw [exec_arbiterChoice_idle hr hf, State.choose, hst]
    simp only [he, if_true]
    exact ⟨_, rfl, by rw [hnow]; exact sent_at s _ _ _⟩
  · rw [exec_arbiterChoice_idle hr hf, State.choose, hst]
    simp only [hn, State.ordinaryChoice]
    obtain ⟨hscan, hstreak⟩ := sendScan_sent s
    rw [← hnow] at hscan
    refine ⟨fun hd hq => by rw [hd, hq], fun hd hq => ?_, fun e es hq => ⟨fun hd hsf hlt => ?_, fun h => ?_⟩⟩
    · rw [hd, hq]
      exact ⟨_, rfl, hscan, by rw [hstreak, hq]; rfl⟩
    · rw [hd, hq]
      simp only
      have hslow : (s.tables.scan.serviceFirst || decide (Config.streakMax ≤ s.chain.streak)) = false := by
        rw [hsf, Bool.false_or, Config.streakMax]
        exact decide_eq_false (by omega)
      rw [if_neg (by rw [hslow]; exact Bool.false_ne_true)]
      refine ⟨_, rfl, hscan, ?_⟩
      rw [hq] at hstreak
      rw [hstreak, if_neg (by simp)]; omega
    · obtain ⟨payload, hsent, hstreak, hcarries, -⟩ := sendService_sent s e
      rw [← hnow] at hsent
      rw [hq]
      refine ⟨s.sendService e, payload, ?_, hstreak, ?_, hcarries⟩
      · cases hd : s.scanDue with
        | false => rfl
        | true =>
          refine congrArg _ (if_pos ?_)
          simp only [Config.streakMax, Bool.or_eq_true]
          exact (h.resolve_left (by simp [hd])).imp_right decide_eq_true
      · cases hst' : e.stage <;> (rw [hst'] at hsent; exact hsent)
  · have hmb : markerBits f.marker5A = marker := by rw [hm, markerBits_eq]
    exact ⟨by rw [Frame.cdo, hmb], rfl, rfl, by rw [accepts_iff, hmb], returned_eq⟩

/-! ## Proving frames (R164 to R166) -/

theorem positions_flatten (f : Nat → Nat → List Bool) (cards : List Nat) (hf : ∀ c w, (f c w).length = w) :
    ∀ {c w i k : Nat}, cards[c]? = some w → i < w →
      bitAt ((cards.mapIdx fun c w => f (c + k) w).flatten) ((cards.take c).sum + i) = bitAt (f (c + k) w) i := by
  induction cards with
  | nil => intro c w i k h; simp at h
  | cons v cards ih =>
    intro c w i k h hi
    have hstep : (cards.mapIdx fun c w => f (c + 1 + k) w) = cards.mapIdx fun c w => f (c + (k + 1)) w := by
      congr 1; funext c w; rw [show c + 1 + k = c + (k + 1) by omega]
    rw [List.mapIdx_cons, List.flatten_cons, bitAt_append, hf, hstep]
    cases c with
    | zero =>
      have hv : v = w := by simpa using h
      subst hv
      rw [if_pos (by simpa using hi)]
      simp
    | succ c =>
      rw [List.getElem?_cons_succ] at h
      rw [List.take_succ_cons, List.sum_cons, if_neg (by omega), show v + (cards.take c).sum + i - v = (cards.take c).sum + i by omega,
        ih h hi, show c + (k + 1) = c + 1 + k by omega]

theorem length_flatten_mapIdx (f : Nat → Nat → List Bool) (cards : List Nat) (hf : ∀ c w, (f c w).length = w) :
    ∀ k, ((cards.mapIdx fun c w => f (c + k) w).flatten).length = cards.sum := by
  induction cards with
  | nil => intro k; rfl
  | cons v cards ih =>
    intro k
    have hstep : (cards.mapIdx fun c w => f (c + 1 + k) w) = cards.mapIdx fun c w => f (c + (k + 1)) w := by
      congr 1; funext c w; rw [show c + 1 + k = c + (k + 1) by omega]
    rw [List.mapIdx_cons, List.flatten_cons, List.length_append, hf, hstep, ih, List.sum_cons]

theorem patternBits_length (w : Nat) (b : Byte) : (patternBits w b).length = w := by simp [patternBits]

/-- R165: the payload of a proving frame covers the chain, each card with the slot of its index. -/
theorem provingPayload_eq (s : State) (p : Session) (k : Nat) :
    (s.provingPayload p k).length = s.tables.length ∧ ∀ c w i, s.tables.cards[c]? = some w → i < w →
      bitAt (s.provingPayload p k) (s.tables.firstPos c + i) =
        (s.tables.patterns.slot (p.start + k + if p.staggered then c else 0)).getLsbD (7 - i % 8) := by
  have hf : ∀ c w, ((fun c w => patternBits w (p.patternOf s.tables.patterns c k)) c w).length = w := fun c w => patternBits_length ..
  refine ⟨length_flatten_mapIdx _ s.tables.cards hf 0, fun c w i hc hi => ?_⟩
  refine (positions_flatten _ s.tables.cards hf (k := 0) hc hi).trans ?_
  simp [patternBits, bitAt, Session.patternOf, hi]

theorem slot_mod (p : Patterns) (k : Nat) :
    [4 * k, 4 * k + 1, 4 * k + 2, 4 * k + 3].map p.slot = [p.p0, p.p1, p.p2, p.p3] := by
  simp only [List.map_cons, List.map_nil, Patterns.slot, Nat.mul_mod_right, show (4 * k + 1) % 4 = 1 by omega,
    show (4 * k + 2) % 4 = 2 by omega, show (4 * k + 3) % 4 = 3 by omega]

end Sys2Proof.Machine
end

