-- ==== Sys2Proof/Proofs/ProvingRuns.lean ====
section
/-! Proving runs (R164 to R172): how a session enters PROVING and what its frames are, O49; what an accepted test or reload frame
does, O50. -/

namespace Sys2Proof.Machine

/-! ## The INPUTS record at a cleared fresh flag (R65, R69) -/

/-- Where the fresh flag is clear afterwards, an IN position turns stale exactly where one was not stale. -/
theorem inputs_turned_cleared {s t : State} (ht : t.tables = s.tables) (hf : t.image.fresh = false) :
    ((s.inputsRecord.zip t.inputsRecord).any fun x => inputTurned x.1 x.2) = true ↔ s.InputsFresh := by
  have hstale : ∀ q, (t.inputAt q).2 = true := fun q => by simp [State.inputAt, hf]
  rw [inputs_turned]
  constructor
  · rintro ⟨n, hn, a, b, rfl, rfl, hab⟩
    rw [ht] at hab
    rcases hab with h | ⟨p, q, hp, -, hs, -⟩
    · exact absurd rfl h
    · exact ⟨n, hn, p, hp, hs⟩
  · rintro ⟨n, hn, p, hp, hs⟩
    exact ⟨n, hn, _, _, rfl, rfl, Or.inr ⟨p, p, hp, by rw [ht]; exact hp, hs, hstale p⟩⟩

theorem joinInputsIfStale_fresh {s t : State} (ht : t.tables = s.tables) (hf : t.image.fresh = false) (h : s.InputsFresh) :
    t.joinInputsIfStale s = t.joinNotice .inputs := if_pos ((inputs_turned_cleared ht hf).2 h)

theorem joinInputsIfStale_stale {s t : State} (ht : t.tables = s.tables) (hf : t.image.fresh = false) (h : ¬ s.InputsFresh) :
    t.joinInputsIfStale s = t := if_neg (mt (inputs_turned_cleared ht hf).1 h)

theorem joinInputsIfStale_same (s t : State) : State.SameButNotices t (t.joinInputsIfStale s) := by
  unfold State.joinInputsIfStale
  split
  · rw [State.joinNotice_eq]; rfl
  · rfl

/-! ## States that differ in the notice pending set (R185) -/

def State.withNotices (l : List Obj) (s : State) : State := { s with link := { s.link with notices := l } }

theorem withNotices_same (l : List Obj) (s : State) : State.SameButNotices s (s.withNotices l) := rfl

theorem joinNotice_withNotices (s : State) (o : Obj) : s.joinNotice o = s.withNotices (s.noticesWith o) := by
  rw [← joinNotice_with]
  exact State.joinNotice_eq s o

/-- R48, R53: the chain in another state. -/
def State.inChainState (st : ChainState) (s : State) : State :=
  { s with chain := { s.chain with st := st, streak := if s.chain.st = st then s.chain.streak else 0 } }

/-- R53: the chain enters a state and joins the notice pending set. -/
theorem setChainState_eq (st : ChainState) (s : State) :
    s.setChainState st = (s.inChainState st).withNotices (s.noticesWith .chain) := joinNotice_withNotices _ _

theorem setChainState_noticed (st : ChainState) (s : State) : (s.setChainState st).Noticed .chain := State.joinNotice_noticed _ _

/-! ## The choice of a waiting session (R164) -/

/-- The session as it stands at its first frame (R164). -/
def Session.entered (p : Session) (readback : Bool) (cards : Nat) : Session :=
  { p with frames := true, next := .test 0, readback := readback, sent := 0, tested := 0, rejected := 0, abort := false,
           cards := List.replicate cards CardProof.start }

theorem readbackNow_iff (s : State) : s.readbackNow = true ↔ s.chain.lastKind = some .scan ∨ s.chain.lastKind = some .service := by
  simp [State.readbackNow]

/-- R164: the chain in PROVING, the fresh flag cleared. -/
def State.provingEntered (p : Session) (s : State) : State :=
  { s with
    chain := { s.chain with st := .proving, streak := 0, session := some (p.entered s.readbackNow s.tables.cards.length) }
    image := { s.image with fresh := false } }

/-- R164: the fresh flag cleared. -/
def State.unfreshed (s : State) : State := { s with image := { s.image with fresh := false } }

theorem enterProving_steps (p : Session) (s : State) : s.enterProving p =
    ((s.unfreshed.joinInputsIfStale s).setChainState .proving).withSession
      (some (p.entered s.readbackNow s.tables.cards.length)) := rfl

/-- The entry into PROVING from what the INPUTS record makes of the cleared fresh flag. -/
theorem provingEntered_eq {s : State} (hst : s.chain.st = .running) (p : Session) (l : List Obj) :
    ((s.unfreshed.withNotices l).setChainState .proving).withSession (some (p.entered s.readbackNow s.tables.cards.length)) =
      (s.provingEntered p).withNotices ((s.withNotices l).noticesWith .chain) := by
  have hne : ¬ (s.unfreshed.withNotices l).chain.st = .proving := fun hc => absurd (hst.symm.trans hc) nofun
  rw [setChainState_eq, State.inChainState, if_neg hne]
  rfl

theorem enterProving_fresh {s : State} (hst : s.chain.st = .running) (p : Session) (h : s.InputsFresh) :
    s.enterProving p = (s.provingEntered p).withNotices ((s.joinNotice .inputs).noticesWith .chain) := by
  rw [enterProving_steps, joinInputsIfStale_fresh (s := s) (t := s.unfreshed) rfl rfl h, joinNotice_withNotices, provingEntered_eq hst,
    joinNotice_withNotices]
  rfl

theorem enterProving_stale {s : State} (hst : s.chain.st = .running) (p : Session) (h : ¬ s.InputsFresh) :
    s.enterProving p = (s.provingEntered p).withNotices (s.noticesWith .chain) := by
  rw [enterProving_steps, joinInputsIfStale_stale (s := s) (t := s.unfreshed) rfl rfl h]
  exact provingEntered_eq hst p s.link.notices

theorem enterProving_eq {s : State} (hst : s.chain.st = .running) (p : Session) :
    ∃ l, s.enterProving p = (s.provingEntered p).withNotices l := by
  by_cases h : s.InputsFresh
  · exact ⟨_, enterProving_fresh hst p h⟩
  · exact ⟨_, enterProving_stale hst p h⟩

theorem enterProving_noticed (s : State) (p : Session) : (s.enterProving p).Noticed .chain := setChainState_noticed _ _

/-- What a select that is not a proving frame's leaves of chain and link. -/
theorem Sent.keeps {s t : State} {at_ : Nat} {p : Purpose} {payload : List Bool} (h : Sent s t at_ p payload)
    (hp : ∀ k, p ≠ .test k ∧ p ≠ .reload k) :
    t.chain.st = s.chain.st ∧ t.chain.session = s.chain.session ∧ t.link = s.link := by
  refine ⟨?_, h.session hp, ?_⟩
  · rw [h.chain]
  · rw [h.rest]; rfl

theorem Stage.purpose_service (g : Stage) (k : Nat) : g.purpose ≠ .test k ∧ g.purpose ≠ .reload k := by cases g <;> exact ⟨nofun, nofun⟩

/-- An ordinary choice keeps chain state, session and link. -/
theorem ordinaryChoice_keeps (s : State) : s.ordinaryChoice.chain.st = s.chain.st
    ∧ s.ordinaryChoice.chain.session = s.chain.session ∧ s.ordinaryChoice.link = s.link := by
  have hscan := (sendScan_sent s).1.keeps fun _ => ⟨nofun, nofun⟩
  have hservice : ∀ e, (s.sendService e).chain.st = s.chain.st ∧ (s.sendService e).chain.session = s.chain.session
      ∧ (s.sendService e).link = s.link := fun e => by
    obtain ⟨payload, hsent, -⟩ := sendService_sent s e
    exact hsent.keeps (Stage.purpose_service e.stage)
  unfold State.ordinaryChoice
  split
  · exact hscan
  · split
    · exact hservice _
    · exact hscan
  · exact hservice _
  · exact ⟨rfl, rfl, rfl⟩

/-- R164: a session that waits while something else moves ends BUSY. -/
def State.sessionBusy (p : Session) (s : State) : State :=
  State.finish (State.sessionOver { s with clock := max s.clock s.chain.idleAt } p .running .busy [])

theorem sessionBusy_chain {s : State} (p : Session) : (s.sessionBusy p).chain = { s.chain with
    st := .running, session := none, streak := if s.chain.st = .running then s.chain.streak else 0 } :=
  (Ripple.finish _).chain

theorem sessionBusy_replies {s : State} (p : Session) :
    (s.sessionBusy p).link.replies = s.link.replies ++ [⟨0x32, p.tag, .busy, []⟩] := by
  rw [State.sessionBusy, (Ripple.finish _).replies]
  rfl

theorem sessionBusy_power {s : State} (p : Session) : (s.sessionBusy p).power = s.power := (Ripple.finish _).power

/-- The choice of a running chain with a session that has no head transaction to wait for. -/
theorem choose_session {s : State} {p : Session} (hst : s.chain.st = .running) (hq : s.chain.session = some p) (hw : p.waitHead = false) :
    s.choose = if s.runBlocked then (s.sessionBusy p).ordinaryChoice else s.atIdle.enterProving p := by
  rw [State.choose, hst, hq]
  simp only [State.waitingChoice, hw, Bool.false_eq_true, if_false]
  have hover : s.atIdle.endWaiting p .busy = State.sessionOver { s with clock := max s.clock s.chain.idleAt } p .running .busy [] := by
    rw [endWaiting_eq, show s.atIdle.chain.st = .running from hst]; rfl
  rw [hover]; rfl

/-- Settles O49, by the chain state, the wait for the head transaction and what is in the way of the run. -/
theorem provingFramesSent : Obligations.ProvingFramesSent := by
  intro s p now hr hq hf hnow
  refine ⟨fun hst hw hb => ?_, fun hst hw hb => ?_, fun e es hst hw hes => ?_, fun hst => ⟨fun k hk => ?_, fun k n hk => ?_, ?_⟩,
    fun k => slot_mod s.tables.patterns k, runBlocked_iff s⟩
  · have hex : exec .arbiterChoice s = .next (s.atIdle.enterProving p) := by
      rw [exec_arbiterChoice_idle hr hf, choose_session hst hq hw, if_neg (by rw [hb]; exact Bool.false_ne_true)]
    obtain ⟨l, hl⟩ := enterProving_eq (s := s.atIdle) hst p
    have hnoticed := enterProving_noticed s.atIdle p
    have hfresh := enterProving_fresh (s := s.atIdle) hst p
    have hstale := enterProving_stale (s := s.atIdle) hst p
    generalize s.atIdle.enterProving p = t at hex hl hnoticed hfresh hstale
    refine ⟨t, p.entered s.readbackNow s.tables.cards.length, hex, by rw [hl]; rfl, rfl, rfl, rfl, rfl, rfl,
      List.length_replicate, readbackNow_iff s, by rw [hl]; rfl, rfl, by rw [hl]; rfl, ?_, hnoticed, fun h => ?_, fun h => ?_⟩
    · rw [hl, hnow]; rfl
    · rw [hfresh h, joinNotice_withNotices, joinNotice_withNotices]; rfl
    · rw [hstale h]; rfl
  · have hex : ∀ u : State, u.power.running = true → u.chain.inFlight = none → u.chain.st = .running → u.chain.session = none →
        exec .arbiterChoice u = .next u.ordinaryChoice := fun u h1 h2 h3 h4 => by
      rw [exec_arbiterChoice_idle h1 h2, State.choose, h3, h4]
    have hc := sessionBusy_chain (s := s) p
    have hrep := sessionBusy_replies (s := s) p
    obtain ⟨hkst, hkq, hkl⟩ := ordinaryChoice_keeps (s.sessionBusy p)
    refine ⟨(s.sessionBusy p).ordinaryChoice, s.sessionBusy p, ?_, by rw [hkst, hc], by rw [hkq, hc], by rw [hkl, hrep],
      by rw [State.sessionBusy, hnow], by rw [hc], ?_⟩
    · rw [exec_arbiterChoice_idle hr hf, choose_session hst hq hw, if_pos hb]
    · exact hex _ (by rw [sessionBusy_power]; exact hr) (by rw [hc]; exact hf) (by rw [hc]) (by rw [hc])
  · obtain ⟨payload, hsent, hstreak, hcarries, -⟩ := sendService_sent s e
    rw [← hnow] at hsent
    refine ⟨s.sendService e, payload, ?_, hstreak, ?_, hcarries, ?_⟩
    · rw [exec_arbiterChoice_idle hr hf, State.choose, hst, hq]
      simp only [State.waitingChoice, hw, if_true, hes]
    · cases hst' : e.stage <;> (rw [hst'] at hsent; exact hsent)
    · rw [hsent.session (Stage.purpose_service e.stage), hq]
  · refine ⟨s.atIdle.sendProving p, ?_, ?_, ?_⟩
    · rw [exec_arbiterChoice_idle hr hf, State.choose, hst, hq]
    · rw [State.sendProving, hk, hnow]
      exact sent_choosing (fun _ _ _ => rfl) (fun h => absurd rfl (h k).1) _ _
    · rw [State.sendProving, hk]; rfl
  · refine ⟨s.atIdle.sendProving p, ?_, ?_, ?_⟩
    · rw [exec_arbiterChoice_idle hr hf, State.choose, hst, hq]
    · rw [State.sendProving, hk, hnow]
      exact sent_choosing (fun _ _ _ => rfl) (fun h => absurd rfl (h k).2) _ _
    · rw [State.sendProving, hk]; rfl
  · exact provingPayload_eq s p

end Sys2Proof.Machine
end

