-- ==== Sys2Proof/Proofs/FrameEnds.lean ====
section
/-! Ends of frames: proving frames accepted (R166 to R172), O50; rejected frames (R35, R44, R51, R84, R166), O51; service
transactions (R49, R50), O46. -/

namespace Sys2Proof.Machine

/-! ## The end of a run (R170, R171) -/

/-- What the end of a run leaves, its consequences included. -/
theorem State.RunOver.leaves {s t : State} {p : Session} {st : Status} (h : s.RunOver t p st) :
    t.chain = { s.chain with st := .running, session := none, streak := if s.chain.st = .running then s.chain.streak else 0 }
    ∧ t.tables = s.tables ∧ t.zones = s.zones ∧ t.flow = s.flow ∧ t.scanDue = true ∧ t.Noticed .chain
    ∧ t.link.replies = s.link.replies ++ [⟨0x32, p.tag, st, p.results⟩] := by
  obtain ⟨u, hfin, hu, hn⟩ := h
  have hs : Settles u t := hfin ▸ Settles.finish u
  have hchain : u.chain = { s.chain with st := .running, session := none, streak := if s.chain.st = .running then s.chain.streak else 0 } :=
    (congrArg State.chain hu :)
  have htables : u.tables = s.tables := (congrArg State.tables hu :)
  have hzones : u.zones = s.zones := (congrArg State.zones hu :)
  have hflow : u.flow = s.flow := (congrArg State.flow hu :)
  have hdue : u.scanDue = true := (congrArg State.scanDue hu :)
  have hreplies : u.link.replies = s.link.replies ++ [⟨0x32, p.tag, st, p.results⟩] := (congrArg (·.link.replies) hu :)
  have hnoticed : u.Noticed .chain := fun hm => by
    rw [hn, State.noticesWith]
    split
    · simp
    · next hc => rw [htables] at hm; exact Classical.byContradiction fun hx => hc ⟨hm, hx⟩
  have hmask : t.tables.mask = u.tables.mask := congrArg TableStore.mask hs.tables
  clear hu hfin
  exact ⟨hs.chain.trans hchain, hs.tables.trans htables, hs.zones.trans hzones, hs.flow.trans hflow, hs.due hdue,
    hnoticed.mono hmask hs.joins, hs.replies.trans hreplies⟩

/-! ## Accepted proving frames -/

theorem acceptedEnd_congr {t v : State} (s : State) (f : Frame) (hr : t.ring = v.ring) (hf : t.freeCount = v.freeCount) :
    s.acceptedEnd f t = s.acceptedEnd f v := by
  rw [State.acceptedEnd, State.acceptedEnd, State.frameOver, State.frameOver, hr, hf]

theorem rejectedEnd_congr {t v : State} (s : State) (f : Frame) (hr : t.ring = v.ring) (hf : t.freeCount = v.freeCount) :
    s.rejectedEnd f t = s.rejectedEnd f v := by
  rw [State.rejectedEnd, State.rejectedEnd, State.frameOver, State.frameOver, hr, hf]

/-- The session after test frame `k` (R166 to R168). -/
def State.tested (s : State) (p : Session) (k : Nat) (ret : List Bool) : Session :=
  { p with cards := s.compareTest p k ret, tested := p.tested + 1, next := .test (k + 1) }

theorem exec_testFrameAccepted {s : State} {f : Frame} {cdi : List Bool} {p : Session} {k : Nat} (h : s.Returns (.test k) f cdi true)
    (hq : s.chain.session = some p) : ∃ v : State, v = s.acceptedEnd f v ∧ exec (.testFrameAccepted cdi) s = .next
      (if k + 1 = p.count && !p.abort then v.endRun (s.tested p k (f.returned cdi)) (takenStatus p.adjusted)
        else v.continueRun (s.tested p k (f.returned cdi))) := by
  obtain ⟨v, hv, hend⟩ := atFrameEnd_accepted h (allows := fun p => match p with | .test _ => true | _ => false) rfl _
  refine ⟨v, hend, (congrArg Host.Outcome.next hv).trans ?_⟩
  obtain ⟨⟨-, -, hp, -⟩, -⟩ := h
  have hs : v.chain.session = some p := by rw [hend]; exact hq
  have hc : v.compareTest p k (f.returned cdi) = s.compareTest p k (f.returned cdi) := by rw [hend]; rfl
  rw [hp, hs]
  simp only [State.testAccepted, State.tested, hc]

theorem exec_reloadFrameAccepted {s : State} {f : Frame} {cdi : List Bool} {p : Session} {k : Nat}
    (h : s.Returns (.reload k) f cdi true) (hq : s.chain.session = some p) :
    ∃ v : State, v = s.acceptedEnd f v ∧ exec (.reloadFrameAccepted cdi) s = .next (v.reloadAccepted p) := by
  obtain ⟨v, hv, hend⟩ := atFrameEnd_accepted h (allows := fun p => match p with | .reload _ => true | _ => false) rfl _
  refine ⟨v, hend, (congrArg Host.Outcome.next hv).trans ?_⟩
  have hs : v.chain.session = some p := by rw [hend]; exact hq
  rw [hs]

theorem continueRun_on {p : Session} (ha : p.abort = false) (hs : p.sent < 16) (s : State) : s.continueRun p = s.withSession (some p) :=
  if_neg (by rw [ha, Bool.false_or, decide_eq_false (by simpa [Config.provingFrameMax] using hs)]; exact Bool.false_ne_true)

theorem continueRun_over {p : Session} (h : p.abort = true ∨ 16 ≤ p.sent) (s : State) : s.continueRun p = s.endRun p .aborted :=
  if_pos (by rw [Bool.or_eq_true]; exact h.imp_right decide_eq_true)

/-- R166: a reload frame that was taken is followed by the test frame it was sent for. -/
theorem reloadAccepted_eq {p : Session} {k n : Nat} (h : p.next = .reload k n) (s : State) :
    s.reloadAccepted p = s.continueRun { p with next := .test n } := by
  rw [State.reloadAccepted, h]

/-- R171: a reload frame that was the last the session may send. -/
theorem reloadAccepted_over {p : Session} (h : p.abort = true ∨ 16 ≤ p.sent) (s : State) :
    ∃ q : Session, s.reloadAccepted p = s.endRun q .aborted ∧ q.tag = p.tag ∧ q.results = p.results := by
  cases hn : p.next with
  | test k => exact ⟨p, by rw [State.reloadAccepted, hn]; exact continueRun_over h s, rfl, rfl⟩
  | reload k n => exact ⟨{ p with next := .test n }, by rw [reloadAccepted_eq hn]; exact continueRun_over (p := { p with next := .test n }) h s, rfl, rfl⟩

/-- The state at the end of a frame, read off any state with its cards. -/
theorem endRun_acceptedEnd {s v : State} {f : Frame} (hv : v = s.acceptedEnd f v) (p : Session) (st : Status) :
    s.acceptedEnd f (v.endRun p st) = v := by
  obtain ⟨hring, hcount⟩ := endRun_ring p st v
  exact (acceptedEnd_congr s f hring hcount).trans hv.symm

/-- An accepted frame whose session ends with it. -/
theorem acceptedRun_ends {s v : State} {f : Frame} (hv : v = s.acceptedEnd f v) {p q : Session} {st : Status}
    (hq : q.tag = p.tag) (hr : q.results = p.results) :
    ∃ t : State, v.endRun q st = t ∧ t.chain.st = .running ∧ t.chain.session = none ∧ t.scanDue = true ∧ t.chain.rejects = 0
      ∧ t.tables = s.tables ∧ t.zones = s.zones ∧ t.flow = s.flow
      ∧ t.link.replies = s.link.replies ++ [⟨0x32, p.tag, st, p.results⟩] ∧ t.Noticed .chain ∧ (s.acceptedEnd f t).RunOver t p st := by
  have hover := (endRun_over q st v).congr (q := p) hq.symm hr.symm
  have hend := endRun_acceptedEnd hv q st
  generalize v.endRun q st = t at hover hend
  obtain ⟨hchain, htables, hzones, hflow, hdue, hnoticed, hreplies⟩ := hover.leaves
  have htables' : v.tables = s.tables := by rw [hv]; rfl
  have hzones' : v.zones = s.zones := by rw [hv]; rfl
  have hflow' : v.flow = s.flow := by rw [hv]; rfl
  have hrejects : v.chain.rejects = 0 := by rw [hv]; rfl
  have hreplies' : v.link.replies = s.link.replies := by rw [hv]; rfl
  refine ⟨t, rfl, by rw [hchain], by rw [hchain], hdue, by rw [hchain]; exact hrejects, htables.trans htables', hzones.trans hzones',
    hflow.trans hflow', by rw [hreplies, hreplies'], hnoticed, by rw [hend]; exact hover⟩

/-! ## The comparison (R167, R168) -/

theorem compareTest_lost {p : Session} (h : p.readback = false) (s : State) (ret : List Bool) : s.compareTest p 0 ret = p.cards := by
  rw [State.compareTest, if_pos rfl, h, if_neg Bool.false_ne_true]

theorem compareTest_readback {p : Session} (h : p.readback = true) (s : State) (ret : List Bool) :
    s.compareTest p 0 ret = p.cards.mapIdx (s.readbackOf ret) := by
  rw [State.compareTest, if_pos rfl, h, if_pos rfl]

theorem compareTest_echo {k : Nat} (h : 0 < k) (p : Session) (s : State) (ret : List Bool) :
    s.compareTest p k ret = p.cards.mapIdx (s.echoCheckOf (s.provingPayload p (k - 1)) ret k) := by
  rw [State.compareTest, if_neg (by omega)]

theorem compareTest_length (p : Session) (k : Nat) (s : State) (ret : List Bool) : (s.compareTest p k ret).length = p.cards.length := by
  unfold State.compareTest
  split
  · split
    · rw [List.length_mapIdx]
    · rfl
  · rw [List.length_mapIdx]

/-- The first failing frame: the one kept, or the frame that has places that differ. -/
theorem firstFail_eq {α : Type} (wrong : List α) (first : Option Nat) (k : Nat) :
    (if wrong.isEmpty then first else first.or (some k)) = if wrong.length = 0 then first else some (first.getD k) := by
  cases wrong with
  | nil => rfl
  | cons a l => cases first <;> rfl

/-- R172: the two counts of the readback, absent without it. -/
theorem cardBytes_eq (readback : Bool) (c : Nat) (r : CardProof) : CardProof.bytes readback c r =
    u8 c ++ u8 (if r.mismatched = 0 ∧ r.latchMismatch = 0 then 0 else 1) ++ u16 r.mismatched ++ opt 1 u8 r.firstFail
      ++ (if readback then [1] ++ u8 r.latchMismatch ++ [1] ++ u8 r.pendingCount else [0, 0, 0, 0]) := by
  cases readback <;> simp [CardProof.bytes, CardProof.resultCode, opt, u8]

theorem u8_flag (b : Bool) : u8 (if b then 1 else 0) = flag b := by cases b <;> rfl

/-- Settles O50, by what follows the frame and by the index of a test frame. -/
theorem provingFramesAccepted : Obligations.ProvingFramesAccepted := by
  refine ⟨fun s f cdi p q k hs hq => ?_, fun s p k c ret r places outs hr hplaces houts => ⟨compareTest_length .., ?_⟩, fun p => ?_⟩
  · have hq' : s.tested p k (f.returned cdi) = q := hq.symm
    have htag : q.tag = p.tag := by rw [hq]
    have habort : q.abort = p.abort := by rw [hq]
    have hsent : q.sent = p.sent := by rw [hq]
    have hstatus : takenStatus p.adjusted = if p.adjusted then .adjusted else .ok := rfl
    refine ⟨fun h hk ha hn => ?_, fun h hk ha => ?_, fun h hover => ?_, fun n h hnext ha hn => ?_, fun h hover => ?_⟩
    · obtain ⟨v, hv, hex⟩ := exec_testFrameAccepted h hs
      rw [hq', if_neg (by simp [hk]), continueRun_on (habort.trans ha) (by rw [hsent]; exact hn)] at hex
      exact ⟨_, v, hex, hv, rfl⟩
    · obtain ⟨v, hv, hex⟩ := exec_testFrameAccepted h hs
      rw [hq', if_pos (by simp [hk, ha]), hstatus] at hex
      obtain ⟨t, ht, h1, h2, h3, h4, h5, h6, h7, h8, h9, h10⟩ := acceptedRun_ends hv (p := q) rfl rfl
      rw [ht] at hex
      exact ⟨t, hex, h1, h2, h3, h4, h5, h6, h7, by rw [← htag]; exact h8, h9, h10⟩
    · obtain ⟨v, hv, hex⟩ := exec_testFrameAccepted h hs
      have hlast : (k + 1 = p.count && !p.abort) = false := by
        rcases hover with ha | ⟨hk, -⟩
        · simp [ha]
        · simp [hk]
      rw [hq', hlast, if_neg Bool.false_ne_true,
        continueRun_over (hover.imp (habort.trans ·) fun h => by rw [hsent]; exact h.2)] at hex
      obtain ⟨t, ht, h1, h2, h3, -, -, -, -, h8, h9, h10⟩ := acceptedRun_ends hv (p := q) rfl rfl
      rw [ht] at hex
      exact ⟨t, hex, h1, h2, h3, by rw [← htag]; exact h8, h9, h10⟩
    · obtain ⟨v, hv, hex⟩ := exec_reloadFrameAccepted h hs
      rw [reloadAccepted_eq hnext, continueRun_on (p := { p with next := .test n }) ha hn] at hex
      exact ⟨_, v, hex, hv, rfl⟩
    · obtain ⟨v, hv, hex⟩ := exec_reloadFrameAccepted h hs
      obtain ⟨p', hp', htag', hres⟩ := reloadAccepted_over hover v
      obtain ⟨t, ht, h1, h2, h3, -, -, -, -, h8, h9, h10⟩ := acceptedRun_ends hv htag' hres
      rw [hp', ht] at hex
      exact ⟨t, hex, h1, h2, h3, h8, h9, h10⟩
  · have hout : (s.tables.positionsOf c).filter (fun x => s.tables.isOutputPos x) = outs := by rw [houts, hplaces]; rfl
    have hpos : s.tables.positionsOf c = places := hplaces.symm
    rcases Nat.eq_zero_or_pos k with rfl | hk
    · cases hrb : p.readback with
      | false => exact ⟨r, by rw [compareTest_lost hrb, hr], fun _ _ => rfl, nofun, fun _ h => absurd h (Nat.lt_irrefl _)⟩
      | true =>
        refine ⟨s.readbackOf ret c r, by rw [compareTest_readback hrb, List.getElem?_mapIdx, hr]; rfl, nofun,
          fun _ _ => ?_, fun _ h => absurd h (Nat.lt_irrefl _)⟩
        unfold State.readbackOf
        rw [hout]
        exact ⟨rfl, rfl, rfl, firstFail_eq ..⟩
    · refine ⟨s.echoCheckOf (s.provingPayload p (k - 1)) ret k c r, by rw [compareTest_echo hk, List.getElem?_mapIdx, hr]; rfl,
        fun h => by omega, fun h => by omega, fun wrong _ hw => ?_⟩
      unfold State.echoCheckOf
      rw [hpos, hw]
      exact ⟨rfl, rfl, rfl, firstFail_eq ..⟩
  · have hbytes : CardProof.bytes p.readback = fun c r => u8 c ++ u8 (if r.mismatched = 0 ∧ r.latchMismatch = 0 then 0 else 1)
        ++ u16 r.mismatched ++ opt 1 u8 r.firstFail
        ++ (if p.readback then [1] ++ u8 r.latchMismatch ++ [1] ++ u8 r.pendingCount else [0, 0, 0, 0]) :=
      funext fun c => funext fun r => cardBytes_eq p.readback c r
    rw [Session.results, hbytes, u8_flag]

/-! ## Rejected frames (R35, R44) -/

/-- R166, R171: a session goes on after a rejected frame of its own. -/
def State.provingRejected (s : State) : State :=
  match s.chain.session with
  | some p => s.continueRun p.afterRejected
  | none => s

/-- What follows a rejected frame that does not break the chain. -/
def State.rejectionFollows (s : State) : Purpose → State
  | .scan | .probeScan => s.trigger
  | .probeEcho => s
  | .command | .fetch => s.setHeadStage .command
  | .adoptService | .adoptEcho => s.withChain { s.chain with echoNext := false }
  | .test _ | .reload _ => s.provingRejected

/-- The probes, whose rejections leave the chain BROKEN (R45). -/
def Purpose.isProbe : Purpose → Bool
  | .probeScan | .probeEcho => true
  | _ => false

/-- What a rejected frame leaves before R44 is asked: a rejected scan is owed (R84). -/
def State.owing (s : State) : Purpose → State
  | .scan => s.trigger
  | _ => s

/-- The end of a rejected frame that may be the third in a row (R44). -/
theorem rejected_asks {s : State} {f : Frame} {cdi : List Bool} {p : Purpose} (h : s.Returns p f cdi false) (hp : p.isProbe = false)
    {next : State → State} (hn : ∀ v : State, next (v.owing p) = v.rejectionFollows p) {allows : Purpose → Bool}
    (ha : allows p = true) : ∃ v : State, v = s.rejectedEnd f v ∧
      (s.atFrameEnd allows false cdi fun _ _ s => (s.owing p).afterReject next) =
        if v.chain.rejects = 3 && v.chain.st != .broken && !p.isProbe then (v.owing p).enterBroken else v.rejectionFollows p := by
  obtain ⟨v, hv, he⟩ := atFrameEnd_rejected h ha fun _ _ s => (s.owing p).afterReject next
  have hchain : (v.owing p).chain = v.chain := by cases p <;> rfl
  refine ⟨v, he, hv.trans ?_⟩
  rw [State.afterReject, hn, hchain, hp, Bool.not_false, Bool.and_true]

/-- The end of a rejected frame: what follows it, or BROKEN at the third in a row (R44). -/
theorem exec_rejection {s : State} {f : Frame} {cdi : List Bool} {p : Purpose} (h : s.Returns p f cdi false) :
    ∃ v : State, v = s.rejectedEnd f v ∧ exec (rejectionOf cdi p) s = .next
      (if v.chain.rejects = 3 && v.chain.st != .broken && !p.isProbe then (v.owing p).enterBroken else v.rejectionFollows p) := by
  have hprobe : p.isProbe = true → ∀ v : State, (if v.chain.rejects = 3 && v.chain.st != .broken && !p.isProbe
      then (v.owing p).enterBroken else v.rejectionFollows p) = v.rejectionFollows p := fun hp v => by simp [hp]
  have hpurpose : f.purpose = p := by obtain ⟨⟨-, -, hp, -⟩, -⟩ := h; exact hp
  cases p with
  | scan =>
    obtain ⟨v, he, hv⟩ := rejected_asks h rfl (next := id) (fun _ => rfl) (allows := fun p => p == .scan) rfl
    exact ⟨v, he, congrArg _ hv⟩
  | command =>
    obtain ⟨v, he, hv⟩ := rejected_asks h rfl (next := State.setHeadStage .command) (fun _ => rfl) (allows := fun p => p == .command || p == .fetch) rfl
    exact ⟨v, he, congrArg _ hv⟩
  | fetch =>
    obtain ⟨v, he, hv⟩ := rejected_asks h rfl (next := State.setHeadStage .command) (fun _ => rfl) (allows := fun p => p == .command || p == .fetch) rfl
    exact ⟨v, he, congrArg _ hv⟩
  | adoptService =>
    obtain ⟨v, he, hv⟩ := rejected_asks h rfl (next := fun s => s.withChain { s.chain with echoNext := false }) (fun _ => rfl) (allows := fun p => p == .adoptService || p == .adoptEcho) rfl
    exact ⟨v, he, congrArg _ hv⟩
  | adoptEcho =>
    obtain ⟨v, he, hv⟩ := rejected_asks h rfl (next := fun s => s.withChain { s.chain with echoNext := false }) (fun _ => rfl) (allows := fun p => p == .adoptService || p == .adoptEcho) rfl
    exact ⟨v, he, congrArg _ hv⟩
  | test k =>
    obtain ⟨v, he, hv⟩ := rejected_asks h rfl (next := State.provingRejected) (fun _ => rfl)
      (allows := fun p => match p with | .test _ | .reload _ => true | _ => false) rfl
    exact ⟨v, he, congrArg _ hv⟩
  | reload k =>
    obtain ⟨v, he, hv⟩ := rejected_asks h rfl (next := State.provingRejected) (fun _ => rfl)
      (allows := fun p => match p with | .test _ | .reload _ => true | _ => false) rfl
    exact ⟨v, he, congrArg _ hv⟩
  | probeScan =>
    obtain ⟨v, hv, he⟩ := atFrameEnd_rejected h (allows := fun p => p == .probeScan || p == .probeEcho) rfl fun f _ s =>
      if f.purpose = .probeScan then s.trigger else s
    refine ⟨v, he, congrArg _ (hv.trans ?_)⟩
    rw [hprobe rfl, if_pos hpurpose]
    rfl
  | probeEcho =>
    obtain ⟨v, hv, he⟩ := atFrameEnd_rejected h (allows := fun p => p == .probeScan || p == .probeEcho) rfl fun f _ s =>
      if f.purpose = .probeScan then s.trigger else s
    refine ⟨v, he, congrArg _ (hv.trans ?_)⟩
    rw [hprobe rfl, if_neg (by rw [hpurpose]; nofun)]
    rfl

theorem rejectedEnd_rejects (s : State) (f : Frame) (t : State) : (s.rejectedEnd f t).chain.rejects = min 3 (s.chain.rejects + 1) := rfl

/-- A rejection that is not the third in a row, or that is a probe's. -/
theorem exec_rejection_counted {s : State} {f : Frame} {cdi : List Bool} {p : Purpose} (h : s.Returns p f cdi false)
    (hc : s.chain.rejects < 2 ∨ p.isProbe = true) :
    ∃ v : State, v = s.rejectedEnd f v ∧ exec (rejectionOf cdi p) s = .next (v.rejectionFollows p) := by
  obtain ⟨v, hv, hex⟩ := exec_rejection h
  refine ⟨v, hv, hex.trans (congrArg _ (if_neg fun hthird => ?_))⟩
  simp only [Bool.and_eq_true, decide_eq_true_iff, Bool.not_eq_true'] at hthird
  obtain ⟨⟨hthree, -⟩, hprobe⟩ := hthird
  rcases hc with hlow | hp
  · rw [hv, rejectedEnd_rejects] at hthree
    omega
  · rw [hp] at hprobe; cases hprobe

theorem provingRejected_eq {s : State} {p : Session} (h : s.chain.session = some p) : s.provingRejected = s.continueRun p.afterRejected := by
  rw [State.provingRejected, h]

theorem continueRun_ring (p : Session) (s : State) :
    (s.continueRun p).ring = s.ring ∧ (s.continueRun p).freeCount = s.freeCount := by
  unfold State.continueRun
  split
  · exact endRun_ring ..
  · exact ⟨rfl, rfl⟩

theorem setHeadStage_cons {s : State} {e : ServiceEntry} {es : List ServiceEntry} (h : s.chain.queue = e :: es) (g : Stage) :
    s.setHeadStage g = { s with chain := { s.chain with queue := { e with stage := g } :: es } } := by
  rw [State.setHeadStage, h]
  rfl

theorem setHeadStage_nil {s : State} (h : s.chain.queue = []) (g : Stage) : s.setHeadStage g = s := by
  rw [State.setHeadStage, h]

/-- What follows a rejected frame leaves the cards. -/
theorem rejectionFollows_ring (s : State) (p : Purpose) :
    (s.rejectionFollows p).ring = s.ring ∧ (s.rejectionFollows p).freeCount = s.freeCount := by
  have hstage : (s.setHeadStage .command).ring = s.ring ∧ (s.setHeadStage .command).freeCount = s.freeCount := by
    cases hq : s.chain.queue with
    | nil => rw [setHeadStage_nil hq]; exact ⟨rfl, rfl⟩
    | cons e es => rw [setHeadStage_cons hq]; exact ⟨rfl, rfl⟩
  have hproving : s.provingRejected.ring = s.ring ∧ s.provingRejected.freeCount = s.freeCount := by
    unfold State.provingRejected
    split
    · exact continueRun_ring ..
    · exact ⟨rfl, rfl⟩
  cases p with
  | scan | probeScan | probeEcho | adoptService | adoptEcho => exact ⟨rfl, rfl⟩
  | command | fetch => exact hstage
  | test k | reload k => exact hproving

/-- A rejected frame whose session ends with it (R171). -/
theorem rejectedRun_ends {s v : State} {f : Frame} (hv : v = s.rejectedEnd f v) (hlow : s.chain.rejects < 2) {p q : Session} {st : Status}
    (hq : q.tag = p.tag) (hr : q.results = p.results) :
    ∃ t : State, v.endRun q st = t ∧ t.chain.st = .running ∧ t.chain.session = none ∧ t.scanDue = true
      ∧ t.chain.rejects = s.chain.rejects + 1 ∧ t.chain.rejectTotal = s.chain.rejectTotal + 1
      ∧ t.tables = s.tables ∧ t.zones = s.zones ∧ t.flow = s.flow
      ∧ t.link.replies = s.link.replies ++ [⟨0x32, p.tag, st, p.results⟩] ∧ t.Noticed .chain ∧ (s.rejectedEnd f t).RunOver t p st := by
  have hover := (endRun_over q st v).congr (q := p) hq.symm hr.symm
  obtain ⟨hring, hcount⟩ := endRun_ring q st v
  have hend : s.rejectedEnd f (v.endRun q st) = v := (rejectedEnd_congr s f hring hcount).trans hv.symm
  generalize v.endRun q st = t at hover hend
  obtain ⟨hchain, htables, hzones, hflow, hdue, hnoticed, hreplies⟩ := hover.leaves
  have htables' : v.tables = s.tables := by rw [hv]; rfl
  have hzones' : v.zones = s.zones := by rw [hv]; rfl
  have hflow' : v.flow = s.flow := by rw [hv]; rfl
  have hrejects : v.chain.rejects = s.chain.rejects + 1 := by rw [hv, rejectedEnd_rejects]; omega
  have htotal : v.chain.rejectTotal = s.chain.rejectTotal + 1 := by rw [hv]; rfl
  have hreplies' : v.link.replies = s.link.replies := by rw [hv]; rfl
  refine ⟨t, rfl, by rw [hchain], by rw [hchain], hdue, by rw [hchain]; exact hrejects, by rw [hchain]; exact htotal,
    htables.trans htables', hzones.trans hzones', hflow.trans hflow', by rw [hreplies, hreplies'], hnoticed, by rw [hend]; exact hover⟩

/-- R39: a frame overtaken by a card table change. -/
theorem exec_frameEndUnchecked {s : State} {f : Frame} (hr : s.power.running = true) (hf : s.chain.inFlight = some f)
    (hu : f.unchecked = true) : exec .frameEndUnchecked s = .next
      (if f.purpose.kind = .scan then ((s.endFrame f).ringDisturbed f.purpose.kind).trigger
        else (s.endFrame f).ringDisturbed f.purpose.kind) := by
  change Host.Outcome.next (s.whenRunning _) = _
  rw [whenRunning_of hr, hf]
  exact congrArg _ (if_pos hu)

/-- Settles O51, by what follows the rejected frame. -/
theorem rejectedFramesCounted : Obligations.RejectedFramesCounted := by
  refine ⟨fun s f cdi h hc => ?_, fun s f hr hf hu => ?_⟩
  · have hlow : f.purpose.isProbe = false → s.chain.rejects < 2 := fun hp => hc.resolve_right fun ⟨_, hb⟩ => by
      rcases hb with hb | hb <;> (rw [hb] at hp; cases hp)
    have hcounted : s.chain.rejects < 2 ∨ f.purpose.isProbe = true := by
      cases hp : f.purpose.isProbe with
      | false => exact Or.inl (hlow hp)
      | true => exact Or.inr rfl
    obtain ⟨v, hv, hex⟩ := exec_rejection_counted h hcounted
    obtain ⟨hring, hcount⟩ := rejectionFollows_ring v f.purpose
    have hend : s.rejectedEnd f (v.rejectionFollows f.purpose) = v := (rejectedEnd_congr s f hring hcount).trans hv.symm
    have hsession : ∀ {p}, s.chain.session = some p → v.chain.session = some p := fun hs => by rw [hv]; exact hs
    have hproving : ∀ {p k}, f.purpose = .test k ∨ f.purpose = .reload k → s.chain.session = some p →
        v.rejectionFollows f.purpose = v.continueRun p.afterRejected ∧ s.chain.rejects < 2 := fun hk hs => by
      rcases hk with hk | hk
      · exact ⟨by rw [hk]; exact provingRejected_eq (hsession hs), hlow (by rw [hk]; rfl)⟩
      · exact ⟨by rw [hk]; exact provingRejected_eq (hsession hs), hlow (by rw [hk]; rfl)⟩
    refine ⟨v.rejectionFollows f.purpose, v, hex, hend.symm, fun hp => ?_, fun hp => by rw [hp]; rfl, fun e es hp hq => ?_, fun hp => ?_,
      fun p k hk hs ha hn => ?_, fun p k hk hs hover => ?_⟩
    · rcases hp with hp | hp <;> rw [hp] <;> rfl
    · have hqv : v.chain.queue = e :: es := by rw [hv]; exact hq
      rcases hp with hp | hp <;> (rw [hp]; exact setHeadStage_cons hqv .command)
    · rcases hp with hp | hp <;> rw [hp] <;> rfl
    · obtain ⟨hfollows, -⟩ := hproving hk hs
      have hq := afterRejected_eq p
      rw [hfollows, continueRun_on (by rw [hq]; exact ha) (by rw [hq]; exact hn)]
      refine ⟨p.afterRejected, rfl, by rw [hq], hq, fun h0 => ?_, fun j hj => ?_, fun j n hj => ?_⟩
      · rw [Session.afterRejected, h0]; exact ⟨rfl, rfl⟩
      · rw [Session.afterRejected, hj]
      · rw [Session.afterRejected, hj]
    · obtain ⟨hfollows, hrej⟩ := hproving hk hs
      have hq := afterRejected_eq p
      have hres : p.afterRejected.results =
          Session.results { p with rejected := p.rejected + 1, readback := p.readback && p.next != .test 0 } := by rw [hq]; rfl
      obtain ⟨t, ht, hall⟩ := rejectedRun_ends (st := .aborted) hv hrej
        (p := { p with rejected := p.rejected + 1, readback := p.readback && p.next != .test 0 }) (by rw [hq]) hres
      rw [hfollows, continueRun_over (by rw [hq]; exact hover), ht]
      exact hall
  · refine ⟨_, exec_frameEndUnchecked hr hf hu, ?_⟩
    split
    · next hk => rw [hk, beq_self_eq_true, Bool.or_true]; rfl
    · next hk => rw [beq_eq_false_iff_ne.2 hk, Bool.or_false]; rfl

/-! ## Service transactions (R49, R50) -/

theorem exec_service {s : State} (hs : s.Ready) (tag : Byte) (card : Nat) (word : Word) :
    exec (.service tag card word) s = .next
      (if 16 ≤ card then s.refuse 0x31 tag .badField
        else if s.tables.cards.length ≤ card then s.refuse 0x31 tag .notDefined
        else if s.chain.st = .broken then s.refuse 0x31 tag .chainDown
        else if 8 ≤ s.chain.queue.length then s.refuse 0x31 tag .full
        else { s with chain := { s.chain with queue := s.chain.queue ++ [⟨card, word, tag, .command⟩] } }) := by
  rw [exec_answer rfl hs]
  refine congrArg _ ?_
  change answerService tag card word s = _
  unfold answerService
  simp only [checked_cons, checked_nil, decide_eq_true_eq, beq_iff_eq]
  rfl

theorem exec_serviceCommandAccepted {s : State} {f : Frame} {cdi : List Bool} (h : s.Returns .command f cdi true) :
    ∃ v : State, v = s.acceptedEnd f v ∧ exec (.serviceCommandAccepted cdi) s = .next (v.setHeadStage .fetch) := by
  obtain ⟨v, hv, hend⟩ := atFrameEnd_accepted h (allows := fun p => p == .command) rfl fun _ _ s => s.setHeadStage .fetch
  exact ⟨v, hend, congrArg _ hv⟩

theorem exec_serviceFetchAccepted {s : State} {f : Frame} {cdi : List Bool} (h : s.Returns .fetch f cdi true) :
    ∃ v : State, v = s.acceptedEnd f v ∧ exec (.serviceFetchAccepted cdi) s = .next (v.endService (f.returned cdi)) := by
  obtain ⟨v, hv, hend⟩ := atFrameEnd_accepted h (allows := fun p => p == .fetch) rfl fun _ ret s => s.endService ret
  exact ⟨v, hend, congrArg _ hv⟩

/-- R50: the head transaction ends. -/
theorem endService_cons {s : State} {e : ServiceEntry} {es : List ServiceEntry} (h : s.chain.queue = e :: es) (ret : List Bool) :
    s.endService ret = State.reply 0x31 e.tag .ok (u16 (wordOf ret e.card).toNat) { s with chain := { s.chain with
      queue := es
      streak := if es = [] then 0 else s.chain.streak
      session := s.chain.session.map fun p => { p with waitHead := false } } } := by
  rw [State.endService, h]
  cases es <;> rfl

/-- Settles O46, by the checks of the request and the stage of the head transaction. -/
theorem serviceTransactions : Obligations.ServiceTransactions := by
  refine ⟨fun payload c _ i hi => wordOf_getLsbD payload c hi, fun s tag card word hs => ?_, fun s f cdi e es hq => ⟨fun h => ?_, fun h => ?_⟩⟩
  · rw [exec_service hs]
    refine ⟨fun h => by rw [if_pos h], fun h h1 h2 h3 => ?_, fun h h1 => ?_, fun h h1 h2 => ?_, fun h h1 h2 h3 => ?_⟩
    · rw [if_neg (by omega), if_neg (by omega), if_neg h2, if_neg (by omega)]
    · rw [if_neg (by omega), if_pos h1]
    · rw [if_neg (by omega), if_neg (by omega), if_pos h2]
    · rw [if_neg (by omega), if_neg (by omega), if_neg h2, if_pos h3]
  · obtain ⟨v, hv, hex⟩ := exec_serviceCommandAccepted h
    have hqv : v.chain.queue = e :: es := by rw [hv]; exact hq
    rw [setHeadStage_cons hqv] at hex
    exact ⟨_, v, hex, hv, rfl⟩
  · obtain ⟨v, hv, hex⟩ := exec_serviceFetchAccepted h
    have hqv : v.chain.queue = e :: es := by rw [hv]; exact hq
    have hstreak : v.chain.streak = s.chain.streak := by rw [hv]; rfl
    have hsession : v.chain.session = s.chain.session := by rw [hv]; rfl
    rw [endService_cons hqv, hstreak, hsession] at hex
    exact ⟨_, v, hex, hv, rfl⟩

end Sys2Proof.Machine
end

