-- ==== Sys2Proof/Proofs/Triggers.lean ====
section
/-! What makes a scan due (R30, R72, R74, R171), O39, and the ends of the scheduler's intervals (R147, R148), O56. -/

namespace Sys2Proof.Machine

/-! ## Scan triggers -/

theorem exec_scanNow {s : State} (hs : s.Ready) (tag : Byte) : exec (.scanNow tag) s = .next (answerScanNow tag s) := exec_answer rfl hs

theorem scanInFlight_iff (s : State) :
    s.scanInFlight = true ↔ ∃ f, s.chain.inFlight = some f ∧ f.purpose.kind = .scan ∧ f.unchecked = false := by
  unfold State.scanInFlight
  cases s.chain.inFlight <;> simp

theorem exec_periodic {s : State} (hr : s.power.running = true) {since : Nat} (hp : s.periodicFrom = some since) :
    exec .periodic s = .next (State.trigger { s.advanceTo (since + s.tables.scan.interval * Config.ticksPerMs) with
      periodicFrom := some (s.advanceTo (since + s.tables.scan.interval * Config.ticksPerMs)).clock }) := by
  change Host.Outcome.next (s.whenRunning _) = _
  rw [whenRunning_of hr, hp]

/-- R30, R74: an edge of ATTN_N, whose trigger may be off. -/
def State.attended (s : State) : State := { s with scanDue := s.scanDue || s.tables.scan.attention }

theorem attended_eq (s : State) : (if s.tables.scan.attention then s.trigger else s) = s.attended := by
  cases h : s.tables.scan.attention <;> simp [State.attended, State.trigger, h]

theorem exec_attention_alone {s : State} (hr : s.power.running = true) (hq : s.chain.session = none) :
    exec .attention s = .next s.attended := by
  change Host.Outcome.next (s.whenRunning _) = _
  rw [whenRunning_of hr, attended_eq]
  have hq' : s.attended.chain.session = none := hq
  simp only [hq']

theorem exec_attention {s : State} (hr : s.power.running = true) {p : Session} (hq : s.chain.session = some p) :
    exec .attention s = .next (s.attended.abortSession p) := by
  change Host.Outcome.next (s.whenRunning _) = _
  rw [whenRunning_of hr, attended_eq]
  have hq' : s.attended.chain.session = some p := hq
  simp only [hq']

/-- R171: a session in WAITING over, the attention's trigger given. -/
def State.waitAborted (p : Session) (s : State) : State := { s.sessionOver p s.chain.st .aborted [] with scanDue := true }

theorem waitAborted_chain (p : Session) (s : State) : (s.waitAborted p).chain = { s.chain with session := none } := by
  unfold State.waitAborted State.sessionOver
  rw [if_pos rfl]
  rfl

theorem abortSession_waiting {p : Session} (h : p.frames = false) (s : State) : s.abortSession p = (s.waitAborted p).finish := by
  rw [State.abortSession, if_pos (by rw [h]; rfl), endWaiting_eq]
  rfl

theorem waitAborted_finish (p : Session) (s : State) : (s.waitAborted p).finish.chain = { s.chain with session := none }
    ∧ (s.waitAborted p).finish.scanDue = true
    ∧ (s.waitAborted p).finish.link.replies = s.link.replies ++ [⟨0x32, p.tag, .aborted, []⟩] := by
  have hdue : (s.waitAborted p).scanDue = true := rfl
  have hreplies : (s.waitAborted p).link.replies = s.link.replies ++ [⟨0x32, p.tag, .aborted, []⟩] := rfl
  have hchain := waitAborted_chain p s
  generalize s.waitAborted p = u at hdue hreplies hchain
  exact ⟨(Ripple.finish u).chain.trans hchain, (Ripple.finish u).due hdue, (Ripple.finish u).replies.trans hreplies⟩

theorem abortSession_over {s : State} {p : Session} (h : p.frames = true) (hf : s.chain.inFlight = none) :
    s.abortSession p = s.endRun p .aborted := by
  rw [State.abortSession, if_neg (by rw [h]; simp), if_neg (by rw [hf]; simp)]

theorem abortSession_marked {s : State} {p : Session} (h : p.frames = true) (hf : s.chain.inFlight ≠ none) :
    s.abortSession p = s.withSession (some { p with abort := true }) := by
  rw [State.abortSession, h, if_neg (by simp), if_pos (Option.isSome_iff_ne_none.2 hf)]

/-- Settles O39, by the trigger and the session's phase. -/
theorem triggersMakeScanDue : Obligations.TriggersMakeScanDue := by
  intro s tag hr
  refine ⟨fun hd => exec_scanNow ⟨hr, hd⟩ tag, scanInFlight_iff s, fun since now hp hnow => ?_, fun hq => exec_attention_alone hr hq,
    fun p hq => ⟨fun hw => ?_, fun hf hi => ?_, fun hf hi => ?_⟩⟩
  · rw [exec_periodic hr hp, hnow]; rfl
  · rw [exec_attention hr hq, abortSession_waiting hw]
    obtain ⟨hchain, hdue, hreplies⟩ := waitAborted_finish p s.attended
    exact ⟨_, rfl, hchain, hdue, hreplies, rfl⟩
  · rw [exec_attention hr hq, abortSession_over (s := s.attended) hf hi]
    have hover : s.RunOver (s.attended.endRun p .aborted) p .aborted := endRun_over p .aborted s.attended
    generalize s.attended.endRun p .aborted = t at hover
    obtain ⟨hchain, -, -, -, hdue, -, hreplies⟩ := hover.leaves
    exact ⟨t, rfl, by rw [hchain], by rw [hchain], hdue, hreplies, hover⟩
  · rw [exec_attention hr hq, abortSession_marked (s := s.attended) hf hi]
    rfl

/-! ## The shock window and the spacing intervals -/

theorem earliest_cons (w : WindowEntry) (ws : List WindowEntry) :
    earliest (w :: ws) = some ((earliest ws).elim w.start (min w.start)) := by
  rw [earliest]
  cases earliest ws <;> rfl

theorem earliest_none_iff (l : List WindowEntry) : earliest l = none ↔ l = [] := by
  cases l with
  | nil => exact ⟨fun _ => rfl, fun _ => rfl⟩
  | cons w ws => rw [earliest_cons]; exact ⟨nofun, nofun⟩

/-- The earliest start is a start of the window, and none is earlier. -/
theorem earliest_spec {l : List WindowEntry} : ∀ {t0 : Nat}, earliest l = some t0 →
    (∀ w ∈ l, t0 ≤ w.start) ∧ ∃ w ∈ l, w.start = t0 := by
  induction l with
  | nil => intro t0 h; cases h
  | cons w ws ih =>
    intro t0 h
    rw [earliest_cons] at h
    cases he : earliest ws with
    | none =>
      rw [he] at h
      obtain rfl : w.start = t0 := Option.some.inj h
      obtain rfl := (earliest_none_iff ws).1 he
      exact ⟨by simp, w, by simp, rfl⟩
    | some t1 =>
      rw [he] at h
      obtain rfl : min w.start t1 = t0 := Option.some.inj h
      obtain ⟨hle, x, hx, hxs⟩ := ih he
      refine ⟨fun y hy => ?_, ?_⟩
      · rcases List.mem_cons.1 hy with rfl | hy
        · exact Nat.min_le_left ..
        · exact (Nat.min_le_right ..).trans (hle y hy)
      · rcases Nat.le_total w.start t1 with hl | hl
        · exact ⟨w, by simp, (Nat.min_eq_left hl).symm⟩
        · exact ⟨x, List.mem_cons_of_mem _ hx, by rw [hxs, Nat.min_eq_right hl]⟩

/-- R147: the entries older than the window leave; a look is due while the queue holds an entry. -/
theorem ageWindow_eq (s : State) : s.ageWindow = { s with sched := { s.sched with
    window := s.sched.window.filter (fun w => s.ms < w.start + s.tables.limits.window)
    lookDue := s.sched.lookDue || !s.sched.queue.isEmpty } } := by
  unfold State.ageWindow State.wantLook
  cases s.sched.queue.isEmpty <;> simp

theorem exec_windowAging {s : State} (hr : s.power.running = true) {t0 : Nat} (h : earliest s.sched.window = some t0) :
    exec .windowAging s = .next (s.advanceTo ((t0 + s.tables.limits.window) * Config.ticksPerMs)).ageWindow.finish := by
  change Host.Outcome.next (s.whenRunning _) = _
  rw [whenRunning_of hr, h]

theorem exec_spacingEnd {s : State} (hr : s.power.running = true) {w : Spacing} {due : Nat} (h : s.spacingDue w = some due)
    (hq : s.sched.queue ≠ []) : exec (.spacingEnd w) s = .next ((s.advanceTo (due * Config.ticksPerMs)).wantLook).finish := by
  change Host.Outcome.next (s.whenRunning _) = _
  rw [whenRunning_of hr, h]
  exact congrArg _ (if_neg (by simpa using hq))

theorem exec_spacingEnd_idle {s : State} (hq : s.sched.queue = []) (w : Spacing) : exec (.spacingEnd w) s = .next s := by
  change Host.Outcome.next (s.whenRunning _) = _
  cases hr : s.power.running with
  | false => exact congrArg _ (whenRunning_halted hr _)
  | true =>
    rw [whenRunning_of hr]
    cases hd : s.spacingDue w with
    | none => rfl
    | some due => exact congrArg _ (if_pos (by rw [hq]; rfl))

/-- Settles O56, by the interval that ends. -/
theorem windowAndSpacingEnd : Obligations.WindowAndSpacingEnd := by
  intro s now hr
  refine ⟨fun t0 h hnow => ?_, fun w due h hq hnow => ?_, fun hq w => exec_spacingEnd_idle hq w, earliest_none_iff _, fun _ => rfl, rfl, rfl⟩
  · obtain ⟨hle, hmem⟩ := earliest_spec h
    refine ⟨hle, hmem, ?_⟩
    rw [exec_windowAging hr h, ageWindow_eq, hnow]
    rfl
  · rw [exec_spacingEnd hr h hq, hnow]
    rfl

end Sys2Proof.Machine
end

