-- ==== Sys2Proof/Proofs/Admissions.lean ====
section
/-! The scheduler's looks (R148 to R151): which entries are considered, the three tests, the admission, O57; and the arithmetic of
flow and cost (chapter 5), O60. -/

namespace Sys2Proof.Machine

/-! ## Which entries are considered (R149) -/

theorem proveWaiting_iff (s : State) : s.proveWaiting = true ↔ ∃ p, s.chain.session = some p ∧ p.frames = false := by
  unfold State.proveWaiting
  cases s.chain.session <;> simp

theorem considered_eq (s : State) : s.considered =
    if s.chain.st ≠ .running ∨ s.proveWaiting = true then []
    else if ∃ x ∈ s.sched.queue, x.urgent = true then s.sched.queue.filter fun x => x.urgent
    else if s.tables.scan.holdOnWet = true ∧ 0 < s.activeJobs then []
    else s.sched.queue := by
  refine if_congr ?_ rfl (if_congr ?_ rfl (if_congr ?_ rfl rfl))
  · simp [State.noneConsidered]
  · simp [State.hasUrgent]
  · simp [State.withheld]

/-- What a considered entry says of the chain and the queue. -/
theorem mem_considered {s : State} {e : MoveEntry} (h : e ∈ s.considered) : e ∈ s.sched.queue ∧ s.chain.st = .running
    ∧ s.proveWaiting = false
    ∧ (e.urgent = false → (∀ x ∈ s.sched.queue, x.urgent = false) ∧ ¬ (s.tables.scan.holdOnWet = true ∧ 0 < s.activeJobs)) := by
  have hq := considered_subset s h
  rw [considered_eq] at h
  split at h
  · cases h
  next hc =>
    rw [not_or, not_not, Bool.not_eq_true] at hc
    refine ⟨hq, hc.1, hc.2, fun hu => ?_⟩
    split at h
    · exact absurd (List.mem_filter.1 h).2 (by rw [hu]; exact Bool.false_ne_true)
    next hno =>
      split at h
      · cases h
      next hwet => exact ⟨fun x hx => Bool.eq_false_of_not_eq_true fun hux => hno ⟨x, hx, hux⟩, hwet⟩

/-! ## The three tests (R150) -/

theorem countTest_iff (s : State) : s.countTest = true ↔ s.sched.window.length < s.tables.limits.count := decide_eq_true_iff

theorem limitFor_eq (l : Limits) (urgent : Bool) : l.limitFor urgent = l.budget - (if urgent then 0 else l.reserve) := by
  cases urgent <;> rfl

theorem budgetTest_iff (s : State) (e : MoveEntry) {limit : Nat}
    (h : limit = s.tables.limits.budget - (if e.urgent then 0 else s.tables.limits.reserve)) :
    s.budgetTest e = true ↔ s.windowSum + s.costOf e.valve e.dir ≤ limit ∨ (limit < s.costOf e.valve e.dir ∧ s.sched.window = []) := by
  rw [← limitFor_eq] at h
  subst h
  unfold State.budgetTest
  dsimp only
  split
  next hle =>
    rw [decide_eq_true_iff]
    exact ⟨Or.inl, fun h => h.resolve_right fun hc => absurd hle (Nat.not_le.2 hc.1)⟩
  next hlt =>
    rw [List.isEmpty_iff]
    exact ⟨fun h => Or.inr ⟨Nat.not_le.1 hlt, h⟩, fun h => (h.resolve_left fun hc => hlt (by omega)).2⟩

theorem spaced_iff (now spacing : Nat) (last : Option Nat) :
    spaced now spacing last = true ↔ ∀ t, last = some t → t + spacing ≤ now := by
  cases last <;> simp [spaced]

theorem spacingTest_segment {s : State} {e : MoveEntry} {g : Nat} (h : s.valveSegment e.valve = some g) :
    s.spacingTest e = true ↔ (∀ last, s.sched.lastSeg.getD g none = some last → last + s.tables.limits.sSame ≤ s.ms)
      ∧ (∀ last, s.sched.lastRack = some last → last + s.tables.limits.sOther ≤ s.ms) := by
  rw [State.spacingTest, h]
  simp only [Bool.and_eq_true, spaced_iff]

theorem spacingTest_main {s : State} {e : MoveEntry} (h : s.valveSegment e.valve = none) :
    s.spacingTest e = true ↔ ∀ last, s.sched.lastRack = some last → last + s.tables.limits.sSame ≤ s.ms := by
  rw [State.spacingTest, h]
  simp only [spaced_iff]

theorem passes_iff (s : State) (e : MoveEntry) :
    s.passes e = true ↔ s.countTest = true ∧ s.budgetTest e = true ∧ s.spacingTest e = true := by
  simp [State.passes, and_assoc]

theorem valveOwner_eq (v : Nat) :
    valveOwner v = if v ≤ 95 then .branch (v / 2) else if v ≤ 103 then .segment ((v - 96) / 2) else .main :=
  if_congr (by omega) rfl (if_congr (by omega) rfl rfl)

theorem valveSegment_eq (s : State) (v : Nat) : s.valveSegment v = if v ≤ 95 then some (s.tables.branch (v / 2)).segment
    else if v ≤ 103 then some ((v - 96) / 2) else none := by
  rw [State.valveSegment, valveOwner_eq]
  by_cases hb : v ≤ 95
  · simp only [hb, if_true]
  · by_cases hg : v ≤ 103
    · simp only [hb, hg, if_true, if_false]
    · simp only [hb, hg, if_false]

/-! ## The admission (R151) -/

theorem startTimes_getD {g : Nat} (h : g ≤ 3) (now : Nat) (segment : Option Nat) (t : Table (Option Nat) 4) :
    (startTimes now segment t).getD g none = if segment = some g ∨ segment = none then some now else t.getD g none := by
  cases segment with
  | none => rw [if_pos (Or.inr rfl)]; exact Table.getD_fill _ _ (by omega)
  | some x =>
    rw [startTimes, Table.getD_put]
    refine if_congr ⟨fun hx => Or.inl (by rw [hx.1]), fun hx => ?_⟩ rfl rfl
    obtain rfl := Option.some.inj (hx.resolve_right nofun)
    exact ⟨rfl, by omega⟩

theorem set_bitAt (l : List Bool) (p : Nat) : l.set p (bitAt l p) = l := by
  rcases Nat.lt_or_ge p l.length with h | h
  · rw [bitAt, List.getD_eq_getElem _ _ h, List.set_getElem_self]
  · exact List.set_eq_of_length_le h

/-- R62: a bit of the output image is written; the IMAGE trigger follows a change. -/
theorem writeImageBit_eq (p : Nat) (b : Bool) (s : State) : s.writeImageBit p b = { s with
    image := { s.image with out := s.image.out.set p b }
    scanDue := s.scanDue || (bitAt s.image.out p != b && s.image.out.set p b != s.image.copy && s.tables.scan.image) } := by
  unfold State.writeImageBit
  split
  next h =>
    obtain rfl : bitAt s.image.out p = b := eq_of_beq h
    rw [set_bitAt, bne_self_eq_false, Bool.false_and, Bool.false_and, Bool.or_false]
  next h =>
    rw [imageTrigger_eq, show (bitAt s.image.out p != b) = true by simpa using h, Bool.true_and]
    rfl

/-- The state in which an admission sets its valve moving. -/
def State.windowed (e : MoveEntry) (s : State) : State :=
  { s with sched := { s.sched with
      queue := s.sched.queue.filter fun x => x.valve != e.valve
      window := s.sched.window ++ [{ valve := e.valve, urgent := e.urgent, dir := e.dir, start := s.ms, cost := s.costOf e.valve e.dir }]
      lastSeg := startTimes s.ms (s.valveSegment e.valve) s.sched.lastSeg
      lastRack := some s.ms } }

/-- The state in which an admission writes its drive bit. -/
def State.setGoing (e : MoveEntry) (s : State) : State :=
  (s.windowed e).setValve e.valve ((s.valve e.valve).admitted (e.dir.target (s.tables.valve e.valve).fail))

theorem setGoing_fields (e : MoveEntry) (s : State) : (s.setGoing e).tables = s.tables ∧ (s.setGoing e).image = s.image
    ∧ (s.setGoing e).scanDue = s.scanDue := by
  obtain ⟨-, htables, -, himage, hdue, -⟩ := State.setValve_fields (s.windowed e) e.valve
    ((s.valve e.valve).admitted (e.dir.target (s.tables.valve e.valve).fail))
  exact ⟨htables, himage, hdue⟩

theorem admitMove_driven {s : State} {e : MoveEntry} {p : Nat} (h : s.tables.drivePos e.valve = some p) :
    s.admitMove e = (s.setGoing e).writeImageBit p (e.dir.driveBit (s.tables.valve e.valve).fail) := by
  have hp : (s.setGoing e).tables.drivePos e.valve = some p := by rw [(setGoing_fields e s).1]; exact h
  unfold State.admitMove
  dsimp only
  split
  next q hq =>
    obtain rfl : p = q := Option.some.inj (hp.symm.trans hq)
    rfl
  next hq => exact absurd (hp.symm.trans hq) nofun

theorem admitMove_undriven {s : State} {e : MoveEntry} (h : s.tables.drivePos e.valve = none) : s.admitMove e = s.setGoing e := by
  have hp : (s.setGoing e).tables.drivePos e.valve = none := by rw [(setGoing_fields e s).1]; exact h
  unfold State.admitMove
  dsimp only
  split
  next q hq => exact absurd (hp.symm.trans hq) nofun
  next => rfl

/-- An admission writes the drive bit of its valve. -/
theorem admitMove_image {s : State} {e : MoveEntry} {p : Nat} (h : s.tables.drivePos e.valve = some p) :
    (s.admitMove e).image = { s.image with out := s.image.out.set p (e.dir.driveBit (s.tables.valve e.valve).fail) }
    ∧ (s.admitMove e).scanDue = (s.scanDue || (bitAt s.image.out p != e.dir.driveBit (s.tables.valve e.valve).fail
        && (s.admitMove e).image.out != s.image.copy && s.tables.scan.image)) := by
  obtain ⟨htables, himage, hdue⟩ := setGoing_fields e s
  rw [admitMove_driven h, writeImageBit_eq, htables, himage, hdue]
  exact ⟨rfl, rfl⟩

theorem admitMove_noticed {s : State} {e : MoveEntry}
    (h : (s.valve e.valve).st ≠ (e.dir.target (s.tables.valve e.valve).fail).moving) : (s.admitMove e).Noticed (.valve e.valve) := by
  have hset : (s.setGoing e).Noticed (.valve e.valve) := State.setValve_noticed _ _ _ fun hc => h (congrArg Prod.fst hc).symm
  cases hp : s.tables.drivePos e.valve with
  | none => rw [admitMove_undriven hp]; exact hset
  | some p => rw [admitMove_driven hp, writeImageBit_eq]; exact hset

theorem lookOnce_none_iff (s : State) : s.lookOnce = none ↔ ∀ e ∈ s.considered, ¬ s.passes e = true := by
  simp [State.lookOnce]

/-- Settles O57, by what an admission found in the queue, and by the first entry that passes. -/
theorem admissionRule : Obligations.AdmissionRule := by
  refine ⟨fun s t h => ?_, fun s considered hc => ?_, fun s e limit hl => ⟨proveWaiting_iff s, countTest_iff s, rfl, budgetTest_iff s e hl, ?_,
    valveSegment_eq s⟩, fun _ => rfl, fun fail d => bne_iff_ne⟩
  · obtain ⟨e, he, hpass, rfl⟩ := lookOnce_some h
    obtain ⟨hq, hrun, hwait, hroutine⟩ := mem_considered he
    obtain ⟨hcount, hbudget, hspacing⟩ := (passes_iff s e).1 hpass
    obtain ⟨hripple, hsched, hvalves, howners, hzones, hjobs, -, -⟩ := admit_spec e s
    refine ⟨e, hq, hrun, fun p hp => ?_, hroutine, (countTest_iff s).1 hcount, fun limit cost hlimit hcost => ⟨?_, ?_⟩,
      fun last hlast hseg => (spacingTest_main hseg).1 hspacing last hlast,
      fun last g hlast hseg => ((spacingTest_segment hseg).1 hspacing).2 last hlast,
      fun last g hseg hlast => ((spacingTest_segment hseg).1 hspacing).1 last hlast, fun g hg => ?_, ?_, ?_, fun p hv hp => ⟨?_, fun hne => ?_⟩,
      fun p hp hin => ?_, fun p hp => admitMove_image hp, fun hp => ?_, ?_, howners, hzones, hjobs⟩
    · exact Bool.eq_true_of_not_eq_false fun hf => by
        rw [(proveWaiting_iff s).2 ⟨p, hp, hf⟩] at hwait
        cases hwait
    · rw [hcost]
      exact (budgetTest_iff s e hlimit).1 hbudget
    · rw [hsched, hcost]
    · rw [hsched]
      exact startTimes_getD hg ..
    · rw [hsched]
    · rw [hsched]
    · rw [State.valve_put s e.valve e.valve _ _ hvalves, if_pos ⟨rfl, by omega⟩, hp]
      rfl
    · exact admitMove_noticed (by rw [← hp]; exact hne)
    · rw [(admitMove_image hp).1]
      exact (bitAt_set ..).trans (if_pos ⟨rfl, hin⟩)
    · rw [admitMove_undriven hp]
      exact ⟨(setGoing_fields e s).2.1, (setGoing_fields e s).2.2⟩
    · have hspared := hripple.toSpared
      exact { hspared with }
  · obtain rfl : considered = s.considered := hc.trans (considered_eq s).symm
    refine ⟨by simp only [lookOnce_none_iff, passes_iff], fun before e after hsplit hbefore h1 h2 h3 => ?_⟩
    have hfind : s.considered.find? s.passes = some e := by
      rw [hsplit, List.find?_append, List.find?_eq_none.2 fun x hx => by rw [passes_iff]; exact hbefore x hx]
      simp [(passes_iff s e).2 ⟨h1, h2, h3⟩]
    obtain ⟨-, hsched, -⟩ := admit_spec e s
    exact ⟨s.admitMove e, by rw [State.lookOnce, hfind]; rfl, by rw [hsched], by rw [hsched]⟩
  · cases hseg : s.valveSegment e.valve with
    | none => exact spacingTest_main hseg
    | some g => exact spacingTest_segment hseg

/-! ## Meters (R93, R94) -/

theorem rawRate_over {step : Nat} (h : 240 < step) (k delta : Nat) : rawRate k step delta = (4000, true) := if_pos h

theorem rawRate_within {step : Nat} (h : step ≤ 240) (k delta : Nat) :
    rawRate k step delta = (min 4000 (step * 600000 / (k * delta)), false) := if_neg (Nat.not_lt.2 h)

theorem counted_first {h : MeterHist} (hp : h.prevCount = none ∨ h.prevTick = none) (d : MeterDef) (now count : Nat) :
    h.counted d now count = { h with prevCount := some count, prevTick := some now } := by
  rcases hp with hp | hp
  · rw [MeterHist.counted, hp]
  · rw [MeterHist.counted, hp]
    cases h.prevCount <;> rfl

theorem counted_late {h : MeterHist} {c t : Nat} (hc : h.prevCount = some c) (ht : h.prevTick = some t) {now : Nat} (hl : 5000 < now - t)
    (d : MeterDef) (count : Nat) :
    h.counted d now count = { h with prevCount := some count, prevTick := some now, stale := true } := by
  rw [MeterHist.counted, hc, ht]
  exact if_pos hl

theorem counted_next {h : MeterHist} {c t : Nat} (hc : h.prevCount = some c) (ht : h.prevTick = some t) {now : Nat} (hl : now - t ≤ 5000)
    (d : MeterDef) (count : Nat) : h.counted d now count = ⟨some count, some now, some (rawRate d.kFactor (countStep count c) (now - t)).1,
      if h.valid = true then smoothStep d.shift h.smooth (rawRate d.kFactor (countStep count c) (now - t)).1
        else (rawRate d.kFactor (countStep count c) (now - t)).1, true, (rawRate d.kFactor (countStep count c) (now - t)).2, false⟩ := by
  rw [MeterHist.counted, hc, ht]
  exact if_neg (Nat.not_lt.2 hl)

/-- R94: the step toward a higher raw rate, and toward a lower one; neither passes it. -/
theorem smoothStep_up {smooth raw : Nat} (h : smooth ≤ raw) (shift : Nat) :
    smoothStep shift smooth raw = smooth + (raw - smooth) / 2 ^ shift ∧ smoothStep shift smooth raw ≤ raw := by
  have hstep := Nat.div_le_self (raw - smooth) (2 ^ shift)
  rw [smoothStep, if_pos h]
  exact ⟨rfl, by omega⟩

theorem smoothStep_down {smooth raw : Nat} (h : raw ≤ smooth) (shift : Nat) :
    smoothStep shift smooth raw + (smooth - raw) / 2 ^ shift = smooth ∧ raw ≤ smoothStep shift smooth raw := by
  have hstep := Nat.div_le_self (smooth - raw) (2 ^ shift)
  rcases Nat.eq_or_lt_of_le h with rfl | hlt
  · simp [smoothStep]
  · rw [smoothStep, if_neg (by omega)]
    omega

/-! ## Costs and flow values (R95, R96, R98) -/

theorem multiplier_eq (stroke : Nat) :
    (classOf stroke).multiplier = if stroke ≤ 1000 then 64 else if stroke ≤ 5000 then 32 else 8 := by
  unfold classOf
  split
  · rfl
  · split <;> rfl

/-- R98: a quotient rounded up, at least 1. -/
theorem ceilDiv_bounds {n divisor cost : Nat} (hd : 0 < divisor) (h : cost = max 1 ((n + (divisor - 1)) / divisor)) :
    1 ≤ cost ∧ n ≤ cost * divisor ∧ (1 < cost → (cost - 1) * divisor < n) := by
  have hdiv := Nat.div_add_mod (n + (divisor - 1)) divisor
  have hmod := Nat.mod_lt (n + (divisor - 1)) hd
  rw [Nat.mul_comm] at hdiv
  generalize (n + (divisor - 1)) / divisor = q at hdiv h
  rcases Nat.eq_zero_or_pos q with rfl | hq
  · obtain rfl : cost = 1 := by omega
    exact ⟨Nat.le_refl 1, by omega, fun hc => absurd hc (Nat.lt_irrefl 1)⟩
  · obtain rfl : cost = q := by omega
    have hle : divisor ≤ cost * divisor := Nat.le_mul_of_pos_left divisor hq
    exact ⟨hq, by omega, fun _ => by rw [Nat.sub_mul]; omega⟩

theorem moveCost_le {flow m : Nat} (hf : flow ≤ 4000) (hm : m ≤ 64) (closing : Bool) : moveCost flow m closing ≤ 1000 := by
  have hprod : flow * m ≤ 256000 := (Nat.mul_le_mul hf hm).trans (by decide)
  cases closing with
  | true => rw [moveCost, if_pos rfl]; omega
  | false => rw [moveCost, if_neg (by decide)]; omega

theorem meterValid_iff (s : State) (m : Nat) : s.meterValid m = true ↔ (s.tables.meter m).defined = true ∧ (s.meter m).valid = true := by
  simp [State.meterValid]

theorem branchFlow_undefined {s : State} {b : Nat} (h : (s.tables.branch b).defined = false) : s.branchFlow b = 0 := by
  rw [State.branchFlow, h]; rfl

theorem branchFlow_defined {s : State} {b : Nat} (h : (s.tables.branch b).defined = true) : s.branchFlow b =
    if s.meterValid (2 * b) = true then (s.meter (2 * b)).smooth
    else if s.meterValid (2 * b + 1) = true then (s.meter (2 * b + 1)).smooth
    else if (s.owner (.branch b)).mode = .inService then (s.tables.branch b).nominal else 0 := by
  rw [State.branchFlow, h]; rfl

theorem isClosing_eq (fail : Pos) (d : Dir) : d.isClosing fail = (d == .closeMove || (d == .release && fail == .closed)) := by
  cases d <;> cases fail <;> rfl

/-- Settles O60, by the rules of chapter 5. -/
theorem flowArithmetic : Obligations.FlowArithmetic := by
  refine ⟨fun now before hn hb => ?_, fun k step delta => ⟨fun h => rawRate_over h k delta, fun h => rawRate_within h k delta⟩,
    fun _ => rfl, fun h d now count => ⟨fun hp => counted_first hp d now count, fun c t hc ht => ⟨fun hl => counted_late hc ht hl d count,
      fun hl raw high hr => ?_⟩⟩, fun shift smooth raw => ⟨fun h => smoothStep_up h shift, fun h => smoothStep_down h shift⟩, multiplier_eq,
    fun flow m divisor cost closing hd hc => ?_, fun s usable hu => ?_, valveOwner_eq⟩
  · unfold countStep
    omega
  · rw [counted_next hc ht hl, ← hr]
  · have hpos : 0 < divisor := by rw [hd]; split <;> decide
    have hcost : cost = max 1 ((flow * m + (divisor - 1)) / divisor) := by rw [hc, hd]; rfl
    obtain ⟨h1, h2, h3⟩ := ceilDiv_bounds hpos hcost
    exact ⟨h1, h2, h3, fun hf hm => by rw [hc]; exact moveCost_le hf hm closing⟩
  · have husable : ∀ m, usable m ↔ s.meterValid m = true := fun m => (hu m).trans (meterValid_iff s m).symm
    refine ⟨fun b => ⟨fun h => branchFlow_undefined h, fun h => ⟨fun h1 => ?_, fun h1 h2 => ?_, fun h1 h2 => ?_⟩⟩, fun _ => rfl,
      fun _ => rfl, fun h => ?_, fun h => ?_, fun v d => ?_⟩
    · rw [branchFlow_defined h, if_pos ((husable _).1 h1)]
    · rw [branchFlow_defined h, if_neg (mt (husable _).2 h1), if_pos ((husable _).1 h2)]
    · rw [branchFlow_defined h, if_neg (mt (husable _).2 h1), if_neg (mt (husable _).2 h2)]
    · exact if_pos ((husable _).1 h)
    · refine (if_neg (mt (husable _).2 h)).trans ?_
      simp only [State.flowSum, Bool.and_true]
      rfl
    · rw [State.costOf, isClosing_eq]

end Sys2Proof.Machine
end

