-- ==== Sys2Proof/Proofs/Zones.lean ====
section
/-! The zone monitor (chapter 6): zones handed over (R106, R126 to R128), O59; acknowledgements (R108, R110), O34. -/

namespace Sys2Proof.Machine

theorem SameButNotices.trans {s t u : State} (h : State.SameButNotices s t) (k : State.SameButNotices t u) :
    State.SameButNotices s u := by
  have hu := congrArg (State.withNotices s.link.notices) k
  exact hu.trans h

/-- The jobs replaced on both sides. -/
theorem SameButNotices.withJobs {s t : State} (h : State.SameButNotices s t) (j : Table (Option Job) 16) :
    State.SameButNotices { s with jobs := j } { t with jobs := j } := by
  have hj := congrArg (fun v : State => ({ v with jobs := j } : State)) h
  exact hj

/-! ## Zones handed over (R126 to R128) -/

/-- R106: a zone in WET, nothing handed over yet. -/
def State.zoneWet (z : Nat) (cause : WetCause) (s : State) : State :=
  (s.setZone z ⟨.wet, 0, 0, some cause, some s.ms⟩).joinNotice (.zone z)

theorem zoneWet_same (z : Nat) (cause : WetCause) (s : State) :
    State.SameButNotices { s with zones := s.zones.put z ⟨.wet, 0, 0, some cause, some s.ms⟩ } (s.zoneWet z cause) := by
  unfold State.zoneWet
  rw [joinNotice_withNotices]
  rfl

theorem enterWet_kept {s : State} {z : Nat} (h : (s.tables.zone z).auto = false ∨ s.tables.plan z = []) (cause : WetCause) :
    s.enterWet z cause = s.zoneWet z cause := by
  refine if_neg ?_
  rcases h with h | h <;> simp [h]

theorem enterWet_handed {s : State} {z : Nat} (ha : (s.tables.zone z).auto = true) (hp : s.tables.plan z ≠ []) (cause : WetCause) :
    s.enterWet z cause = (s.zoneWet z cause).handOff z :=
  if_pos (by simp [ha, hp])

theorem enterWet_noticed (z : Nat) (cause : WetCause) (s : State) : (s.enterWet z cause).Noticed (.zone z) := by
  have hwet : (s.zoneWet z cause).Noticed (.zone z) := State.joinNotice_noticed _ _
  have hoff : ((s.zoneWet z cause).handOff z).Noticed (.zone z) :=
    hwet.mono (congrArg TableStore.mask (Ripple.handOff z _).tables) (Ripple.handOff z _).joins
  unfold State.enterWet
  dsimp only
  split
  · exact hoff
  · exact hwet

theorem jobSlotOf_none_iff (s : State) (z : Nat) : s.jobSlotOf z = none ↔ ∀ k j, s.job k = some j → j.zone ≠ z := by
  rw [← Option.not_isSome_iff_eq_none, jobSlotOf_isSome_iff]
  exact ⟨fun h k j hj hz => h ⟨k, j, hj, hz⟩, fun h ⟨k, j, hj, hz⟩ => h k j hj hz⟩

theorem jobSlotOf_some {s : State} {z k : Nat} (h : s.jobSlotOf z = some k) : k ≤ 15 ∧ ∃ j, s.job k = some j ∧ j.zone = z := by
  have hk : k < 16 := List.mem_range.1 (List.mem_of_find?_eq_some h)
  refine ⟨by omega, ?_⟩
  have hz := List.find?_some h
  cases hj : s.job k with
  | none => simp [hj] at hz
  | some j => exact ⟨j, rfl, by simpa [hj] using hz⟩

theorem freeSlot_some {s : State} {k : Nat} (h : s.freeSlot = some k) : k ≤ 15 ∧ s.job k = none ∧ ∀ i < k, (s.job i).isSome := by
  have hk : k < 16 := List.mem_range.1 (List.mem_of_find?_eq_some h)
  refine ⟨by omega, by simpa using List.find?_some h, fun i hi => ?_⟩
  rw [State.freeSlot, jobSlotNumbers, List.find?_range_eq_some] at h
  simpa [Option.isSome_iff_ne_none] using h.2.2 i hi

theorem freeSlot_none_iff (s : State) : s.freeSlot = none ↔ ∀ k ≤ 15, s.job k ≠ none := by
  unfold State.freeSlot jobSlotNumbers
  rw [List.find?_eq_none]
  simp only [List.mem_range, Option.isNone_iff_eq_none]
  exact ⟨fun h k hk => h k (by omega), fun h k hk => h k (by omega)⟩

/-- R16: the holds of a list of owners, placed in order. -/
theorem raiseHolds_holds {l : List Owner} (hn : l.Nodup) (hw : ∀ o ∈ l, WellFormed.owner o = true) :
    ∀ (s : State) {o : Owner}, WellFormed.owner o = true →
      ((l.foldl (fun s o => s.raiseHold o) s).owner o).holds = (s.owner o).holds + if o ∈ l then 1 else 0 := by
  induction l with
  | nil => intro s o _; rfl
  | cons x l ih =>
    intro s o ho
    obtain ⟨hx, hl⟩ := List.nodup_cons.1 hn
    have hxw := hw x List.mem_cons_self
    have hraise := (owner_raiseHold x o s (owner_index_lt hxw)).1
    rw [List.foldl_cons, ih hl (fun y hy => hw y (List.mem_cons_of_mem _ hy)) _ ho, hraise]
    by_cases hxo : x = o
    · subst hxo
      simp [hx]
    · have hne : x.index ≠ o.index := (owners_apart ho hxw hxo).1
      have hox : o ≠ x := fun h => hxo h.symm
      simp [hne, hox]

/-- The job slot written at the creation of a job, the slot joined. -/
def State.jobPlaced (slot z : Nat) (s : State) : State :=
  (s.setJob slot (some ⟨z, s.ms, (s.tables.plan z).map fun o => ⟨o, none, .absent, .waiting⟩, .active⟩)).joinNotice (.job slot)

theorem createJob_eq (slot z : Nat) (s : State) :
    s.createJob slot z = (s.tables.plan z).foldl (fun s o => s.raiseHold o) (s.jobPlaced slot z) := rfl

theorem createJob_stir (slot z : Nat) (s : State) : Stir (s.jobPlaced slot z) (s.createJob slot z) :=
  Stir.foldl (fun s o => Stir.raiseHold o s) _ _

theorem createJob_jobs (slot z : Nat) (s : State) : (s.createJob slot z).jobs = s.jobs.put slot
    (some ⟨z, s.ms, (s.tables.plan z).map fun o => ⟨o, none, .absent, .waiting⟩, .active⟩) := by
  rw [(createJob_stir slot z s).jobs, State.jobPlaced, joinNotice_withNotices]
  rfl

theorem createJob_waitList (slot z : Nat) (s : State) : (s.createJob slot z).waitList = s.waitList := by
  rw [(createJob_stir slot z s).waitList, State.jobPlaced, joinNotice_withNotices]
  rfl

theorem createJob_noticed (slot z : Nat) (s : State) : (s.createJob slot z).Noticed (.job slot) :=
  (State.joinNotice_noticed _ _).mono (congrArg TableStore.mask (createJob_stir slot z s).tables) (createJob_stir slot z s).joins

theorem createJob_holds (slot : Nat) {z : Nat} {s : State} (hn : (s.tables.plan z).Nodup)
    (hw : ∀ o ∈ s.tables.plan z, WellFormed.owner o = true) {o : Owner} (ho : WellFormed.owner o = true) :
    ((s.createJob slot z).owner o).holds = (s.owner o).holds + if o ∈ s.tables.plan z then 1 else 0 := by
  rw [createJob_eq, raiseHolds_holds hn hw _ ho]
  have howner : (s.jobPlaced slot z).owner o = s.owner o := by
    rw [State.jobPlaced, joinNotice_withNotices]; rfl
  rw [howner]

theorem handOff_kept {s : State} {z k : Nat} (h : s.jobSlotOf z = some k) : s.handOff z = s := by
  rw [State.handOff, h]

theorem handOff_created {s : State} {z k : Nat} (h : s.jobSlotOf z = none) (hf : s.freeSlot = some k) : s.handOff z = s.createJob k z := by
  rw [State.handOff, h, hf]

theorem handOff_waits {s : State} {z : Nat} (h : s.jobSlotOf z = none) (hf : s.freeSlot = none) :
    s.handOff z = { s with waitList := if z ∈ s.waitList then s.waitList else s.waitList ++ [z] } := by
  rw [State.handOff, h, hf]
  dsimp only
  by_cases hz : z ∈ s.waitList
  · rw [if_pos (List.contains_iff_mem.2 hz), if_pos hz]
  · rw [if_neg (by rwa [List.contains_iff_mem]), if_neg hz]

/-- Settles O59, by what the zone has: a job, a free slot, or neither. -/
theorem wetZoneHandedOver : Obligations.WetZoneHandedOver := by
  intro s t z cause hz ht
  subst ht
  refine ⟨enterWet_noticed z cause s, fun h => ?_, fun ha hp => ?_, fun k hk => jobSlotOf_some hk, jobSlotOf_none_iff s z, fun k hk => ?_,
    freeSlot_none_iff s⟩
  · have hw := zoneWet_same z cause s
    rw [enterWet_kept h cause]
    generalize s.zoneWet z cause = u at hw
    exact ⟨(congrArg State.jobs hw :), (congrArg State.owners hw :), (congrArg State.waitList hw :)⟩
  · have hw := zoneWet_same z cause s
    have hoff : s.enterWet z cause = (s.zoneWet z cause).handOff z := enterWet_handed ha hp cause
    rw [hoff]
    generalize s.zoneWet z cause = u at hw
    have hjobs : u.jobs = s.jobs := (congrArg State.jobs hw :)
    have howners : u.owners = s.owners := (congrArg State.owners hw :)
    have hwait : u.waitList = s.waitList := (congrArg State.waitList hw :)
    have hplan : u.tables.plan z = s.tables.plan z := (congrArg (fun x : State => x.tables.plan z) hw :)
    have hms : u.ms = s.ms := (congrArg State.ms hw :)
    have hjob : ∀ k, u.job k = s.job k := fun k => by rw [State.job, hjobs]; rfl
    have hslot : u.jobSlotOf z = s.jobSlotOf z := by simp only [State.jobSlotOf, hjob]
    have hfree : u.freeSlot = s.freeSlot := by simp only [State.freeSlot, hjob]
    refine ⟨fun k hk => ?_, fun k hk hf => ?_, fun hk hf => ?_⟩
    · rw [handOff_kept (hslot.trans hk)]
      exact ⟨hjobs, howners, hwait⟩
    · rw [handOff_created (hslot.trans hk) (hfree.trans hf)]
      obtain ⟨hk15, -, hbelow⟩ := freeSlot_some hf
      have hcreated := createJob_jobs k z u
      rw [hms, hplan, hjobs] at hcreated
      have hjobk : ∀ i, (u.createJob k z).job i = if k = i ∧ k < 16 then
          some ⟨z, s.ms, (s.tables.plan z).map fun o => ⟨o, none, .absent, .waiting⟩, .active⟩ else s.job i := fun i => by
        rw [State.job, hcreated, Table.getD_put]; rfl
      refine ⟨?_, by rw [hjobk, if_pos ⟨rfl, by omega⟩], fun i hi => by rw [hjobk, if_neg fun h => hi h.1.symm], hbelow,
        by rw [createJob_waitList, hwait], createJob_noticed k z u, fun hn hwf o ho => ?_⟩
      · obtain ⟨x, hx, hmove⟩ := createJob_move k z u
        rw [hplan] at hmove hx
        rw [hms, hjobs] at hx
        exact ⟨x, SameButNotices.trans (SameButNotices.withJobs hw _) hx, hmove⟩
      · rw [createJob_holds k (by rw [hplan]; exact hn) (by rw [hplan]; exact hwf) ho, hplan, State.owner, howners]
        rfl
    · rw [handOff_waits (hslot.trans hk) (hfree.trans hf)]
      exact ⟨howners, hjobs, by rw [hwait]⟩
  · obtain ⟨h1, h2, -⟩ := freeSlot_some hk
    exact ⟨h1, h2⟩

/-! ## Acknowledgements (R108, R110) -/

theorem exec_ackZone {s : State} (hs : s.Ready) (tag : Byte) (z : Nat) : exec (.ackZone tag z 0) s = .next
    (if 64 ≤ z then s.refuse 0x24 tag .badField
      else if (s.zone z).st = .undefined then s.refuse 0x24 tag .notDefined
      else if (s.zone z).st ≠ .wet then s.refuse 0x24 tag .busy
      else (s.acknowledge z).zoneReply 0x24 tag z) := by
  rw [exec_answer rfl hs]
  refine congrArg _ ?_
  change s.ackZone tag z = _
  unfold State.ackZone
  simp only [checked_cons, checked_nil, decide_eq_true_eq, beq_iff_eq, bne_iff_ne]
  rfl

theorem mayDeclareDry_iff (s : State) (z : Nat) : s.mayDeclareDry z = true ↔ (s.tables.zone z).kind = .balance
    ∧ ((s.zone z).st = .wet ∨ (s.zone z).st = .acked) ∧ (s.owner (.branch (s.tables.zone z).branch)).mode ≠ .inService := by
  simp [State.mayDeclareDry, and_assoc]

theorem exec_ackZoneDeclareDry {s : State} (hs : s.Ready) (tag : Byte) (z : Nat) : exec (.ackZoneDeclareDry tag z) s = .next
    (if 64 ≤ z then s.refuse 0x24 tag .badField
      else if (s.zone z).st = .undefined then s.refuse 0x24 tag .notDefined
      else if ¬ s.mayDeclareDry z = true then s.refuse 0x24 tag .busy
      else ((s.enterDry z).finish).zoneReply 0x24 tag z) := by
  rw [exec_answer rfl hs]
  refine congrArg _ ?_
  change s.declareDry tag z = _
  unfold State.declareDry
  simp only [checked_cons, checked_nil, decide_eq_true_eq, beq_iff_eq, Bool.not_eq_true', Bool.not_eq_true]
  rfl

/-- R111: a zone in DRY, off the wait list. -/
def State.zoneDried (z : Nat) (s : State) : State :=
  { s with zones := s.zones.put z (ZoneRec.fresh .dry), waitList := s.waitList.filter fun x => x != z }

theorem enterDry_eq (z : Nat) (s : State) : s.enterDry z = (s.zoneDried z).withNotices (s.noticesWith (.zone z)) := by
  unfold State.enterDry
  rw [joinNotice_withNotices]
  rfl

theorem enterDry_noticed (z : Nat) (s : State) : (s.enterDry z).Noticed (.zone z) := by
  have hj := State.joinNotice_noticed (s.setZone z (ZoneRec.fresh .dry)) (.zone z)
  exact hj

/-- Settles O34, by the declare-dry byte and the zone's state. -/
theorem zoneAcknowledged : Obligations.ZoneAcknowledged := by
  refine ⟨fun s tag z hs => ⟨?_, fun d hd => ?_, fun hz => ⟨?_, ?_⟩, fun hz hu => ⟨?_, ?_⟩⟩,
    fun s tag z hs hz hd => ⟨fun hw => ?_, fun hw => ?_, fun hk hst hm => ?_, fun h => ?_⟩⟩
  · rw [exec_answer rfl hs, exec_answer rfl hs]; rfl
  · rw [exec_answer rfl hs]
    refine congrArg _ ?_
    change answerAckZone tag z d s = _
    rw [answerAckZone, yesNo_none hd]
  · rw [exec_ackZone hs, if_pos (by omega)]
  · rw [exec_ackZoneDeclareDry hs, if_pos (by omega)]
  · rw [exec_ackZone hs, if_neg (by omega), if_pos hu]
  · rw [exec_ackZoneDeclareDry hs, if_neg (by omega), if_pos hu]
  · refine ⟨(s.acknowledge z).zoneReply 0x24 tag z, ?_, reply_joinNotice_same _ _ _ _ _ _, joinNotice_with _ _⟩
    rw [exec_ackZone hs, if_neg (by omega), if_neg hd, if_neg (not_not.2 hw)]
  · rw [exec_ackZone hs, if_neg (by omega), if_neg hd, if_pos hw]
  · have hfin := Settles.finish (s.enterDry z)
    have hdry := enterDry_eq z s
    have hnoticed := enterDry_noticed z s
    have hripple := Ripple.enterDry z s
    refine ⟨((s.enterDry z).finish).zoneReply 0x24 tag z, ?_, ?_⟩
    · rw [exec_ackZoneDeclareDry hs, if_neg (by omega), if_neg hd, if_neg (not_not.2 ((mayDeclareDry_iff s z).2 ⟨hk, hst, hm⟩))]
    · generalize s.enterDry z = u at hfin hdry hnoticed hripple
      generalize u.finish = t at hfin
      refine ⟨spared_zoneReply (hripple.trans hfin.toRipple).toSpared _ _ _, hfin.zones.trans (by rw [hdry]; rfl), hfin.waitList.trans (by rw [hdry]; rfl),
        fun k => (hfin.isSome k).trans (by rw [hdry]; rfl), hnoticed.mono (congrArg TableStore.mask hfin.tables) hfin.joins⟩
  · rw [exec_ackZoneDeclareDry hs, if_neg (by omega), if_neg hd, if_pos]
    rw [mayDeclareDry_iff]
    rintro ⟨hk, hst, hm⟩
    rcases h with h | ⟨h1, h2⟩ | h
    · exact absurd (hk.symm.trans h) (by decide)
    · exact hst.elim h1 h2
    · exact hm h

end Sys2Proof.Machine
end

