-- ==== Sys2Proof/Proofs/Samples.lean ====
section
/-! Zone samples (R82, R97, R104 to R109): what a sample does to a zone, and what a sample is, O58. -/

namespace Sys2Proof.Machine

/-! ## Records of zones -/

theorem setZone_zone_same {z : Nat} (hz : z ≤ 63) (r : ZoneRec) (s : State) : (s.setZone z r).zone z = r :=
  (State.zone_setZone s z z r).trans (if_pos ⟨rfl, by omega⟩)

theorem setZone_zone_ne {z y : Nat} (h : y ≠ z) (r : ZoneRec) (s : State) : (s.setZone z r).zone y = s.zone y :=
  (State.zone_setZone s z y r).trans (if_neg fun hc => h hc.1.symm)

theorem joinNotice_zone (s : State) (o : Obj) (y : Nat) : (s.joinNotice o).zone y = s.zone y := by
  rw [joinNotice_withNotices]; rfl

theorem enterWet_zone {z : Nat} (hz : z ≤ 63) (c : WetCause) (s : State) : (s.enterWet z c).zone z = ⟨.wet, 0, 0, some c, some s.ms⟩ := by
  rw [State.zone, enterWet_zones, Table.getD_put_self _ _ _ (by omega)]

theorem enterWet_zone_ne {z y : Nat} (h : y ≠ z) (c : WetCause) (s : State) : (s.enterWet z c).zone y = s.zone y := by
  rw [State.zone, enterWet_zones, Table.getD_put_ne _ _ _ h.symm]; rfl

theorem enterDry_zone {z : Nat} (hz : z ≤ 63) (s : State) : (s.enterDry z).zone z = ⟨.dry, 0, 0, none, none⟩ := by
  rw [enterDry_eq]
  exact Table.getD_put_self _ _ _ (by omega)

theorem enterDry_zone_ne {z y : Nat} (h : y ≠ z) (s : State) : (s.enterDry z).zone y = s.zone y := by
  rw [enterDry_eq]
  exact Table.getD_put_ne _ _ _ h.symm

/-! ## Samples of a zone, state by state (R104 to R109) -/

section Samples

variable {s : State} {z : Nat}

theorem wetSample_dry (h : (s.zone z).st = .dry) (c : WetCause) : s.wetSample z c =
    if (s.tables.zone z).confirm ≤ 1 then s.enterWet z c
    else (s.setZone z { s.zone z with st := .suspect, wet := 1, cause := some c }).joinNotice (.zone z) := by
  simp only [State.wetSample, h]

theorem wetSample_suspect (h : (s.zone z).st = .suspect) (c : WetCause) : s.wetSample z c =
    if (s.tables.zone z).confirm ≤ (s.zone z).wet + 1 then s.enterWet z c
    else s.setZone z { s.zone z with wet := (s.zone z).wet + 1, cause := some c } := by
  simp only [State.wetSample, h]

theorem wetSample_wet (h : (s.zone z).st = .wet ∨ (s.zone z).st = .acked) (c : WetCause) : s.wetSample z c =
    s.recountZone z { s.zone z with dry := 0, cause := some c } := by
  rcases h with h | h <;> simp only [State.wetSample, h]

theorem wetSample_off (h : (s.zone z).st = .off ∨ (s.zone z).st = .undefined) (c : WetCause) : s.wetSample z c = s := by
  rcases h with h | h <;> simp only [State.wetSample, h]

theorem drySample_kept (h : (s.zone z).st = .dry ∨ (s.zone z).st = .off ∨ (s.zone z).st = .undefined) : s.drySample z = s := by
  rcases h with h | h | h <;> simp only [State.drySample, h]

theorem drySample_suspect (h : (s.zone z).st = .suspect) : s.drySample z = s.enterDry z := by
  simp only [State.drySample, h]

theorem drySample_wet (h : (s.zone z).st = .wet) : s.drySample z = s.setZone z { s.zone z with dry := min 255 ((s.zone z).dry + 1) } := by
  simp only [State.drySample, h]

theorem drySample_acked (h : (s.zone z).st = .acked) : s.drySample z =
    if (s.tables.zone z).clear ≤ min 255 ((s.zone z).dry + 1) then s.enterDry z
    else s.setZone z { s.zone z with dry := min 255 ((s.zone z).dry + 1) } := by
  simp only [State.drySample, h]

/-- R107, R109: a wet sample of a zone in WET or ACKED joins it only where its cause changes. -/
theorem recountZone_zones (r : ZoneRec) : (s.recountZone z r).zones = s.zones.put z r := by
  unfold State.recountZone
  split
  · rfl
  · rw [joinNotice_withNotices]; rfl

theorem recountZone_same {r : ZoneRec} (h : r.cause = (s.zone z).cause) : s.recountZone z r = s.setZone z r := if_pos h

theorem recountZone_noticed {r : ZoneRec} (h : r.cause ≠ (s.zone z).cause) : (s.recountZone z r).Noticed (.zone z) := by
  rw [State.recountZone, if_neg h]
  exact State.joinNotice_noticed _ _

theorem recountZone_zone (hz : z ≤ 63) (r : ZoneRec) : (s.recountZone z r).zone z = r := by
  rw [State.zone, recountZone_zones, Table.getD_put_self _ _ _ (by omega)]

/-- What a wet sample leaves: other zones; and its zone in the set where its state changes, the set where a suspicion goes on. -/
theorem wetSample_spec (hz : z ≤ 63) (c : WetCause) : (∀ y, y ≠ z → (s.wetSample z c).zone y = s.zone y)
    ∧ (((s.wetSample z c).zone z).st ≠ (s.zone z).st → (s.wetSample z c).Noticed (.zone z))
    ∧ (((s.wetSample z c).zone z).st = .suspect → (s.zone z).st = .suspect → (s.wetSample z c).link = s.link) := by
  cases hst : (s.zone z).st with
  | off => rw [wetSample_off (Or.inl hst)]; exact ⟨fun _ _ => rfl, fun h => absurd hst h, fun _ h => by cases h⟩
  | undefined => rw [wetSample_off (Or.inr hst)]; exact ⟨fun _ _ => rfl, fun h => absurd hst h, fun _ h => by cases h⟩
  | dry =>
    rw [wetSample_dry hst]
    split
    · exact ⟨fun y hy => enterWet_zone_ne hy c s, fun _ => enterWet_noticed z c s, fun _ h => by cases h⟩
    · exact ⟨fun y hy => (joinNotice_zone ..).trans (setZone_zone_ne hy _ s), fun _ => State.joinNotice_noticed _ _,
        fun _ h => by cases h⟩
  | suspect =>
    rw [wetSample_suspect hst]
    split
    · refine ⟨fun y hy => enterWet_zone_ne hy c s, fun _ => enterWet_noticed z c s, fun h => ?_⟩
      rw [enterWet_zone hz] at h
      cases h
    · refine ⟨fun y hy => setZone_zone_ne hy _ s, fun h => ?_, fun _ _ => rfl⟩
      rw [setZone_zone_same hz] at h
      exact absurd hst h
  | wet | acked =>
    rw [wetSample_wet (by simp [hst])]
    refine ⟨fun y hy => ?_, fun h => ?_, fun _ h => by cases h⟩
    · rw [State.zone, recountZone_zones, Table.getD_put_ne _ _ _ hy.symm]; rfl
    · rw [recountZone_zone hz] at h
      exact absurd hst h

/-- What a dry sample leaves: other zones; its zone joins exactly where its state changes. -/
theorem drySample_spec (hz : z ≤ 63) : (∀ y, y ≠ z → (s.drySample z).zone y = s.zone y)
    ∧ (((s.drySample z).zone z).st ≠ (s.zone z).st → (s.drySample z).Noticed (.zone z))
    ∧ (((s.drySample z).zone z).st = (s.zone z).st → (s.drySample z).link = s.link) := by
  have hkept : ((s.setZone z { s.zone z with dry := min 255 ((s.zone z).dry + 1) }).zone z).st = (s.zone z).st := by
    rw [setZone_zone_same hz]
  have hdried : ((s.enterDry z).zone z).st = .dry := by rw [enterDry_zone hz]
  cases hst : (s.zone z).st with
  | off => rw [drySample_kept (by simp [hst])]; exact ⟨fun _ _ => rfl, fun h => absurd hst h, fun _ => rfl⟩
  | undefined => rw [drySample_kept (by simp [hst])]; exact ⟨fun _ _ => rfl, fun h => absurd hst h, fun _ => rfl⟩
  | dry => rw [drySample_kept (by simp [hst])]; exact ⟨fun _ _ => rfl, fun h => absurd hst h, fun _ => rfl⟩
  | suspect =>
    rw [drySample_suspect hst]
    exact ⟨fun y hy => enterDry_zone_ne hy s, fun _ => enterDry_noticed z s, fun h => by rw [hdried] at h; cases h⟩
  | wet =>
    rw [drySample_wet hst]
    exact ⟨fun y hy => setZone_zone_ne hy _ s, fun h => absurd (hkept.trans hst) h, fun _ => rfl⟩
  | acked =>
    rw [drySample_acked hst]
    split
    · exact ⟨fun y hy => enterDry_zone_ne hy s, fun _ => enterDry_noticed z s, fun h => by rw [hdried] at h; cases h⟩
    · exact ⟨fun y hy => setZone_zone_ne hy _ s, fun h => absurd (hkept.trans hst) h, fun _ => rfl⟩

end Samples

/-! ## What a sample of a DRIP zone is (R82) -/

theorem mem_dripEntries (t : TableStore) (z : Nat) (e : MapEntry) : e ∈ t.dripEntries z ↔ e ∈ t.map ∧ ∃ l, e.fn = .drip z l := by
  rw [TableStore.dripEntries, List.mem_filter]
  refine and_congr_right fun _ => ?_
  cases e.fn with
  | drip z' l => simp
  | _ => simp

theorem dripReading_iff {s : State} {z : Nat} {e : MapEntry} {l : Bool} (h : e.fn = .drip z l) (b : Bool) :
    s.dripReading e = some b ↔ s.goodAt (s.tables.posOf e.card e.offset) = true ∧ b = (bitAt s.image.ret (s.tables.posOf e.card e.offset) != l) := by
  simp only [State.dripReading, h]
  split
  next hg => simp [hg, eq_comm]
  next hg => simp [hg]

/-- The readings of a zone's usable DRIP positions. -/
def State.dripReadings (s : State) (z : Nat) : List Bool := (s.tables.dripEntries z).filterMap s.dripReading

theorem mem_dripReadings (s : State) (z : Nat) (b : Bool) : b ∈ s.dripReadings z ↔ ∃ p l,
    (s.goodAt p = true ∧ ∃ e ∈ s.tables.map, e.fn = .drip z l ∧ p = s.tables.posOf e.card e.offset) ∧ b = (bitAt s.image.ret p != l) := by
  rw [State.dripReadings, List.mem_filterMap]
  constructor
  · rintro ⟨e, he, hb⟩
    obtain ⟨hm, l, hl⟩ := (mem_dripEntries _ _ _).1 he
    obtain ⟨hg, hb⟩ := (dripReading_iff hl b).1 hb
    exact ⟨_, l, ⟨hg, e, hm, hl, rfl⟩, hb⟩
  · rintro ⟨p, l, ⟨hg, e, hm, hl, rfl⟩, hb⟩
    exact ⟨e, (mem_dripEntries _ _ _).2 ⟨hm, l, hl⟩, (dripReading_iff hl b).2 ⟨hg, hb⟩⟩

theorem dripSample_unmapped {s : State} {z : Nat} (h : s.tables.dripEntries z = []) : s.dripSample z = none := by
  rw [State.dripSample, h]; rfl

theorem dripSample_unusable {s : State} {z : Nat} (h : s.tables.dripEntries z ≠ []) (hr : s.dripReadings z = []) :
    s.dripSample z = if (s.tables.zone z).failsafe = true then some (some .cardFault) else none := by
  rw [State.dripSample, if_neg (by simpa using h)]
  exact if_pos (by rw [State.dripReadings] at hr; rw [hr]; rfl)

theorem dripSample_usable {s : State} {z : Nat} (hr : s.dripReadings z ≠ []) :
    s.dripSample z = if (s.dripReadings z).any id = true then some (some .sense) else some none := by
  have h : s.tables.dripEntries z ≠ [] := fun h => hr (by rw [State.dripReadings, h]; rfl)
  rw [State.dripSample, if_neg (by simpa using h)]
  exact if_neg (by rw [List.isEmpty_iff]; exact hr)

/-! ## What a sample of a BALANCE zone is (R97) -/

/-- A BALANCE sample of a branch is formed (R97). -/
def State.BranchSampled (s : State) (b : Nat) : Prop := (s.owner (.branch b)).mode = .inService
  ∧ ∀ m, m = 2 * b ∨ m = 2 * b + 1 → (s.tables.meter m).defined = true ∧ (s.meter m).valid = true ∧ (s.meter m).stale = false

theorem branchSampled_iff (s : State) (b : Nat) : (decide ((s.owner (.branch b)).mode = .inService)
      && (s.meterValid (2 * b) && !(s.meter (2 * b)).stale) && (s.meterValid (2 * b + 1) && !(s.meter (2 * b + 1)).stale)) = true
    ↔ s.BranchSampled b := by
  simp only [State.BranchSampled, State.meterValid, Bool.and_eq_true, Bool.not_eq_true', decide_eq_true_eq, forall_eq_or_imp, forall_eq, and_assoc]

theorem balanceSample_none {s : State} {z : Nat} (h : ¬ s.BranchSampled (s.tables.zone z).branch) : s.balanceSample z = none :=
  if_neg (by rw [branchSampled_iff]; exact h)

theorem balanceSample_some {s : State} {z b : Nat} (hb : b = (s.tables.zone z).branch) (h : s.BranchSampled b) : s.balanceSample z =
    if (s.tables.zone z).threshold + (s.meter (2 * b + 1)).smooth < (s.meter (2 * b)).smooth
      ∧ (s.tables.zone z).minFlow ≤ (s.meter (2 * b)).smooth then some (some .balance) else some none := by
  subst hb
  rw [← branchSampled_iff] at h
  refine (if_pos h).trans (if_congr ?_ rfl rfl)
  rw [Bool.and_eq_true, decide_eq_true_iff, decide_eq_true_iff]

/-- Settles O58, by the zone's state, and by the positions and meters a sample is formed from. -/
theorem samplesCounted : Obligations.SamplesCounted := by
  refine ⟨fun s z cause w d hz hw hd => ?_, fun s z usable hu => ?_, fun s z b samples hb hs => ?_, fun st => by cases st <;> simp [ZoneState.enabled]⟩
  · have hw : w = s.wetSample z cause := hw
    have hd : d = s.drySample z := hd
    obtain ⟨hwne, hwst, hwlink⟩ := wetSample_spec (s := s) hz cause
    obtain ⟨hdne, hdst, hdlink⟩ := drySample_spec (s := s) hz
    subst hw hd
    refine ⟨fun h => ⟨drySample_kept (Or.inl h), fun hc => ?_, fun hc => ?_⟩, fun h => ⟨?_, fun hc => ?_, fun hc => ?_⟩, fun h => ?_,
      fun h => ?_, fun h => ⟨fun hc => ?_, fun hc => ?_⟩, fun h => ⟨wetSample_off h cause, drySample_kept (Or.inr h)⟩,
      fun y hy => ⟨hwne y hy, hdne y hy⟩, fun h => ⟨fun hc => ?_, fun hc => ?_⟩, hwlink, hdlink, hwst, hdst⟩
    · rw [wetSample_dry h, if_neg (by omega)]
      exact (joinNotice_zone ..).trans (setZone_zone_same hz _ s)
    · rw [wetSample_dry h, if_pos hc, enterWet_zone hz]
    · rw [drySample_suspect h, enterDry_zone hz]
    · rw [wetSample_suspect h, if_neg (by omega), setZone_zone_same hz]
    · rw [wetSample_suspect h, if_pos hc, enterWet_zone hz]
    · rw [wetSample_wet h, recountZone_zone hz]
    · rw [drySample_wet h, setZone_zone_same hz]
    · rw [drySample_acked h, if_neg (by omega), setZone_zone_same hz]
    · rw [drySample_acked h, if_pos hc, enterDry_zone hz]
    · rw [wetSample_wet h]
      exact recountZone_noticed fun hx => hc hx.symm
    · rw [wetSample_wet h, recountZone_same hc.symm]
      rfl
  · have hread : ∀ b, b ∈ s.dripReadings z ↔ ∃ p l, usable p l ∧ b = (bitAt s.image.ret p != l) := fun b => by
      simp only [mem_dripReadings, hu]
    have hnone : (∀ p l, ¬ usable p l) → s.dripReadings z = [] := fun h =>
      List.eq_nil_iff_forall_not_mem.2 fun b hb => by obtain ⟨p, l, hp, -⟩ := (hread b).1 hb; exact h p l hp
    have hsome : (∃ p l, usable p l) → s.dripReadings z ≠ [] := fun ⟨p, l, hp⟩ =>
      List.ne_nil_of_mem ((hread _).2 ⟨p, l, hp, rfl⟩)
    refine ⟨fun h => dripSample_unmapped (List.eq_nil_iff_forall_not_mem.2 fun e he => ?_), fun ⟨e, he, l, hl⟩ h => ?_, fun ⟨p, l, hp, hl⟩ => ?_,
      fun hp h => ?_⟩
    · obtain ⟨hm, l, hl⟩ := (mem_dripEntries _ _ _).1 he
      exact h e hm l hl
    · exact dripSample_unusable (List.ne_nil_of_mem ((mem_dripEntries _ _ _).2 ⟨he, l, hl⟩)) (hnone h)
    · rw [dripSample_usable (hsome ⟨p, l, hp⟩), if_pos]
      exact List.any_eq_true.2 ⟨true, (hread _).2 ⟨p, l, hp, by simpa using hl⟩, rfl⟩
    · rw [dripSample_usable (hsome hp), if_neg]
      rw [List.any_eq_true]
      rintro ⟨b, hb, hbt⟩
      obtain ⟨p, l, hpl, rfl⟩ := (hread b).1 hb
      simp [h p l hpl] at hbt
  · obtain rfl : samples = s.BranchSampled b := hs
    refine ⟨fun h => balanceSample_none (by rw [← hb]; exact h), fun h hdiff hmin => ?_, fun h hlow => ?_⟩
    · rw [balanceSample_some hb h, if_pos ⟨hdiff, hmin⟩]
    · rw [balanceSample_some hb h, if_neg (by omega)]

end Sys2Proof.Machine
end

