-- ==== Sys2Proof/Proofs/Valves.lean ====
section
/-! Valves that arrive, fault or are read (R5 to R11, R80, R81, R154): stroke timers, O54; readings at a scan, O53. -/

namespace Sys2Proof.Machine

/-! ## A valve's record replaced (R1) -/

theorem setValve_withNotices (s : State) (v : Nat) (r : ValveRec) :
    ∃ l, s.setValve v r = State.withNotices l { s with valves := s.valves.put v r } := by
  unfold State.setValve
  dsimp only
  split
  · exact ⟨s.link.notices, rfl⟩
  · exact ⟨_, joinNotice_withNotices _ _⟩

theorem setValve_valve_same {v : Nat} (hv : v ≤ 105) (r : ValveRec) (s : State) : (s.setValve v r).valve v = r :=
  (State.valve_setValve s v v r).trans (if_pos ⟨rfl, by omega⟩)

theorem setValve_valve_ne {v w : Nat} (h : w ≠ v) (r : ValveRec) (s : State) : (s.setValve v r).valve w = s.valve w :=
  (State.valve_setValve s v w r).trans (if_neg fun hc => h hc.1.symm)

/-! ## Operations on one valve -/

/-- From `s` to `t` no valve but `v` has changed and no zone; `v` has joined where its state has changed. -/
structure ValveOnly (v : Nat) (s t : State) : Prop extends Ripple s t where
  zones : t.zones = s.zones
  image : t.image = s.image
  others : ∀ w, w ≠ v → t.valve w = s.valve w
  noticed : (t.valve v).st ≠ (s.valve v).st → t.Noticed (.valve v)

namespace ValveOnly

variable {v : Nat} {s t u : State}

theorem refl (v : Nat) (s : State) : ValveOnly v s s := ⟨.refl s, rfl, rfl, fun _ _ => rfl, fun h => absurd rfl h⟩

theorem trans (h : ValveOnly v s t) (k : ValveOnly v t u) : ValveOnly v s u where
  toRipple := h.toRipple.trans k.toRipple
  zones := k.zones.trans h.zones
  image := k.image.trans h.image
  others w hw := (k.others w hw).trans (h.others w hw)
  noticed hne := by
    by_cases hc : (t.valve v).st = (s.valve v).st
    · exact k.noticed (by rw [hc]; exact hne)
    · exact (h.noticed hc).mono (congrArg TableStore.mask k.tables) k.joins

theorem ofStir (v : Nat) (h : Stir s t) : ValveOnly v s t where
  toRipple := Ripple.ofStir h
  zones := h.zones
  image := h.image
  others w _ := h.valve w
  noticed hne := absurd (congrArg ValveRec.st (h.valve v)) hne

theorem setValve (v : Nat) (r : ValveRec) (s : State) : ValveOnly v s (s.setValve v r) where
  toRipple := Ripple.setValve s v r
  zones := by obtain ⟨l, hl⟩ := setValve_withNotices s v r; rw [hl]; rfl
  image := by obtain ⟨l, hl⟩ := setValve_withNotices s v r; rw [hl]; rfl
  others w hw := setValve_valve_ne hw r s
  noticed hne := by
    refine State.setValve_noticed s v r fun hc => hne ?_
    rw [State.valve_setValve]
    split
    · exact congrArg Prod.fst hc
    · rfl

theorem ite {c : Prop} [Decidable c] {a b : State} (h : ValveOnly v s a) (k : ValveOnly v s b) : ValveOnly v s (if c then a else b) := by
  split
  · exact h
  · exact k

theorem arrive (v : Nat) (s : State) : ValveOnly v s (s.arrive v) := by
  unfold State.arrive
  dsimp only
  split
  · exact (setValve v _ s).trans (.ofStir v (Stir.valveReport v _))
  · exact refl v s

theorem faultValve (v : Nat) (c : FaultCause) (s : State) : ValveOnly v s (s.faultValve v c) :=
  ((setValve v _ s).trans (.ofStir v (Stir.withdraw _ _))).trans (.ofStir v (Stir.faultReport v _))

theorem deriveValve (v : Nat) (s : State) : ValveOnly v s (s.deriveValve v) := by
  unfold State.deriveValve
  dsimp only
  split
  · exact setValve v _ s
  · exact (setValve v _ s).trans (faultValve v _ _)
  · exact (setValve v _ s).trans (.ofStir v (Stir.valveReport v _))

theorem markSent (v : Nat) (s : State) : ValveOnly v s (s.markSent v) := ite (setValve v _ s) (refl v s)

theorem checkMismatch (v : Nat) (p : Pos) (x : Reading) (s : State) : ValveOnly v s (s.checkMismatch v p x) :=
  ite (ite (setValve v _ s) (faultValve v _ s)) (setValve v _ s)

theorem checkReading (v : Nat) (x : Reading) (sent : Bool) (s : State) : ValveOnly v s (s.checkReading v x sent) := by
  have h1 := setValve v { s.valve v with latest := some x } s
  unfold State.checkReading
  dsimp only
  generalize s.setValve v { s.valve v with latest := some x } = t at h1
  split
  · exact h1
  · exact h1
  · refine ite (h1.trans (faultValve v _ t)) ?_
    split
    · exact h1.trans (checkMismatch ..)
    · exact h1.trans (checkMismatch ..)
    · exact h1.trans (deriveValve v t)
    · split
      · exact ite (h1.trans (arrive v t)) h1
      · exact h1

theorem checkValve (v : Nat) (s : State) : ValveOnly v s (s.checkValve v) := by
  have h1 := markSent v s
  unfold State.checkValve
  dsimp only
  generalize s.markSent v = t at h1
  refine ite ?_ (refl v s)
  split
  · exact h1.trans (checkReading ..)
  · have h2 : ValveOnly v t (if s.tables.switchless v then t else t.setValve v { t.valve v with mismatch := 0 }) := ite (refl v t) (setValve v _ t)
    generalize (if s.tables.switchless v then t else t.setValve v { t.valve v with mismatch := 0 }) = u at h2
    exact ite ((h1.trans h2).trans (deriveValve v u)) (h1.trans h2)

end ValveOnly

/-! ## Owners told of a valve (R6, R10) -/

theorem idle_ne_fault (p : Pos) : p.idle ≠ .fault := by cases p <;> decide

theorem moving_ne_fault (p : Pos) : p.moving ≠ .fault := by cases p <;> decide

/-- A valve that takes a record other than FAULT, its owner told. -/
theorem setValve_tells {r : ValveRec} (h : r.st ≠ .fault) (v : Nat) (s : State) : s.Tells ((s.setValve v r).valveReport v) v r := by
  obtain ⟨l, hl⟩ := setValve_withNotices s v r
  refine ⟨s.setValve v r, ?_, ?_, ?_, (if_neg h).symm⟩ <;> rw [hl]
  · rfl
  · rfl
  · rw [if_neg h]; rfl

/-- R6: a valve arrives. -/
theorem arrive_eq {s : State} {v : Nat} {p : Pos} (h : (s.valve v).target = some p) :
    s.arrive v = (s.setValve v { s.valve v with st := p.idle, timer := none }).valveReport v := by
  unfold State.arrive
  dsimp only
  split
  next q hq =>
    obtain rfl : p = q := Option.some.inj (h.symm.trans hq)
    rfl
  next hq => exact absurd (h.symm.trans hq) nofun

theorem arrive_tells {s : State} {v : Nat} {p : Pos} (h : (s.valve v).target = some p) :
    s.Tells (s.arrive v) v { s.valve v with st := p.idle, timer := none } := by
  rw [arrive_eq h]
  exact setValve_tells (idle_ne_fault p) v s

theorem withdraw_withSched (s : State) (p : MoveEntry → Bool) : ∃ due, s.withdraw p = { s with sched := { s.sched with
    queue := s.sched.queue.filter fun e => !p e, lookDue := due } } := ⟨_, State.withdraw_eq s p⟩

/-- R10: a valve enters FAULT. -/
theorem faultValve_tells (v : Nat) (c : FaultCause) (s : State) :
    s.Tells (s.faultValve v c) v { s.valve v with st := .fault, cause := some c, mismatch := 0, timer := none } := by
  obtain ⟨l, hl⟩ := setValve_withNotices s v { s.valve v with st := .fault, cause := some c, mismatch := 0, timer := none }
  obtain ⟨due, hdue⟩ := withdraw_withSched (s.setValve v { s.valve v with st := .fault, cause := some c, mismatch := 0, timer := none })
    fun e => e.valve == v
  refine ⟨(s.setValve v { s.valve v with st := .fault, cause := some c, mismatch := 0, timer := none }).withdraw fun e => e.valve == v,
    ?_, ?_, ?_, (if_pos rfl).symm⟩ <;> rw [hdue, hl]
  · rfl
  · rfl
  · rw [if_pos rfl]; rfl

/-- The record a valve stands with when its owner has been told of it. -/
theorem Tells.valves {s t : State} {v : Nat} {r : ValveRec} (h : s.Tells t v r) : t.valves = s.valves.put v r := by
  obtain ⟨x, hx, -, -, ht⟩ := h
  have hvalves : x.valves = s.valves.put v r := (congrArg State.valves hx :)
  rw [ht]
  split
  · rw [(Stir.faultReport v x).valves, hvalves]
  · rw [(Stir.valveReport v x).valves, hvalves]

theorem Tells.valve {s t : State} {v : Nat} {r : ValveRec} (h : s.Tells t v r) (hv : v ≤ 105) : t.valve v = r :=
  (State.valve_put s v v r t (Tells.valves h)).trans (if_pos ⟨rfl, by omega⟩)

/-- A valve told of in FAULT has no queue entry. -/
theorem Tells.hasEntry {s t : State} {v : Nat} {r : ValveRec} (h : s.Tells t v r) (hv : v ≤ 105) (hf : r.st = .fault) : t.Stuck v := by
  have htv := Tells.valve h hv
  obtain ⟨x, hx, -, hq, ht⟩ := h
  have hvalves : x.valves = s.valves.put v r := (congrArg State.valves hx :)
  have hxv : x.valve v = r := (State.valve_put s v v r x hvalves).trans (if_pos ⟨rfl, by omega⟩)
  have hxq : x.hasEntry v = false := Bool.eq_false_of_not_eq_true fun hc => by
    obtain ⟨e, he, hev⟩ := (State.hasEntry_iff x v).1 hc
    rw [hq, if_pos hf] at he
    simpa [hev] using (List.mem_filter.1 he).2
  rw [ht, if_pos hf]
  exact (Stir.faultReport v x).stuck v ⟨Or.inl (by rw [hxv, hf]), hxq⟩

/-! ## Stroke timers (R6, R7, R154) -/

theorem strokeExpiry_due {s : State} {v times : Nat} {tm : StrokeTimer} {since : Nat} (ht : (s.valve v).timer = some tm)
    (hs : tm.since = some since) (hm : (s.valve v).st.isMoving = true) (f : State → State) :
    s.strokeExpiry v times true f = (f (s.advanceTo (since + (times * tm.stroke * Config.ticksPerMs - tm.count)))).finish := by
  have hr : ((s.valve v).timer.bind fun t => t.reaches (times * t.stroke)) =
      some (since + (times * tm.stroke * Config.ticksPerMs - tm.count)) := by
    rw [ht, Option.bind_some, StrokeTimer.reaches, hs]; rfl
  rw [State.strokeExpiry, hr, hm]
  exact if_pos rfl

theorem exec_strokeTimeArrival {s : State} (hr : s.power.running = true) {v : Nat} {tm : StrokeTimer} {since : Nat}
    (ht : (s.valve v).timer = some tm) (hs : tm.since = some since) (hm : (s.valve v).st.isMoving = true)
    (hl : s.tables.switchless v = true) : exec (.strokeTimeArrival v) s =
      .next ((s.advanceTo (since + (tm.stroke * Config.ticksPerMs - tm.count))).arrive v).finish := by
  change Host.Outcome.next (s.whenRunning _) = _
  rw [whenRunning_of hr, hl, strokeExpiry_due ht hs hm, Nat.one_mul]

theorem exec_strokeTimeout {s : State} (hr : s.power.running = true) {v : Nat} {tm : StrokeTimer} {since : Nat}
    (ht : (s.valve v).timer = some tm) (hs : tm.since = some since) (hm : (s.valve v).st.isMoving = true)
    (hl : s.tables.switchless v = false) : exec (.strokeTimeout v) s =
      .next ((s.advanceTo (since + (2 * tm.stroke * Config.ticksPerMs - tm.count))).faultValve v .strokeTimeout).finish := by
  change Host.Outcome.next (s.whenRunning _) = _
  rw [whenRunning_of hr, hl, Bool.not_false, strokeExpiry_due ht hs hm]

/-- Settles O54, by whether the valve has switches. -/
theorem strokeTimersExpire : Obligations.StrokeTimersExpire := by
  intro s v since now tm p hr hv ht hs hm htarget
  refine ⟨fun hl hnow => ?_, fun hl hnow => ?_⟩
  · have hex := exec_strokeTimeArrival hr ht hs hm hl
    have htells := arrive_tells (s := s.advanceTo (since + (tm.stroke * Config.ticksPerMs - tm.count))) (v := v) htarget
    have honly := ValveOnly.arrive v (s.advanceTo (since + (tm.stroke * Config.ticksPerMs - tm.count)))
    have hadvance : s.advanceTo (since + (tm.stroke * Config.ticksPerMs - tm.count)) = { s with clock := now } := by rw [hnow]; rfl
    rw [hadvance] at hex htells honly
    have hothers := honly.others
    have hzones := honly.zones
    have himage := honly.image
    have hspared := honly.toSpared
    generalize State.arrive v { s with clock := now } = u at hex htells honly hothers hzones himage hspared
    have hvalve : u.valve v = { s.valve v with st := p.idle, timer := none } := Tells.valve htells hv
    refine ⟨u, hex, by rw [hvalve], by rw [hvalve], htells, hothers, hspared, hzones, himage, honly.noticed ?_⟩
    rw [hvalve]
    intro hc
    have hc' : p.idle = (s.valve v).st := hc
    rw [← hc'] at hm
    cases p <;> cases hm
  · have hex := exec_strokeTimeout hr ht hs hm hl
    have htells := faultValve_tells v .strokeTimeout (s.advanceTo (since + (2 * tm.stroke * Config.ticksPerMs - tm.count)))
    have honly := ValveOnly.faultValve v .strokeTimeout (s.advanceTo (since + (2 * tm.stroke * Config.ticksPerMs - tm.count)))
    have hadvance : s.advanceTo (since + (2 * tm.stroke * Config.ticksPerMs - tm.count)) = { s with clock := now } := by rw [hnow]; rfl
    rw [hadvance] at hex htells honly
    generalize State.faultValve v .strokeTimeout { s with clock := now } = u at hex htells honly
    have hvalve : u.valve v = { s.valve v with st := .fault, cause := some .strokeTimeout, mismatch := 0, timer := none } :=
      Tells.valve htells hv
    obtain ⟨⟨-, hentry⟩, hkept⟩ := (Settles.finish u).stuck v (Tells.hasEntry htells hv rfl)
    rw [hvalve] at hkept
    have hnoticed : u.Noticed (.valve v) := honly.noticed (by
      rw [hvalve]
      intro hc
      have hc' : ValveState.fault = (s.valve v).st := hc
      rw [← hc'] at hm
      cases hm)
    have hfin := Settles.finish u
    refine ⟨u.finish, u, hex, rfl, by rw [hkept], htells, by rw [hkept], by rw [hkept], by rw [hkept]; exact htarget, by rw [hkept], hentry, ?_⟩
    generalize u.finish = t at hfin
    exact ⟨(honly.toRipple.trans hfin.toRipple).toSpared, hfin.zones.trans honly.zones,
      hnoticed.mono (congrArg TableStore.mask hfin.tables) hfin.joins⟩

end Sys2Proof.Machine
end

