-- ==== Sys2Proof/Proofs/Readings.lean ====
section
/-! Readings of valves at a scan (R5, R8, R9, R11, R80, R81), O53. -/

namespace Sys2Proof.Machine

/-! ## A record with its latest reading, before the checks -/

/-- Step 3 of R81: the latest reading is kept. -/
def State.readAs (s : State) (v : Nat) (x : Reading) : State := s.setValve v { s.valve v with latest := some x }

theorem setValve_others (v : Nat) (r : ValveRec) (s : State) : (s.setValve v r).owners = s.owners ∧ (s.setValve v r).sched = s.sched
    ∧ (s.setValve v r).tables = s.tables ∧ (s.setValve v r).image = s.image ∧ (s.setValve v r).clock = s.clock := by
  obtain ⟨l, hl⟩ := setValve_withNotices s v r
  rw [hl]
  exact ⟨rfl, rfl, rfl, rfl, rfl⟩

/-- A valve told of after its reading was kept. -/
theorem Tells.ofSetValve {s t : State} {v : Nat} {r r1 : ValveRec} (h : (s.setValve v r1).Tells t v r) : s.Tells t v r := by
  obtain ⟨x, hx, hsched, hq, ht⟩ := h
  obtain ⟨l, hl⟩ := setValve_withNotices s v r1
  rw [hl] at hx hsched hq
  have hput : (s.valves.put v r1).put v r = s.valves.put v r := table_put_put ..
  refine ⟨x, ?_, hsched, hq, ht⟩
  have hbase : State.SameButNotices { s with valves := s.valves.put v r, sched := x.sched }
      (State.withNotices l { s with valves := (s.valves.put v r1).put v r, sched := x.sched }) := by rw [hput]; rfl
  exact SameButNotices.trans hbase hx

/-- What the reading of a valve reads does not depend on the valve's record. -/
theorem reading_setValve (v w : Nat) (r : ValveRec) (s : State) : (s.setValve v r).reading w = s.reading w := by
  obtain ⟨l, hl⟩ := setValve_withNotices s v r
  rw [hl]; rfl

theorem commandedTarget_setValve (v w : Nat) (r : ValveRec) (s : State) : (s.setValve v r).commandedTarget w = s.commandedTarget w := by
  obtain ⟨l, hl⟩ := setValve_withNotices s v r
  rw [hl]; rfl

/-! ## The checks of a reading, by the valve's state (R81) -/

section Checks

variable {s : State} {v : Nat} {x : Reading} {sent : Bool}

theorem checkReading_rest (hv : v ≤ 105) (h : (s.valve v).st = .undefined ∨ (s.valve v).st = .fault) :
    s.checkReading v x sent = s.readAs v x := by
  rcases h with h | h <;> simp only [State.checkReading, setValve_valve_same hv, h, State.readAs]

theorem checkReading_both (hv : v ≤ 105) (hu : (s.valve v).st ≠ .undefined) (hf : (s.valve v).st ≠ .fault) :
    s.checkReading v .both sent = (s.readAs v .both).faultValve v .switchConflict := by
  cases h : (s.valve v).st with
  | undefined => exact absurd h hu
  | fault => exact absurd h hf
  | _ => simp only [State.checkReading, setValve_valve_same hv, h, State.readAs, if_true]

theorem checkReading_idle (hv : v ≤ 105) {p : Pos} (h : (s.valve v).st = p.idle) (hx : x ≠ .both) :
    s.checkReading v x sent = (s.readAs v x).checkMismatch v p x := by
  cases p <;> simp only [State.checkReading, setValve_valve_same hv, h, Pos.idle, State.readAs, hx, if_false]

theorem checkReading_unknown (hv : v ≤ 105) (h : (s.valve v).st = .unknown) (hx : x ≠ .both) :
    s.checkReading v x sent = (s.readAs v x).deriveValve v := by
  simp only [State.checkReading, setValve_valve_same hv, h, State.readAs, hx, if_false]

theorem checkReading_moving (hv : v ≤ 105) {p : Pos} (h : (s.valve v).st = p.moving) (ht : (s.valve v).target = some p)
    (hx : x ≠ .both) : s.checkReading v x sent =
      if sent = false ∧ (∃ at_, (s.valve v).driveSent = some at_ ∧ at_ < s.clock) ∧ x = p.reading then (s.readAs v x).arrive v
      else s.readAs v x := by
  cases hd : (s.valve v).driveSent with
  | none =>
    rw [if_neg (by simp)]
    cases p <;> simp only [State.checkReading, setValve_valve_same hv, h, Pos.moving, State.readAs, hx, if_false, hd]
  | some at_ =>
    cases p <;> simp only [State.checkReading, setValve_valve_same hv, h, Pos.moving, State.readAs, hx, if_false, hd, ht] <;>
      exact if_congr (by simp [and_assoc]) rfl rfl

/-! ## What the checks come to -/

theorem readAs_valve (hv : v ≤ 105) (x : Reading) (s : State) : (s.readAs v x).valve v = { s.valve v with latest := some x } :=
  setValve_valve_same hv _ s

theorem readAs_others (v : Nat) (x : Reading) (s : State) : (s.readAs v x).owners = s.owners ∧ (s.readAs v x).sched = s.sched := by
  obtain ⟨howners, hsched, -⟩ := setValve_others v { s.valve v with latest := some x } s
  exact ⟨howners, hsched⟩

/-- A valve that goes to FAULT at a reading. -/
theorem readAs_faults (hv : v ≤ 105) (x : Reading) (c : FaultCause) (s : State) :
    ((s.readAs v x).faultValve v c).valve v = { s.valve v with latest := some x, st := .fault, cause := some c, mismatch := 0, timer := none }
    ∧ s.Tells ((s.readAs v x).faultValve v c) v (((s.readAs v x).faultValve v c).valve v) := by
  have htells := faultValve_tells v c (s.readAs v x)
  rw [readAs_valve hv] at htells
  have hvalve := Tells.valve htells hv
  rw [hvalve]
  exact ⟨rfl, Tells.ofSetValve htells⟩

/-- R9: a reading that does not contradict an idle valve, and the first and second in a row that do. -/
theorem checkMismatch_agrees {s : State} {p : Pos} (h : x ≠ p.other.reading) :
    s.checkMismatch v p x = s.setValve v { s.valve v with mismatch := 0 } := if_neg h

theorem checkMismatch_first {s : State} {p : Pos} (h : x = p.other.reading) (hm : (s.valve v).mismatch = 0) :
    s.checkMismatch v p x = s.setValve v { s.valve v with mismatch := 1 } := (if_pos h).trans (if_pos hm)

theorem checkMismatch_second {s : State} {p : Pos} (h : x = p.other.reading) (hm : (s.valve v).mismatch ≠ 0) :
    s.checkMismatch v p x = s.faultValve v .uncommanded := (if_pos h).trans (if_neg hm)

theorem mismatch_kept (hv : v ≤ 105) (n : Nat) (x : Reading) (s : State) :
    ((s.readAs v x).setValve v { (s.readAs v x).valve v with mismatch := n }).valve v = { s.valve v with latest := some x, mismatch := n }
    ∧ ((s.readAs v x).setValve v { (s.readAs v x).valve v with mismatch := n }).owners = s.owners
    ∧ ((s.readAs v x).setValve v { (s.readAs v x).valve v with mismatch := n }).sched = s.sched := by
  obtain ⟨howners, hsched, -⟩ := setValve_others v { (s.readAs v x).valve v with mismatch := n } (s.readAs v x)
  obtain ⟨howners', hsched'⟩ := readAs_others v x s
  refine ⟨?_, howners.trans howners', hsched.trans hsched'⟩
  rw [setValve_valve_same hv, readAs_valve hv]

/-! ## The derivation of an UNKNOWN valve (R11) -/

theorem idle_ne_unknown (p : Pos) : p.idle ≠ .unknown := by cases p <;> decide

/-- R11: what a valve that reads something other than BOTH is derived to, its drive mapped. -/
theorem derivedValve_read {s : State} {p : Pos} (hr : s.reading v = some x) (hx : x ≠ .both) (hc : s.commandedTarget v = some p) :
    s.derivedValve v = if x = p.reading then { s.valve v with target := some p, latest := some x, st := p.idle }
      else { s.valve v with target := some p, latest := some x, st := p.moving, driveSent := some s.clock, timer := some (s.freshTimer v) } := by
  cases x with
  | both => exact absurd rfl hx
  | _ => simp only [State.derivedValve, hr, hc, Option.some_or]

/-- A derivation that settles a valve outside UNKNOWN and FAULT. -/
theorem deriveValve_tells {s : State} (hu : (s.derivedValve v).st ≠ .unknown) (hf : (s.derivedValve v).st ≠ .fault) :
    s.Tells (s.deriveValve v) v (s.derivedValve v) := by
  have h : s.deriveValve v = (s.setValve v (s.derivedValve v)).valveReport v := by
    unfold State.deriveValve
    dsimp only
    split
    next hc => exact absurd hc hu
    next hc => exact absurd hc hf
    next => rfl
  rw [h]
  exact setValve_tells hf v s

/-! ## The latest reading stands after the checks -/

theorem faultValve_latest (hv : v ≤ 105) (c : FaultCause) (s : State) : ((s.faultValve v c).valve v).latest = (s.valve v).latest := by
  rw [Tells.valve (faultValve_tells v c s) hv]

theorem arrive_latest (hv : v ≤ 105) (s : State) : ((s.arrive v).valve v).latest = (s.valve v).latest := by
  cases ht : (s.valve v).target with
  | none => rw [State.arrive, ht]
  | some p => rw [Tells.valve (arrive_tells ht) hv]

theorem checkMismatch_latest (hv : v ≤ 105) (p : Pos) (x : Reading) (s : State) :
    ((s.checkMismatch v p x).valve v).latest = (s.valve v).latest := by
  unfold State.checkMismatch
  dsimp only
  split
  · split
    · rw [setValve_valve_same hv]
    · exact faultValve_latest hv _ s
  · rw [setValve_valve_same hv]

theorem derivedValve_latest {s : State} (hr : s.reading v = some x) : (s.derivedValve v).latest = some x := by
  cases hc : s.commandedTarget v with
  | none => cases x <;> simp only [State.derivedValve, hr, hc, Option.some_or]
  | some p =>
    cases x with
    | both => simp only [State.derivedValve, hr, hc, Option.some_or]
    | _ =>
      simp only [State.derivedValve, hr, hc, Option.some_or]
      split <;> rfl

theorem deriveValve_latest (hv : v ≤ 105) {s : State} (hr : s.reading v = some x) : ((s.deriveValve v).valve v).latest = some x := by
  unfold State.deriveValve
  dsimp only
  split
  · rw [setValve_valve_same hv, derivedValve_latest hr]
  · rw [faultValve_latest hv, setValve_valve_same hv, derivedValve_latest hr]
  · rw [(Stir.valveReport v _).valve, setValve_valve_same hv, derivedValve_latest hr]

theorem checkReading_latest (hv : v ≤ 105) (hr : s.reading v = some x) : ((s.checkReading v x sent).valve v).latest = some x := by
  have h1 : (s.readAs v x).reading v = some x := (reading_setValve ..).trans hr
  have h2 : ((s.readAs v x).valve v).latest = some x := by rw [readAs_valve hv]
  unfold State.checkReading
  dsimp only
  rw [State.readAs] at h1 h2
  generalize s.setValve v { s.valve v with latest := some x } = t at h1 h2
  split
  · exact h2
  · exact h2
  · split
    · rw [faultValve_latest hv, h2]
    · split
      · rw [checkMismatch_latest hv, h2]
      · rw [checkMismatch_latest hv, h2]
      · exact deriveValve_latest hv h1
      · split
        · split
          · rw [arrive_latest hv, h2]
          · exact h2
        · exact h2

end Checks

/-! ## The drive marked sent (R80), and a valve that shows nothing (R81) -/

theorem driveSentNow_iff (s : State) (v : Nat) : s.driveSentNow v = true ↔ (s.valve v).st.isMoving = true ∧ (s.valve v).driveSent = none
    ∧ ∃ p, s.tables.drivePos v = some p ∧ bitAt s.image.copy p = bitAt s.image.out p := by
  unfold State.driveSentNow
  cases hp : s.tables.drivePos v <;> simp [and_assoc]

theorem markSent_marked {s : State} {v : Nat} (h : s.driveSentNow v = true) :
    s.markSent v = s.setValve v { s.valve v with driveSent := some s.clock, timer := some (s.freshTimer v) } := if_pos h

theorem markSent_left {s : State} {v : Nat} (h : s.driveSentNow v = false) : s.markSent v = s := if_neg (by rw [h]; exact Bool.false_ne_true)

theorem markSent_others (s : State) (v : Nat) : (s.markSent v).reading v = s.reading v ∧ ((s.markSent v).valve v).st = (s.valve v).st := by
  cases h : s.driveSentNow v with
  | false => rw [markSent_left h]; exact ⟨rfl, rfl⟩
  | true =>
    rw [markSent_marked h]
    refine ⟨reading_setValve .., ?_⟩
    rw [State.valve_setValve]
    split <;> rfl

theorem markSent_unknown {s : State} {v : Nat} (h : (s.valve v).st = .unknown) : s.markSent v = s :=
  markSent_left (Bool.eq_false_of_not_eq_true fun hc => by
    obtain ⟨hm, -⟩ := (driveSentNow_iff s v).1 hc
    rw [h] at hm
    cases hm)

theorem checkValve_unread {s : State} {v : Nat} (hp : (s.tables.valve v).present = true) (hr : s.reading v = none) :
    s.checkValve v = if ((if s.tables.switchless v = true then s.markSent v
          else (s.markSent v).setValve v { (s.markSent v).valve v with mismatch := 0 }).valve v).st = .unknown
      then (if s.tables.switchless v = true then s.markSent v
          else (s.markSent v).setValve v { (s.markSent v).valve v with mismatch := 0 }).deriveValve v
      else (if s.tables.switchless v = true then s.markSent v
          else (s.markSent v).setValve v { (s.markSent v).valve v with mismatch := 0 }) := by
  have hread := (markSent_others s v).1.trans hr
  simp only [State.checkValve, hp, if_true, hread]

/-- R11: a valve that shows nothing is settled only where it is switchless and driven. -/
theorem derivedValve_unread {s : State} {v : Nat} (hr : s.reading v = none) (hs : s.tables.switchless v = false) :
    s.derivedValve v = { s.valve v with target := (s.commandedTarget v).or (s.valve v).target } := by
  cases hc : s.commandedTarget v <;> simp [State.derivedValve, hr, hc, hs]

theorem derivedValve_switchless {s : State} {v : Nat} {p : Pos} (hr : s.reading v = none) (hs : s.tables.switchless v = true)
    (hc : s.commandedTarget v = some p) : s.derivedValve v = { s.valve v with st := p.idle, target := some p } := by
  simp [State.derivedValve, hr, hc, hs]

theorem derivedValve_undriven {s : State} {v : Nat} (hr : s.reading v = none) (hc : s.commandedTarget v = none) :
    s.derivedValve v = s.valve v := by
  simp [State.derivedValve, hr, hc]

theorem deriveValve_waits {s : State} {v : Nat} (h : (s.derivedValve v).st = .unknown) : s.deriveValve v = s.setValve v (s.derivedValve v) := by
  simp only [State.deriveValve, h]

theorem switchless_iff (t : TableStore) (v : Nat) : t.switchless v = true ↔ t.openPos v = none ∧ t.closedPos v = none := by
  simp [TableStore.switchless]

/-! ## What the switches show (R5) -/

section Switches

variable {s : State} {v : Nat}

theorem reading_none (ho : s.tables.openPos v = none) (hc : s.tables.closedPos v = none) : s.reading v = none := by
  simp only [State.reading, ho, hc]

theorem reading_open {p : Nat} (ho : s.tables.openPos v = some p) (hc : s.tables.closedPos v = none) :
    s.reading v = if s.goodAt p = true then some (if bitAt s.image.ret p then .opened else .closed) else none := by
  simp only [State.reading, ho, hc]

theorem reading_closed {p : Nat} (ho : s.tables.openPos v = none) (hc : s.tables.closedPos v = some p) :
    s.reading v = if s.goodAt p = true then some (if bitAt s.image.ret p then .closed else .opened) else none := by
  simp only [State.reading, ho, hc]

theorem reading_pair {p q : Nat} (ho : s.tables.openPos v = some p) (hc : s.tables.closedPos v = some q) :
    s.reading v = if s.goodAt p = true ∧ s.goodAt q = true then some (
      if bitAt s.image.ret p = true ∧ bitAt s.image.ret q = true then .both
      else if bitAt s.image.ret p = true then .opened else if bitAt s.image.ret q = true then .closed else .neither) else none := by
  simp only [State.reading, ho, hc, Bool.and_eq_true]
  refine if_congr Iff.rfl (congrArg some ?_) rfl
  cases bitAt s.image.ret p <;> cases bitAt s.image.ret q <;> rfl

end Switches

/-- Settles O53, by the valve's state and its reading. -/
theorem readingsChecked : Obligations.ReadingsChecked := by
  refine ⟨fun s t v x sent r hv hread ht hr => ?_, fun s v hv => ?_, rfl, rfl, rfl, rfl⟩
  · subst ht hr
    refine ⟨checkReading_latest hv hread, fun h => ?_, fun hu hf hx => ?_, fun p h hx => ⟨fun hm => ?_, fun hm => ?_⟩, fun p h hx => ?_,
      fun p h htarget hx => ⟨fun at_ hd hlt hsent hxp => ?_, fun hno => ?_⟩, fun p h hx hc => ?_⟩
    · rw [checkReading_rest hv h, readAs_valve hv]
      exact ⟨rfl, readAs_others v x s⟩
    · subst hx
      rw [checkReading_both hv hu hf]
      exact readAs_faults hv ..
    · have hxb : x ≠ .both := by rw [hx]; cases p <;> decide
      rw [checkReading_idle hv h hxb, checkMismatch_first hx (by rw [readAs_valve hv]; exact hm)]
      exact mismatch_kept hv 1 x s
    · have hxb : x ≠ .both := by rw [hx]; cases p <;> decide
      rw [checkReading_idle hv h hxb, checkMismatch_second hx (by rw [readAs_valve hv]; exact hm)]
      exact readAs_faults hv ..
    · have hxb : x ≠ .both := by rcases hx with rfl | rfl <;> (cases p <;> decide)
      have hxo : x ≠ p.other.reading := by rcases hx with rfl | rfl <;> (cases p <;> decide)
      rw [checkReading_idle hv h hxb, checkMismatch_agrees hxo]
      exact mismatch_kept hv 0 x s
    · rw [checkReading_moving hv h htarget hx, if_pos ⟨hsent, ⟨at_, hd, hlt⟩, hxp⟩]
      have htells := arrive_tells (s := s.readAs v x) (v := v) (p := p) (by rw [readAs_valve hv]; exact htarget)
      rw [readAs_valve hv] at htells
      have hvalve := Tells.valve htells hv
      rw [hvalve]
      exact ⟨rfl, Tells.ofSetValve htells⟩
    · rw [checkReading_moving hv h htarget hx, if_neg, readAs_valve hv]
      · exact ⟨rfl, readAs_others v x s⟩
      · rintro ⟨hsent, ⟨at_, hd, hlt⟩, hxp⟩
        rcases hno with h1 | h1 | h1
        · rw [hsent] at h1; cases h1
        · exact h1 hxp
        · exact absurd (h1 at_ hd) (by omega)
    · have hread' : (s.readAs v x).reading v = some x := (reading_setValve ..).trans hread
      have hc' : (s.readAs v x).commandedTarget v = some p := (commandedTarget_setValve ..).trans hc
      obtain ⟨-, -, htables, -, hclock⟩ := setValve_others v { s.valve v with latest := some x } s
      have hderived := derivedValve_read hread' hx hc'
      have hst : ((s.readAs v x).derivedValve v).st = p.idle ∨ ((s.readAs v x).derivedValve v).st = p.moving := by
        rw [hderived]; split
        · exact Or.inl rfl
        · exact Or.inr rfl
      have htells := deriveValve_tells (s := s.readAs v x) (v := v) (by rcases hst with h | h <;> rw [h] <;> cases p <;> decide)
        (by rcases hst with h | h <;> rw [h] <;> cases p <;> decide)
      have hvalve := Tells.valve htells hv
      rw [checkReading_unknown hv h hx, hvalve]
      refine ⟨?_, Tells.ofSetValve htells⟩
      rw [hderived, readAs_valve hv, State.freshTimer]
      rw [State.readAs, htables, hclock]
  · refine ⟨driveSentNow_iff s v, fun h => by rw [markSent_marked h, setValve_valve_same hv]; rfl, markSent_left, fun t ht hp hr => ?_, rfl,
      switchless_iff _ _, fun h => ?_, fun p ho hc => reading_open ho hc, fun p ho hc => reading_closed ho hc, fun p q ho hc => ⟨fun h => ?_, fun h1 h2 => ?_⟩,
      (ValveOnly.checkValve v s).toSpared, (ValveOnly.checkValve v s).zones, (ValveOnly.checkValve v s).others, (ValveOnly.checkValve v s).noticed⟩
    · obtain ⟨-, hmst⟩ := markSent_others s v
      subst ht
      rw [checkValve_unread hp hr]
      refine ⟨fun hs => ?_, fun hs => ?_⟩
      · rw [hs, if_neg Bool.false_ne_true, setValve_valve_same hv]
        refine ⟨fun hne => ?_, fun hu => ?_⟩
        · rw [if_neg (by dsimp only; rw [hmst]; exact hne), setValve_valve_same hv]
        · rw [if_pos (by dsimp only; rw [hmst]; exact hu), markSent_unknown hu]
          have hr' : (s.setValve v { s.valve v with mismatch := 0 }).reading v = none := (reading_setValve ..).trans hr
          have hs' : (s.setValve v { s.valve v with mismatch := 0 }).tables.switchless v = false := by
            rw [(setValve_others ..).2.2.1]; exact hs
          have hd := derivedValve_unread hr' hs'
          rw [setValve_valve_same hv, commandedTarget_setValve] at hd
          rw [deriveValve_waits (by rw [hd]; exact hu), setValve_valve_same hv, hd]
      · rw [hs, if_pos rfl]
        refine ⟨fun hne => by rw [if_neg (by rw [hmst]; exact hne)], fun p hu hc => ?_, fun hu hc => ?_⟩
        · rw [if_pos (by rw [hmst]; exact hu), markSent_unknown hu]
          have hd := derivedValve_switchless hr hs hc
          have htells := deriveValve_tells (s := s) (v := v) (by rw [hd]; exact idle_ne_unknown p) (by rw [hd]; exact idle_ne_fault p)
          rw [Tells.valve htells hv, hd]
        · rw [if_pos (by rw [hmst]; exact hu), markSent_unknown hu]
          have hd := derivedValve_undriven hr hc
          rw [deriveValve_waits (by rw [hd]; exact hu), setValve_valve_same hv, hd]
    · obtain ⟨ho, hc⟩ := (switchless_iff _ _).1 h
      exact reading_none ho hc
    · rw [reading_pair ho hc, if_neg]
      rintro ⟨h1, h2⟩
      rcases h with h | h
      · rw [h] at h1; cases h1
      · rw [h] at h2; cases h2
    · rw [reading_pair ho hc, if_pos ⟨h1, h2⟩]

end Sys2Proof.Machine
end

