-- ==== Sys2Proof/Proofs/Scans.lean ====
section
/-! Accepted scans (R64, R79 to R83): what they set, deliver and form, O45. -/

namespace Sys2Proof.Machine

/-! ## The INPUTS record at a scan (R69) -/

theorem inputsRecord_eq_iff {s t : State} (h : t.tables = s.tables) : s.inputsRecord = t.inputsRecord ↔ ¬ s.InputsChange t := by
  have hentry : ∀ x : State, x.inputsRecord = (List.range 32).map fun n => (x.tables.findPos (· == .inp n)).map x.inputAt := fun _ => rfl
  rw [hentry, hentry, h, List.map_inj_left]
  constructor
  · rintro heq ⟨n, hn, p, hp, hne⟩
    have hat := heq n (List.mem_range.2 (by omega))
    rw [hp] at hat
    exact hne (Option.some.inj hat).symm
  · intro hno n hn
    cases hp : s.tables.findPos (· == .inp n) with
    | none => rfl
    | some p =>
      refine congrArg some (Classical.byContradiction fun hne => hno ⟨n, ?_, p, hp, fun hx => hne hx.symm⟩)
      have := List.mem_range.1 hn
      omega

/-- What a position shows depends on the image and the map alone. -/
theorem inputAt_congr {s t : State} (hi : { t.image with out := [] } = ({ s.image with out := [] } : Image)) (ht : t.tables = s.tables) (p : Nat) :
    t.inputAt p = s.inputAt p := by
  have hret : t.image.ret = s.image.ret := (congrArg Image.ret hi :)
  have hfresh : t.image.fresh = s.image.fresh := (congrArg Image.fresh hi :)
  have hgood : t.image.cardGood = s.image.cardGood := (congrArg Image.cardGood hi :)
  simp only [State.inputAt, State.goodAt, hret, hfresh, hgood, ht]

theorem inputsChange_congr {s t u : State} (h : Ripple t u) : s.InputsChange u ↔ s.InputsChange t := by
  simp only [State.InputsChange, inputAt_congr h.image h.tables]

/-! ## The image unit's share (R79) -/

/-- An accepted SCAN in the image unit. -/
def State.imaged (payload ret : List Bool) (s : State) : State :=
  { s with
    image := ⟨s.image.out, payload, ret, s.cardGoodOf ret, true, some s.clock⟩
    periodicFrom := some s.clock
    scanDue := s.scanDue || (s.image.out != payload && s.tables.scan.image) }

theorem takeImage_eq (payload ret : List Bool) (s : State) :
    s.takeImage payload ret = (s.imaged payload ret).joinInputsIfChanged s := by
  unfold State.takeImage
  dsimp only
  rw [imageTrigger_eq]
  rfl

theorem takeImage_changed {s : State} {payload ret : List Bool} (h : s.InputsChange (s.imaged payload ret)) :
    s.takeImage payload ret = (s.imaged payload ret).withNotices (s.noticesWith .inputs) := by
  rw [takeImage_eq, State.joinInputsIfChanged, if_neg (fun hc => (inputsRecord_eq_iff (s := s) (t := s.imaged payload ret) rfl).1 hc h),
    joinNotice_withNotices]
  rfl

theorem takeImage_unchanged {s : State} {payload ret : List Bool} (h : ¬ s.InputsChange (s.imaged payload ret)) :
    s.takeImage payload ret = s.imaged payload ret := by
  rw [takeImage_eq, State.joinInputsIfChanged, if_pos ((inputsRecord_eq_iff (s := s) (t := s.imaged payload ret) rfl).2 h)]

theorem takeImage_withNotices (payload ret : List Bool) (s : State) :
    ∃ l, s.takeImage payload ret = (s.imaged payload ret).withNotices l := by
  by_cases h : s.InputsChange (s.imaged payload ret)
  · exact ⟨_, takeImage_changed h⟩
  · exact ⟨s.link.notices, takeImage_unchanged h⟩

theorem inputsChange_withNotices {s t : State} {l : List Obj} : s.InputsChange (t.withNotices l) ↔ s.InputsChange t := Iff.rfl

theorem takeImage_notices {s t : State} {payload ret : List Bool} (ht : t = s.takeImage payload ret) :
    (s.InputsChange t → t.link.notices = s.noticesWith .inputs) ∧ (¬ s.InputsChange t → t.link.notices = s.link.notices) := by
  obtain ⟨l, hl⟩ := takeImage_withNotices payload ret s
  have hiff : s.InputsChange t ↔ s.InputsChange (s.imaged payload ret) := by rw [ht, hl]; exact inputsChange_withNotices
  rw [hiff, ht]
  exact ⟨fun h => by rw [takeImage_changed h]; rfl, fun h => by rw [takeImage_unchanged h]; rfl⟩

theorem takeImage_noticed {s : State} {payload ret : List Bool} (h : s.InputsChange (s.takeImage payload ret)) :
    (s.takeImage payload ret).Noticed .inputs := by
  obtain ⟨l, hl⟩ := takeImage_withNotices payload ret s
  rw [hl, inputsChange_withNotices] at h
  rw [takeImage_eq, State.joinInputsIfChanged, if_neg fun hc => (inputsRecord_eq_iff (s := s) (t := s.imaged payload ret) rfl).1 hc h]
  exact State.joinNotice_noticed _ _

/-! ## The delivery (R79, R90) -/

theorem tickDue_iff (s : State) : s.tickDue = true ↔ ∀ last, s.flow.lastTick = some last → last + 100 ≤ s.ms := by
  unfold State.tickDue
  cases s.flow.lastTick with
  | none => simp
  | some last =>
    simp only [Option.some.injEq, forall_eq']
    exact decide_eq_true_iff

theorem flowTick_undue {s : State} (h : s.tickDue = false) : s.flowTick = s := if_neg (by rw [h]; exact Bool.false_ne_true)

/-- Where no tick is due the delivery leaves the flow unit. -/
theorem deliver_flow (order : ScanOrder) {s : State} (h : s.tickDue = false) : (s.deliver order).flow = s.flow := by
  have hkeep : ∀ {a b : State}, Ripple a b → a.flow = s.flow ∧ a.ms = s.ms → b.flow = s.flow ∧ b.ms = s.ms := fun hr ⟨hf, hm⟩ =>
    ⟨hr.flow.trans hf, hr.ms.trans hm⟩
  have htick : ∀ {a : State}, a.flow = s.flow ∧ a.ms = s.ms → a.flowTick = a := fun {a} ⟨hf, hm⟩ => flowTick_undue (by
    rw [State.tickDue, hf, hm]; exact h)
  have hvalves : ∀ {a : State}, a.flow = s.flow ∧ a.ms = s.ms → a.checkValves.flow = s.flow ∧ a.checkValves.ms = s.ms :=
    hkeep (Ripple.checkValves _)
  have hzones : ∀ {a : State}, a.flow = s.flow ∧ a.ms = s.ms → a.sampleZones.flow = s.flow ∧ a.sampleZones.ms = s.ms :=
    hkeep (Ripple.sampleZones _)
  have hstart : s.flow = s.flow ∧ s.ms = s.ms := ⟨rfl, rfl⟩
  cases order with
  | valvesZonesFlow => rw [State.deliver, htick (hzones (hvalves hstart))]; exact (hzones (hvalves hstart)).1
  | valvesFlowZones => rw [State.deliver, htick (hvalves hstart)]; exact (hzones (hvalves hstart)).1
  | zonesValvesFlow => rw [State.deliver, htick (hvalves (hzones hstart))]; exact (hvalves (hzones hstart)).1
  | zonesFlowValves => rw [State.deliver, htick (hzones hstart)]; exact (hvalves (hzones hstart)).1
  | flowValvesZones => rw [State.deliver, htick hstart]; exact (hzones (hvalves hstart)).1
  | flowZonesValves => rw [State.deliver, htick hstart]; exact (hvalves (hzones hstart)).1

/-- The state a scan leaves, but for the flow unit a ripple of what the image unit took. -/
theorem delivered_ripple (order : ScanOrder) (s : State) :
    Ripple { s with flow := (s.deliver order).finish.flow } (s.deliver order).finish := by
  have hfin := Ripple.finish (s.deliver order)
  rw [hfin.flow]
  exact (Ripple.deliver order s).trans hfin

/-! ## The end of an accepted frame with its cards -/

/-- The state at the end of an accepted frame, the cards as they then stand (R31 to R33). -/
def State.frameAccepted (s : State) (f : Frame) (ret : List Bool) : State :=
  ((s.endFrame f).ringAccepted f.purpose.kind f.payload ret).countAccept

theorem atFrameEnd_frameAccepted {s : State} {p : Purpose} {f : Frame} {cdi : List Bool} (h : s.Returns p f cdi true)
    {allows : Purpose → Bool} (ha : allows p = true) (k : Frame → List Bool → State → State) :
    s.atFrameEnd allows true cdi k = k f (f.returned cdi) (s.frameAccepted f (f.returned cdi)) := by
  obtain ⟨⟨hr, hf, rfl, hu⟩, hc⟩ := h
  unfold State.atFrameEnd
  rw [whenRunning_of hr, hf]
  simp [hu, ha, hc, State.frameAccepted]

theorem frameAccepted_eq (s : State) (f : Frame) (ret : List Bool) : s.frameAccepted f ret = s.acceptedEnd f (s.frameAccepted f ret) := rfl

/-- R31: the latch of a card holds what a SCAN sent it, and its service register stands. -/
theorem frameAccepted_latch {s : State} {f : Frame} {ret : List Bool} {c w : Nat} {r : CardRegs} (hk : f.purpose.kind = .scan)
    (hc : s.tables.cards[c]? = some w) (hr : s.ring[c]? = some r) : ∃ r', (s.frameAccepted f ret).ring[c]? = some r'
      ∧ r'.service = r.service ∧ ∀ i < w, bitAt r'.latch i = bitAt f.payload (s.tables.firstPos c + i) := by
  refine ⟨(s.endFrame f).cardAfter .scan f.payload ret c w r, ?_, rfl, fun i hi => ?_⟩
  · change ((s.endFrame f).ringAccepted f.purpose.kind f.payload ret).ring[c]? = _
    rw [hk, State.ringAccepted, State.mapRing_getElem?]
    have hr' : (s.endFrame f).ring[c]? = some r := hr
    have hc' : (s.endFrame f).tables.cards[c]? = some w := hc
    rw [hr', hc']
    rfl
  · change bitAt (sliceBits f.payload (s.tables.firstPos c) w ++ r.latch.drop w) i = _
    have hlen : (sliceBits f.payload (s.tables.firstPos c) w).length = w := by simp [sliceBits]
    rw [bitAt_append, hlen, if_pos hi]
    simp [sliceBits, bitAt, hi]

theorem exec_scanAccepted {s : State} {f : Frame} {cdi : List Bool} (h : s.Returns .scan f cdi true) (order : ScanOrder) :
    exec (.scanAccepted cdi order) s = .next ((s.frameAccepted f (f.returned cdi)).acceptScan f (f.returned cdi) order) := by
  have hend := atFrameEnd_frameAccepted h (allows := fun p => p == .scan) rfl fun f ret s => s.acceptScan f ret order
  exact congrArg Host.Outcome.next hend

/-- What an accepted scan sets before it is delivered: all but what the users change. -/
theorem acceptScan_ripple (f : Frame) (ret : List Bool) (order : ScanOrder) (s : State) :
    Ripple { s.takeImage f.payload ret with flow := (s.acceptScan f ret order).flow } (s.acceptScan f ret order) :=
  delivered_ripple order _

/-- What is spared does not depend on the notice pending set. -/
theorem Spared.ofNotices {s t : State} {l : List Obj} (h : Spared (s.withNotices l) t) : Spared s t where
  clock := h.clock
  lastStart := h.lastStart
  power := h.power
  rateHigh := h.rateHigh
  tables := h.tables
  locks := h.locks
  stored := h.stored
  copyValid := h.copyValid
  commit := h.commit
  link := (congrArg (fun k : Link => { k with notices := s.link.notices }) h.link :)
  chain := h.chain
  ring := h.ring
  image := h.image
  periodicFrom := h.periodicFrom
  flow := h.flow
  freeCount := h.freeCount
  pending := h.pending

theorem imaged_spared (f : Frame) (ret : List Bool) (order : ScanOrder) (s : State) :
    Spared { s with
      image := ⟨s.image.out, f.payload, ret, s.cardGoodOf ret, true, some s.clock⟩
      periodicFrom := some s.clock
      flow := (s.acceptScan f ret order).flow } (s.acceptScan f ret order) := by
  have hripple := acceptScan_ripple f ret order s
  obtain ⟨l, hl⟩ := takeImage_withNotices f.payload ret s
  rw [hl] at hripple
  generalize s.acceptScan f ret order = t at hripple
  have h : Spared (State.withNotices l { s.imaged f.payload ret with flow := t.flow }) t := hripple.toSpared
  have h' := Spared.ofNotices h
  exact { h' with }

theorem acceptScan_due {f : Frame} {ret : List Bool} {s : State} (h : s.image.out ≠ f.payload) (hi : s.tables.scan.image = true)
    (order : ScanOrder) : (s.acceptScan f ret order).scanDue = true := by
  refine (acceptScan_ripple f ret order s).due ?_
  obtain ⟨l, hl⟩ := takeImage_withNotices f.payload ret s
  rw [hl]
  change (s.scanDue || (s.image.out != f.payload && s.tables.scan.image)) = true
  rw [hi, bne_iff_ne.2 h, Bool.and_self, Bool.or_true]

theorem acceptScan_inputs {f : Frame} {ret : List Bool} {s : State} {order : ScanOrder} (h : s.InputsChange (s.acceptScan f ret order)) :
    (s.acceptScan f ret order).Noticed .inputs := by
  have hripple := acceptScan_ripple f ret order s
  have htaken := takeImage_noticed (s := s) (payload := f.payload) (ret := ret)
  generalize s.acceptScan f ret order = t at h hripple
  generalize s.takeImage f.payload ret = u at hripple htaken
  have hchange : s.InputsChange u := (inputsChange_congr (s := s) hripple).1 h
  exact State.Noticed.mono (htaken hchange) (congrArg TableStore.mask hripple.tables) hripple.joins

theorem acceptScan_flow {f : Frame} {ret : List Bool} {s : State} (order : ScanOrder) (h : s.tickDue = false) :
    (s.acceptScan f ret order).flow = s.flow := by
  obtain ⟨l, hl⟩ := takeImage_withNotices f.payload ret s
  have hdue : (s.takeImage f.payload ret).tickDue = false := by rw [hl]; exact h
  rw [State.acceptScan, (Ripple.finish _).flow, deliver_flow order hdue, hl]
  rfl

/-! ## Card-good flags and counts (R64, R83) -/

theorem cardGoodOf_getElem {s : State} {c : Nat} (hc : c < s.tables.cards.length) (ret : List Bool) :
    (∀ b, (∀ e ∈ s.tables.map, ∀ l, e.fn = .cardOk c l → (bitAt ret (s.tables.posOf e.card e.offset) == l) = b)
      → ((∀ e ∈ s.tables.map, ∀ l, e.fn ≠ .cardOk c l) → b = true) → bitAt (s.cardGoodOf ret) c = b) := by
  intro b hb hnone
  unfold State.cardGoodOf bitAt
  rw [List.getD_eq_getElem?_getD, List.getElem?_map, List.getElem?_range hc]
  simp only [Option.map_some, Option.getD_some]
  split
  next e he =>
    have hmem := List.mem_of_find?_eq_some he
    have htest := List.find?_some he
    dsimp only at htest
    split at htest
    next c' l hl =>
      obtain rfl : c' = c := eq_of_beq htest
      exact hb e hmem l hl
    next => cases htest
  next he =>
    refine (hnone fun e hm l hl => ?_).symm
    have htest := List.find?_eq_none.1 he e hm
    rw [hl] at htest
    exact htest (beq_self_eq_true c)

theorem locateFrom_posOf (c0 : Nat) (cards : List Nat) : ∀ {c i w : Nat}, cards[c]? = some w → i < w →
    locateFrom c0 cards ((cards.take c).sum + i) = some (c0 + c, i) := by
  induction cards generalizing c0 with
  | nil => intro c i w h; simp at h
  | cons v cards ih =>
    intro c i w h hi
    cases c with
    | zero =>
      obtain rfl : v = w := by simpa using h
      simp [locateFrom, hi]
    | succ c =>
      rw [List.getElem?_cons_succ] at h
      rw [List.take_succ_cons, List.sum_cons, locateFrom, if_neg (by omega),
        show v + (cards.take c).sum + i - v = (cards.take c).sum + i by omega, ih (c0 + 1) h hi, show c0 + 1 + c = c0 + (c + 1) by omega]

theorem goodAt_posOf {s : State} {c i w : Nat} (h : s.tables.cards[c]? = some w) (hi : i < w) :
    s.goodAt (s.tables.posOf c i) = s.image.cardGood.getD c true := by
  have hloc : s.tables.locate (s.tables.posOf c i) = some (c, i) := by
    have := locateFrom_posOf 0 s.tables.cards h hi
    rwa [Nat.zero_add] at this
  rw [State.goodAt, hloc]

theorem bitsNat_cons (b : Bool) (l : List Bool) : bitsNat (b :: l) = (if b then 2 ^ l.length else 0) + bitsNat l := by
  induction l using List.reverseRecOn with
  | nil => cases b <;> rfl
  | append_singleton l x ih =>
    rw [← List.cons_append, bitsNat_append_singleton, bitsNat_append_singleton, ih, Nat.bit_val, Nat.bit_val, List.length_append]
    cases b
    · simp
    · simp only [if_true, List.length_singleton]; ring

theorem bitsNat_eq_sum (l : List Bool) :
    bitsNat l = ((List.range l.length).map fun i => if bitAt l i then 2 ^ (l.length - 1 - i) else 0).sum := by
  induction l with
  | nil => rfl
  | cons b l ih =>
    rw [bitsNat_cons, ih, List.length_cons, List.range_succ_eq_map, List.map_cons, List.sum_cons, List.map_map]
    congr 1
    refine congrArg List.sum (List.map_congr_left fun i _ => ?_)
    simp only [Function.comp_apply, Nat.add_sub_cancel, show l.length - (i + 1) = l.length - 1 - i by omega]
    rfl

theorem meterCount_unmapped {s : State} {m : Nat} (h : s.tables.findPos (· == .flow m) = none) : s.meterCount m = none := by
  rw [State.meterCount, h]

theorem meterCount_bad {s : State} {m p : Nat} (h : s.tables.findPos (· == .flow m) = some p) (hg : s.goodAt p = false) :
    s.meterCount m = none := by
  rw [State.meterCount, h]
  exact if_neg (by rw [hg]; exact Bool.false_ne_true)

theorem meterCount_good {s : State} {m p : Nat} (h : s.tables.findPos (· == .flow m) = some p) (hg : s.goodAt p = true)
    (hl : p + 8 ≤ s.image.ret.length) :
    s.meterCount m = some ((List.range 8).map fun i => if bitAt s.image.ret (p + i) then 2 ^ (7 - i) else 0).sum := by
  have hlen : ((s.image.ret.drop p).take 8).length = 8 := by rw [List.length_take, List.length_drop]; omega
  rw [State.meterCount, h]
  refine (if_pos hg).trans (congrArg some ?_)
  rw [bitsNat_eq_sum, hlen]
  refine congrArg List.sum (List.map_congr_left fun i hi => ?_)
  rw [bitAt_drop_take _ _ _ (List.mem_range.1 hi)]

/-! ## The users' shares, one by one (R80, R82, R90, R97) -/

theorem checkValve_read {s : State} {v : Nat} {x : Reading} (hp : (s.tables.valve v).present = true) (hr : s.reading v = some x) :
    s.checkValve v = (s.markSent v).checkReading v x (s.driveSentNow v) := by
  have hread := (markSent_others s v).1.trans hr
  simp only [State.checkValve, hp, if_true, hread]

theorem sampleDrip_some {s : State} {z : Nat} (hk : (s.tables.zone z).kind = .drip) (he : (s.zone z).st.enabled = true)
    {x : Option WetCause} (hx : s.dripSample z = some x) : s.sampleDrip z = (s.takeSample z x).finish := by
  rw [State.sampleDrip, if_pos (by rw [he, decide_eq_true hk]; rfl), hx]

theorem sampleDrip_none {s : State} {z : Nat} (hx : s.dripSample z = none) : s.sampleDrip z = s := by
  rw [State.sampleDrip, hx]
  exact ite_self s

theorem sampleBalance_some {s : State} {z : Nat} (hk : (s.tables.zone z).kind = .balance) (he : (s.zone z).st.enabled = true)
    {x : Option WetCause} (hx : s.balanceSample z = some x) : s.sampleBalance z = (s.takeSample z x).finish := by
  rw [State.sampleBalance, if_pos (by rw [he, decide_eq_true hk]; rfl), hx]

theorem sampleBalance_none {s : State} {z : Nat} (hx : s.balanceSample z = none) : s.sampleBalance z = s := by
  rw [State.sampleBalance, hx]
  exact ite_self s

/-- R90: a meter at a flow tick. -/
theorem tickMeters_meter (s : State) {m : Nat} (hm : m ≤ 96) : s.tickMeters.meter m = s.meterAfterTick s.ms m (s.meter m) :=
  Table.getD_mapIdx _ _ _ _ (by omega)

/-! ## The end of an accepted SCAN (R79) -/

/-- The cards and the free count as the frame end left them stand through the delivery. -/
theorem acceptedEnd_acceptScan (s : State) (f : Frame) (cdi : List Bool) (order : ScanOrder) :
    s.acceptedEnd f ((s.frameAccepted f (f.returned cdi)).acceptScan f (f.returned cdi) order) = s.frameAccepted f (f.returned cdi) := by
  have hspared := imaged_spared f (f.returned cdi) order (s.frameAccepted f (f.returned cdi))
  have hend := frameAccepted_eq s f (f.returned cdi)
  generalize (s.frameAccepted f (f.returned cdi)).acceptScan f (f.returned cdi) order = t at hspared
  generalize s.frameAccepted f (f.returned cdi) = v at hspared hend
  exact (acceptedEnd_congr s f hspared.ring hspared.freeCount).trans hend.symm

theorem acceptScan_eq (f : Frame) (ret : List Bool) (order : ScanOrder) (s : State) :
    s.acceptScan f ret order = ((s.takeImage f.payload ret).deliver order).finish := State.acceptScan.eq_1 f ret order s

theorem frameAccepted_clock (s : State) (f : Frame) (ret : List Bool) : (s.frameAccepted f ret).clock = max s.clock f.clockEnd := rfl

theorem frameAccepted_kept (s : State) (f : Frame) (ret : List Bool) : (s.frameAccepted f ret).image = s.image
    ∧ (s.frameAccepted f ret).tables = s.tables ∧ (s.frameAccepted f ret).flow = s.flow := ⟨rfl, rfl, rfl⟩

theorem scanAccepted_frame {s : State} {f : Frame} {cdi : List Bool} {order : ScanOrder} {now : Nat} (h : s.Returns .scan f cdi true)
    (hnow : now = max s.clock f.clockEnd) :
    ∃ t : State, exec (.scanAccepted cdi order) s = .next t
      ∧ t = ((((s.acceptedEnd f t).takeImage f.payload (f.returned cdi)).deliver order)).finish
      ∧ Spared { s.acceptedEnd f t with
          image := ⟨s.image.out, f.payload, f.returned cdi, s.cardGoodOf (f.returned cdi), true, some now⟩
          periodicFrom := some now
          flow := t.flow } t
      ∧ (s.image.out ≠ f.payload → s.tables.scan.image = true → t.scanDue = true)
      ∧ (s.InputsChange t → t.Noticed .inputs)
      ∧ (∀ last, s.flow.lastTick = some last → now / 2000 < last + 100 → t.flow = s.flow)
      ∧ (∀ c w r, s.tables.cards[c]? = some w → s.ring[c]? = some r → ∃ r', t.ring[c]? = some r' ∧ r'.service = r.service
          ∧ ∀ i < w, bitAt r'.latch i = bitAt f.payload (s.tables.firstPos c + i)) := by
  have hkind : f.purpose.kind = .scan := by
    obtain ⟨⟨-, -, hp, -⟩, -⟩ := h
    rw [hp]; rfl
  obtain ⟨himage, htables, hflow⟩ := frameAccepted_kept s f (f.returned cdi)
  have hgood : (s.frameAccepted f (f.returned cdi)).cardGoodOf (f.returned cdi) = s.cardGoodOf (f.returned cdi) := rfl
  have hms : (s.frameAccepted f (f.returned cdi)).ms = now / 2000 := by rw [hnow]; rfl
  have hclock : (s.frameAccepted f (f.returned cdi)).clock = now := hnow.symm
  have hspared := imaged_spared f (f.returned cdi) order (s.frameAccepted f (f.returned cdi))
  have hdue := acceptScan_due (f := f) (ret := f.returned cdi) (s := s.frameAccepted f (f.returned cdi)) (order := order)
  have hinputs := acceptScan_inputs (f := f) (ret := f.returned cdi) (s := s.frameAccepted f (f.returned cdi)) (order := order)
  have hundue := acceptScan_flow (f := f) (ret := f.returned cdi) (s := s.frameAccepted f (f.returned cdi)) order
  have hend := acceptedEnd_acceptScan s f cdi order
  have heq := acceptScan_eq f (f.returned cdi) order (s.frameAccepted f (f.returned cdi))
  have hlatch := fun c w r => frameAccepted_latch (s := s) (f := f) (ret := f.returned cdi) (c := c) (w := w) (r := r) hkind
  have hchange : ∀ t, (s.frameAccepted f (f.returned cdi)).InputsChange t ↔ s.InputsChange t := fun t => Iff.rfl
  refine ⟨_, exec_scanAccepted h order, ?_⟩
  rw [hend]
  generalize (s.frameAccepted f (f.returned cdi)).acceptScan f (f.returned cdi) order = t at *
  generalize s.frameAccepted f (f.returned cdi) = v at *
  have htaken : Spared { v with
      image := ⟨s.image.out, f.payload, f.returned cdi, s.cardGoodOf (f.returned cdi), true, some now⟩
      periodicFrom := some now
      flow := t.flow } t := by
    rw [← hclock, ← hgood, ← himage]
    exact hspared
  refine ⟨heq, htaken, fun ho hi => hdue (by rwa [himage]) (by rwa [htables]) , fun hc => hinputs ((hchange t).2 hc), fun last hl hlt => ?_,
    fun c w r hc hr => ?_⟩
  · refine (hundue (Bool.eq_false_iff.2 fun hd => ?_)).trans hflow
    have := (tickDue_iff v).1 hd last (by rw [hflow]; exact hl)
    rw [hms] at this
    omega
  · have hring : t.ring = v.ring := hspared.ring
    rw [hring]
    exact hlatch c w r hc hr

/-- Settles O45, by the image unit's share, the order of the users, and what each user forms. -/
theorem scanAccepted : Obligations.ScanAccepted := by
  refine ⟨fun s f cdi order now h hnow => ?_, fun s t payload ret ht => ?_, fun s order => by cases order <;> rfl,
    fun s => ⟨rfl, rfl, fun v x hp hr => checkValve_read hp hr,
      fun z hk he => ⟨fun x hx => sampleDrip_some hk he hx, fun hx => sampleDrip_none hx⟩, tickDue_iff s, flowTick_undue, fun h => if_pos h,
      rfl, rfl, fun m hm => ?_, fun z hk he => ⟨fun x hx => sampleBalance_some hk he hx, fun hx => sampleBalance_none hx⟩⟩,
    fun s ret => ⟨by simp [State.cardGoodOf], fun c hc => ⟨fun hno => ?_, fun e he l hl hu => ?_⟩, fun c i w h hi => goodAt_posOf h hi,
      fun m h => meterCount_unmapped h, fun m p h => ⟨fun hg => meterCount_bad h hg, fun hg hl => meterCount_good h hg hl⟩⟩⟩
  · exact scanAccepted_frame h hnow
  · obtain ⟨l, hl⟩ := takeImage_withNotices payload ret s
    refine ⟨?_, takeImage_notices ht⟩
    rw [ht, hl]
    rfl
  · rw [tickMeters_meter s hm, State.meterAfterTick]
    cases (s.tables.meter m).defined <;> cases s.meterCount m <;> rfl
  · exact cardGoodOf_getElem hc ret true (fun e he l hl => absurd hl (hno e he l)) fun _ => rfl
  · refine cardGoodOf_getElem hc ret _ (fun x hx m hm => ?_) fun hno => absurd hl (hno e he l)
    obtain rfl := hu x hx m hm
    obtain rfl : m = l := by rw [hl] at hm; injection hm with _ hm; exact hm.symm
    rfl

end Sys2Proof.Machine
end

