-- ==== Sys2Proof/Proofs/BrokenChain.lean ====
section
/-! The entry into BROKEN and the way out of it (R44 to R46, R112, R155): the third rejection in a row, O52, and probes, O48. -/

namespace Sys2Proof.Machine

/-! ## The end of an event outside RUNNING leaves the valves -/

theorem rederiveJobs_valves (s : State) : s.rederiveJobs.valves = s.valves := by
  have hsame := rederiveJobs_same s
  generalize s.rederiveJobs = t at hsame ⊢
  exact (congrArg State.valves hsame :)

theorem escalate_valves (slot i : Nat) (s : State) : (s.escalate slot i).valves = s.valves := by
  have hput : ∀ j : Option Job, ((s.setJob slot j).joinNotice (.job slot)).valves = s.valves := fun j =>
    (Stir.joinNotice (s.setJob slot j) _).valves
  unfold State.escalate
  split
  · rfl
  · split
    · rfl
    · dsimp only
      split
      · exact hput _
      · split
        · exact hput _
        · exact ((Stir.raiseHold _ _).valves).trans (hput _)

theorem escalateLoop_valves (n : Nat) : ∀ s : State, (escalateLoop n s).valves = s.valves := by
  induction n with
  | zero => exact fun _ => rfl
  | succ n ih =>
    intro s
    unfold escalateLoop
    split
    · rfl
    · exact (ih _).trans ((rederiveJobs_valves _).trans (escalate_valves ..))

/-- R149: outside RUNNING no move is admitted, so the end of an event leaves every valve. -/
theorem finish_valves {s : State} (h : s.chain.st ≠ .running) : s.finish.valves = s.valves := by
  obtain ⟨-, due, x, hlooks, hfin⟩ := finish_parts s
  have hchain : s.followJobs.chain = s.chain := (Settles.followJobs s).chain
  have hvalves : s.followJobs.valves = s.valves := by
    rw [State.followJobs]
    exact (escalateLoop_valves 512 _).trans (rederiveJobs_valves s)
  generalize s.finish = u at hlooks hfin ⊢
  generalize s.followJobs = t at hlooks hchain hvalves
  have hx := Looks.broken hlooks (by rw [hchain]; exact h)
  rw [hfin, hx]
  exact hvalves

/-! ## What the entry into BROKEN does to a zone (R112) -/

/-- `t` follows `s` by consequences that leave every valve. -/
structure Calm (s t : State) : Prop extends Ripple s t where
  valves : t.valves = s.valves

namespace Calm
variable {s t u : State}

theorem refl (s : State) : Calm s s := ⟨Ripple.refl s, rfl⟩

theorem trans (h : Calm s t) (k : Calm t u) : Calm s u := ⟨h.toRipple.trans k.toRipple, k.valves.trans h.valves⟩

theorem finish {s : State} (h : s.chain.st ≠ .running) : Calm s s.finish := ⟨Ripple.finish s, finish_valves h⟩

theorem noticed (h : Calm s t) {o : Obj} (hn : s.Noticed o) : t.Noticed o := hn.mono (congrArg TableStore.mask h.tables) h.joins

end Calm

theorem createJob_valves (slot z : Nat) (s : State) : (s.createJob slot z).valves = s.valves := by
  rw [(createJob_stir slot z s).valves, State.jobPlaced, joinNotice_withNotices]
  rfl

theorem handOff_valves (z : Nat) (s : State) : (s.handOff z).valves = s.valves := by
  unfold State.handOff
  split
  · rfl
  · split
    · exact createJob_valves ..
    · exact (apply_ite State.valves ..).trans (ite_self _)

theorem enterWet_valves (z : Nat) (c : WetCause) (s : State) : (s.enterWet z c).valves = s.valves := by
  have hwet : ((s.setZone z ⟨.wet, 0, 0, some c, some s.ms⟩).joinNotice (.zone z)).valves = s.valves := (Stir.joinNotice _ _).valves
  unfold State.enterWet
  dsimp only
  split
  · exact (handOff_valves ..).trans hwet
  · exact hwet

theorem recountZone_valves (z : Nat) (r : ZoneRec) (s : State) : (s.recountZone z r).valves = s.valves := by
  unfold State.recountZone
  split
  · rfl
  · exact (Stir.joinNotice _ _).valves

section
variable {s : State} {z : Nat} (hk : (s.tables.zone z).kind = .drip) (hf : (s.tables.zone z).failsafe = true)
include hk hf

theorem zoneChainLoss_enters (h : (s.zone z).st = .dry ∨ (s.zone z).st = .suspect) : s.zoneChainLoss z = s.enterWet z .chainLoss := by
  rcases h with h | h
  · exact zoneChainLoss_dry hk hf h
  · simp only [State.zoneChainLoss, hk, hf, h, and_self, if_true]

theorem zoneChainLoss_wet (h : (s.zone z).st = .wet ∨ (s.zone z).st = .acked) :
    s.zoneChainLoss z = s.recountZone z { s.zone z with dry := 0, cause := some .chainLoss } := by
  rcases h with h | h <;> simp only [State.zoneChainLoss, hk, hf, h, and_self, if_true]

theorem zoneChainLoss_off (h : (s.zone z).st = .undefined ∨ (s.zone z).st = .off) : s.zoneChainLoss z = s := by
  rcases h with h | h <;> simp only [State.zoneChainLoss, hk, hf, h, and_self, if_true]

end

theorem zoneChainLoss_valves (z : Nat) (s : State) : (s.zoneChainLoss z).valves = s.valves := by
  unfold State.zoneChainLoss
  dsimp only
  split
  · split
    · exact enterWet_valves ..
    · exact enterWet_valves ..
    · exact recountZone_valves ..
    · exact recountZone_valves ..
    · rfl
    · rfl
  · rfl

/-- R112: one zone at the entry into BROKEN. -/
def State.zoneLost (s : State) (z : Nat) : State :=
  if (s.tables.zone z).kind = .drip && (s.tables.zone z).failsafe then (s.zoneChainLoss z).finish else s

theorem zoneLost_calm {s : State} (h : s.chain.st ≠ .running) (z : Nat) : Calm s (s.zoneLost z) := by
  have hloss : Calm s (s.zoneChainLoss z) := ⟨Ripple.zoneChainLoss z s, zoneChainLoss_valves z s⟩
  unfold State.zoneLost
  split
  · exact hloss.trans (Calm.finish (by rw [hloss.chain]; exact h))
  · exact Calm.refl s

theorem finish_zone (s : State) (z : Nat) : s.finish.zone z = s.zone z := (Settles.finish s).zone z

section
variable {s : State} {z : Nat}

theorem zoneLost_kept (h : (s.tables.zone z).kind = .balance ∨ (s.tables.zone z).failsafe = false) : s.zoneLost z = s := by
  refine if_neg ?_
  rcases h with h | h <;> simp [h]

variable (hk : (s.tables.zone z).kind = .drip) (hf : (s.tables.zone z).failsafe = true)
include hk hf

theorem zoneLost_drip : s.zoneLost z = (s.zoneChainLoss z).finish := if_pos (by simp [hk, hf])

theorem zoneLost_dry (hz : z ≤ 63) (h : (s.zone z).st = .dry ∨ (s.zone z).st = .suspect) :
    (s.zoneLost z).zone z = ⟨.wet, 0, 0, some .chainLoss, some s.ms⟩ ∧ (s.zoneLost z).Noticed (.zone z) := by
  rw [zoneLost_drip hk hf, finish_zone, zoneChainLoss_enters hk hf h, enterWet_zone hz]
  exact ⟨rfl, (enterWet_noticed z _ s).mono (congrArg TableStore.mask (Ripple.finish _).tables) (Ripple.finish _).joins⟩

theorem zoneLost_wet (hz : z ≤ 63) (h : (s.zone z).st = .wet ∨ (s.zone z).st = .acked) :
    (s.zoneLost z).zone z = { s.zone z with dry := 0, cause := some .chainLoss }
    ∧ ((s.zone z).cause ≠ some .chainLoss → (s.zoneLost z).Noticed (.zone z)) := by
  rw [zoneLost_drip hk hf, finish_zone, zoneChainLoss_wet hk hf h, recountZone_zone hz]
  exact ⟨rfl, fun hc => (recountZone_noticed fun he => hc he.symm).mono (congrArg TableStore.mask (Ripple.finish _).tables)
    (Ripple.finish _).joins⟩

theorem zoneLost_off (h : (s.zone z).st = .undefined ∨ (s.zone z).st = .off) : (s.zoneLost z).zone z = s.zone z := by
  rw [zoneLost_drip hk hf, finish_zone, zoneChainLoss_off hk hf h]

end

theorem zoneLost_ne {z y : Nat} (h : y ≠ z) (s : State) : (s.zoneLost z).zone y = s.zone y := by
  have hloss : (s.zoneChainLoss z).zone y = s.zone y := by
    unfold State.zoneChainLoss
    dsimp only
    split
    · split
      · exact enterWet_zone_ne h _ s
      · exact enterWet_zone_ne h _ s
      · rw [State.zone, recountZone_zones, Table.getD_put_ne _ _ _ h.symm]; rfl
      · rw [State.zone, recountZone_zones, Table.getD_put_ne _ _ _ h.symm]; rfl
      · rfl
      · rfl
    · rfl
  unfold State.zoneLost
  split
  · exact (finish_zone ..).trans hloss
  · rfl

/-! ## All zones in order -/

def State.zonesLost (s : State) (l : List Nat) : State := l.foldl State.zoneLost s

theorem zonesLost_calm (l : List Nat) : ∀ {s : State}, s.chain.st ≠ .running → Calm s (s.zonesLost l) := by
  induction l with
  | nil => exact fun _ => Calm.refl _
  | cons z l ih =>
    intro s h
    have hz := zoneLost_calm h z
    exact hz.trans (ih (by rw [hz.chain]; exact h))

theorem zonesLost_ne {y : Nat} (l : List Nat) : ∀ {s : State}, y ∉ l → (s.zonesLost l).zone y = s.zone y := by
  induction l with
  | nil => exact fun _ => rfl
  | cons z l ih =>
    intro s h
    obtain ⟨hz, hl⟩ := not_or.1 fun hm => h (List.mem_cons.2 hm)
    exact (ih hl).trans (zoneLost_ne hz s)

/-- A zone's own turn comes once: before it only other zones have changed, and after it. -/
theorem zonesLost_turn {z : Nat} {l : List Nat} (hl : l.Nodup) (hz : z ∈ l) {s : State} (h : s.chain.st ≠ .running) :
    ∃ x : State, Calm s x ∧ x.zone z = s.zone z ∧ Calm (x.zoneLost z) (s.zonesLost l)
      ∧ (s.zonesLost l).zone z = (x.zoneLost z).zone z := by
  obtain ⟨a, b, rfl⟩ := List.append_of_mem hz
  obtain ⟨-, hzb, hdisj⟩ := List.nodup_append.1 hl
  have ha : z ∉ a := fun hm => hdisj z hm z List.mem_cons_self rfl
  have hb : z ∉ b := (List.nodup_cons.1 hzb).1
  have hfold : s.zonesLost (a ++ z :: b) = ((s.zonesLost a).zoneLost z).zonesLost b := by
    simp only [State.zonesLost, List.foldl_append, List.foldl_cons]
  have hcalm := zonesLost_calm a h
  have hturn := zoneLost_calm (s := s.zonesLost a) (by rw [hcalm.chain]; exact h) z
  refine ⟨s.zonesLost a, hcalm, zonesLost_ne a ha, ?_, ?_⟩
  · rw [hfold]
    exact zonesLost_calm b (by rw [hturn.chain, hcalm.chain]; exact h)
  · rw [hfold]
    exact zonesLost_ne b hb

/-! ## The entry into BROKEN (R44, R155) -/

theorem foldl_refuse (k : Nat) (st : Status) (l : List ServiceEntry) : ∀ s : State,
    l.foldl (fun s e => s.refuse k e.tag st) s
      = { s with link := { s.link with replies := s.link.replies ++ l.map fun e => ⟨k, e.tag, st, []⟩ } } := by
  induction l with
  | nil => intro s; simp
  | cons e l ih =>
    intro s
    rw [List.foldl_cons, ih]
    simp [State.refuse, State.reply, List.append_assoc]

theorem dropService_eq (s : State) : s.dropService = { s with
    chain := { s.chain with queue := [], streak := 0 }
    link := { s.link with replies := s.link.replies ++ s.chain.queue.map fun e => ⟨0x31, e.tag, .chainDown, []⟩ } } := by
  rw [State.dropService, foldl_refuse]

theorem dropSession_eq (s : State) : s.dropSession = { s with
    chain := { s.chain with session := none }
    link := { s.link with replies := s.link.replies ++ s.chain.session.toList.map fun p => ⟨0x32, p.tag, .chainDown, []⟩ } } := by
  unfold State.dropSession
  split
  · next p hp => rw [hp]; rfl
  · next hp =>
    rw [hp]
    simp only [Option.toList_none, List.map_nil, List.append_nil]
    rw [← hp]

/-- The state at the entry into BROKEN before the zones are told. -/
def State.chainBroken (s : State) : State :=
  { s with
    chain := { s.chain with st := .broken, queue := [], streak := 0, session := none, echoNext := false }
    valves := s.valves.mapIdx fun _ r => { r with timer := r.timer.map (StrokeTimer.pause s.clock) }
    link := { s.link with
      replies := s.link.replies ++ s.chain.queue.map (fun e => ⟨0x31, e.tag, .chainDown, []⟩)
        ++ s.chain.session.toList.map (fun p => ⟨0x32, p.tag, .chainDown, []⟩)
      notices := s.noticesWith .chain } }

theorem enterBroken_eq (s : State) : s.enterBroken = s.chainBroken.zonesLost (List.range 64) := by
  have hstate : ((((s.setChainState .broken).dropService).dropSession).mapTimers
      (StrokeTimer.pause (((s.setChainState .broken).dropService).dropSession).clock)).withChain
        { (((s.setChainState .broken).dropService).dropSession).chain with echoNext := false } = s.chainBroken := by
    rw [dropSession_eq, dropService_eq, setChainState_eq]
    rfl
  have henter : s.enterBroken = State.zonesLost (((((s.setChainState .broken).dropService).dropSession).mapTimers
      (StrokeTimer.pause (((s.setChainState .broken).dropService).dropSession).clock)).withChain
        { (((s.setChainState .broken).dropService).dropSession).chain with echoNext := false }) (List.range 64) := rfl
  rw [henter, hstate]

theorem valveRec_beyond (s : State) {v : Nat} (h : 106 ≤ v) : s.valve v = ValveRec.fresh .undefined := by
  unfold State.valve Table.getD
  rw [List.getD_eq_getElem?_getD, List.getElem?_eq_none (by simpa using h)]
  rfl

theorem chainBroken_timer (s : State) (v : Nat) : (s.chainBroken.valve v).timer = (s.valve v).timer.map (StrokeTimer.pause s.clock) := by
  by_cases hv : v < 106
  · exact congrArg ValveRec.timer (Table.getD_mapIdx _ _ _ _ hv)
  · rw [valveRec_beyond _ (by omega), valveRec_beyond _ (by omega)]
    rfl

theorem chainBroken_noticed (s : State) : s.chainBroken.Noticed .chain := by
  have hjoined := setChainState_noticed .broken s
  rw [setChainState_eq] at hjoined
  exact hjoined

/-- Two states that differ in what a rejected frame leaves of the chain and the cards, and in whether a scan is owed. -/
structure RejectedFrom (s w : State) (now : Nat) : Prop where
  clock : w.clock = now
  chain : w.chain.queue = s.chain.queue ∧ w.chain.session = s.chain.session ∧ w.chain.adopted = s.chain.adopted
    ∧ w.chain.rejects = 3 ∧ w.chain.rejectTotal = s.chain.rejectTotal + 1
  tables : w.tables = s.tables
  image : w.image = s.image
  zones : w.zones = s.zones
  valves : w.valves = s.valves
  replies : w.link.replies = s.link.replies

theorem exec_thirdRejection {s : State} {f : Frame} {cdi : List Bool} (h : s.Returns f.purpose f cdi false) (hscan : f.purpose ≠ .probeScan)
    (hecho : f.purpose ≠ .probeEcho) (hr : s.chain.rejects = 2) (hst : s.chain.st ≠ .broken) :
    ∃ w : State, RejectedFrom s w (max s.clock f.clockEnd) ∧ exec (rejectionOf cdi f.purpose) s = .next w.enterBroken := by
  obtain ⟨v, hv, hex⟩ := exec_rejection h
  have hprobe : f.purpose.isProbe = false := by
    cases hp : f.purpose with
    | probeScan => exact absurd hp hscan
    | probeEcho => exact absurd hp hecho
    | _ => rfl
  have hthree : v.chain.rejects = 3 := by rw [hv, rejectedEnd_rejects, hr]; rfl
  have hstate : v.chain.st ≠ .broken := by rw [hv]; exact hst
  have hfrom : RejectedFrom s v (max s.clock f.clockEnd) :=
    { clock := by rw [hv]; rfl
      chain := ⟨by rw [hv]; rfl, by rw [hv]; rfl, by rw [hv]; rfl, hthree, by rw [hv]; rfl⟩
      tables := by rw [hv]; rfl
      image := by rw [hv]; rfl
      zones := by rw [hv]; rfl
      valves := by rw [hv]; rfl
      replies := by rw [hv]; rfl }
  refine ⟨v.owing f.purpose, ?_, hex.trans (congrArg _ (if_pos ?_))⟩
  · cases f.purpose with
    | scan => exact { hfrom with }
    | _ => exact hfrom
  · rw [hthree, hprobe, bne_iff_ne.2 hstate]
    rfl

/-- Settles O52, by the turn each zone has when the chain enters BROKEN. -/
theorem thirdRejectionBreaks : Obligations.ThirdRejectionBreaks := by
  intro s f cdi now hnow h hscan hecho hr hst
  obtain ⟨w, hw, hex⟩ := exec_thirdRejection h hscan hecho hr hst
  obtain ⟨hqueue, hsession, hadopted, hrejects, htotal⟩ := hw.chain
  have hbroken : w.chainBroken.chain.st ≠ .running := nofun
  have hcalm := zonesLost_calm (List.range 64) hbroken
  have hturn := fun z (hz : z ≤ 63) => zonesLost_turn (z := z) (l := List.range 64) List.nodup_range (List.mem_range.2 (by omega)) hbroken
  have hbeyond := fun z (hz : 63 < z) => zonesLost_ne (y := z) (s := w.chainBroken) (List.range 64)
    (fun hm => by have := List.mem_range.1 hm; omega)
  have hzone : ∀ z, w.chainBroken.zone z = s.zone z := fun z => by rw [State.zone, State.zone, ← hw.zones]; rfl
  have htimer : ∀ v, (w.chainBroken.valve v).timer = (s.valve v).timer.map (StrokeTimer.pause now) := fun v => by
    rw [chainBroken_timer, hw.clock, hnow, State.valve, State.valve, hw.valves]
  have htables : w.chainBroken.tables = s.tables := hw.tables
  rw [enterBroken_eq] at hex
  refine ⟨_, hex, ?_⟩
  generalize w.chainBroken.zonesLost (List.range 64) = t at hcalm hturn hbeyond ⊢
  have hchain := hcalm.chain
  have hst' : t.chain.st = .broken := by rw [hchain]; rfl
  refine ⟨hst', by rw [hchain]; exact hrejects, by rw [hchain]; exact htotal, by rw [hchain]; exact hadopted, by rw [hchain]; rfl,
    by rw [hchain]; rfl, hcalm.noticed (chainBroken_noticed w), by simp [State.alertAsserted, State.alertConditions, hst'],
    hcalm.tables.trans htables, ?_, ?_, fun v => ?_, fun z hz hk hf => ?_, fun z hkept => ?_⟩
  · have hret : t.image.ret = w.chainBroken.image.ret := (congrArg Image.ret hcalm.toRipple.image :)
    exact hret.trans (congrArg Image.ret hw.image)
  · rw [hcalm.replies, ← hqueue, ← hsession, ← hw.replies]
    rfl
  · rw [State.valve, hcalm.valves]
    refine (htimer v).trans (congrArg (fun g => Option.map g _) (funext fun tm => ?_))
    obtain ⟨count, since, stroke⟩ := tm
    cases since with
    | none => rfl
    | some _ => rfl
  · obtain ⟨x, hx, hxz, hxt, hz'⟩ := hturn z hz
    have hxk : (x.tables.zone z).kind = .drip := by rw [hx.tables, htables]; exact hk
    have hxf : (x.tables.zone z).failsafe = true := by rw [hx.tables, htables]; exact hf
    have hxs : x.zone z = s.zone z := hxz.trans (hzone z)
    have hms : x.ms = t.ms := by
      have hfrom := (zoneLost_calm (s := x) (by rw [hx.chain]; exact hbroken) z).ms
      rw [← hfrom, hxt.ms]
    constructor
    · intro hdry
      obtain ⟨hrec, hnoticed⟩ := zoneLost_dry hxk hxf hz (by rw [hxs]; exact hdry)
      exact ⟨by rw [hz', hrec, hms], hxt.noticed hnoticed⟩
    · intro hwet
      obtain ⟨hrec, hnoticed⟩ := zoneLost_wet hxk hxf hz (by rw [hxs]; exact hwet)
      exact ⟨by rw [hz', hrec, hxs], fun hc => hxt.noticed (hnoticed (by rw [hxs]; exact hc))⟩
  · by_cases hz : z ≤ 63
    · obtain ⟨x, hx, hxz, -, hz'⟩ := hturn z hz
      have hxs : x.zone z = s.zone z := hxz.trans (hzone z)
      have hxd : x.tables.zone z = s.tables.zone z := by rw [hx.tables, htables]
      have hlost : (x.zoneLost z).zone z = x.zone z := by
        by_cases hd : (x.tables.zone z).kind = .drip ∧ (x.tables.zone z).failsafe = true
        · obtain ⟨hk, hf⟩ := hd
          refine zoneLost_off hk hf ?_
          rw [hxs]
          rw [hxd] at hk hf
          rcases hkept with hb | hn | ho | hu
          · exact absurd (hk.symm.trans hb) nofun
          · exact absurd (hf.symm.trans hn) nofun
          · exact Or.inr ho
          · exact Or.inl hu
        · rw [zoneLost_kept]
          by_cases hk : (x.tables.zone z).kind = .drip
          · exact Or.inr (Bool.eq_false_iff.2 fun hf => hd ⟨hk, hf⟩)
          · cases hk' : (x.tables.zone z).kind with
            | drip => exact absurd hk' hk
            | balance => exact Or.inl rfl
      rw [hz', hlost, hxs]
    · exact (hbeyond z (by omega)).trans (hzone z)

/-! ## Probes (R45, R46) -/

/-- R46: the chain RUNNING again after an accepted probe SCAN, before the probe is delivered. -/
def State.resumed (s : State) : State :=
  { s with
    chain := { s.chain with st := .running, streak := 0 }
    flow := Flow.start
    sched := { s.sched with lookDue := true }
    valves := s.valves.mapIdx fun _ r => { r with timer := r.timer.map (StrokeTimer.resume s.clock) }
    link := { s.link with notices := s.noticesWith .chain } }

theorem resume_steps {s : State} (h : s.chain.st = .broken) :
    (((s.setChainState .running).mapTimers (StrokeTimer.resume s.clock)).loseFlow).wantLook = s.resumed := by
  rw [setChainState_eq, State.inChainState, if_neg (by rw [h]; nofun)]
  rfl

theorem resumed_valve (s : State) {v : Nat} (hv : v ≤ 105) : s.resumed.valve v = { s.valve v with timer := (s.valve v).timer.map fun tm =>
    if tm.since = none then { tm with since := some s.clock } else tm } := by
  have hvalve : s.resumed.valve v = { s.valve v with timer := (s.valve v).timer.map (StrokeTimer.resume s.clock) } :=
    Table.getD_mapIdx _ _ _ _ (by omega)
  have hresume : StrokeTimer.resume s.clock = fun tm => if tm.since = none then { tm with since := some s.clock } else tm :=
    funext fun tm => by
      cases hs : tm.since with
      | none => simp only [StrokeTimer.resume, hs, if_true]
      | some a => simp only [StrokeTimer.resume, hs, reduceCtorEq, if_false]
  rw [hvalve, hresume]

theorem resumed_noticed {s : State} (h : s.chain.st = .broken) : s.resumed.Noticed .chain := by
  rw [← resume_steps h]
  exact setChainState_noticed .running s

theorem takeImage_joins (payload ret : List Bool) (s : State) : s.link.notices <+: (s.takeImage payload ret).link.notices := by
  rw [takeImage_eq]
  unfold State.joinInputsIfChanged
  split
  · exact List.prefix_rfl
  · exact (Stir.joinNotice (s.imaged payload ret) _).joins

/-- What an accepted scan leaves noticed what was. -/
theorem acceptScan_noticed {s : State} {o : Obj} (h : s.Noticed o) (f : Frame) (ret : List Bool) (order : ScanOrder) :
    (s.acceptScan f ret order).Noticed o := by
  have hripple := acceptScan_ripple f ret order s
  obtain ⟨l, hl⟩ := takeImage_withNotices f.payload ret s
  have htaken : (s.takeImage f.payload ret).Noticed o := h.mono (by rw [hl]; rfl) (takeImage_joins ..)
  generalize s.acceptScan f ret order = t at hripple ⊢
  generalize s.takeImage f.payload ret = u at hripple htaken
  exact htaken.mono (congrArg TableStore.mask hripple.tables) hripple.joins

theorem exec_probe {s : State} (hr : s.power.running = true) (hf : s.chain.inFlight = none) (hst : s.chain.st = .broken) :
    exec .probe s = .next (if s.chain.adopted = true
      then State.selectScan .probeScan { s with clock := max (max s.clock s.chain.idleAt) s.probeDue }
      else State.selectZeroEcho .probeEcho { s with clock := max (max s.clock s.chain.idleAt) s.probeDue }) := by
  change Host.Outcome.next (s.whenRunning _) = _
  rw [whenRunning_of hr, hf, hst]
  rfl

theorem exec_probeAccepted {s : State} {f : Frame} {cdi : List Bool} {p : Purpose} (h : s.Returns p f cdi true) (order : ScanOrder)
    (hp : p = .probeScan ∨ p = .probeEcho) :
    exec (.probeAccepted cdi order) s = .next ((s.frameAccepted f (f.returned cdi)).endBroken f (f.returned cdi) order) := by
  have hend := atFrameEnd_frameAccepted h (allows := fun p => p == .probeScan || p == .probeEcho) (by rcases hp with hp | hp <;> rw [hp] <;> rfl)
    fun f ret s => s.endBroken f ret order
  exact congrArg Host.Outcome.next hend

theorem endBroken_scan {s : State} {f : Frame} (hf : f.purpose = .probeScan) (h : s.chain.st = .broken) (ret : List Bool) (order : ScanOrder) :
    s.endBroken f ret order = s.resumed.acceptScan f ret order := by
  rw [← resume_steps h]
  exact if_pos hf

theorem endBroken_echo {s : State} {f : Frame} (hf : f.purpose = .probeEcho) (h : s.chain.st = .broken) (ret : List Bool) (order : ScanOrder) :
    s.endBroken f ret order = { s with
      chain := { s.chain with st := .adopting, streak := 0, echoNext := false }
      link := { s.link with notices := s.noticesWith .chain } } := by
  refine (if_neg (by rw [hf]; nofun)).trans ?_
  rw [setChainState_eq, State.inChainState, if_neg (by rw [h]; nofun)]
  rfl

theorem probeEcho_accepted {s : State} {f : Frame} {cdi : List Bool} (order : ScanOrder) (h : s.Returns .probeEcho f cdi true)
    (hst : s.chain.st = .broken) : ∃ t u : State, exec (.probeAccepted cdi order) s = .next t ∧ u = s.acceptedEnd f t
      ∧ State.SameButNotices { u with chain := { u.chain with st := .adopting, streak := 0, echoNext := false } } t
      ∧ t.link.notices = s.noticesWith .chain := by
  have hpurpose : f.purpose = .probeEcho := by obtain ⟨⟨-, -, hp, -⟩, -⟩ := h; exact hp
  have hbroken := endBroken_echo (s := s.frameAccepted f (f.returned cdi)) hpurpose hst (f.returned cdi) order
  refine ⟨_, _, exec_probeAccepted h order (.inr rfl), rfl, ?_⟩
  rw [hbroken]
  exact ⟨rfl, rfl⟩

theorem probeScan_accepted {s : State} {f : Frame} {cdi : List Bool} {order : ScanOrder} {now : Nat} (h : s.Returns .probeScan f cdi true)
    (hst : s.chain.st = .broken) (hnow : now = max s.clock f.clockEnd) :
    ∃ t u x : State, exec (.probeAccepted cdi order) s = .next t ∧ u = s.acceptedEnd f t
      ∧ State.SameButNotices { u with
          chain := { u.chain with st := .running, streak := 0 }
          flow := Flow.start
          sched := { u.sched with lookDue := true }
          valves := x.valves } x
      ∧ (∀ v ≤ 105, x.valve v = { s.valve v with timer := (s.valve v).timer.map fun tm =>
          if tm.since = none then { tm with since := some now } else tm })
      ∧ t = ((x.takeImage f.payload (f.returned cdi)).deliver order).finish ∧ t.Noticed .chain
      ∧ Spared { u with
          chain := { u.chain with st := .running, streak := 0 }
          image := ⟨s.image.out, f.payload, f.returned cdi, s.cardGoodOf (f.returned cdi), true, some now⟩
          periodicFrom := some now
          flow := t.flow } t := by
  have hpurpose : f.purpose = .probeScan := by obtain ⟨⟨-, -, hp, -⟩, -⟩ := h; exact hp
  have hex := exec_probeAccepted h order (.inl rfl)
  rw [endBroken_scan (s := s.frameAccepted f (f.returned cdi)) hpurpose hst] at hex
  have hend := frameAccepted_eq s f (f.returned cdi)
  have hclock : (s.frameAccepted f (f.returned cdi)).clock = now := hnow.symm
  have hkept := frameAccepted_kept s f (f.returned cdi)
  have hvalves : (s.frameAccepted f (f.returned cdi)).valves = s.valves := rfl
  have hgood : (s.frameAccepted f (f.returned cdi)).cardGoodOf (f.returned cdi) = s.cardGoodOf (f.returned cdi) := rfl
  have hstate : (s.frameAccepted f (f.returned cdi)).chain.st = .broken := hst
  generalize s.frameAccepted f (f.returned cdi) = v at *
  obtain ⟨himage, -, -⟩ := hkept
  have hspared := imaged_spared f (f.returned cdi) order v.resumed
  have hnoticed := acceptScan_noticed (resumed_noticed hstate) f (f.returned cdi) order
  have heq := acceptScan_eq f (f.returned cdi) order v.resumed
  refine ⟨_, v, v.resumed, hex, ?_, rfl, fun w hw => ?_, heq, hnoticed, ?_⟩
  · generalize v.resumed.acceptScan f (f.returned cdi) order = t at hspared
    exact hend.trans (acceptedEnd_congr s f hspared.ring hspared.freeCount).symm
  · rw [resumed_valve v hw, hclock, State.valve, State.valve, hvalves]
  · generalize v.resumed.acceptScan f (f.returned cdi) order = t at hspared
    rw [← hclock, ← hgood, ← himage]
    have hbare : Spared (State.withNotices (v.noticesWith .chain) { v.resumed with
      image := ⟨v.image.out, f.payload, f.returned cdi, v.cardGoodOf (f.returned cdi), true, some v.clock⟩
      periodicFrom := some v.clock
      flow := t.flow
      link := v.link }) t := hspared
    have hfree := Spared.ofNotices hbare
    exact { hfree with }

/-- Settles O48, by the probe that goes and what its acceptance resumes. -/
theorem probesEndBroken : Obligations.ProbesEndBroken := by
  intro s now hr hst
  refine ⟨fun hf hnow => ⟨fun ha => ?_, fun ha => ?_, fun last hl => ?_, fun hl => ?_⟩, fun f cdi order hnow =>
    ⟨fun h => probeEcho_accepted order h hst, fun h => probeScan_accepted h hst hnow⟩⟩
  · rw [exec_probe hr hf hst, if_pos ha, ← hnow]
    exact ⟨_, rfl, sent_at s now .probeScan s.image.out⟩
  · rw [exec_probe hr hf hst, if_neg (by rw [ha]; exact Bool.false_ne_true), ← hnow]
    exact ⟨_, rfl, sent_at s now .probeEcho _⟩
  · rw [State.probeDue, hl]
    rfl
  · rw [State.probeDue, hl]

end Sys2Proof.Machine
end

