-- ==== Sys2Proof/Proofs/Consequences.lean ====
section
/-! The end of every event (R123, R124, R130, R140, R148): what it leaves and what it does to the jobs, O20. -/

namespace Sys2Proof.Machine

/-! ## A look once due stays due until it is made (R148) -/

/-- A look due in `s` is due in `t`. -/
structure LookKept (s t : State) : Prop where
  due : s.sched.lookDue = true → t.sched.lookDue = true

namespace LookKept
variable {s t u : State}

theorem refl (s : State) : LookKept s s := ⟨id⟩

theorem trans (h : LookKept s t) (k : LookKept t u) : LookKept s u := ⟨k.due ∘ h.due⟩

theorem ite {c : Prop} [Decidable c] {a b : State} (h : LookKept s a) (k : LookKept s b) : LookKept s (if c then a else b) := by
  split
  · exact h
  · exact k

theorem foldl {α : Type} {f : State → α → State} (hf : ∀ s a, LookKept s (f s a)) (l : List α) : ∀ s : State, LookKept s (l.foldl f s) := by
  induction l with
  | nil => exact refl
  | cons a l ih => exact fun s => (hf s a).trans (ih _)

theorem setOwner (s : State) (o : Owner) (r : OwnerRec) : LookKept s (s.setOwner o r) :=
  ⟨fun h => by simpa using h⟩

theorem joinMove (s : State) (e : MoveEntry) : LookKept s (s.joinMove e) := ⟨fun _ => rfl⟩

theorem joinNotice (s : State) (o : Obj) : LookKept s (s.joinNotice o) := by
  rw [joinNotice_withNotices]
  exact ⟨id⟩

theorem wantLook (s : State) : LookKept s s.wantLook := ⟨fun _ => rfl⟩

theorem withdraw (s : State) (p : MoveEntry → Bool) : LookKept s (s.withdraw p) := by
  unfold State.withdraw
  exact ite ⟨fun _ => rfl⟩ ⟨id⟩

theorem abandon (o : Owner) (s : State) : LookKept s (s.abandon o) := by
  have hwithdrawn : LookKept s (if (s.owner o).mode = .inactive then (s.withdraw (MoveEntry.isOf o)).withdraw
      (MoveEntry.isMaintenanceOf o) else s.withdraw (MoveEntry.isOf o)) :=
    ite ((withdraw _ _).trans (withdraw _ _)) (withdraw _ _)
  exact hwithdrawn.trans (setOwner _ _ _)

theorem takeStep (o : Owner) (k : Nat) (first : Bool) (done : State → State) (hd : ∀ s, LookKept s (done s)) (s : State) :
    LookKept s (s.takeStep o k first done) := by
  unfold State.takeStep
  dsimp only
  split
  · exact (setOwner _ _ _).trans (hd _)
  · exact setOwner _ _ _
  · exact (setOwner _ _ _).trans (joinMove _ _)
  · exact setOwner _ _ _
  · exact (withdraw _ _).trans (setOwner _ _ _)

theorem takeStep3 (o : Owner) (first : Bool) (s : State) : LookKept s (s.takeStep3 o first) :=
  takeStep _ _ _ _ (fun s => setOwner s _ _) s

theorem beginTimer (o : Owner) (s : State) : LookKept s (s.beginTimer o) :=
  ite (setOwner _ _ _) ((setOwner _ _ _).trans (takeStep3 _ _ _))

theorem beginSequence (o : Owner) (m : OwnerMode) (s : State) : LookKept s (s.beginSequence o m) :=
  (setOwner s _ _).trans (takeStep _ _ _ _ (beginTimer o) _)

theorem beginOutcome (o : Owner) (out : Outcome) (s : State) : LookKept s (s.beginOutcome o out) := by
  cases out with
  | isolate | restore | park => exact beginSequence ..
  | suspend => exact setOwner ..

theorem evaluateOne (o : Owner) (s : State) : LookKept s (s.evaluateOne o) :=
  ite (refl s) (ite (refl s) ((abandon _ _).trans (beginOutcome _ _ _)))

theorem evaluate (o : Owner) (s : State) : LookKept s (s.evaluate o) :=
  ite (evaluateOne o s) ((evaluateOne o s).trans (foldl (fun s b => evaluateOne b s) _ _))

theorem raiseHold (o : Owner) (s : State) : LookKept s (s.raiseHold o) :=
  ite ((setOwner s _ _).trans (evaluate _ _)) (setOwner s _ _)

theorem writeSlot (slot : Nat) (j : Option Job) (s : State) : LookKept s ((s.setJob slot j).joinNotice (.job slot)) :=
  LookKept.trans (t := s.setJob slot j) ⟨fun h => h⟩ (joinNotice _ _)

theorem rederiveJobs (s : State) : LookKept s s.rederiveJobs := by
  refine foldl (fun s k => ?_) _ s
  unfold State.rederiveSlot
  split
  · exact refl s
  · exact ite (refl s) (writeSlot ..)

theorem escalate (slot i : Nat) (s : State) : LookKept s (s.escalate slot i) := by
  unfold State.escalate
  split
  · exact refl s
  · split
    · exact refl s
    · dsimp only
      split
      · exact writeSlot ..
      · split
        · exact writeSlot ..
        · exact (writeSlot ..).trans (raiseHold ..)

theorem escalateLoop (n : Nat) : ∀ s : State, LookKept s (Machine.escalateLoop n s) := by
  induction n with
  | zero => exact refl
  | succ n ih =>
    intro s
    unfold Machine.escalateLoop
    split
    · exact refl s
    · exact ((escalate ..).trans (rederiveJobs _)).trans (ih _)

theorem followJobs (s : State) : LookKept s s.followJobs := (rederiveJobs s).trans (escalateLoop 512 _)

end LookKept

/-! ## The number of ACTIVE jobs (R140) -/

theorem settle_activeJobs (s : State) : s.settle.activeJobs = s.activeJobs := by
  have hloop : ∀ (n : Nat) (t : State), (lookLoop n t).activeJobs = t.activeJobs := by
    intro n
    induction n with
    | zero => exact fun _ => rfl
    | succ n ih =>
      intro t
      unfold lookLoop
      cases hl : t.lookOnce with
      | none => rfl
      | some u =>
        obtain ⟨e, -, -, rfl⟩ := lookOnce_some hl
        exact (ih _).trans (admit_spec e t).2.2.2.2.2.2.2
  unfold State.settle
  split
  · exact hloop _ s
  · rfl

theorem keepActive_activeJobs (s : State) : s.keepActive.activeJobs = s.countActive := by
  unfold State.keepActive
  dsimp only
  split <;> rfl

theorem keepActive_jobs (s : State) : s.keepActive.jobs = s.jobs := by
  unfold State.keepActive
  dsimp only
  split <;> rfl

theorem keepActive_look {s : State} (h : s.sched.lookDue = true ∨ 0 < s.activeJobs ∧ s.countActive = 0 ∧ s.tables.scan.holdOnWet = true) :
    s.keepActive.sched.lookDue = true := by
  unfold State.keepActive
  dsimp only
  rcases h with h | ⟨ha, hc, ht⟩
  · exact (LookKept.ite (LookKept.wantLook { s with activeJobs := s.countActive }) (LookKept.refl _)).due h
  · rw [if_pos (by simp [ha, hc, ht])]
    rfl

theorem followJobs_activeJobs (s : State) : s.followJobs.activeJobs = s.activeJobs := by
  have hsame : ∀ x : State, x.rederiveJobs.activeJobs = x.activeJobs := fun x => by
    have hx := rederiveJobs_same x
    generalize x.rederiveJobs = t at hx ⊢
    exact (congrArg State.activeJobs hx :)
  have hput : ∀ (x : State) (slot : Nat) (j : Option Job), ((x.setJob slot j).joinNotice (.job slot)).activeJobs = x.activeJobs :=
    fun x slot j => (Stir.joinNotice (x.setJob slot j) _).activeJobs
  have hescalate : ∀ (slot i : Nat) (x : State), (x.escalate slot i).activeJobs = x.activeJobs := by
    intro slot i x
    unfold State.escalate
    split
    · rfl
    · split
      · rfl
      · dsimp only
        split
        · exact hput ..
        · split
          · exact hput ..
          · exact (Stir.raiseHold _ _).activeJobs.trans (hput ..)
  have hloop : ∀ (n : Nat) (x : State), (escalateLoop n x).activeJobs = x.activeJobs := by
    intro n
    induction n with
    | zero => exact fun _ => rfl
    | succ n ih =>
      intro x
      unfold escalateLoop
      split
      · rfl
      · exact (ih _).trans ((hsame _).trans (hescalate ..))
  rw [State.followJobs, hloop, hsame]

theorem countActive_eq (s : State) : s.countActive = (s.jobs.toList.filter fun j => j.map (·.st) = some .active).length := by
  refine congrArg List.length (List.filter_congr fun j _ => ?_)
  cases j with
  | none => rfl
  | some j =>
    simp only [Option.map_some, Option.some.injEq]
    exact Bool.beq_eq_decide_eq _ _

theorem finish_activeJobs (s : State) : s.finish.activeJobs = s.followJobs.countActive := by
  rw [State.finish, settle_activeJobs, State.followOwners, keepActive_activeJobs]

theorem finish_jobs (s : State) : s.finish.jobs = s.followJobs.jobs := by
  obtain ⟨-, hjobs⟩ := settle_owners s.followOwners
  rw [State.finish, hjobs, State.followOwners, keepActive_jobs]

theorem finish_counts (s : State) : s.finish.activeJobs = (s.finish.jobs.toList.filter fun j => j.map (·.st) = some .active).length := by
  rw [finish_activeJobs, countActive_eq, finish_jobs]

/-- R140, R148: where a look is due at the end of an event, no further move can enter. -/
theorem finish_looked {s : State} (h : s.sched.lookDue = true ∨ 0 < s.activeJobs ∧ s.finish.activeJobs = 0 ∧ s.tables.scan.holdOnWet = true) :
    s.finish.lookOnce = none := by
  have hdue : s.followOwners.sched.lookDue = true := by
    rw [State.followOwners]
    refine keepActive_look (h.imp (LookKept.followJobs s).due fun ⟨ha, hc, ht⟩ => ⟨?_, ?_, ?_⟩)
    · rw [followJobs_activeJobs]; exact ha
    · rw [← finish_activeJobs]; exact hc
    · rw [(Settles.followJobs s).tables]; exact ht
  rw [State.finish]
  obtain ⟨-, hlooked⟩ := settle_looked s.followOwners
  exact hlooked hdue

/-! ## Statuses and escalation targets (R123, R130) -/

theorem entryStatus_waiting {s : State} {o : Owner} (h : (s.owner o).settled = false) : s.entryStatus o = .waiting :=
  if_pos (by rw [h]; rfl)

theorem ownerHasValves_iff (s : State) (o : Owner) : s.ownerHasValves o = true ↔ (s.owner o).mode ≠ .noValves := bne_iff_ne

section
variable {s : State} {main : Option Owner} (hm : main = (if (s.owner .main).mode = .noValves then none else some .main))
include hm

theorem escalationTarget_segment (g : Nat) : s.escalationTarget (.segment g) = main := by
  rw [hm]
  simp only [State.escalationTarget, ownerHasValves_iff, ne_eq, ite_not]

theorem escalationTarget_branch (b : Nat) : s.escalationTarget (.branch b) =
    if (s.owner (.segment (s.tables.branch b).segment)).mode = .noValves then main else some (.segment (s.tables.branch b).segment) := by
  rw [hm]
  simp only [State.escalationTarget, ownerHasValves_iff, ne_eq, ite_not]

end

/-- R124: how a job stands after an event. -/
theorem finish_job {s : State} {k : Nat} {j : Job} (hj : s.finish.job k = some j) :
    (∀ e ∈ j.entries, e.status = s.finish.entryStatus e.target)
    ∧ (∀ contained : Prop, contained = (∀ i e, j.entries[i]? = some e → e.origin = none →
          Effective (fun o => (s.finish.owner o).mode = .isolated) j.entries i) →
        (j.st = .contained ↔ contained)
        ∧ (j.st = .uncontained ↔ ¬ contained ∧ ∃ i e, j.entries[i]? = some e ∧ e.origin = none ∧ Dead j.entries i)) := by
  obtain ⟨hstatus, hst⟩ := (finish_derived s).job hj
  have hiso : (fun o => ((s.finish.owner o).mode == .isolated) = true) = fun o => (s.finish.owner o).mode = .isolated :=
    funext fun o => propext beq_iff_eq
  refine ⟨hstatus, fun contained hc => ?_⟩
  rw [hst]
  exact jobStateOf_iff _ _ contained (by rw [hc, hiso])

theorem finish_jobNoticed {s : State} {k : Nat} {j j' : Job} (hj : s.job k = some j) (hj' : s.finish.job k = some j') (hne : j' ≠ j) :
    s.finish.Noticed (.job k) := by
  rcases (JobsNoticed.finish s).noticed k with hsame | hn
  · exact absurd (Option.some.inj ((hj'.symm.trans hsame).trans hj)) hne
  · exact hn

/-- R123: the first derivation of an event. -/
theorem rederiveJobs_job (s : State) (k : Nat) : s.rederiveJobs.job k = (s.job k).map s.rederived := by
  obtain ⟨hjobs, -⟩ := rederiveJobs_spec s
  exact hjobs k

theorem finish_lookDue (s : State) : s.finish.sched.lookDue = false := by
  rw [State.finish]
  obtain ⟨hdone, -⟩ := settle_looked s.followOwners
  exact hdone

/-- Settles O20, by what settles at the end of an event, how jobs stand then, and its parts. -/
theorem consequencesSpare : Obligations.ConsequencesSpare := by
  refine ⟨fun s => ?_, fun s => ⟨fun k j hj => finish_job hj, fun o => ?_, finish_counts s, finish_looked, finish_lookDue s,
      fun k j j' => finish_jobNoticed⟩,
    fun s => ?_, fun s main hm => ⟨fun b g hg => ?_, escalationTarget_segment hm, rfl⟩, fun s hs hl => ?_⟩
  · have hset := Settles.finish s
    refine ⟨hset.toRipple.toSpared, hset.zones, hset.due, fun o => ?_, hset.isSome, hset.waitList, fun v hv he => ?_, fun p hp => ?_, hset.joins,
      finish_noJobs⟩
    · obtain ⟨hholds, hhost, hstart, -⟩ := hset.flags o
      exact ⟨hhost, hstart, hholds⟩
    · obtain ⟨⟨-, hentry⟩, hvalve⟩ := hset.stuck v ⟨hv, he⟩
      exact ⟨hvalve, hentry⟩
    · exact hset.out p fun v hv => (hp v hv).symm
  · cases hsettled : (s.owner o).settled with
    | false => exact entryStatus_waiting hsettled
    | true => cases hmode : (s.owner o).mode <;> simp only [State.entryStatus, hsettled, hmode] <;> rfl
  · obtain ⟨hesc, due, x, hlooks, hfin⟩ := finish_parts s
    refine ⟨s.followJobs, x, due, rederiveJobs_same s, fun k => ?_, fun k j hj => ?_, hesc, hlooks, hfin⟩
    · rw [rederiveJobs_job, Option.map_eq_none_iff]
    · rw [rederiveJobs_job, hj]
      exact ⟨_, rfl⟩
  · rw [hg]
    exact escalationTarget_branch hm b
  · have hfollows := finish_follows s hs
    exact ⟨hfollows.jobs, fun k j hj e he hf => finish_escalated s hs hl hj he hf, hfollows.holds⟩

end Sys2Proof.Machine
end

