-- ==== Sys2Proof/Proofs/BranchTable.lean ====
section
/-! DEFINE_BRANCH (R14), O25. -/

namespace Sys2Proof.Machine

/-! ## An owner's record written and its object noticed (R185) -/

theorem noticesWith_again (s : State) (o : Obj) : (s.withNotices (s.noticesWith o)).noticesWith o = s.noticesWith o := by
  by_cases h : s.tables.mask.on o = true ∧ o ∉ s.link.notices
  · have hnew : s.noticesWith o = s.link.notices ++ [o] := if_pos h
    rw [hnew]
    exact if_neg fun hc => hc.2 (by simp [State.withNotices])
  · have hold : s.noticesWith o = s.link.notices := if_neg h
    rw [hold]
    exact if_neg h

/-- An owner's record is replaced and its object joins, whether or not what it shows changes. -/
theorem setOwner_joinNotice (o : Owner) (r : OwnerRec) (s : State) : (s.setOwner o r).joinNotice o.obj =
    { s with owners := s.owners.put o.index r, link := { s.link with notices := s.noticesWith o.obj } } := by
  have hjoin : ∀ t : State, t.joinNotice o.obj = t.withNotices (t.noticesWith o.obj) := fun t => joinNotice_withNotices t _
  unfold State.setOwner
  dsimp only
  split
  · exact hjoin _
  · rw [hjoin, hjoin, noticesWith_again]
    rfl

/-! ## The branch's slot and its owner (R14) -/

theorem branch_owner_put (b : Nat) (r : OwnerRec) {s t : State} (h : t.owners = s.owners.put b r) (hb : b ≤ 47) :
    t.owner (.branch b) = r ∧ ∀ o, o ≠ .branch b → t.owner o = s.owner o := by
  refine ⟨?_, fun o ho => ?_⟩
  · rw [State.owner_eq, h]
    exact Table.getD_put_self _ _ _ (by omega)
  · rw [State.owner_eq, State.owner_eq, h]
    refine Table.getD_put_ne _ _ _ fun hi => ho ?_
    cases o with
    | branch c => exact congrArg Owner.branch hi.symm
    | segment g => simp only [Owner.index] at hi; omega
    | main => simp only [Owner.index] at hi; omega

/-- A branch's definition is written, with its owner's record, and the branch joins. -/
def State.branchWritten (b : Nat) (d : BranchDef) (r : OwnerRec) (s : State) : State :=
  { s with
    owners := s.owners.put b r
    tables := { s.tables with branches := s.tables.branches.put b d }
    link := { s.link with notices := s.noticesWith (.branch b) } }

theorem redefineBranch_removed (b segment : Nat) (p : ParkAction) (nominal : Nat) (s : State) :
    s.redefineBranch b false segment p nominal =
      s.branchWritten b BranchDef.absent { OwnerRec.start .undefined true with startPending := (s.owner (.branch b)).startPending } :=
  setOwner_joinNotice (.branch b) _ (s.putBranchDef b BranchDef.absent)

theorem redefineBranch_new {s : State} {b : Nat} (h : (s.tables.branch b).defined = false) (segment : Nat) (p : ParkAction) (nominal : Nat) :
    s.redefineBranch b true segment p nominal = s.branchWritten b ⟨true, segment, false, p, nominal⟩
      { OwnerRec.start .inactive s.chain.adopted with startPending := (s.owner (.branch b)).startPending } := by
  have hnew := setOwner_joinNotice (.branch b) { OwnerRec.start .inactive s.chain.adopted with startPending := (s.owner (.branch b)).startPending }
    (s.putBranchDef b ⟨true, segment, false, p, nominal⟩)
  refine Eq.trans ?_ hnew
  simp only [State.redefineBranch, h]
  rfl

theorem redefineBranch_changed {s : State} {b : Nat} (h : (s.tables.branch b).defined = true) (segment : Nat) (p : ParkAction) (nominal : Nat) :
    s.redefineBranch b true segment p nominal = { s with
      tables := { s.tables with branches := s.tables.branches.put b ⟨true, segment, (s.tables.branch b).activated, p, nominal⟩ }
      link := { s.link with notices := s.noticesWith (.branch b) } } := by
  have hjoin := joinNotice_withNotices (s.putBranchDef b ⟨true, segment, (s.tables.branch b).activated, p, nominal⟩) (.branch b)
  refine Eq.trans ?_ hjoin
  simp only [State.redefineBranch, h]
  rfl

/-! ## The request -/

theorem planned_iff (t : TableStore) (o : Owner) : t.planned o = true ↔ ∃ z ≤ 63, o ∈ t.plan z := by
  have hlen : t.plans.toList.length = 64 := Vector.length_toList
  simp only [TableStore.planned, List.any_eq_true, List.contains_iff_mem, TableStore.plan, Table.getD]
  constructor
  · rintro ⟨p, hp, ho⟩
    obtain ⟨z, hz, rfl⟩ := List.getElem_of_mem hp
    exact ⟨z, by omega, by rwa [List.getD_eq_getElem _ _ hz]⟩
  · rintro ⟨z, hz, ho⟩
    rw [List.getD_eq_getElem _ _ (by omega)] at ho
    exact ⟨_, List.getElem_mem _, ho⟩

theorem answerDefineBranch_eq {b segment park : Nat} {p : ParkAction} (hb : b ≤ 47) (hg : segment ≤ 3) (hp : parkOfCode park = some p)
    {n : Nat} {defined : Bool} (hd : yesNo n = some defined) (tag : Byte) (nominal : Nat) (s : State) :
    answerDefineBranch tag b n segment park nominal s = s.defineBranch tag b defined segment p nominal := by
  simp only [answerDefineBranch, hd, hp]
  exact if_neg fun h => by
    have hb' : ¬ 48 ≤ b := by omega
    have hg' : ¬ 4 ≤ segment := by omega
    exact h.elim hb' hg'

/-- R14: a plan or the valves of a branch forbid its removal. -/
def State.branchEngaged (s : State) (b : Nat) : Bool :=
  s.tables.planned (.branch b) || ((s.valve (2 * b)).st.isMoving || s.hasEntry (2 * b))
    || ((s.valve (2 * b + 1)).st.isMoving || s.hasEntry (2 * b + 1))

theorem branchEngaged_iff (s : State) (b : Nat) : s.branchEngaged b = true
    ↔ s.tables.planned (.branch b) = true ∨ ∃ v, v / 2 = b ∧ ((s.valve v).st.isMoving = true ∨ s.hasEntry v = true) := by
  simp only [State.branchEngaged, Bool.or_eq_true]
  constructor
  · rintro ((h | h) | h)
    · exact .inl h
    · exact .inr ⟨2 * b, by omega, h⟩
    · exact .inr ⟨2 * b + 1, by omega, h⟩
  · rintro (h | ⟨v, hv, h⟩)
    · exact .inl (.inl h)
    · rcases (by omega : v = 2 * b ∨ v = 2 * b + 1) with rfl | rfl
      · exact .inl (.inr h)
      · exact .inr h

/-- R14: a taken DEFINE_BRANCH with its reply. -/
def State.branchTaken (tag : Byte) (b : Nat) (defined : Bool) (segment : Nat) (p : ParkAction) (nominal : Nat) (s : State) : State :=
  ((s.redefineBranch b defined segment p (min 4000 nominal)).finish).reply 0x14 tag (if nominal ≤ 4000 then .ok else .adjusted)
    (if nominal ≤ 4000 then [] else u16 4000)

theorem nominal_reply (tag : Byte) (nominal : Nat) (t : State) : t.reply 0x14 tag (takenStatus (min 4000 nominal != nominal))
    (if (min 4000 nominal != nominal) = true then u16 (min 4000 nominal) else []) =
      t.reply 0x14 tag (if nominal ≤ 4000 then .ok else .adjusted) (if nominal ≤ 4000 then [] else u16 4000) := by
  by_cases hn : nominal ≤ 4000
  · rw [bne_eq_false_iff_eq.2 (Nat.min_eq_right hn), if_pos hn, if_pos hn]
    rfl
  · rw [bne_iff_ne.2 (by omega : min 4000 nominal ≠ nominal), if_neg hn, if_neg hn, Nat.min_eq_left (by omega)]
    rfl

theorem defineBranch_unlocked {s : State} (h : s.Unlocked s.locks.tables) (tag : Byte) (b : Nat) (defined : Bool) (segment : Nat)
    (p : ParkAction) (nominal : Nat) : s.defineBranch tag b defined segment p nominal =
      if (s.owner (.branch b)).mode ≠ .undefined ∧ (s.owner (.branch b)).mode ≠ .inactive then s.refuse 0x14 tag .busy
      else if defined = true ∧ s.tables.hasValves (.branch b) = false then s.refuse 0x14 tag .notDefined
      else if defined = false ∧ s.branchEngaged b = true then s.refuse 0x14 tag .busy
      else s.branchTaken tag b defined segment p nominal := by
  have hmode : (!((s.owner (.branch b)).mode == .undefined || (s.owner (.branch b)).mode == .inactive)) = true
      ↔ (s.owner (.branch b)).mode ≠ .undefined ∧ (s.owner (.branch b)).mode ≠ .inactive := by simp
  have hvalves : (defined && !s.tables.hasValves (.branch b)) = true ↔ defined = true ∧ s.tables.hasValves (.branch b) = false := by simp
  have hremoval : (!defined && s.branchEngaged b) = true ↔ defined = false ∧ s.branchEngaged b = true := by simp
  rw [State.branchEngaged] at hremoval
  unfold State.defineBranch
  rw [checked_unlocked h]
  simp only [checked_cons, checked_nil, hmode, hvalves, hremoval, nominal_reply]
  rfl

section
variable {s : State} (hu : s.Unlocked s.locks.tables) {b : Nat}
  (hmode : (s.owner (.branch b)).mode = .undefined ∨ (s.owner (.branch b)).mode = .inactive)
include hu hmode

theorem defineBranch_defines (hv : s.tables.hasValves (.branch b) = true) (tag : Byte) (segment : Nat) (p : ParkAction) (nominal : Nat) :
    s.defineBranch tag b true segment p nominal = s.branchTaken tag b true segment p nominal := by
  rw [defineBranch_unlocked hu, if_neg fun ⟨hu', hi'⟩ => hmode.elim hu' hi', if_neg (fun ⟨_, h⟩ => absurd (hv.symm.trans h) nofun),
    if_neg (fun ⟨h, _⟩ => absurd h nofun)]

theorem defineBranch_valveless (hv : s.tables.hasValves (.branch b) = false) (tag : Byte) (segment : Nat) (p : ParkAction) (nominal : Nat) :
    s.defineBranch tag b true segment p nominal = s.refuse 0x14 tag .notDefined := by
  rw [defineBranch_unlocked hu, if_neg fun ⟨hu', hi'⟩ => hmode.elim hu' hi', if_pos ⟨rfl, hv⟩]

theorem defineBranch_removes (tag : Byte) (segment : Nat) (p : ParkAction) (nominal : Nat) : s.defineBranch tag b false segment p nominal =
    if s.branchEngaged b = true then s.refuse 0x14 tag .busy else s.branchTaken tag b false segment p nominal := by
  rw [defineBranch_unlocked hu, if_neg fun ⟨hu', hi'⟩ => hmode.elim hu' hi', if_neg (fun ⟨h, _⟩ => absurd h nofun)]
  simp only [true_and]

end

/-- Settles O25, by the checks in their order and what each kind of definition writes. -/
theorem defineBranchTaken : Obligations.DefineBranchTaken := by
  have hexec : ∀ {s : State} {tag : Byte} {b segment park nominal n : Nat} {defined : Bool} {p : ParkAction}, s.Ready →
      s.Unlocked s.locks.tables → b ≤ 47 → segment ≤ 3 → parkOfCode park = some p → yesNo n = some defined →
      exec (.defineBranch tag b n segment park nominal) s = .next (s.defineBranch tag b defined segment p nominal) := by
    intro s tag b segment park nominal n defined p hs hu hb hg hp hn
    rw [exec_answer rfl hs]
    exact congrArg _ (answerDefineBranch_eq hb hg hp hn tag nominal s)
  refine ⟨fun s tag b defined segment park nominal hs hu hb hd hg hp hm hi => ?_, fun s tag b segment park nominal p hs hu hb hg hp hmode =>
    ⟨fun hv => ?_, fun hplan hrest => ?_, fun hv => ?_, fun hbusy => ?_, fun o => planned_iff _ o, rfl, rfl, fun n hn => ?_⟩⟩
  · obtain ⟨d, hd'⟩ := yesNo_le hd
    obtain ⟨p, hp'⟩ : ∃ p, parkOfCode park = some p := by
      match park, hp with
      | 0, _ => exact ⟨_, rfl⟩
      | 1, _ => exact ⟨_, rfl⟩
    rw [hexec hs hu hb hg hp' hd', defineBranch_unlocked hu, if_pos ⟨hm, hi⟩]
  · refine ⟨s.redefineBranch b true segment p (min 4000 nominal), ?_, ?_⟩
    · rw [hexec hs hu hb hg hp (defined := true) rfl, defineBranch_defines hu hmode hv, State.branchTaken]
    · cases hold : (s.tables.branch b).defined with
      | true =>
        rw [redefineBranch_changed hold]
        exact ⟨fun d hd => by rw [hd]; rfl, fun h => absurd h nofun, fun _ _ => rfl, fun _ => rfl, rfl⟩
      | false =>
        rw [redefineBranch_new hold]
        obtain ⟨hown, hothers⟩ := branch_owner_put b _ (s := s) (t := s.branchWritten b ⟨true, segment, false, p, min 4000 nominal⟩ _) rfl hb
        exact ⟨fun d hd => by rw [hd]; rfl, fun _ => by rw [hown]; exact ⟨rfl, rfl, rfl, rfl, rfl, rfl⟩, hothers, fun h => absurd h nofun, rfl⟩
  · have hfree : ¬ s.branchEngaged b = true := fun h => by
      rcases (branchEngaged_iff s b).1 h with h | ⟨v, hv, h⟩
      · rw [hplan] at h; cases h
      · obtain ⟨hmoving, hentry⟩ := hrest v hv
        rw [hmoving, hentry] at h
        rcases h with h | h <;> cases h
    refine ⟨s.redefineBranch b false segment p (min 4000 nominal), ?_, ?_⟩
    · rw [hexec hs hu hb hg hp (defined := false) rfl, defineBranch_removes hu hmode, if_neg hfree, State.branchTaken]
    · rw [redefineBranch_removed]
      obtain ⟨hown, hothers⟩ := branch_owner_put b _ (s := s) (t := s.branchWritten b BranchDef.absent _) rfl hb
      rw [hown]
      exact ⟨rfl, rfl, rfl, rfl, rfl, rfl, rfl, hothers, rfl⟩
  · rw [hexec hs hu hb hg hp (defined := true) rfl, defineBranch_valveless hu hmode hv]
  · rw [hexec hs hu hb hg hp (defined := false) rfl, defineBranch_removes hu hmode, if_pos ((branchEngaged_iff s b).2 hbusy)]
  · match n, hn with
    | n + 2, _ => rfl

end Sys2Proof.Machine
end

