-- ==== Sys2Proof/Proofs/StrayStep.lean ====
section
/-! DEFINE_VALVE (R1, R15): an owner already in NO_VALVES keeps its record when it loses another valve, O23. -/

namespace Sys2Proof.Machine

/-- A part that runs with no table defined, the main in NO_VALVES with a step on its record. The model enters
NO_VALVES with the step cleared, but the statement bounds the state by no invariant. -/
def strayMain : State :=
  { State.reset with
    power := ⟨false, false, false⟩
    link := Link.start []
    owners := State.reset.owners.put 52 { OwnerRec.start .noValves true with step := some 1 } }

theorem strayMain_ready : strayMain.Ready := ⟨by decide +kernel, by decide +kernel⟩

theorem strayMain_unlocked : strayMain.Unlocked strayMain.locks.tables := ⟨rfl, rfl⟩

theorem strayMain_free : strayMain.valveBusy 104 true = false := by decide +kernel

/-- The step of the main after a command. -/
def mainStep : Host.Outcome State Fault Refusal → Option Nat
  | .next t => (t.owner .main).step
  | _ => none

/-- R15: the main is in NO_VALVES before the event, so the event leaves its record. -/
theorem strayMain_keepsStep : mainStep (exec (.defineValve 0 104 0 100 0) strayMain) = some 1 := by decide +kernel

/-- Refutes O23: in `strayMain` the removal of valve 104 is taken and the main keeps its step. -/
theorem not_defineValveTaken : ¬ Obligations.DefineValveTaken := by
  rintro ⟨htaken, -⟩
  obtain ⟨-, hremoved, -⟩ := htaken strayMain 0 104 100 0 100 .opened strayMain_ready strayMain_unlocked (by decide) rfl rfl
  obtain ⟨t, hex, -, -, -, -, -, hwide⟩ := hremoved strayMain_free
  obtain ⟨-, hstep, -⟩ := hwide (by decide) .main rfl
  have hkept := strayMain_keepsStep
  rw [hex] at hkept
  exact absurd (hstep.symm.trans hkept) nofun

end Sys2Proof.Machine
end

