-- ==== Sys2Proof/Proofs/CardTable.lean ====
section
/-! DEFINE_CARD and what a card table change does (R37 to R39, R70, R86, R100), O21. -/

namespace Sys2Proof.Machine

/-! ## The end of a quiet event -/

/-- With no job in the table, outside RUNNING, the end of an event counts the ACTIVE jobs and clears the look's mark. -/
theorem finish_quiet {s : State} (hj : s.NoJobs) (hc : s.chain.st ≠ .running) :
    s.finish = { s with activeJobs := s.finish.activeJobs, sched := { s.sched with lookDue := false } } := by
  obtain ⟨-, due, x, hlooks, hfin⟩ := finish_parts s
  have hfollow : s.followJobs = s := by rw [State.followJobs, rederiveJobs_noJobs hj, escalateLoop_noJobs hj]
  rw [hfollow] at hlooks
  generalize s.finish = u at hlooks hfin ⊢
  have hx := Looks.broken hlooks hc
  rw [hx] at hfin
  exact hfin

/-! ## What the valves and owners of a card table change leave (R39) -/

/-- From `s` to `t` only valve and owner records, the scheduler and the notice pending set differ. -/
structure Recast (s t : State) : Prop where
  same : t = { s with valves := t.valves, owners := t.owners, sched := t.sched, link := { s.link with notices := t.link.notices } }

namespace Recast
variable {s t u : State}

theorem refl (s : State) : Recast s s := ⟨rfl⟩

theorem trans (h : Recast s t) (k : Recast t u) : Recast s u := by
  refine ⟨k.same.trans ?_⟩
  rw [h.same]

theorem foldl {α : Type} {f : State → α → State} (hf : ∀ s a, Recast s (f s a)) (l : List α) : ∀ s : State, Recast s (l.foldl f s) := by
  induction l with
  | nil => exact refl
  | cons a l ih => exact fun s => (hf s a).trans (ih _)

theorem joinNotice (s : State) (o : Obj) : Recast s (s.joinNotice o) := by
  rw [joinNotice_withNotices]
  exact ⟨rfl⟩

theorem setValve (s : State) (v : Nat) (r : ValveRec) : Recast s (s.setValve v r) := by
  rw [State.setValve_eq]
  exact ⟨rfl⟩

theorem setOwner (s : State) (o : Owner) (r : OwnerRec) : Recast s (s.setOwner o r) := by
  rw [State.setOwner_eq]
  exact ⟨rfl⟩

theorem withdraw (s : State) (p : MoveEntry → Bool) : Recast s (s.withdraw p) := by
  rw [State.withdraw_eq]
  exact ⟨rfl⟩

theorem recardValve (before : TableStore) (v : Nat) (s : State) : Recast s (s.recardValve before v) := by
  have hcleared : Recast s (if (s.tables.valve v).present then (s.setValve v (ValveRec.fresh .unknown)).withdraw fun e => e.valve == v else s) := by
    split
    · exact (setValve ..).trans (withdraw ..)
    · exact refl s
  unfold State.recardValve
  dsimp only
  split
  · exact hcleared
  · exact hcleared.trans (joinNotice ..)

theorem tables (h : Recast s t) : t.tables = s.tables := (congrArg State.tables h.same :)

end Recast

theorem recardValve_joins (before : TableStore) (v : Nat) (s : State) : s.link.notices <+: (s.recardValve before v).link.notices := by
  have hcleared : s.link.notices <+: (if (s.tables.valve v).present then (s.setValve v (ValveRec.fresh .unknown)).withdraw
      fun e => e.valve == v else s).link.notices := by
    split
    · exact (Ripple.setValve s v _).joins.trans (Ripple.withdraw _ _).joins
    · exact List.prefix_rfl
  unfold State.recardValve
  dsimp only
  split
  · exact hcleared
  · exact hcleared.trans (Ripple.joinNotice _ _).joins

/-- R39: a present valve is UNKNOWN after its turn, and no turn of another valve changes that. -/
theorem recardValve_valve (before : TableStore) (v w : Nat) (hv : v < 106) (s : State) : (s.recardValve before v).valve w =
    if v = w ∧ (s.tables.valve v).present = true then ValveRec.fresh .unknown else s.valve w := by
  have hcleared : (if (s.tables.valve v).present then (s.setValve v (ValveRec.fresh .unknown)).withdraw fun e => e.valve == v else s).valve w =
      if v = w ∧ (s.tables.valve v).present = true then ValveRec.fresh .unknown else s.valve w := by
    by_cases hp : (s.tables.valve v).present = true
    · rw [if_pos hp, State.withdraw_eq]
      refine (State.valve_setValve s v w _).trans ?_
      simp only [hv, hp, and_true]
    · rw [if_neg hp, if_neg fun h => hp h.2]
  unfold State.recardValve
  dsimp only
  split
  · exact hcleared
  · rw [joinNotice_withNotices]
    exact hcleared

theorem recardValves_valve (before : TableStore) {w : Nat} {l : List Nat} (hl : ∀ v ∈ l, v < 106) (hw : w ∈ l) {s : State}
    (hp : (s.tables.valve w).present = true) : (l.foldl (fun t v => t.recardValve before v) s).valve w = ValveRec.fresh .unknown := by
  have hkept : ∀ (l : List Nat) (s : State), (∀ v ∈ l, v < 106) → s.valve w = ValveRec.fresh .unknown →
      (l.foldl (fun t v => t.recardValve before v) s).valve w = ValveRec.fresh .unknown := by
    intro l
    induction l with
    | nil => exact fun s _ h => h
    | cons v l ih =>
      intro s hl h
      refine ih _ (fun x hx => hl x (List.mem_cons_of_mem _ hx)) ?_
      rw [recardValve_valve before v w (hl v List.mem_cons_self), h]
      exact ite_self _
  induction l generalizing s with
  | nil => cases hw
  | cons v l ih =>
    have hl' : ∀ x ∈ l, x < 106 := fun x hx => hl x (List.mem_cons_of_mem _ hx)
    have hv : v < 106 := hl v List.mem_cons_self
    rcases List.mem_cons.1 hw with rfl | hw
    · refine hkept l _ hl' ?_
      rw [recardValve_valve before w w hv, if_pos ⟨rfl, hp⟩]
    · exact ih hl' hw (by rw [(Recast.recardValve before v s).tables]; exact hp)

theorem recardOwner_owner (o w : Owner) (s : State) : (s.recardOwner o).owner w =
    if o.index = w.index ∧ o.index < 53 then s.tables.startOwner o (s.owner o) else s.owner w := State.owner_setOwner s o w _

/-- Holds and host-hold flags stand through the owners' turns. -/
theorem recardOwners_holds (w : Owner) (l : List Owner) : ∀ s : State,
    ((l.foldl (fun t o => t.recardOwner o) s).owner w).holds = (s.owner w).holds
    ∧ ((l.foldl (fun t o => t.recardOwner o) s).owner w).hostHold = (s.owner w).hostHold := by
  induction l with
  | nil => exact fun s => ⟨rfl, rfl⟩
  | cons o l ih =>
    intro s
    have hstep : ((s.recardOwner o).owner w).holds = (s.owner w).holds ∧ ((s.recardOwner o).owner w).hostHold = (s.owner w).hostHold := by
      rw [recardOwner_owner]
      split
      next hi =>
        have hsame : s.owner w = s.owner o := by rw [State.owner_eq, State.owner_eq, hi.1]
        rw [hsame]
        exact ⟨rfl, rfl⟩
      next => exact ⟨rfl, rfl⟩
    obtain ⟨hh, hf⟩ := ih (s.recardOwner o)
    exact ⟨hh.trans hstep.1, hf.trans hstep.2⟩

/-- What R28 starts an owner's course with; `m` is the state it starts in. -/
structure StartsIn (r : OwnerRec) (m : OwnerMode) : Prop where
  mode : r.mode = m
  step : r.step = none
  phase : r.phase = none
  settled : r.settled = true ↔ m = .undefined ∨ m = .noValves

theorem startOwner_startsIn (t : TableStore) (o : Owner) (r : OwnerRec) : StartsIn (t.startOwner o r) (t.startMode o) :=
  ⟨rfl, rfl, rfl, by simp [TableStore.startOwner]⟩

theorem index_inj_of_mem {o w : Owner} (ho : o ∈ allOwners) (hw : w ∈ allOwners) (h : o.index = w.index) : o = w := by
  obtain ⟨hbranch, hsegment, -⟩ := mem_allOwners
  cases o with
  | branch b =>
    have hb := (hbranch b).1 ho
    cases w with
    | branch c => exact congrArg Owner.branch h
    | segment g => simp only [Owner.index] at h; omega
    | main => simp only [Owner.index] at h; omega
  | segment g =>
    have hg := (hsegment g).1 ho
    cases w with
    | branch c => have hc := (hbranch c).1 hw; simp only [Owner.index] at h; omega
    | segment k => simp only [Owner.index] at h; exact congrArg Owner.segment (by omega)
    | main => simp only [Owner.index] at h; omega
  | main =>
    cases w with
    | branch c => have hc := (hbranch c).1 hw; simp only [Owner.index] at h; omega
    | segment k => have hk := (hsegment k).1 hw; simp only [Owner.index] at h; omega
    | main => rfl

theorem index_lt_of_mem {o : Owner} (ho : o ∈ allOwners) : o.index < 53 := by
  obtain ⟨hbranch, hsegment, -⟩ := mem_allOwners
  cases o with
  | branch b => have := (hbranch b).1 ho; simp only [Owner.index]; omega
  | segment g => have := (hsegment g).1 ho; simp only [Owner.index]; omega
  | main => simp only [Owner.index]; omega

/-- After the turns of `l` each owner of `l` stands at its start value. -/
theorem recardOwners_start {w : Owner} (hw : w ∈ allOwners) {l : List Owner} (hl : ∀ o ∈ l, o ∈ allOwners) (hmem : w ∈ l) (s : State) :
    StartsIn ((l.foldl (fun t o => t.recardOwner o) s).owner w) (s.tables.startMode w) := by
  have hturn : ∀ (s : State) {o : Owner}, o ∈ allOwners → o = w ∨ StartsIn (s.owner w) (s.tables.startMode w) →
      StartsIn ((s.recardOwner o).owner w) (s.tables.startMode w) := by
    intro s o ho h
    rw [recardOwner_owner]
    split
    next hi =>
      obtain ⟨hindex, -⟩ := hi
      obtain rfl := index_inj_of_mem ho hw hindex
      exact startOwner_startsIn ..
    next hi =>
      refine h.resolve_left fun he => hi ?_
      rw [he]
      exact ⟨rfl, index_lt_of_mem hw⟩
  have htables : ∀ (s : State) (o : Owner), (s.recardOwner o).tables = s.tables := fun s o => (Recast.setOwner s o _).tables
  have hkept : ∀ (l : List Owner) (s : State), (∀ o ∈ l, o ∈ allOwners) → StartsIn (s.owner w) (s.tables.startMode w) →
      StartsIn ((l.foldl (fun t o => t.recardOwner o) s).owner w) (s.tables.startMode w) := by
    intro l
    induction l with
    | nil => exact fun s _ h => h
    | cons o l ih =>
      intro s hl h
      have hnext := ih (s.recardOwner o) (fun x hx => hl x (List.mem_cons_of_mem _ hx))
      rw [htables] at hnext
      exact hnext (hturn s (hl o List.mem_cons_self) (.inr h))
  induction l generalizing s with
  | nil => cases hmem
  | cons o l ih =>
    have hl' : ∀ x ∈ l, x ∈ allOwners := fun x hx => hl x (List.mem_cons_of_mem _ hx)
    rcases List.mem_cons.1 hmem with rfl | hmem
    · have hnext := hkept l (s.recardOwner w) hl'
      rw [htables] at hnext
      exact hnext (hturn s hw (.inl rfl))
    · have hnext := ih hl' hmem (s.recardOwner o)
      rwa [htables] at hnext

/-! ## The card table changes (R39, R70, R86, R100) -/

/-- The state at a card table change before the valves, the owners and the notices of INPUTS. -/
def State.recarded (cards : List Nat) (s : State) : State :=
  { s with
    tables := { s.tables with cards := cards }
    chain := s.chain.recarded (s.chain.st.afterCards cards.length)
    image := { Image.start cards.sum cards.length with lastFrameAt := s.image.lastFrameAt }
    ring := (s.withTables { s.tables with cards := cards }).fitRing.ring
    freeCount := (s.withTables { s.tables with cards := cards }).fitRing.freeCount
    scanDue := false
    periodicFrom := none
    flow := Flow.start
    link := { s.link with notices := s.noticesWith .chain } }

theorem recardBase_eq (cards : List Nat) (s : State) :
    ((s.withTables { s.tables with cards := cards }).recardChain).recardImage = s.recarded cards := by
  rw [State.recardChain, setChainState_eq]
  rfl

theorem recarded_noticed (cards : List Nat) (s : State) : (s.recarded cards).Noticed .chain := by
  have hjoined := State.joinNotice_noticed s .chain
  rw [joinNotice_withNotices] at hjoined
  exact hjoined

theorem findPos_recarded {t u : TableStore} (h : u.map = t.map) {f : MapFn → Bool} {p : Nat} (hp : t.findPos f = some p) :
    ∃ q, u.findPos f = some q := by
  obtain ⟨e, he, -⟩ := Option.map_eq_some_iff.1 hp
  have hentry : u.entryOf f = some e := by
    rw [← he, TableStore.entryOf, TableStore.entryOf, h]
  exact ⟨_, by rw [TableStore.findPos, hentry, Option.map_some]⟩

/-- R65, R69: the fresh flag clear, each IN position that was not stale has turned stale. -/
theorem joinInputsIfStale_cleared {s t : State} (hm : t.tables.map = s.tables.map) (hf : t.image.fresh = false) (h : s.InputsFresh) :
    (t.joinInputsIfStale s).Noticed .inputs := by
  obtain ⟨n, hn, p, hp, hs⟩ := h
  obtain ⟨q, hq⟩ := findPos_recarded hm hp
  have hstale : (t.inputAt q).2 = true := by simp [State.inputAt, hf]
  have hturned : ((s.inputsRecord.zip t.inputsRecord).any fun x => inputTurned x.1 x.2) = true :=
    (inputs_turned s t).2 ⟨n, hn, _, _, rfl, rfl, Or.inr ⟨p, q, hp, hq, hs, hstale⟩⟩
  rw [State.joinInputsIfStale, if_pos hturned]
  exact State.joinNotice_noticed _ _

/-- R39: the valves' and owners' turns. -/
def State.recastAll (before : TableStore) (s : State) : State :=
  allOwners.foldl (fun t o => t.recardOwner o) (valveNumbers.foldl (fun t v => t.recardValve before v) s)

theorem changeCards_eq (cards : List Nat) (s : State) :
    s.changeCards cards = (((s.recarded cards).joinInputsIfStale s).recastAll s.tables).finish := by
  rw [← recardBase_eq]
  rfl

theorem recastAll_recast (before : TableStore) (s : State) : Recast s (s.recastAll before) :=
  (Recast.foldl (fun s v => Recast.recardValve before v s) _ _).trans (Recast.foldl (fun s o => Recast.setOwner s o _) _ _)

theorem foldl_joins {α : Type} {f : State → α → State} (hf : ∀ s a, s.link.notices <+: (f s a).link.notices) (l : List α) :
    ∀ s : State, s.link.notices <+: (l.foldl f s).link.notices := by
  induction l with
  | nil => exact fun _ => List.prefix_rfl
  | cons a l ih => exact fun s => (hf s a).trans (ih _)

theorem recardOwner_joins (o : Owner) (s : State) : s.link.notices <+: (s.recardOwner o).link.notices :=
  State.setOwner_prefix s o (s.tables.startOwner o (s.owner o))

theorem recastAll_joins (before : TableStore) (s : State) : s.link.notices <+: (s.recastAll before).link.notices := by
  have hall : ∀ (vs : List Nat) (os : List Owner), s.link.notices <+:
      (os.foldl (fun t o => t.recardOwner o) (vs.foldl (fun t v => t.recardValve before v) s)).link.notices := fun vs os =>
    (foldl_joins (fun s v => recardValve_joins before v s) vs s).trans (foldl_joins (fun s o => recardOwner_joins o s) os _)
  rw [State.recastAll]
  exact hall valveNumbers allOwners

theorem recastAll_valve (before : TableStore) {v : Nat} (hv : v < 106) {s : State} (hp : (s.tables.valve v).present = true) :
    (s.recastAll before).valve v = ValveRec.fresh .unknown := by
  have howners : ∀ (l : List Owner) (s : State), (l.foldl (fun t o => t.recardOwner o) s).valves = s.valves := by
    intro l
    induction l with
    | nil => exact fun _ => rfl
    | cons o l ih =>
      intro s
      have hset : (s.recardOwner o).valves = s.valves := by rw [State.recardOwner, State.setOwner_eq]
      exact (ih _).trans hset
  rw [State.recastAll, State.valve, howners]
  exact recardValves_valve before (fun w hw => List.mem_range.1 hw) (List.mem_range.2 hv) hp

theorem recastAll_owner (before : TableStore) (w : Owner) (s : State) :
    ((s.recastAll before).owner w).holds = (s.owner w).holds ∧ ((s.recastAll before).owner w).hostHold = (s.owner w).hostHold
    ∧ (w ∈ allOwners → StartsIn ((s.recastAll before).owner w) (s.tables.startMode w)) := by
  have hvalves := Recast.foldl (fun s v => Recast.recardValve before v s) valveNumbers s
  have howner : ∀ w, (valveNumbers.foldl (fun t v => t.recardValve before v) s).owner w = s.owner w := by
    have hturn : ∀ (v : Nat) (s : State), (s.recardValve before v).owners = s.owners := by
      intro v s
      have hcleared : (if (s.tables.valve v).present then (s.setValve v (ValveRec.fresh .unknown)).withdraw fun e => e.valve == v else s).owners
          = s.owners := by
        split
        · rw [State.withdraw_eq, State.setValve_eq]
        · rfl
      unfold State.recardValve
      dsimp only
      split
      · exact hcleared
      · rw [joinNotice_withNotices]
        exact hcleared
    have hall : ∀ (l : List Nat) (s : State), (l.foldl (fun t v => t.recardValve before v) s).owners = s.owners := by
      intro l
      induction l with
      | nil => exact fun _ => rfl
      | cons v l ih => exact fun s => (ih _).trans (hturn v s)
    exact fun w => by rw [State.owner_eq, State.owner_eq, hall]
  obtain ⟨hholds, hhost⟩ := recardOwners_holds w allOwners (valveNumbers.foldl (fun t v => t.recardValve before v) s)
  refine ⟨hholds.trans (by rw [howner]), hhost.trans (by rw [howner]), fun hw => ?_⟩
  have hstart := recardOwners_start hw (fun _ ho => ho) hw (valveNumbers.foldl (fun t v => t.recardValve before v) s)
  rwa [hvalves.tables] at hstart

theorem startMode_cards (t : TableStore) (cards : List Nat) (o : Owner) : ({ t with cards := cards } : TableStore).startMode o = t.startMode o := by
  have hvalves : ({ t with cards := cards } : TableStore).hasValves o = t.hasValves o := by
    simp only [TableStore.hasValves, TableStore.complete, TableStore.drivePos, TableStore.findPos, Option.isSome_map]
    rfl
  cases o with
  | branch b => rfl
  | segment g | main => simp only [TableStore.startMode, hvalves]

/-- What a card table change leaves with no job in the table (R39, R70, R86, R100). -/
structure Recarded (cards : List Nat) (s t : State) : Prop where
  same : t = { s.recarded cards with
    valves := t.valves, owners := t.owners, sched := t.sched, activeJobs := t.activeJobs, link := { s.link with notices := t.link.notices } }
  valves : ∀ v < 106, (s.tables.valve v).present = true → t.valve v = ValveRec.fresh .unknown
  owners : ∀ o ∈ allOwners, StartsIn (t.owner o) (s.tables.startMode o)
  holds : ∀ o, (t.owner o).holds = (s.owner o).holds ∧ (t.owner o).hostHold = (s.owner o).hostHold
  noticed : t.Noticed .chain
  inputs : s.InputsFresh → t.Noticed .inputs

theorem changeCards_recarded (cards : List Nat) {s : State} (hj : s.NoJobs) : Recarded cards s (s.changeCards cards) := by
  have hbase : State.SameButNotices (s.recarded cards) ((s.recarded cards).joinInputsIfStale s) := joinInputsIfStale_same s _
  have hchainNoticed : ((s.recarded cards).joinInputsIfStale s).Noticed .chain := by
    unfold State.joinInputsIfStale
    split
    · exact (recarded_noticed cards s).mono (congrArg TableStore.mask (Ripple.joinNotice _ _).tables) (Ripple.joinNotice _ _).joins
    · exact recarded_noticed cards s
  have hinputs : s.InputsFresh → ((s.recarded cards).joinInputsIfStale s).Noticed .inputs := joinInputsIfStale_cleared rfl rfl
  rw [changeCards_eq]
  generalize (s.recarded cards).joinInputsIfStale s = x at hbase hchainNoticed hinputs
  have hrecast := recastAll_recast s.tables x
  have hjoins := recastAll_joins s.tables x
  have hvalve := fun v (hv : v < 106) => recastAll_valve s.tables hv (s := x)
  have howner := fun w => recastAll_owner s.tables w x
  have htables : x.tables = { s.tables with cards := cards } := (congrArg State.tables hbase :)
  have howners : x.owners = s.owners := (congrArg State.owners hbase :)
  have hchain : x.chain = s.chain.recarded (s.chain.st.afterCards cards.length) := (congrArg State.chain hbase :)
  have hjobs : x.jobs = s.jobs := (congrArg State.jobs hbase :)
  generalize x.recastAll s.tables = y at hrecast hjoins hvalve howner
  have hyj : y.NoJobs := fun k => by
    have hyjobs : y.jobs = x.jobs := (congrArg State.jobs hrecast.same :)
    rw [State.job, hyjobs, hjobs]
    exact hj k
  have hyc : y.chain.st ≠ .running := by
    have hychain : y.chain = x.chain := (congrArg State.chain hrecast.same :)
    rw [hychain, hchain]
    change s.chain.st.afterCards cards.length ≠ .running
    unfold ChainState.afterCards
    split
    · nofun
    · split <;> nofun
  have hquiet := finish_quiet hyj hyc
  have hms : ∀ o, y.Noticed o → y.finish.Noticed o := fun o h => h.mono (congrArg TableStore.mask (Ripple.finish y).tables) (Ripple.finish y).joins
  have hym : y.tables.mask = x.tables.mask := congrArg TableStore.mask hrecast.tables
  generalize y.finish = t at hquiet hms
  have htv : t.valves = y.valves := (congrArg State.valves hquiet :)
  have hto : t.owners = y.owners := (congrArg State.owners hquiet :)
  refine ⟨?_, fun v hv hp => ?_, fun o ho => ?_, fun o => ?_, hms _ (hchainNoticed.mono hym hjoins), fun hf => hms _ ((hinputs hf).mono hym hjoins)⟩
  · have hxs : x = { s.recarded cards with link := { s.link with notices := x.link.notices } } := by
      have hlift := congrArg (State.withNotices x.link.notices) hbase
      exact hlift
    rw [hquiet, hrecast.same, hxs]
  · rw [State.valve, htv]
    exact hvalve v hv (by rw [htables]; exact hp)
  · obtain ⟨-, -, hstart⟩ := howner o
    have hstart' := hstart ho
    rw [htables, startMode_cards] at hstart'
    rw [State.owner_eq, hto, ← State.owner_eq]
    exact hstart'
  · obtain ⟨hholds, hhost, -⟩ := howner o
    rw [State.owner_eq, hto, ← State.owner_eq, hholds, hhost, State.owner_eq, State.owner_eq, howners]
    exact ⟨rfl, rfl⟩

/-! ## DEFINE_CARD (R37, R38) -/

theorem takenWidth_spec (w : Nat) : 8 ≤ takenWidth w ∧ takenWidth w ≤ 64 ∧ takenWidth w % 8 = 0
    ∧ (w ≤ 8 → takenWidth w = 8) ∧ (64 ≤ w → takenWidth w = 64) ∧ (8 ≤ w → w ≤ 64 → w ≤ takenWidth w ∧ takenWidth w < w + 8) := by
  unfold takenWidth clamp
  omega

theorem answerDefineCard_eq {card n : Nat} (hc : card ≤ 15) {defined : Bool} (hd : yesNo n = some defined) (tag : Byte) (width : Nat) (s : State) :
    answerDefineCard tag card n width s = s.defineCard tag card defined width := by
  simp only [answerDefineCard, hd]
  exact if_neg (by change ¬ 16 ≤ card; omega)

/-- R37: what a card's record of definition may not cut off, and the room there must be. -/
structure CardFits (t : TableStore) (card : Nat) (defined : Bool) (w : Nat) : Prop where
  grows : defined = true → card ≤ t.cards.length ∧ (∀ e ∈ t.map, e.card = card → e.offset + e.fn.width ≤ w) ∧ (cardsAfter t.cards card true w).sum ≤ 256
  shrinks : defined = false → card + 1 = t.cards.length ∧ ∀ e ∈ t.map, e.card ≠ card

theorem defineCard_taken {s : State} (hu : s.Unlocked s.locks.tables) (ha : s.tables.anyActivated = false) (hj : s.NoJobs)
    (hs : s.chain.session = none) (hq : s.chain.queue = []) {card : Nat} {defined : Bool} {width : Nat}
    (hfit : CardFits s.tables card defined (takenWidth width)) (tag : Byte) :
    s.defineCard tag card defined width = (s.changeCards (cardsAfter s.tables.cards card defined (takenWidth width))).reply 0x10 tag
      (takenStatus (defined && takenWidth width != width))
      ((s.changeCards (cardsAfter s.tables.cards card defined (takenWidth width))).tables.cardRecord card
        ++ u16 (s.changeCards (cardsAfter s.tables.cards card defined (takenWidth width))).tables.length) := by
  have hjob : s.anyJob = false := Bool.eq_false_iff.2 fun h => by
    obtain ⟨k, j, hkj⟩ := (anyJob_iff s).1 h
    rw [hj k] at hkj
    cases hkj
  unfold State.defineCard
  rw [checked_unlocked hu]
  refine checked_taken _ _ _ _ _ fun c hc => ?_
  cases defined with
  | true =>
    obtain ⟨hcard, hmap, hsum⟩ := hfit.grows rfl
    have hcut : (s.tables.map.any fun e => e.card == card && decide (takenWidth width < e.offset + e.fn.width)) = false := by
      rw [List.any_eq_false]
      intro e he h
      simp only [Bool.and_eq_true, beq_iff_eq, decide_eq_true_iff] at h
      have := hmap e he h.1
      omega
    have hroom : ¬ 256 < (cardsAfter s.tables.cards card true (takenWidth width)).sum := by omega
    simp only [List.mem_cons, List.not_mem_nil, or_false, Bool.not_true, Bool.false_and, Bool.true_and, hcut, ha, hjob, hs, hq] at hc
    rcases hc with rfl | rfl | rfl | rfl | rfl | rfl | rfl
    · rfl
    · exact decide_eq_false (by omega)
    · rfl
    · rfl
    · rfl
    · rfl
    · exact decide_eq_false hroom
  | false =>
    obtain ⟨hcard, hmap⟩ := hfit.shrinks rfl
    have hfree : (s.tables.map.any fun e => e.card == card) = false := by
      rw [List.any_eq_false]
      exact fun e he h => hmap e he (eq_of_beq h)
    simp only [List.mem_cons, List.not_mem_nil, or_false, Bool.not_false, Bool.false_and, Bool.true_and, hfree, ha, hjob, hs, hq] at hc
    rcases hc with rfl | rfl | rfl | rfl | rfl | rfl | rfl
    · rfl
    · rfl
    · exact decide_eq_false (by omega)
    · exact bne_eq_false_iff_eq.2 hcard
    · rfl
    · rfl
    · rfl

theorem recarded_latches (cards : List Nat) (s : State) : s.LatchesHeld (s.recarded cards) := fun c r h =>
  State.fitRing_latch (s.withTables { s.tables with cards := cards }) c r h

theorem mem_allOwners_of_wellFormed {o : Owner} (h : WellFormed.owner o = true) : o ∈ allOwners := by
  obtain ⟨hbranch, hsegment, hmain⟩ := mem_allOwners
  cases o with
  | branch b => exact (hbranch b).2 (of_decide_eq_true h)
  | segment g => exact (hsegment g).2 (of_decide_eq_true h)
  | main => exact hmain

theorem Recarded.spared {cards : List Nat} {s t : State} (h : Recarded cards s t) :
    Spared { s with
      tables := { s.tables with cards := cards }
      chain := t.chain
      image := t.image
      ring := t.ring
      freeCount := t.freeCount
      flow := Flow.start
      periodicFrom := none } t where
  clock := (congrArg State.clock h.same :)
  lastStart := (congrArg State.lastStart h.same :)
  power := (congrArg State.power h.same :)
  rateHigh := (congrArg State.rateHigh h.same :)
  tables := (congrArg State.tables h.same :)
  locks := (congrArg State.locks h.same :)
  stored := (congrArg State.stored h.same :)
  copyValid := (congrArg State.copyValid h.same :)
  commit := (congrArg State.commit h.same :)
  link := (congrArg (fun x : State => { x.link with notices := s.link.notices }) h.same :)
  chain := rfl
  ring := rfl
  image := rfl
  periodicFrom := (congrArg State.periodicFrom h.same :)
  flow := (congrArg State.flow h.same :)
  freeCount := rfl
  pending := (congrArg State.pending h.same :)

/-- Settles O21, by the checks in their order and what the card table change leaves. -/
theorem defineCardTaken : Obligations.DefineCardTaken := by
  refine ⟨takenWidth_spec, fun s tag card width defined cards st hs hu hcard ha hj hses hq hcase => ?_⟩
  obtain ⟨d, hd, hfit, hcards, hst⟩ : ∃ d, yesNo defined = some d ∧ CardFits s.tables card d (takenWidth width)
      ∧ cards = cardsAfter s.tables.cards card d (takenWidth width) ∧ st = takenStatus (d && takenWidth width != width) := by
    rcases hcase with ⟨rfl, hle, hmap, hafter, hsum, hst⟩ | ⟨rfl, hlast, hmap, hafter, hst⟩
    · refine ⟨true, rfl, ⟨fun _ => ⟨hle, hmap, ?_⟩, nofun⟩, hafter, hst.trans ?_⟩
      · rw [hafter] at hsum
        exact hsum
      · exact (takenStatus_eq (by simp)).symm
    · exact ⟨false, rfl, ⟨nofun, fun _ => ⟨hlast, hmap⟩⟩, hafter, hst⟩
  have hexec : exec (.defineCard tag card defined width) s = .next ((s.changeCards cards).reply 0x10 tag st
      ((s.changeCards cards).tables.cardRecord card ++ u16 (s.changeCards cards).tables.length)) := by
    rw [exec_answer rfl hs, hcards, hst, ← defineCard_taken hu ha hj hses hq hfit tag]
    exact congrArg _ (answerDefineCard_eq hcard hd tag width s)
  have hchanged := changeCards_recarded cards hj
  have hchainsched := changeCards_spec cards s hj
  generalize s.changeCards cards = u at *
  obtain ⟨hchain, hsched⟩ := hchainsched
  have hstate : u.chain.st = s.chain.st.afterCards cards.length := congrArg Chain.st hchain
  have htables : u.tables = { s.tables with cards := cards } := (congrArg State.tables hchanged.same :)
  have hring : u.ring = (s.recarded cards).ring := (congrArg State.ring hchanged.same :)
  have hlength : u.tables.length = cards.sum := by rw [htables]; rfl
  refine ⟨_, hexec, ?_, ?_, fun hne => ?_, hsched, ?_, (congrArg State.image hchanged.same :), (congrArg State.scanDue hchanged.same :),
    hchanged.valves, fun b hb => ?_, fun o ho => ?_, fun o ho => ?_, hchanged.holds, (congrArg State.zones hchanged.same :),
    (congrArg State.jobs hchanged.same :), (congrArg State.waitList hchanged.same :), fun c r hr => ?_, hchanged.noticed, hchanged.inputs⟩
  · rw [hlength]
    exact hchanged.spared.reply 0x10 tag st _
  · change u.chain = { s.chain with
      st := u.chain.st, streak := u.chain.streak, adopted := false, rejects := 0, echoNext := false
      inFlight := s.chain.inFlight.map fun f => { f with unchecked := true } }
    rw [hchain]
    rfl
  · change u.chain.streak = 0
    rw [hchain]
    exact if_neg fun he => hne (hstate.trans he.symm)
  · refine hstate.trans ?_
    simp only [ChainState.afterCards, List.length_eq_zero_iff]
  · exact (hchanged.owners _ ((mem_allOwners.1 b).2 hb)).mode
  · have hmem : o ∈ allOwners := by
      obtain ⟨-, hsegment, hmain⟩ := mem_allOwners
      rcases ho with rfl | ⟨g, hg, rfl⟩
      · exact hmain
      · exact (hsegment g).2 hg
    have hmode := (hchanged.owners o hmem).mode
    rcases ho with rfl | ⟨g, hg, rfl⟩ <;> exact hmode
  · have hstart := hchanged.owners o (mem_allOwners_of_wellFormed ho)
    have hmode := hstart.mode
    exact ⟨hstart.step, hstart.phase, hstart.settled.trans (by rw [← hmode]; rfl)⟩
  · obtain ⟨r', hr', hbits⟩ := recarded_latches cards s c r hr
    exact ⟨r', (congrArg (fun l => l[c]?) hring).trans hr', hbits⟩

end Sys2Proof.Machine
end

