-- ==== Sys2Proof/Proofs/Reads.lean ====
section
/-! The requests that read (R68, R159, R160, R181 to R184) and the records they show, O19. -/

namespace Sys2Proof.Machine

/-! ## Parts of records (R173) -/

theorem onOffCode_eq (b : Bool) : onOffCode b = flag (!b) := by cases b <;> rfl

theorem scanBytes_eq (c : ScanSettings) : c.bytes = flag (!c.image) ++ flag (!c.attention) ++ u16 c.interval ++ flag c.serviceFirst
    ++ u8 (rateCode c.rate) ++ u16 c.gap ++ flag c.holdOnWet := by
  rw [ScanSettings.bytes, onOffCode_eq, onOffCode_eq]

theorem maskBytes_eq (m : NoticeMask) : m.bytes =
    [m.zone, m.branch, m.segment, m.main, m.valve, m.job, m.chain, m.inputs].flatMap fun on => flag (!on) := by
  simp only [NoticeMask.bytes, onOffCode_eq, List.flatMap_cons, List.flatMap_nil, List.append_nil, List.append_assoc]

theorem filter_beq_length {α β : Type} [DecidableEq β] (f : α → β) (b : β) (l : List α) :
    (l.filter fun a => f a == b).length = (l.filter fun a => decide (f a = b)).length :=
  congrArg List.length (List.filter_congr fun _ _ => Bool.beq_eq_decide_eq _ _)

theorem countJobs_eq (s : State) (st : JobState) : s.countJobs st = (s.jobs.toList.filter fun j => j.map (·.st) = some st).length := by
  refine congrArg List.length (List.filter_congr fun j _ => ?_)
  cases j with
  | none => rfl
  | some j =>
    simp only [Option.map_some, Option.some.injEq]
    exact Bool.beq_eq_decide_eq _ _

theorem deferred_eq (s : State) : s.deferred = s.chain.queue.length + s.chain.session.toList.length + s.commit.toList.length := by
  rw [State.deferred]
  cases s.chain.session <;> cases s.commit <;> rfl

/-! ## READ_STATUS (R115, R182) -/

theorem statusBytes_eq (s : State) :
    s.statusBytes = u32 (s.clock / 2000) ++ u8 s.lastStart.code ++ flag (!s.alertAsserted) ++ u8 s.chain.st.code
      ++ flag s.chain.adopted
      ++ u8 (s.zones.toList.filter fun z => z.st = .wet).length ++ u8 (s.zones.toList.filter fun z => z.st = .acked).length
      ++ u8 (s.jobs.toList.filter fun j => j.map (·.st) = some .active).length
      ++ u8 (s.jobs.toList.filter fun j => j.map (·.st) = some .contained).length
      ++ u8 (s.jobs.toList.filter fun j => j.map (·.st) = some .uncontained).length ++ u8 s.waitList.length
      ++ u8 (s.valves.toList.filter fun v => v.st = .fault).length ++ u8 (s.owners.toList.filter fun o => o.mode = .failed).length
      ++ flag s.locks.tables ++ flag s.locks.plan ++ flag s.locks.limits ++ flag s.copyValid ++ flag s.commit.isSome
      ++ s.tables.scan.bytes ++ s.tables.mask.bytes ++ u8 s.link.notices.length
      ++ u8 (s.chain.queue.length + s.chain.session.toList.length + s.commit.toList.length)
      ++ u16 s.link.lengthDiscards.toNat ++ u16 s.link.checkDiscards.toNat ++ u16 s.link.gapDiscards.toNat
      ++ u16 s.link.overflowDiscards.toNat := by
  have hzones : ∀ st, s.countZones st = (s.zones.toList.filter fun z => z.st = st).length := fun st => by
    rw [State.countZones]
    exact filter_beq_length ZoneRec.st st s.zones.toList
  have hvalves : s.countValves .fault = (s.valves.toList.filter fun v => v.st = .fault).length := by
    rw [State.countValves]
    exact filter_beq_length ValveRec.st .fault s.valves.toList
  have howners : s.countOwners .failed = (s.owners.toList.filter fun o => o.mode = .failed).length := by
    rw [State.countOwners]
    exact filter_beq_length OwnerRec.mode .failed s.owners.toList
  have hms : s.ms = s.clock / 2000 := rfl
  unfold State.statusBytes
  simp only [hms, hzones, countJobs_eq, hvalves, howners, deferred_eq, Locks.bytes, List.append_assoc]

theorem alertAsserted_iff (s : State) : s.alertAsserted = true ↔ s.power.running = false ∨ s.chain.st = .broken
    ∨ (∃ z ∈ s.zones.toList, z.st = .wet) ∨ (∃ j, some j ∈ s.jobs.toList ∧ j.st = .uncontained) ∨ (∃ v ∈ s.valves.toList, v.st = .fault) := by
  have hwet : s.anyWet = true ↔ ∃ z ∈ s.zones.toList, z.st = .wet := by simp only [State.anyWet, List.any_eq_true, beq_iff_eq]
  have hfault : s.anyFault = true ↔ ∃ v ∈ s.valves.toList, v.st = .fault := by simp only [State.anyFault, List.any_eq_true, beq_iff_eq]
  have hjob : s.anyUncontained = true ↔ ∃ j, some j ∈ s.jobs.toList ∧ j.st = .uncontained := by
    rw [State.anyUncontained, List.any_eq_true]
    constructor
    · rintro ⟨j, hj, hst⟩
      cases j with
      | none => cases hst
      | some j => exact ⟨j, hj, eq_of_beq hst⟩
    · rintro ⟨j, hj, hst⟩
      exact ⟨some j, hj, beq_iff_eq.2 hst⟩
  rw [State.alertAsserted, State.alertConditions, Bool.or_eq_true, Bool.or_eq_true, Bool.or_eq_true, Bool.or_eq_true, hwet, hjob, hfault,
    Bool.not_eq_true', beq_iff_eq]
  rw [or_comm (b := s.chain.st = .broken)]
  simp only [or_assoc]

/-! ## Records (R183) -/

theorem classCode_eq (stroke : Nat) : (classOf stroke).code = if stroke ≤ 1000 then 0 else if stroke ≤ 5000 then 1 else 2 := by
  unfold classOf
  split
  · rfl
  · split <;> rfl

theorem zoneRecord_eq (s : State) (n : Nat) : s.zoneRecord n =
    u8 n ++ u8 (s.tables.zone n).kind.code ++ u8 (s.tables.zone n).confirm ++ u8 (s.tables.zone n).clear
      ++ flag (s.tables.zone n).auto ++ flag (s.tables.zone n).failsafe
      ++ (if (s.tables.zone n).kind = .balance then
          [1] ++ u8 (s.tables.zone n).branch ++ [1] ++ u16 (s.tables.zone n).threshold ++ [1] ++ u16 (s.tables.zone n).minFlow
        else [0, 0, 0, 0, 0, 0, 0, 0])
      ++ u8 (s.zone n).st.code ++ u8 (s.zone n).wet ++ u8 (s.zone n).dry ++ opt 1 (fun c => u8 c.code) (s.zone n).cause
      ++ opt 4 u32 (s.zone n).wetTime ++ u8 (s.tables.dripEntries n).length := by
  rw [State.zoneRecord]
  cases (s.tables.zone n).kind with
  | drip => simp only [reduceCtorEq, if_false, opt, List.append_assoc]; rfl
  | balance => simp only [if_true, opt, List.append_assoc]; rfl

theorem cardRecord_some {t : TableStore} {n w : Nat} (h : t.cards[n]? = some w) :
    t.cardRecord n = u8 n ++ ([1] ++ u8 w ++ u8 (t.cards.take n).sum) := by
  rw [TableStore.cardRecord, h]
  rfl

theorem cardRecord_none {t : TableStore} {n : Nat} (h : t.cards[n]? = none) : t.cardRecord n = u8 n ++ [0, 0, 0] := by
  rw [TableStore.cardRecord, h]
  rfl

theorem inputsBytes_eq (s : State) : s.inputsBytes = (List.range 32).flatMap fun i =>
    ((s.tables.findPos (· == .inp i)).elim [0, 0, 0] fun p => [1] ++ flag (bitAt s.image.ret p) ++ flag (!s.image.fresh || !s.goodAt p)) := by
  rw [State.inputsBytes, State.inputsRecord, List.flatMap_map]
  refine List.flatMap_congr fun i _ => ?_
  cases s.tables.findPos (· == .inp i) <;> rfl

theorem jobRecord_some {s : State} {n : Nat} {j : Job} (h : s.job n = some j) :
    s.jobRecord n = u8 n ++ jobHead (some j) ++ u8 j.entries.length ++ (j.entries.mapIdx encEntry).flatten := by
  rw [State.jobRecord, h]

theorem jobRecord_none {s : State} {n : Nat} (h : s.job n = none) : s.jobRecord n = u8 n ++ jobHead none ++ [0] := by
  rw [State.jobRecord, h]
  rfl

/-! ## READ_OBJECT (R183) -/

theorem exec_readObject {s : State} (hs : s.Ready) (tag : Byte) {kind number : Nat} {r : List Byte} (h : s.objectRecord kind number = some r) :
    exec (.readObject tag kind number) s = .next (s.reply 0x40 tag .ok r) := by
  rw [exec_answer rfl hs]
  refine congrArg _ ?_
  change answerReadObject tag kind number s = _
  rw [answerReadObject, h]

theorem exec_readObject_none {s : State} (hs : s.Ready) (tag : Byte) {kind number : Nat} (h : s.objectRecord kind number = none) :
    exec (.readObject tag kind number) s = .next (s.refuse 0x40 tag .badField) := by
  rw [exec_answer rfl hs]
  refine congrArg _ ?_
  change answerReadObject tag kind number s = _
  rw [answerReadObject, h]

/-- R183: the eleven kinds with the count of their numbers. -/
def objectKinds : List (Nat × Nat) :=
  [(0, 64), (1, 48), (2, 4), (3, 1), (4, 106), (5, 16), (6, 1), (7, 1), (8, 16), (9, 97), (10, 64)]

theorem objectRecord_none (s : State) {kind number : Nat} (h : ∀ n, (kind, n) ∈ objectKinds → n ≤ number) :
    s.objectRecord kind number = none := by
  have hout : ∀ n, (kind, n) ∈ objectKinds → ¬ number < n := fun n hn => Nat.not_lt.2 (h n hn)
  match kind, hout with
  | 0, hout => exact if_neg (hout 64 (by decide))
  | 1, hout => exact if_neg (hout 48 (by decide))
  | 2, hout => exact if_neg (hout 4 (by decide))
  | 3, hout => exact if_neg (mt Nat.lt_one_iff.2 (hout 1 (by decide)))
  | 4, hout => exact if_neg (hout 106 (by decide))
  | 5, hout => exact if_neg (hout 16 (by decide))
  | 6, hout => exact if_neg (mt Nat.lt_one_iff.2 (hout 1 (by decide)))
  | 7, hout => exact if_neg (mt Nat.lt_one_iff.2 (hout 1 (by decide)))
  | 8, hout => exact if_neg (hout 16 (by decide))
  | 9, hout => exact if_neg (hout 97 (by decide))
  | 10, hout => exact if_neg (hout 64 (by decide))
  | _ + 11, _ => rfl

/-! ## The requests with a first and a count (R68, R159, R160) -/

theorem clamp_sixteen (count : Nat) : clamp 1 16 count = max 1 (min 16 count) := rfl

theorem readStatus_eq {n count : Nat} : takenStatus (n != count) = if n = count then .ok else .adjusted :=
  takenStatus_eq bne_eq_false_iff_eq

section
variable {s : State} (hs : s.Ready) (tag : Byte) {first : Nat} (count : Nat)
include hs

theorem exec_readWindow : exec (.readWindow tag first count) s = .next (if 32 ≤ first then s.refuse 0x41 tag .badField
    else s.reply 0x41 tag (if max 1 (min 16 count) = count then .ok else .adjusted)
      (u8 s.sched.window.length ++ u16 s.windowSum ++ s.tables.limits.bytes ++ s.sched.lastSeg.toList.flatMap (opt 4 u32)
        ++ opt 4 u32 s.sched.lastRack ++ flag (s.tables.scan.holdOnWet && decide (0 < s.activeJobs))
        ++ encList s.windowEntry ((s.sched.window.drop first).take (max 1 (min 16 count))))) := by
  rw [exec_answer rfl hs]
  refine congrArg _ ?_
  change answerReadWindow tag first count s = _
  unfold answerReadWindow
  simp only [checked_cons, checked_nil, decide_eq_true_eq, readStatus_eq]
  rfl

theorem exec_readMoves : exec (.readMoves tag first count) s = .next (if 106 ≤ first then s.refuse 0x42 tag .badField
    else s.reply 0x42 tag (if max 1 (min 16 count) = count then .ok else .adjusted)
      (u8 s.sched.queue.length ++ u8 (s.sched.queue.filter (·.urgent)).length ++ u8 s.activeJobs
        ++ encList s.moveEntry ((s.sched.queue.drop first).take (max 1 (min 16 count))))) := by
  rw [exec_answer rfl hs]
  refine congrArg _ ?_
  change answerReadMoves tag first count s = _
  unfold answerReadMoves
  simp only [checked_cons, checked_nil, decide_eq_true_eq, readStatus_eq]
  rfl

theorem exec_readPositions : exec (.readPositions tag first count) s = .next (if s.tables.length ≤ first then s.refuse 0x34 tag .notDefined
    else s.reply 0x34 tag (if min (max 1 (min 58 count)) (s.tables.length - first) = count then .ok else .adjusted)
      (u8 s.chain.st.code ++ flag s.chain.adopted ++ u16 s.age ++ encList (fun i => s.positionEntry (first + i))
        (List.range (min (max 1 (min 58 count)) (s.tables.length - first))))) := by
  rw [exec_answer rfl hs]
  refine congrArg _ ?_
  change answerReadPositions tag first count s = _
  unfold answerReadPositions
  simp only [checked_cons, checked_nil, decide_eq_true_eq, readStatus_eq]
  rfl

end

/-! ## Queue entries (R149, R160) -/

theorem standing_code (s : State) (e : MoveEntry) : (s.standing e).code =
    if s.chain.st ≠ .running ∨ s.proveWaiting = true then 0
      else if e.urgent = false ∧ (∃ x ∈ s.sched.queue, x.urgent = true) then 1
      else if e.urgent = false ∧ s.tables.scan.holdOnWet = true ∧ 0 < s.activeJobs then 2
      else if s.countTest = false then 3 else if s.budgetTest e = false then 4 else if s.spacingTest e = false then 5 else 6 := by
  have hnone : s.noneConsidered = true ↔ s.chain.st ≠ .running ∨ s.proveWaiting = true := by
    rw [State.noneConsidered, Bool.or_eq_true, bne_iff_ne]
  have hurgent : (!e.urgent && s.hasUrgent) = true ↔ e.urgent = false ∧ ∃ x ∈ s.sched.queue, x.urgent = true := by
    rw [Bool.and_eq_true, Bool.not_eq_true', State.hasUrgent, List.any_eq_true]
  have hheld : (!e.urgent && s.withheld) = true ↔ e.urgent = false ∧ s.tables.scan.holdOnWet = true ∧ 0 < s.activeJobs := by
    rw [Bool.and_eq_true, Bool.not_eq_true', State.withheld, Bool.and_eq_true, decide_eq_true_iff]
  unfold State.standing
  simp only [hnone, hurgent, hheld, Bool.not_eq_true', apply_ite Standing.code]
  rfl

theorem requester_bytes (r : Requester) : (∀ o k, r = .step o k → encRequester r = encOwner o ++ u8 k)
    ∧ (r = .maintenance → encRequester r = [3, 0, 0]) :=
  ⟨fun o k h => by rw [h]; rfl, fun h => by rw [h]; rfl⟩

/-- Settles O19, by the requests and then the records, field by field. -/
theorem readsOnlyReply : Obligations.ReadsOnlyReply := by
  refine ⟨fun s tag first count number hs => ⟨?_, ?_, ?_, fun n hn => ⟨fun h => ?_, fun h => ?_⟩, fun h => ?_, fun h => ?_, fun n hn h => ?_,
      fun h => ?_, fun h => ?_, fun h => ?_, fun h => ?_, ?_, fun h => ?_, fun h => ?_, ?_, ?_, fun h => ?_, fun h => ?_, fun h => ?_,
      fun kind h => ?_⟩,
    fun s => ⟨statusBytes_eq s, alertAsserted_iff s⟩, fun s n o => ⟨?_, rfl, rfl, rfl, ?_, rfl, rfl, ?_, ?_, ?_, ?_, ?_, ?_, ?_, ?_⟩,
    fun s w e => ⟨?_, ?_⟩, fun l c m => ⟨rfl, scanBytes_eq c, maskBytes_eq m⟩, fun n => ⟨rfl, rfl, rfl⟩, rfl, rfl, fun enc n x l => ⟨rfl, rfl, rfl⟩,
    by decide, by decide, by decide, by decide, by decide, by decide, by decide, by decide, by decide, fun b => rfl, fun o ho => ?_,
    fun n => rfl, by decide, by decide, by decide, by decide, by decide, by decide, fun n l => rfl⟩
  · rw [exec_answer rfl hs]
    refine congrArg _ ?_
    change answerIdentify tag s = _
    rw [answerIdentify, show capacities = [16, 1, 0, 106, 48, 4, 97, 64, 8, 16, 16, 64, 8, 106, 32, 4, 241] by decide]
    rfl
  · exact exec_answer rfl hs
  · exact exec_answer rfl hs
  · rw [exec_readWindow hs, if_neg (by omega), ← hn]
  · rw [exec_readMoves hs, if_neg (by omega), ← hn]
  · rw [exec_readWindow hs, if_pos (by omega)]
  · rw [exec_readMoves hs, if_pos (by omega)]
  · rw [exec_readPositions hs, if_neg (by omega), ← hn]
  · rw [exec_readPositions hs, if_pos h]
  · exact exec_readObject hs tag (if_pos h)
  · exact exec_readObject hs tag (if_pos h)
  · exact exec_readObject hs tag (if_pos h)
  · exact exec_readObject hs tag rfl
  · exact exec_readObject hs tag (if_pos h)
  · exact exec_readObject hs tag (if_pos h)
  · exact exec_readObject hs tag rfl
  · exact exec_readObject hs tag rfl
  · exact exec_readObject hs tag (if_pos h)
  · exact exec_readObject hs tag (if_pos h)
  · exact exec_readObject hs tag (if_pos h)
  · exact exec_readObject_none hs tag (objectRecord_none s h)
  · rw [← classCode_eq]
    rfl
  · rw [zoneRecord_eq, TableStore.dripEntries]
    refine congrArg _ (congrArg u8 (congrArg List.length (List.filter_congr fun e _ => ?_)))
    cases e.fn with
    | drip z _ => exact Bool.beq_eq_decide_eq _ _
    | _ => rfl
  · cases h : s.tables.cards[n]? with
    | some w => exact cardRecord_some h
    | none => exact cardRecord_none h
  · rfl
  · rw [inputsBytes_eq]
    refine List.flatMap_congr fun i _ => ?_
    cases s.tables.findPos (· == .inp i) <;> rfl
  · exact fun h => ⟨by rw [h]; rfl, by rw [jobRecord_none h]⟩
  · exact fun j h => ⟨by rw [h]; rfl, jobRecord_some h⟩
  · intro e
    unfold encEntry
    cases e.origin <;> cases e.esc <;> rfl
  · unfold State.positionEntry
    dsimp only
    cases s.tables.entryAtPos n <;> cases s.tables.isOutputPos n <;> simp [State.staleAt] <;> rfl
  · unfold State.age
    cases s.image.lastFrameAt <;> rfl
  · rfl
  · unfold State.moveEntry
    rw [standing_code]
    cases e.req <;> rfl
  · cases o with
    | branch b => exact absurd rfl (ho b)
    | segment g => rfl
    | main => rfl

end Sys2Proof.Machine
end

