-- ==== Sys2Proof/Proofs/Steps.lean ====
section
/-! The steps of an owner's sequence (R21 to R26): what taking one leaves, and the beginning of a course (R19, R25). -/

namespace Sys2Proof.Machine

/-! ## One owner's record written -/

theorem setOwner_self {o : Owner} (ho : WellFormed.owner o = true) (r : OwnerRec) (s : State) : (s.setOwner o r).owner o = r := by
  rw [State.owner_setOwner, if_pos ⟨rfl, owner_index_lt ho⟩]

theorem setOwner_stir (s : State) (o : Owner) (r : OwnerRec) : Stir s (s.setOwner o r) := Stir.setOwner s o r

theorem setOwner_ms (o : Owner) (r : OwnerRec) (s : State) : (s.setOwner o r).ms = s.ms := by
  rw [State.setOwner_eq]
  rfl

/-! ## What a step finds (R21) -/

theorem view_inPlace {r : ValveRec} {p : Pos} (h : r.st = p.idle) : r.view p = .inPlace := by
  unfold ValveRec.view
  rw [h]
  cases p <;> rfl

theorem view_awaited {r : ValveRec} {p : Pos} (h : r.st = p.moving) : r.view p = .awaited := by
  unfold ValveRec.view
  rw [h]
  cases p <;> rfl

theorem view_needsMove {r : ValveRec} {p : Pos} (h : r.st = p.other.idle ∨ r.st = p.other.moving) : r.view p = .needsMove := by
  unfold ValveRec.view
  rcases h with h | h <;> rw [h] <;> cases p <;> rfl

theorem view_unknown {r : ValveRec} {p : Pos} (h : r.st = .unknown ∨ r.st = .undefined) : r.view p = .unknown := by
  unfold ValveRec.view
  rcases h with h | h <;> rw [h]

theorem view_fault {r : ValveRec} {p : Pos} (h : r.st = .fault) : r.view p = .fault := by
  unfold ValveRec.view
  rw [h]

/-- How a valve can stand against a position. -/
theorem valveState_cases (st : ValveState) (p : Pos) : st = p.idle ∨ st = p.moving ∨ (st = p.other.idle ∨ st = p.other.moving)
    ∨ (st = .unknown ∨ st = .undefined) ∨ st = .fault := by
  cases p <;> cases st <;> simp [Pos.idle, Pos.moving, Pos.other]

theorem idle_ne (p : Pos) : p.idle ≠ p.moving ∧ p.idle ≠ p.other.idle ∧ p.idle ≠ p.other.moving ∧ p.idle ≠ .unknown ∧ p.idle ≠ .undefined
    ∧ p.idle ≠ .fault := by cases p <;> decide

theorem moving_ne (p : Pos) : p.moving ≠ p.other.idle ∧ p.moving ≠ p.other.moving ∧ p.moving ≠ .unknown ∧ p.moving ≠ .undefined
    ∧ p.moving ≠ .fault := by cases p <;> decide

theorem other_ne (p : Pos) : p.other.idle ≠ .unknown ∧ p.other.idle ≠ .undefined ∧ p.other.idle ≠ .fault
    ∧ p.other.moving ≠ .unknown ∧ p.other.moving ≠ .undefined ∧ p.other.moving ≠ .fault := by cases p <;> decide

/-! ## A step taken (R21, R26) -/

/-- The record of an owner at a step. -/
def OwnerRec.atStep (r : OwnerRec) (k : Nat) (needed : Bool) : OwnerRec := { r with step := some k, needed := needed, phase := none }

section
variable {s : State} {o : Owner} {k a : Nat} {d : Dir} {p : Pos} (hm : s.stepMove o k = (a, d)) (hp : p = d.target (s.tables.valve a).fail)
include hm hp

theorem takeStep_idle (h : (s.valve a).st = p.idle) (first : Bool) (done : State → State) : s.takeStep o k first done =
    done (s.setOwner o ((s.owner o).atStep k (if first then false else (s.owner o).needed))) := by
  simp only [State.takeStep, hm, ← hp, view_inPlace h]
  rfl

theorem takeStep_moving (h : (s.valve a).st = p.moving) (first : Bool) (done : State → State) :
    s.takeStep o k first done = s.setOwner o ((s.owner o).atStep k true) := by
  simp only [State.takeStep, hm, ← hp, view_awaited h]
  rfl

theorem takeStep_elsewhere (h : (s.valve a).st = p.other.idle ∨ (s.valve a).st = p.other.moving) (first : Bool) (done : State → State) :
    s.takeStep o k first done = (s.setOwner o ((s.owner o).atStep k true)).askMove o k a d := by
  simp only [State.takeStep, hm, ← hp, view_needsMove h]
  rfl

theorem takeStep_unknown (h : (s.valve a).st = .unknown ∨ (s.valve a).st = .undefined) (first : Bool) (done : State → State) :
    s.takeStep o k first done = s.setOwner o ((s.owner o).atStep k false) := by
  simp only [State.takeStep, hm, ← hp, view_unknown h]
  rfl

theorem takeStep_fault (h : (s.valve a).st = .fault) (first : Bool) (done : State → State) :
    s.takeStep o k first done = s.failOwner o := by
  simp only [State.takeStep, hm, ← hp, view_fault h]

end

theorem askMove_queue (o : Owner) (k v : Nat) (d : Dir) (s : State) : (s.askMove o k v d).sched.queue =
    MoveEntry.joining ⟨v, d, (s.owner o).mode.urgent, .step o k, s.ms⟩ s.sched.queue := rfl

theorem askMove_owner (o w : Owner) (k v : Nat) (d : Dir) (s : State) : (s.askMove o k v d).owner w = s.owner w := rfl

theorem failOwner_owner {o : Owner} (ho : WellFormed.owner o = true) (s : State) :
    (s.failOwner o).owner o = { s.owner o with mode := .failed, step := none, phase := none, needed := false } := by
  have hown : (s.withdraw (MoveEntry.isOf o)).owner o = s.owner o := by
    rw [State.owner_eq, State.withdraw_eq]
    rfl
  unfold State.failOwner
  dsimp only
  rw [setOwner_self ho, hown]

theorem failOwner_queue (o : Owner) (s : State) : (s.failOwner o).sched.queue = s.sched.queue.filter fun e => !e.isOf o := by
  unfold State.failOwner
  dsimp only
  rw [setOwner_sched, State.withdraw_eq]

theorem endSequence_owner {o : Owner} (ho : WellFormed.owner o = true) (s : State) : (s.endSequence o).owner o =
    { s.owner o with mode := (s.owner o).mode.endMode o, step := none, phase := none, needed := false } := setOwner_self ho _ s

/-- The parts of `StepTaken` for a step whose valve is not in place. -/
theorem takeStep_taken {s : State} {o : Owner} {k a : Nat} {d : Dir} {p : Pos} (ho : WellFormed.owner o = true) (hm : s.stepMove o k = (a, d))
    (hp : p = d.target (s.tables.valve a).fail) (h : (s.valve a).st ≠ p.idle) (first : Bool) (done : State → State) :
    s.StepTaken (s.takeStep o k first done) o (s.owner o).mode k a d p s.sched.queue := by
  obtain ⟨hm1, hm2, hm3, hm4, hm5⟩ := moving_ne p
  obtain ⟨ho1, ho2, ho3, ho4, ho5, ho6⟩ := other_ne p
  rcases valveState_cases (s.valve a).st p with hi | hmv | hel | hun | hft
  · exact absurd hi h
  · have hno : ¬ ((s.valve a).st = p.other.idle ∨ (s.valve a).st = p.other.moving) := by
      rw [hmv]
      exact fun hc => hc.elim hm1 hm2
    rw [takeStep_moving hm hp hmv]
    refine ⟨fun hi => absurd hi h, fun _ _ => ?_, fun hf => absurd (hmv.symm.trans hf) hm5, fun _ => ?_⟩
    · rw [setOwner_self ho, setOwner_sched, if_neg hno, hmv]
      exact ⟨rfl, rfl, (by rw [bne_iff_ne.2 hm3, bne_iff_ne.2 hm4]; rfl), rfl⟩
    · rw [setOwner_self ho]
      rfl
  · rw [takeStep_elsewhere hm hp hel]
    have hne : (s.valve a).st ≠ .unknown ∧ (s.valve a).st ≠ .undefined ∧ (s.valve a).st ≠ .fault := by
      rcases hel with hel | hel <;> rw [hel]
      · exact ⟨ho1, ho2, ho3⟩
      · exact ⟨ho4, ho5, ho6⟩
    obtain ⟨hne1, hne2, hne3⟩ := hne
    refine ⟨fun hi => absurd hi h, fun _ _ => ?_, fun hf => absurd hf hne3, fun _ => ?_⟩
    · rw [askMove_owner, setOwner_self ho, askMove_queue, setOwner_sched, setOwner_self ho, setOwner_ms, if_pos hel, bne_iff_ne.2 hne1,
        bne_iff_ne.2 hne2]
      exact ⟨rfl, rfl, rfl, rfl⟩
    · rw [askMove_owner, setOwner_self ho]
      rfl
  · have hst : (s.valve a).st ≠ .fault ∧ ¬ ((s.valve a).st = p.other.idle ∨ (s.valve a).st = p.other.moving)
        ∧ ((s.valve a).st != .unknown && (s.valve a).st != .undefined) = false := by
      rcases hun with hun | hun <;> rw [hun]
      · exact ⟨nofun, fun hc => hc.elim (fun hc => ho1 hc.symm) fun hc => ho4 hc.symm, rfl⟩
      · exact ⟨nofun, fun hc => hc.elim (fun hc => ho2 hc.symm) fun hc => ho5 hc.symm, rfl⟩
    obtain ⟨hnf, hno, hneeded⟩ := hst
    rw [takeStep_unknown hm hp hun]
    refine ⟨fun hi => absurd hi h, fun _ _ => ?_, fun hf => absurd hf hnf, fun _ => ?_⟩
    · rw [setOwner_self ho, setOwner_sched, if_neg hno, hneeded]
      exact ⟨rfl, rfl, rfl, rfl⟩
    · rw [setOwner_self ho]
      rfl
  · rw [takeStep_fault hm hp hft]
    refine ⟨fun hi => absurd hi h, fun _ hnf => absurd hft hnf, fun _ => ?_, fun _ => ?_⟩
    · rw [failOwner_owner ho, failOwner_queue]
      exact ⟨rfl, rfl, rfl⟩
    · rw [failOwner_owner ho]

/-- Step 3 taken (R21). -/
theorem takeStep3_taken {s : State} {o : Owner} {a : Nat} {d : Dir} {p : Pos} (ho : WellFormed.owner o = true) (hm : s.stepMove o 3 = (a, d))
    (hp : p = d.target (s.tables.valve a).fail) (first : Bool) :
    s.StepTaken (s.takeStep3 o first) o (s.owner o).mode 3 a d p s.sched.queue := by
  by_cases h : (s.valve a).st = p.idle
  · have hend : (s.takeStep3 o first).owner o =
        { (s.owner o).atStep 3 (if first then false else (s.owner o).needed) with
          mode := (s.owner o).mode.endMode o, step := none, phase := none, needed := false } := by
      rw [State.takeStep3, takeStep_idle hm hp h, endSequence_owner ho, setOwner_self ho]
      rfl
    obtain ⟨-, -, -, -, -, hnf⟩ := idle_ne p
    refine ⟨fun _ _ => ?_, fun hi => absurd h hi, fun hf => absurd (h.symm.trans hf) hnf, fun _ => ?_⟩
    · rw [hend]
      exact ⟨rfl, rfl⟩
    · rw [hend]
  · exact takeStep_taken ho hm hp h first _

/-- What a step leaves reads of the state before it its valve and its time alone. -/
theorem StepTaken.congr {s x t : State} {o : Owner} {m : OwnerMode} {k a : Nat} {d : Dir} {p : Pos} {q : List MoveEntry}
    (h : x.StepTaken t o m k a d p q) (hv : x.valves = s.valves) (hc : x.clock = s.clock) : s.StepTaken t o m k a d p q := by
  have hvalve : x.valve a = s.valve a := by rw [State.valve, hv]; rfl
  have hms : x.ms = s.ms := by rw [State.ms, hc]; rfl
  obtain ⟨hin, hgo, hft, hph⟩ := h
  rw [hvalve] at hin hgo hft hph
  rw [hms] at hgo
  exact ⟨hin, hgo, hft, hph⟩

/-! ## Steps 1 and 2 (R21) -/

theorem beginTimer_waits {s : State} {o : Owner} (hn : (s.owner o).needed = true) (hl : 0 < s.phaseLength o) : s.beginTimer o =
    s.setOwner o { s.owner o with step := some 2, phase := some ⟨s.clock, s.phaseLength o⟩ } :=
  if_pos (by rw [hn, decide_eq_true hl]; rfl)

theorem beginTimer_passes {s : State} {o : Owner} (h : (s.owner o).needed = false ∨ s.phaseLength o = 0) : s.beginTimer o =
    (s.setOwner o { s.owner o with step := some 2 }).takeStep3 o true :=
  if_neg (by rcases h with h | h <;> simp [h])

/-- Both steps of the sequence of an owner's mode, where the timer does not run (R21). -/
theorem takeStep1_taken {s : State} {o : Owner} {v w : Nat} {d : Dir} {p r : Pos} (ho : WellFormed.owner o = true)
    (hs : s.sequence o (s.owner o).mode = (v, w, d)) (hp : p = d.target (s.tables.valve v).fail) (hr : r = d.target (s.tables.valve w).fail)
    (first : Bool) (ht : first = true ∨ (s.owner o).needed = false ∨ s.phaseLength o = 0) :
    if (s.valve v).st = p.idle then s.StepTaken (s.takeStep1 o first) o (s.owner o).mode 3 w d r s.sched.queue
    else s.StepTaken (s.takeStep1 o first) o (s.owner o).mode 1 v d p s.sched.queue := by
  obtain ⟨hm1, -⟩ := stepMove_sequence s o
  rw [hs] at hm1
  split
  next h =>
    rw [State.takeStep1, takeStep_idle hm1 hp h]
    generalize hx : s.setOwner o ((s.owner o).atStep 1 (if first then false else (s.owner o).needed)) = x
    have hstir : Stir s x := by rw [← hx]; exact Stir.setOwner s o _
    have hxo : x.owner o = (s.owner o).atStep 1 (if first then false else (s.owner o).needed) := by rw [← hx]; exact setOwner_self ho _ s
    have hxq : x.sched.queue = s.sched.queue := by rw [← hx, setOwner_sched]
    have hlen : x.phaseLength o = s.phaseLength o := by rw [State.phaseLength, State.phaseLength, hxo, hstir.tables]; rfl
    have hpass : (x.owner o).needed = false ∨ x.phaseLength o = 0 := by
      rw [hxo, hlen]
      rcases ht with rfl | hn | hl
      · exact .inl rfl
      · exact .inl (by cases first <;> simp [OwnerRec.atStep, hn])
      · exact .inr hl
    rw [beginTimer_passes hpass]
    generalize hy : x.setOwner o { x.owner o with step := some 2 } = y
    have hstir' : Stir x y := by rw [← hy]; exact Stir.setOwner x o _
    have hyo : y.owner o = { x.owner o with step := some 2 } := by rw [← hy]; exact setOwner_self ho _ x
    have hyq : y.sched.queue = x.sched.queue := by rw [← hy, setOwner_sched]
    have hym : (y.owner o).mode = (s.owner o).mode := by rw [hyo, hxo]; rfl
    have hyt : y.tables = s.tables := hstir'.tables.trans hstir.tables
    obtain ⟨-, hm3⟩ := stepMove_sequence y o
    rw [hym, sequence_congr hyt, hs] at hm3
    have htaken := takeStep3_taken ho hm3 (p := r) (by rw [hyt]; exact hr) true
    rw [hym, hyq, hxq] at htaken
    exact StepTaken.congr htaken (hstir'.valves.trans hstir.valves) (hstir'.clock.trans hstir.clock)
  next h => exact takeStep_taken ho hm1 hp h first _

/-- R20, R21: a sequence begun from the valves as they stand. -/
theorem beginSequence_taken {s : State} {o : Owner} {m : OwnerMode} {v w : Nat} {d : Dir} {p r : Pos} (ho : WellFormed.owner o = true)
    (hs : s.sequence o m = (v, w, d)) (hp : p = d.target (s.tables.valve v).fail) (hr : r = d.target (s.tables.valve w).fail) :
    if (s.valve v).st = p.idle then s.StepTaken (s.beginSequence o m) o m 3 w d r s.sched.queue
    else s.StepTaken (s.beginSequence o m) o m 1 v d p s.sched.queue := by
  unfold State.beginSequence
  generalize hx : s.setOwner o { s.owner o with mode := m, step := some 1, phase := none, needed := false } = x
  have hstir : Stir s x := by rw [← hx]; exact Stir.setOwner s o _
  have hxm : (x.owner o).mode = m := by rw [← hx, setOwner_self ho]
  have hxq : x.sched.queue = s.sched.queue := by rw [← hx, setOwner_sched]
  have hseq : x.sequence o (x.owner o).mode = (v, w, d) := by rw [hxm, sequence_congr hstir.tables, hs]
  have htaken := takeStep1_taken (s := x) (v := v) (w := w) (d := d) (p := p) (r := r) ho hseq
    (by rw [hstir.tables]; exact hp) (by rw [hstir.tables]; exact hr) true (.inl rfl)
  rw [hxm, hxq, hstir.valve] at htaken
  split
  next h =>
    rw [if_pos h] at htaken
    exact StepTaken.congr htaken hstir.valves hstir.clock
  next h =>
    rw [if_neg h] at htaken
    exact StepTaken.congr htaken hstir.valves hstir.clock

/-! ## The beginning of a course (R19, R25) -/

/-- The mode whose sequence an outcome runs. -/
def Outcome.course : Outcome → OwnerMode
  | .isolate => .isolating
  | .restore => .restoring
  | .suspend => .suspended
  | .park => .parking

theorem course_of_mem {out : Outcome} {m : OwnerMode} (h : (out, m) ∈ [(.isolate, .isolating), (.restore, .restoring), (.park, .parking)]) :
    m = out.course ∧ out ≠ .suspend := by
  simp only [List.mem_cons, List.not_mem_nil, or_false, Prod.mk.injEq] at h
  rcases h with ⟨rfl, rfl⟩ | ⟨rfl, rfl⟩ | ⟨rfl, rfl⟩ <;> exact ⟨rfl, by decide⟩

theorem begins_of_sequence {s x t : State} {o : Owner} {out : Outcome} (hne : out ≠ .suspend) (hv : x.valves = s.valves) (hc : x.clock = s.clock)
    (ht : x.tables = s.tables) {q : List MoveEntry}
    (h : ∀ {v w : Nat} {d : Dir} {p r : Pos}, x.sequence o out.course = (v, w, d) → p = d.target (x.tables.valve v).fail →
      r = d.target (x.tables.valve w).fail → if (x.valve v).st = p.idle then x.StepTaken t o out.course 3 w d r q
        else x.StepTaken t o out.course 1 v d p q) : s.Begins t o out q := by
  refine ⟨fun hs => absurd hs hne, fun m v w d p r hm hs hp hr => ?_⟩
  obtain ⟨rfl, -⟩ := course_of_mem hm
  have hvalve : x.valve v = s.valve v := by rw [State.valve, hv]; rfl
  have hseq : x.sequence o out.course = (v, w, d) := by rw [sequence_congr ht, hs]
  have htaken := h (v := v) (w := w) (d := d) (p := p) (r := r) hseq (by rw [ht]; exact hp) (by rw [ht]; exact hr)
  rw [hvalve] at htaken
  split
  next hi =>
    rw [if_pos hi] at htaken
    exact StepTaken.congr htaken hv hc
  next hi =>
    rw [if_neg hi] at htaken
    exact StepTaken.congr htaken hv hc

theorem beginOutcome_begins {s : State} {o : Owner} (ho : WellFormed.owner o = true) (out : Outcome) :
    s.Begins (s.beginOutcome o out) o out s.sched.queue := by
  have hseq : ∀ m : OwnerMode, ∀ {v w : Nat} {d : Dir} {p r : Pos}, s.sequence o m = (v, w, d) → p = d.target (s.tables.valve v).fail →
      r = d.target (s.tables.valve w).fail → if (s.valve v).st = p.idle then s.StepTaken (s.beginSequence o m) o m 3 w d r s.sched.queue
        else s.StepTaken (s.beginSequence o m) o m 1 v d p s.sched.queue := fun _ _ _ _ _ _ hs hp hr => beginSequence_taken ho hs hp hr
  cases out with
  | isolate => exact begins_of_sequence (out := .isolate) (by decide) rfl rfl rfl fun hs hp hr => hseq .isolating hs hp hr
  | restore => exact begins_of_sequence (out := .restore) (by decide) rfl rfl rfl fun hs hp hr => hseq .restoring hs hp hr
  | park => exact begins_of_sequence (out := .park) (by decide) rfl rfl rfl fun hs hp hr => hseq .parking hs hp hr
  | suspend =>
    refine ⟨fun _ => ?_, fun m v w d p r hm => ?_⟩
    · have hown : (s.beginOutcome o .suspend).owner o = { s.owner o with mode := .suspended, step := none, phase := none, needed := false } :=
        setOwner_self ho _ s
      rw [hown]
      exact ⟨rfl, rfl, rfl, congrArg Sched.queue (setOwner_sched s o _)⟩
    · obtain ⟨-, hne⟩ := course_of_mem hm
      exact absurd rfl hne

/-- The beginning of a course reads of the state before it the valves, the tables and the time alone. -/
theorem Begins.congr {s x t : State} {o : Owner} {out : Outcome} {q : List MoveEntry} (h : x.Begins t o out q) (hv : x.valves = s.valves)
    (hc : x.clock = s.clock) (ht : x.tables = s.tables) : s.Begins t o out q := by
  by_cases hne : out = .suspend
  · refine ⟨h.suspended, fun m v w d p r hm => ?_⟩
    obtain ⟨-, hns⟩ := course_of_mem hm
    exact absurd hne hns
  · refine begins_of_sequence hne hv hc ht fun hs hp hr => ?_
    have hmem : (out, out.course) ∈ [(Outcome.isolate, OwnerMode.isolating), (.restore, .restoring), (.park, .parking)] := by
      cases out with
      | suspend => exact absurd rfl hne
      | _ => decide
    exact h.sequence out.course _ _ _ _ _ hmem hs hp hr

end Sys2Proof.Machine
end

