-- ==== Sys2Proof/Proofs/HostHold.lean ====
section
/-! HOLD, UNHOLD and re-evaluation (R16, R17, R19, R20), O33. -/

namespace Sys2Proof.Machine

/-! ## An owner's record written, and noticed (R185) -/

/-- An owner's record is replaced and its object joins. -/
def State.ownerNoticed (o : Owner) (r : OwnerRec) (s : State) : State :=
  { s with owners := s.owners.put o.index r, link := { s.link with notices := s.noticesWith o.obj } }

theorem setOwner_shown {s : State} {o : Owner} {r : OwnerRec} (h : r.shown ≠ (s.owner o).shown) : s.setOwner o r = s.ownerNoticed o r := by
  unfold State.setOwner
  rw [if_neg h]
  exact joinNotice_withNotices _ _

/-- An owner that has joined takes another record. -/
theorem ownerNoticed_setOwner (o : Owner) (r r' : OwnerRec) (s : State) : (s.ownerNoticed o r).setOwner o r' = s.ownerNoticed o r' := by
  have hput : ((s.owners.put o.index r).put o.index r') = s.owners.put o.index r' := table_put_put ..
  have hagain := noticesWith_again s o.obj
  unfold State.setOwner
  split
  · simp only [State.ownerNoticed, hput]
  · rw [joinNotice_withNotices]
    simp only [State.ownerNoticed, hput, State.withNotices]
    exact congrArg (fun l => { s with owners := s.owners.put o.index r', link := { s.link with notices := l } }) hagain

theorem ownerNoticed_owner {o : Owner} (ho : WellFormed.owner o = true) (r : OwnerRec) (s : State) : (s.ownerNoticed o r).owner o = r := by
  rw [State.owner_eq]
  exact Table.getD_put_self _ _ _ (owner_index_lt ho)

theorem ownerNoticed_same (o : Owner) (r : OwnerRec) (s : State) :
    State.SameButNotices { s with owners := s.owners.put o.index r } (s.ownerNoticed o r) := rfl

theorem Spared.ofOwnerNoticed {s t : State} {o : Owner} {r : OwnerRec} (h : Spared (s.ownerNoticed o r) t) : Spared s t := by
  have hs : Spared { s with owners := s.owners.put o.index r } t := Spared.ofNotices (l := s.noticesWith o.obj) h
  exact ⟨hs.clock, hs.lastStart, hs.power, hs.rateHigh, hs.tables, hs.locks, hs.stored, hs.copyValid, hs.commit, hs.link, hs.chain, hs.ring,
    hs.image, hs.periodicFrom, hs.flow, hs.freeCount, hs.pending⟩

/-! ## The hold of the host placed and lifted (R17) -/

/-- R16: an owner re-evaluates where its hold count has come from a value. -/
def State.evaluatedFrom (from_ : Nat) (o : Owner) (s x : State) : State := if (s.owner o).holds = from_ then x.evaluate o else x

theorem placeHostHold_eq {s : State} {o : Owner} (ho : WellFormed.owner o = true) (h : (s.owner o).hostHold = false) : s.placeHostHold o =
    (s.evaluatedFrom 0 o (s.ownerNoticed o { s.owner o with hostHold := true, holds := (s.owner o).holds + 1 })).finish := by
  have hshown : ({ s.owner o with hostHold := true } : OwnerRec).shown ≠ (s.owner o).shown := fun he => by
    have := congrArg (fun p => p.2.1) he
    rw [show (s.owner o).shown.2.1 = false from h] at this
    cases this
  unfold State.placeHostHold State.raiseHold
  rw [setOwner_shown hshown, ownerNoticed_owner ho]
  simp only [ownerNoticed_setOwner]
  rfl

theorem liftHostHold_eq {s : State} {o : Owner} (ho : WellFormed.owner o = true) (h : (s.owner o).hostHold = true) : s.liftHostHold o =
    (s.evaluatedFrom 1 o (s.ownerNoticed o { s.owner o with hostHold := false, holds := (s.owner o).holds - 1 })).finish := by
  have hshown : ({ s.owner o with hostHold := false } : OwnerRec).shown ≠ (s.owner o).shown := fun he => by
    have := congrArg (fun p => p.2.1) he
    rw [show (s.owner o).shown.2.1 = true from h] at this
    cases this
  unfold State.liftHostHold State.lowerHold
  rw [setOwner_shown hshown, ownerNoticed_owner ho]
  simp only [ownerNoticed_setOwner]
  rfl

theorem evaluatedFrom_walks (n : Nat) (o : Owner) (s x : State) : Walks x (s.evaluatedFrom n o x) :=
  Walks.ite (Walks.evaluate o x) (Walks.refl x)

/-- What the owner's evaluation after a change of its record leaves. -/
theorem evaluatedFrom_parts {s : State} {o : Owner} (ho : WellFormed.owner o = true) (n : Nat) (r : OwnerRec) :
    ∃ u : State, u = s.evaluatedFrom n o (s.ownerNoticed o r) ∧ (u.owner o).hostHold = r.hostHold ∧ (u.owner o).holds = r.holds
      ∧ Spared s u ∧ u.zones = s.zones ∧ u.valves = s.valves ∧ u.jobs = s.jobs ∧ u.image = s.image := by
  obtain ⟨hstir, hflags⟩ := evaluatedFrom_walks n o s (s.ownerNoticed o r)
  obtain ⟨hholds, hhost, -, -⟩ := hflags o
  rw [ownerNoticed_owner ho] at hholds hhost
  exact ⟨_, rfl, hhost, hholds, Spared.ofOwnerNoticed (Ripple.ofStir hstir).toSpared, hstir.zones, hstir.valves, hstir.jobs, hstir.image⟩

/-! ## The requests -/

theorem ownerOfCode_branch (n : Nat) : ownerOfCode 0 n = if n ≤ 47 then some (.branch n) else none := by
  have h : n < 48 ↔ n ≤ 47 := by omega
  simp only [ownerOfCode, Config.numBranches, h]

theorem ownerOfCode_segment (n : Nat) : ownerOfCode 1 n = if n ≤ 3 then some (.segment n) else none := by
  have h : n < 4 ↔ n ≤ 3 := by omega
  simp only [ownerOfCode, Config.numSegments, h]

theorem ownerOfCode_beyond {kind : Nat} (h : 2 < kind) (n : Nat) : ownerOfCode kind n = none := by
  match kind, h with
  | _ + 3, _ => rfl

theorem ownerOfCode_wellFormed {kind n : Nat} {o : Owner} (h : ownerOfCode kind n = some o) : WellFormed.owner o = true := by
  match kind with
  | 0 =>
    rw [ownerOfCode_branch] at h
    split at h
    next hn =>
      obtain rfl := Option.some.inj h
      exact decide_eq_true (by simp only [Config.numBranches]; omega)
    next => cases h
  | 1 =>
    rw [ownerOfCode_segment] at h
    split at h
    next hn =>
      obtain rfl := Option.some.inj h
      exact decide_eq_true (by simp only [Config.numSegments]; omega)
    next => cases h
  | 2 =>
    obtain rfl := Option.some.inj h
    rfl
  | _ + 3 => cases h

theorem answerHold_eq {kind number : Nat} {o : Owner} (h : ownerOfCode kind number = some o) (tag : Byte) (s : State) :
    answerHold tag kind number s = if s.ownerUndefined o = true then s.refuse 0x22 tag .notDefined
      else if (s.owner o).hostHold = true then s.refuse 0x22 tag .held else (s.placeHostHold o).holdReply 0x22 tag o := by
  unfold answerHold
  simp only [h, checked_cons, checked_nil]
  rfl

theorem answerUnhold_eq {kind number : Nat} {o : Owner} (h : ownerOfCode kind number = some o) (tag : Byte) (s : State) :
    answerUnhold tag kind number s = if s.ownerUndefined o = true then s.refuse 0x23 tag .notDefined
      else if (!(s.owner o).hostHold) = true then s.refuse 0x23 tag .busy else (s.liftHostHold o).holdReply 0x23 tag o := by
  unfold answerUnhold
  simp only [h, checked_cons, checked_nil]
  rfl

theorem answerHold_none {kind number : Nat} (h : ownerOfCode kind number = none) (tag : Byte) (s : State) :
    answerHold tag kind number s = s.refuse 0x22 tag .badField ∧ answerUnhold tag kind number s = s.refuse 0x23 tag .badField := by
  constructor
  · simp only [answerHold, h]
  · simp only [answerUnhold, h]

/-! ## Re-evaluation (R19, R20) -/

theorem outcome_held {s : State} {o : Owner} (h : 0 < (s.owner o).holds) : s.outcome o = .isolate := if_pos h

theorem outcome_branch {s : State} {b : Nat} (h : (s.owner (.branch b)).holds = 0) : s.outcome (.branch b) =
    if (s.tables.branch b).activated = true then (if s.pathOpen b = true then .restore else .suspend) else .park := by
  rw [State.outcome, if_neg (by omega)]

theorem outcome_wide {s : State} {o : Owner} (h : (s.owner o).holds = 0) (hb : ∀ b, o ≠ .branch b) : s.outcome o = .restore := by
  cases o with
  | branch b => exact absurd rfl (hb b)
  | segment _ => exact if_neg (by omega)
  | main => exact if_neg (by omega)

theorem evaluateOne_stands {s : State} {o : Owner} (h : (s.owner o).settled = false ∨ (s.owner o).mode ∈ [.undefined, .failed, .noValves]
    ∨ (s.owner o).mode.follows (s.outcome o) = true) : s.evaluateOne o = s := by
  unfold State.evaluateOne
  dsimp only
  rcases h with h | h | h
  · rw [if_pos (by simp [h])]
  · simp only [List.mem_cons, List.not_mem_nil, or_false] at h
    rw [if_pos (by simp only [decide_eq_true_eq, Bool.or_eq_true]; tauto)]
  · rw [if_pos h, ite_self]

theorem evaluateOne_begins {s : State} {o : Owner} (hs : (s.owner o).settled = true) (hm : (s.owner o).mode ∉ [.undefined, .failed, .noValves])
    (hf : (s.owner o).mode.follows (s.outcome o) = false) : s.evaluateOne o = (s.abandon o).beginOutcome o (s.outcome o) := by
  simp only [List.mem_cons, List.not_mem_nil, or_false, not_or] at hm
  unfold State.evaluateOne
  dsimp only
  rw [if_neg (by simp [hs, hm]), if_neg (by simp [hf])]

/-- An owner's re-evaluation leaves the course of another. -/
theorem evaluateOne_stays {s : State} {o n : Owner} (ho : WellFormed.owner o = true) (hn : WellFormed.owner n = true) (h : n ≠ o) :
    Stays n s (s.evaluateOne o) := by
  unfold State.evaluateOne
  exact Stays.ite (Stays.refl s) (Stays.ite (Stays.refl s) ((Stays.abandon hn ho h.symm s).trans (Stays.beginOutcome hn ho h.symm _ _)))

/-- An owner's re-evaluation leaves the other owners' records. -/
theorem evaluateOne_others {s : State} {o n : Owner} (ho : WellFormed.owner o = true) (hn : WellFormed.owner n = true) (h : n ≠ o) :
    (s.evaluateOne o).owner n = s.owner n := by
  obtain ⟨hholds, -⟩ := (Walks.evaluateOne o s).flags n
  rw [(evaluateOne_stays ho hn h).kept.course, hholds]

/-! ## The readers of an owner (R20) -/

theorem countsOpen_iff (m : OwnerMode) : m.countsOpen = true ↔ m = .opened ∨ m = .noValves := by
  cases m <;> simp [OwnerMode.countsOpen]

theorem countsOpen_eq_iff (m n : OwnerMode) : m.countsOpen = n.countsOpen
    ↔ ((m = .opened ∨ m = .noValves) ↔ (n = .opened ∨ n = .noValves)) := by
  rw [← countsOpen_iff, ← countsOpen_iff]
  exact Bool.eq_iff_iff

/-- R20: the branches that read an owner, in ascending order. -/
def State.readers (s : State) (o : Owner) : List Nat :=
  (List.range 48).filter fun b => decide (o = .main ∨ o = .segment (s.tables.branch b).segment)

theorem readersOf_eq (s : State) (o : Owner) : s.readersOf o = (s.readers o).map .branch := by
  unfold State.readersOf State.readers branchOwners
  cases o with
  | branch c =>
    have hnone : (List.range 48).filter (fun b => decide (Owner.branch c = .main ∨ Owner.branch c = .segment (s.tables.branch b).segment)) = [] :=
      List.filter_eq_nil_iff.2 fun b _ => by rw [decide_eq_true_eq]; rintro (h | h) <;> cases h
    rw [hnone]
    rfl
  | segment g =>
    simp only [List.filter_map, Function.comp_def]
    refine congrArg _ (List.filter_congr fun b _ => ?_)
    rw [Bool.eq_iff_iff, decide_eq_true_eq, beq_iff_eq]
    exact ⟨fun h => .inr (congrArg _ h.symm), fun h => h.elim (fun h => by cases h) fun h => (Owner.segment.inj h).symm⟩
  | main =>
    have hall : (List.range 48).filter (fun b => decide (Owner.main = .main ∨ Owner.main = .segment (s.tables.branch b).segment)) = List.range 48 :=
      List.filter_eq_self.2 fun b _ => decide_eq_true (.inl rfl)
    rw [hall]

theorem ownerOp_eq (x : State) (o : Owner) (f : State → State) : x.ownerOp o f =
    if ((x.owner o).mode = .opened ∨ (x.owner o).mode = .noValves) ↔ (((f x).owner o).mode = .opened ∨ ((f x).owner o).mode = .noValves)
    then f x else ((f x).readers o).foldl (fun z b => z.evaluateOne (.branch b)) (f x) := by
  unfold State.ownerOp
  simp only [countsOpen_eq_iff, readersOf_eq, List.foldl_map]

/-- No branch reads a branch. -/
theorem ownerOp_branch (x : State) (b : Nat) (f : State → State) : x.ownerOp (.branch b) f = f x := by
  unfold State.ownerOp
  exact ite_self _

theorem pathOpen_iff (s : State) (b : Nat) : s.pathOpen b = true ↔ ∀ n, n = .main ∨ n = .segment (s.tables.branch b).segment →
    (s.owner n).mode = .opened ∨ (s.owner n).mode = .noValves := by
  simp only [State.pathOpen, Bool.and_eq_true, countsOpen_iff]
  constructor
  · rintro ⟨hseg, hmain⟩ n (rfl | rfl)
    · exact hmain
    · exact hseg
  · exact fun h => ⟨h _ (.inr rfl), h _ (.inl rfl)⟩

theorem ownerUndefined_iff (s : State) (o : Owner) : s.ownerUndefined o = true ↔ ∃ b, o = .branch b ∧ (s.tables.branch b).defined = false := by
  cases o with
  | branch b => simp [State.ownerUndefined]
  | segment g => simp [State.ownerUndefined]
  | main => simp [State.ownerUndefined]

theorem isOf_iff (o : Owner) (e : MoveEntry) : e.isOf o = true ↔ ∃ k, e.req = .step o k := by
  unfold MoveEntry.isOf
  cases e.req with
  | maintenance => simp
  | step n k => exact ⟨fun h => ⟨k, by rw [eq_of_beq h]⟩, fun ⟨_, h⟩ => by cases h; exact beq_self_eq_true _⟩

theorem isMaintenanceOf_iff (o : Owner) (e : MoveEntry) : e.isMaintenanceOf o = true
    ↔ e.req = .maintenance ∧ (e.valve = o.supplyValve ∨ e.valve = o.returnValve) := by
  simp [MoveEntry.isMaintenanceOf]

theorem follows_iff (m : OwnerMode) (out : Outcome) : m.follows out = true ↔ (out, m) ∈ [(.isolate, .isolating), (.isolate, .isolated),
    (.restore, .restoring), (.restore, .inService), (.restore, .opened), (.suspend, .suspended), (.park, .parking), (.park, .inactive)] := by
  cases out <;> cases m <;> decide

/-- What an owner that begins a course leaves. -/
theorem evaluateOne_course {x : State} {o : Owner} (ho : WellFormed.owner o = true) (hs : (x.owner o).settled = true)
    (hm : (x.owner o).mode ∉ [.undefined, .failed, .noValves]) (hf : (x.owner o).mode.follows (x.outcome o) = false) :
    x.Begins (x.evaluateOne o) o (x.outcome o)
      (x.sched.queue.filter fun e => !e.isOf o && !((x.owner o).mode == .inactive && e.isMaintenanceOf o)) := by
  rw [evaluateOne_begins hs hm hf]
  have habandon := (Walks.abandon o x).toStir
  have hbegins := beginOutcome_begins (s := x.abandon o) ho (x.outcome o)
  rw [abandon_queue] at hbegins
  exact Begins.congr hbegins habandon.valves habandon.clock habandon.tables

/-- Settles O33, by the record of the owner before its evaluation and what an evaluation leaves. -/
theorem hostHolds : Obligations.HostHolds := by
  refine ⟨fun s tag kind number o hs hcode hdef => ?_, fun x y o ho hy => ?_, fun x y o f hy => ?_, fun n => ⟨rfl, rfl⟩,
    fun n kind => ⟨ownerOfCode_branch n, ownerOfCode_segment n, rfl, fun h => ownerOfCode_beyond h n⟩,
    fun s tag kind number hs => ?_, fun s o e => ?_, follows_iff, fun b => rfl, fun o hb => ?_⟩
  · have ho := ownerOfCode_wellFormed hcode
    have hdef' : ¬ s.ownerUndefined o = true := by rw [hdef]; nofun
    have hhold : exec (.hold tag kind number) s = .next (answerHold tag kind number s) := exec_answer rfl hs
    have hunhold : exec (.unhold tag kind number) s = .next (answerUnhold tag kind number s) := exec_answer rfl hs
    rw [hhold, hunhold, answerHold_eq hcode, answerUnhold_eq hcode, if_neg hdef', if_neg hdef']
    refine ⟨fun h => ?_, fun h => by rw [if_pos h], fun h => ?_, fun h => by rw [if_pos (by rw [h]; rfl)]⟩
    · obtain ⟨u, hu, hparts⟩ := evaluatedFrom_parts (s := s) ho 0 { s.owner o with hostHold := true, holds := (s.owner o).holds + 1 }
      refine ⟨_, u, ?_, ownerNoticed_same o _ s, rfl, hu, hparts⟩
      rw [if_neg (by rw [h]; nofun), placeHostHold_eq ho h, ← hu]
      rfl
    · obtain ⟨u, hu, hparts⟩ := evaluatedFrom_parts (s := s) ho 1 { s.owner o with hostHold := false, holds := (s.owner o).holds - 1 }
      refine ⟨_, u, ?_, ownerNoticed_same o _ s, rfl, hu, hparts⟩
      rw [if_neg (by rw [h]; nofun), liftHostHold_eq ho h, ← hu]
      rfl
  · subst hy
    refine ⟨outcome_held, fun hz => ⟨?_, outcome_wide hz⟩, evaluateOne_stands, fun q hq hset hmode hfol => ?_, rfl, ?_⟩
    · rintro b rfl
      rw [outcome_branch hz]
      exact ⟨fun ha hp => by rw [if_pos ha, if_pos hp], fun ha hp => by rw [if_pos ha, if_neg (by rw [hp]; nofun)],
        fun ha => if_neg (by rw [ha]; nofun)⟩
    · subst hq
      obtain ⟨hstir, hflags⟩ := Walks.evaluateOne o x
      obtain ⟨hholds, hhost, -, -⟩ := hflags o
      exact ⟨evaluateOne_course ho hset hmode hfol,
        fun m v w d hmem hseq hv hw => evaluateOne_inPlace ho hset hmode hfol hmem hseq hv hw, evaluateOne_sched o x,
        (Ripple.ofStir hstir).toSpared, hstir.valves, hstir.zones, hstir.jobs, hstir.image, hholds, hhost,
        fun n hn hne => evaluateOne_others ho hn hne⟩
    · rintro b rfl
      exact ownerOp_branch x b _
  · subst hy
    exact ownerOp_eq x o f
  · refine ⟨fun h => ?_, fun o h hund => ?_⟩
    · obtain ⟨hh, hu⟩ := answerHold_none h tag s
      exact ⟨(exec_answer rfl hs).trans (congrArg _ hh), (exec_answer rfl hs).trans (congrArg _ hu)⟩
    · exact ⟨(exec_answer rfl hs).trans (congrArg _ ((answerHold_eq h tag s).trans (if_pos hund))),
        (exec_answer rfl hs).trans (congrArg _ ((answerUnhold_eq h tag s).trans (if_pos hund)))⟩
  · obtain ⟨h1, h3⟩ := stepMove_sequence s o
    exact ⟨ownerUndefined_iff s o, pathOpen_iff s, h1, h3, isOf_iff o e, isMaintenanceOf_iff o e⟩
  · cases o with
    | branch b => exact absurd rfl (hb b)
    | segment g => rfl
    | main => rfl

end Sys2Proof.Machine
end

