-- ==== Sys2Proof/Proofs/PhaseTimers.lean ====
section
/-! The phase timers' ends and the valves' reports to their owners (R21, R26, R28), O55. -/

namespace Sys2Proof.Machine

/-! ## An owner and its valves (section 1.1) -/

theorem valveOwner_wellFormed {v : Nat} (h : v ≤ 105) : WellFormed.owner (valveOwner v) = true := by
  rw [valveOwner_eq]
  split
  next h1 => exact decide_eq_true (by simp only [Config.numBranches]; omega)
  next h1 =>
    split
    next h2 => exact decide_eq_true (by simp only [Config.numSegments]; omega)
    next => rfl

theorem valveOwner_own {o : Owner} (ho : WellFormed.owner o = true) {v : Nat} (h : v = o.supplyValve ∨ v = o.returnValve) :
    valveOwner v = o := by
  obtain ⟨hb, hg⟩ := owner_bounds ho
  rw [valveOwner_eq]
  cases o with
  | branch b =>
    have := hb b rfl
    simp only [Owner.supplyValve, Owner.returnValve] at h
    rw [if_pos (by omega)]
    exact congrArg _ (by omega)
  | segment g =>
    have := hg g rfl
    simp only [Owner.supplyValve, Owner.returnValve] at h
    rw [if_neg (by omega), if_pos (by omega)]
    exact congrArg _ (by omega)
  | main =>
    simp only [Owner.supplyValve, Owner.returnValve] at h
    rw [if_neg (by omega), if_neg (by omega)]

/-- The two valves of a sequence are the owner's, and not the same. -/
theorem sequence_valves {s : State} {o : Owner} {m : OwnerMode} {v w : Nat} {d : Dir} (h : s.sequence o m = (v, w, d)) :
    (v = o.supplyValve ∧ w = o.returnValve ∨ v = o.returnValve ∧ w = o.supplyValve) ∧ v ≠ w := by
  have hne : o.supplyValve ≠ o.returnValve := by cases o <;> simp only [Owner.supplyValve, Owner.returnValve] <;> omega
  have hvalves : v = o.supplyValve ∧ w = o.returnValve ∨ v = o.returnValve ∧ w = o.supplyValve := by
    unfold State.sequence at h
    cases m with
    | restoring => cases h; exact .inr ⟨rfl, rfl⟩
    | parking => cases h; exact .inl ⟨rfl, rfl⟩
    | _ => cases h; exact .inl ⟨rfl, rfl⟩
  refine ⟨hvalves, ?_⟩
  rcases hvalves with ⟨rfl, rfl⟩ | ⟨rfl, rfl⟩
  · exact hne
  · exact hne.symm

/-! ## What the readers of an owner leave of it (R20) -/

theorem ownerOp_kept {s : State} {o : Owner} (ho : WellFormed.owner o = true) (f : State → State) :
    (s.ownerOp o f).owner o = (f s).owner o ∧ ∀ e ∈ (s.ownerOp o f).sched.queue, e.isOf o = true → e ∈ (f s).sched.queue := by
  have hfold : ∀ (l : List Nat) (t : State), (∀ b ∈ l, b < 48 ∧ o ≠ .branch b) →
      (l.foldl (fun z b => z.evaluateOne (.branch b)) t).owner o = t.owner o
      ∧ ∀ e ∈ (l.foldl (fun z b => z.evaluateOne (.branch b)) t).sched.queue, e.isOf o = true → e ∈ t.sched.queue := by
    intro l
    induction l with
    | nil => exact fun t _ => ⟨rfl, fun e he _ => he⟩
    | cons b l ih =>
      intro t hl
      obtain ⟨hb, hob⟩ := hl b (List.mem_cons_self ..)
      have hwf : WellFormed.owner (.branch b) = true := decide_eq_true hb
      obtain ⟨hown, hqueue⟩ := ih (t.evaluateOne (.branch b)) fun c hc => hl c (List.mem_cons_of_mem _ hc)
      exact ⟨hown.trans (evaluateOne_others hwf ho hob), fun e he hi => (evaluateOne_stays hwf ho hob).kept.fresh e (hqueue e he hi) hi⟩
  rw [ownerOp_eq]
  split
  · exact ⟨rfl, fun e he _ => he⟩
  · refine hfold _ _ fun b hb => ?_
    simp only [State.readers, List.mem_filter, List.mem_range, decide_eq_true_eq] at hb
    obtain ⟨hb, hr⟩ := hb
    exact ⟨hb, fun h => by rcases hr with hr | hr <;> rw [h] at hr <;> cases hr⟩

/-- An operation that leaves an owner outside the open set, where it was, is followed by no re-evaluation. -/
theorem ownerOp_shut {s : State} {o : Owner} {f : State → State} (hs : (s.owner o).mode.countsOpen = false)
    (hf : ((f s).owner o).mode.countsOpen = false) : s.ownerOp o f = f s := by
  unfold State.ownerOp
  exact if_pos (hs.trans hf.symm)

/-- What a step leaves of its owner stands after the readers' re-evaluations. -/
theorem StepTaken.ownerOp {s x : State} {f : State → State} {o : Owner} {m : OwnerMode} {k a : Nat} {d : Dir} {p : Pos} {q : List MoveEntry}
    (ho : WellFormed.owner o = true) (hs : (s.owner o).mode.countsOpen = false) (hm : m.countsOpen = false)
    (h : x.StepTaken (f s) o m k a d p q) : x.StepTaken (s.ownerOp o f) o m k a d p q := by
  obtain ⟨hown, -⟩ := ownerOp_kept (s := s) ho f
  obtain ⟨hin, hgo, hft, hph⟩ := h
  refine ⟨fun hi hk => by rw [hown]; exact hin hi hk, fun hni hnf => ?_, fun hf => ?_, fun hk => by rw [hown]; exact hph hk⟩
  · obtain ⟨hmode, -⟩ := hgo hni hnf
    rw [ownerOp_shut hs (by rw [hmode]; exact hm)]
    exact hgo hni hnf
  · obtain ⟨hmode, -⟩ := hft hf
    rw [ownerOp_shut hs (by rw [hmode]; rfl)]
    exact hft hf

/-! ## A running phase timer ends (R21) -/

theorem takeStep_noticed {s : State} {o : Owner} {ph : PhaseTimer} (h : (s.owner o).phase = some ph) (k : Nat) (first : Bool) {done : State → State}
    (hd : ∀ t, Stir t (done t)) : (s.takeStep o k first done).Noticed o.obj := by
  have hset : ∀ r : OwnerRec, r.phase = none → (s.setOwner o r).Noticed o.obj := fun r hr => State.setOwner_noticed s o r fun he => by
    have hphase : r.phase = (s.owner o).phase := congrArg (fun p => p.2.2.2.2) he
    rw [hr, h] at hphase
    cases hphase
  unfold State.takeStep
  dsimp only
  split
  · exact (hset _ rfl).mono (congrArg TableStore.mask (hd _).tables) (hd _).joins
  · exact hset _ rfl
  · exact hset _ rfl
  · exact hset _ rfl
  · refine State.setOwner_noticed _ o _ fun he => ?_
    have hown : (s.withdraw (MoveEntry.isOf o)).owner o = s.owner o := by rw [State.owner_eq, State.withdraw_eq]; rfl
    have hphase : none = ((s.withdraw (MoveEntry.isOf o)).owner o).phase := congrArg (fun p => p.2.2.2.2) he
    rw [hown, h] at hphase
    cases hphase

/-- The end of a phase timer takes step 3 (R21). -/
theorem endPhase_taken {s : State} {o : Owner} {ph : PhaseTimer} {v : Nat} {d : Dir} {p : Pos} (ho : WellFormed.owner o = true)
    (hph : (s.owner o).phase = some ph) (hm : s.stepMove o 3 = (v, d)) (hp : p = d.target (s.tables.valve v).fail)
    (hmode : (s.owner o).mode.countsOpen = false) :
    ∃ u : State, u = s.ownerOp o (fun x => x.takeStep3 o true) ∧ Spared s u ∧ u.valves = s.valves ∧ u.zones = s.zones ∧ u.image = s.image
      ∧ u.jobs = s.jobs ∧ (u.owner o).phase = none ∧ (u.owner o).holds = (s.owner o).holds ∧ (u.owner o).hostHold = (s.owner o).hostHold
      ∧ u.Noticed o.obj ∧ s.StepTaken u o (s.owner o).mode 3 v d p s.sched.queue := by
  have hwalks := Walks.ownerOp o (fun x => x.takeStep3 o true) s (Walks.takeStep3 o true s)
  have htaken := StepTaken.ownerOp (f := fun x => x.takeStep3 o true) ho hmode hmode (takeStep3_taken ho hm hp true)
  have hnoticed : (s.takeStep3 o true).Noticed o.obj := takeStep_noticed hph 3 true fun t => (Walks.endSequence o t).toStir
  have hreaders : Stir (s.takeStep3 o true) (s.ownerOp o fun x => x.takeStep3 o true) :=
    Stir.ite (Stir.refl _) (Walks.foldl (fun t b => Walks.evaluateOne b t) _ _).toStir
  obtain ⟨hstir, hflags⟩ := hwalks
  obtain ⟨hholds, hhost, -, -⟩ := hflags o
  exact ⟨_, rfl, (Ripple.ofStir hstir).toSpared, hstir.valves, hstir.zones, hstir.image, hstir.jobs, htaken.phase fun _ => rfl, hholds, hhost,
    hnoticed.mono (congrArg TableStore.mask hreaders.tables) hreaders.joins, htaken⟩

theorem endPhase_eq {s : State} {o : Owner} {ph : PhaseTimer} (hph : (s.owner o).phase = some ph) {p : OwnerMode → Bool}
    (hp : p (s.owner o).mode = true) : s.endPhase o p =
      ((s.advanceTo (ph.start + ph.len * 2000)).ownerOp o fun x => x.takeStep3 o true).finish := by
  simp only [State.endPhase, hph, if_pos hp]
  rfl

theorem exec_timerEnd {s : State} {o : Owner} {ph : PhaseTimer} (hr : s.power.running = true) (hph : (s.owner o).phase = some ph) {c : Instr}
    (hc : (c = .drainTimerEnd o ∧ ((s.owner o).mode = .isolating ∨ (s.owner o).mode = .parking))
      ∨ (c = .fillTimerEnd o ∧ (s.owner o).mode = .restoring)) :
    exec c s = .next ((s.advanceTo (ph.start + ph.len * 2000)).ownerOp o fun x => x.takeStep3 o true).finish
      ∧ (s.owner o).mode.countsOpen = false := by
  rcases hc with ⟨rfl, hm⟩ | ⟨rfl, hm⟩
  · constructor
    · change Host.Outcome.next (s.whenRunning _) = _
      rw [whenRunning_of hr, endPhase_eq hph]
      rcases hm with hm | hm <;> rw [hm] <;> rfl
    · rcases hm with hm | hm <;> rw [hm] <;> rfl
  · constructor
    · change Host.Outcome.next (s.whenRunning _) = _
      rw [whenRunning_of hr, endPhase_eq hph]
      rw [hm]
      rfl
    · rw [hm]
      rfl

/-! ## A valve's report to its owner -/

section
variable {s : State} {v : Nat} {o : Owner} (ho : valveOwner v = o)
include ho

theorem report_undefined (h : (s.owner o).mode = .undefined) : s.valveReport v = s ∧ s.faultReport v = s := by
  subst ho
  exact ⟨if_pos h, if_pos h⟩

theorem report_underived (h : (s.owner o).mode ≠ .undefined) (hs : (s.owner o).settled = false) :
    s.valveReport v = (if s.chain.adopted = true ∧ s.valvesKnown o = true then s.derive o else s)
      ∧ s.faultReport v = if s.chain.adopted = true ∧ s.valvesKnown o = true then s.derive o else s := by
  subst ho
  constructor
  · simp only [State.valveReport, if_neg h, hs, Bool.not_false, if_true, Bool.and_eq_true]
  · simp only [State.faultReport, if_neg h, hs, Bool.not_false, if_true, Bool.and_eq_true]

variable (hs : (s.owner o).settled = true)
include hs

theorem report_noValves (h : (s.owner o).mode = .noValves) : s.valveReport v = s.checkNoValves o ∧ s.faultReport v = s.checkNoValves o := by
  subst ho
  constructor
  · simp only [State.valveReport, hs, h]
    rfl
  · simp only [State.faultReport, hs, h]
    rfl

theorem valveReport_rests (h : (s.owner o).mode ∈ [.inactive, .inService, .opened, .suspended, .isolated]) : s.valveReport v = s := by
  subst ho
  simp only [List.mem_cons, List.not_mem_nil, or_false] at h
  unfold State.valveReport
  rcases h with h | h | h | h | h <;> simp only [h, hs] <;> rfl

theorem valveReport_failed (h : (s.owner o).mode = .failed) : s.valveReport v =
    if s.valvesKnown o = true ∧ s.anyValveFault o = false then s.ownerOp o fun x => x.beginOutcome o (x.outcome o) else s := by
  subst ho
  simp only [State.valveReport, h, hs]
  simp

theorem valveReport_sequence (h : (s.owner o).mode ∈ [.isolating, .restoring, .parking]) : s.valveReport v =
    if (s.owner o).step = some 1 then (if (s.stepMove o 1).1 = v then s.ownerOp o fun x => x.takeStep1 o false else s)
    else if (s.owner o).step = some 3 then (if (s.stepMove o 3).1 = v then s.ownerOp o fun x => x.takeStep3 o false else s)
    else s := by
  subst ho
  simp only [List.mem_cons, List.not_mem_nil, or_false] at h
  have hstep : s.valveReport v = match (s.owner (valveOwner v)).step with
      | some 1 => if (s.stepMove (valveOwner v) 1).1 = v then s.ownerOp (valveOwner v) fun x => x.takeStep1 (valveOwner v) false else s
      | some 3 => if (s.stepMove (valveOwner v) 3).1 = v then s.ownerOp (valveOwner v) fun x => x.takeStep3 (valveOwner v) false else s
      | _ => s := by
    unfold State.valveReport
    rcases h with h | h | h <;> simp only [h, hs] <;> rfl
  rw [hstep]
  generalize (s.owner (valveOwner v)).step = k
  match k with
  | none => rfl
  | some 0 => rfl
  | some 1 => rfl
  | some 2 => rfl
  | some 3 => rfl
  | some (_ + 4) => rfl

theorem faultReport_rests (h : (s.owner o).mode = .inactive ∨ (s.owner o).mode = .failed) : s.faultReport v = s := by
  subst ho
  unfold State.faultReport
  rcases h with h | h <;> simp only [h, hs] <;> rfl

theorem faultReport_fails (h : (s.owner o).mode ∉ [.undefined, .inactive, .failed, .noValves]) :
    s.faultReport v = s.ownerOp o fun x => x.failOwner o := by
  subst ho
  unfold State.faultReport
  cases hm : (s.owner (valveOwner v)).mode <;> simp_all

end

/-- What a report leaves alone. -/
theorem report_stir {s t : State} {v : Nat} (h : t = s.valveReport v ∨ t = s.faultReport v) : Stir s t := by
  rcases h with rfl | rfl
  · exact Stir.valveReport v s
  · exact Stir.faultReport v s

/-- An owner on a course does not count as open (R19). -/
theorem course_counts {m : OwnerMode} (h : m ∈ [.isolating, .restoring, .parking]) : m.countsOpen = false := by
  simp only [List.mem_cons, List.not_mem_nil, or_false] at h
  rcases h with rfl | rfl | rfl <;> rfl

/-- A step 1 whose valve is in place starts the timer (R21). -/
theorem takeStep1_timed {s : State} {o : Owner} {v : Nat} {d : Dir} {p : Pos} (ho : WellFormed.owner o = true) (hm : s.stepMove o 1 = (v, d))
    (hp : p = d.target (s.tables.valve v).fail) (hi : (s.valve v).st = p.idle) (hn : (s.owner o).needed = true) (hl : 0 < s.phaseLength o) :
    (s.takeStep1 o false).owner o = { s.owner o with step := some 2, phase := some ⟨s.clock, s.phaseLength o⟩ }
      ∧ (s.takeStep1 o false).sched = s.sched := by
  rw [State.takeStep1, takeStep_idle hm hp hi]
  generalize hx : s.setOwner o ((s.owner o).atStep 1 (if false = true then false else (s.owner o).needed)) = x
  have hstir : Stir s x := by rw [← hx]; exact Stir.setOwner s o _
  have hxo : x.owner o = (s.owner o).atStep 1 (s.owner o).needed := by rw [← hx]; exact setOwner_self ho _ s
  have hxs : x.sched = s.sched := by rw [← hx, setOwner_sched]
  have hlen : x.phaseLength o = s.phaseLength o := by rw [State.phaseLength, State.phaseLength, hxo, hstir.tables]; rfl
  rw [beginTimer_waits (by rw [hxo]; exact hn) (by rw [hlen]; exact hl), setOwner_self ho, setOwner_sched, hxo, hlen, hxs, hstir.clock]
  exact ⟨rfl, rfl⟩

/-- The reports to an owner in a sequence (R21). -/
theorem valveReport_course {s : State} {o : Owner} {v w len : Nat} {d : Dir} {p q : Pos} (ho : WellFormed.owner o = true)
    (hset : (s.owner o).settled = true) (hm : (s.owner o).mode ∈ [.isolating, .restoring, .parking])
    (hs : s.sequence o (s.owner o).mode = (v, w, d)) (hp : p = d.target (s.tables.valve v).fail) (hq : q = d.target (s.tables.valve w).fail)
    (hlen : len = s.phaseLength o) :
    ((s.owner o).step = some 1 → s.valveReport w = s
      ∧ ((s.valve v).st ≠ p.idle → s.StepTaken (s.valveReport v) o (s.owner o).mode 1 v d p s.sched.queue)
      ∧ ((s.valve v).st = p.idle → (s.owner o).needed = true → 0 < len →
          (s.valveReport v).owner o = { s.owner o with step := some 2, phase := some ⟨s.clock, len⟩ } ∧ (s.valveReport v).sched = s.sched)
      ∧ ((s.valve v).st = p.idle → (s.owner o).needed = false ∨ len = 0 →
          s.StepTaken (s.valveReport v) o (s.owner o).mode 3 w d q s.sched.queue))
    ∧ ((s.owner o).step = some 2 → s.valveReport v = s ∧ s.valveReport w = s)
    ∧ ((s.owner o).step = some 3 → s.valveReport v = s
      ∧ s.StepTaken (s.valveReport w) o (s.owner o).mode 3 w d q s.sched.queue) := by
  subst hlen
  obtain ⟨hvalves, hne⟩ := sequence_valves hs
  have hv : valveOwner v = o := valveOwner_own ho (hvalves.imp And.left And.left)
  have hw : valveOwner w = o := valveOwner_own ho (hvalves.symm.imp And.right And.right)
  have hcounts := course_counts hm
  obtain ⟨hm1, hm3⟩ := stepMove_sequence s o
  rw [hs] at hm1 hm3
  rw [valveReport_sequence hv hset hm, valveReport_sequence hw hset hm, hm1, hm3]
  refine ⟨fun h => ?_, fun h => ?_, fun h => ?_⟩
  · rw [if_pos h, if_pos h, if_neg hne, if_pos rfl]
    refine ⟨rfl, fun hi => ?_, fun hi hn hl => ?_, fun hi ht => ?_⟩
    · exact StepTaken.ownerOp (f := fun x => x.takeStep1 o false) ho hcounts hcounts (takeStep_taken ho hm1 hp hi false _)
    · obtain ⟨hown, hsched⟩ := takeStep1_timed ho hm1 hp hi hn hl
      rw [ownerOp_shut (f := fun x => x.takeStep1 o false) hcounts (by rw [hown]; exact hcounts)]
      exact ⟨hown, hsched⟩
    · have htaken := takeStep1_taken ho hs hp hq false (.inr ht)
      rw [if_pos hi] at htaken
      exact StepTaken.ownerOp (f := fun x => x.takeStep1 o false) ho hcounts hcounts htaken
  · have h1 : ¬ (s.owner o).step = some 1 := by rw [h]; nofun
    have h3 : ¬ (s.owner o).step = some 3 := by rw [h]; nofun
    rw [if_neg h1, if_neg h1, if_neg h3, if_neg h3]
    exact ⟨rfl, rfl⟩
  · have h1 : ¬ (s.owner o).step = some 1 := by rw [h]; nofun
    rw [if_neg h1, if_neg h1, if_pos h, if_pos h, if_neg hne.symm, if_pos rfl]
    exact ⟨rfl, StepTaken.ownerOp (f := fun x => x.takeStep3 o false) ho hcounts hcounts (takeStep3_taken ho hm3 hq false)⟩

/-- A FAILED owner begins its course again (R26). -/
theorem failed_begins {s : State} {o : Owner} (ho : WellFormed.owner o = true) (h : (s.owner o).mode = .failed) :
    s.Begins (s.ownerOp o fun x => x.beginOutcome o (x.outcome o)) o (s.outcome o) s.sched.queue := by
  have hcounts : (s.owner o).mode.countsOpen = false := by rw [h]; rfl
  obtain ⟨hsusp, hseq⟩ := beginOutcome_begins (s := s) ho (s.outcome o)
  refine ⟨fun hout => ?_, fun m v w d p r hm hs hp hr => ?_⟩
  · obtain ⟨hmode, hrest⟩ := hsusp hout
    rw [ownerOp_shut (f := fun x => x.beginOutcome o (x.outcome o)) hcounts (by rw [hmode]; rfl)]
    exact ⟨hmode, hrest⟩
  · have hm' : m.countsOpen = false := by
      obtain ⟨rfl, hne⟩ := course_of_mem hm
      cases hout : s.outcome o <;> rfl
    have htaken := hseq m v w d p r hm hs hp hr
    split at htaken
    next hi =>
      rw [if_pos hi]
      exact StepTaken.ownerOp (f := fun x => x.beginOutcome o (x.outcome o)) ho hcounts hm' htaken
    next hi =>
      rw [if_neg hi]
      exact StepTaken.ownerOp (f := fun x => x.beginOutcome o (x.outcome o)) ho hcounts hm' htaken

/-- An owner that fails has no entry in the queue (R26). -/
theorem failOwner_leaves {s : State} {o : Owner} (ho : WellFormed.owner o = true) :
    (s.ownerOp o fun x => x.failOwner o).owner o = { s.owner o with mode := .failed, step := none, phase := none, needed := false }
      ∧ ∀ e ∈ (s.ownerOp o fun x => x.failOwner o).sched.queue, e.isOf o = false := by
  obtain ⟨hown, hqueue⟩ := ownerOp_kept (s := s) ho fun x => x.failOwner o
  refine ⟨hown.trans (failOwner_owner ho s), fun e he => ?_⟩
  by_contra hi
  rw [Bool.not_eq_false] at hi
  have hmem := hqueue e he hi
  rw [failOwner_queue, List.mem_filter] at hmem
  obtain ⟨-, hnot⟩ := hmem
  rw [hi] at hnot
  cases hnot

/-- Settles O55, by what a step taken leaves of its owner and by the reports an owner takes. -/
theorem phaseTimersEnd : Obligations.PhaseTimersEnd := by
  refine ⟨fun s o ph v d p hr ho hph hm hp c hc => ?_, fun s o v w len d p q ho hset hm hs hp hq hlen =>
      valveReport_course ho hset hm hs hp hq hlen, fun s t v o hv ho ht => ?_, fun s t v o hv ho ht hset => ?_,
    fun s t v o hv ho ht hset => ?_⟩
  · obtain ⟨hexec, hcounts⟩ := exec_timerEnd hr hph hc
    obtain ⟨u, hu, hparts⟩ := endPhase_taken (s := s.advanceTo (ph.start + ph.len * 2000)) ho hph hm hp hcounts
    exact ⟨u, by rw [hexec, hu], hparts⟩
  · have hstir := report_stir ht
    refine ⟨fun h => ?_, fun h hs => ?_, fun hs h => ?_, (Ripple.ofStir hstir).toSpared, hstir.valves, hstir.zones, hstir.jobs, hstir.image⟩
    · obtain ⟨hvr, hfr⟩ := report_undefined ho.symm h
      exact ht.elim (·.trans hvr) (·.trans hfr)
    · obtain ⟨hvr, hfr⟩ := report_underived ho.symm h hs
      exact ht.elim (·.trans hvr) (·.trans hfr)
    · obtain ⟨hvr, hfr⟩ := report_noValves ho.symm hs h
      exact ht.elim (·.trans hvr) (·.trans hfr)
  · subst ht
    have hwf : WellFormed.owner o = true := ho ▸ valveOwner_wellFormed hv
    refine ⟨valveReport_rests ho.symm hset, fun h hbad => ?_, fun h hk hf => ?_⟩
    · rw [valveReport_failed ho.symm hset h]
      exact if_neg fun ⟨hk, hf⟩ => hbad.elim (fun hk' => absurd (hk.symm.trans hk') nofun) fun hf' => absurd (hf.symm.trans hf') nofun
    · rw [valveReport_failed ho.symm hset h, if_pos ⟨hk, hf⟩]
      exact failed_begins hwf h
  · subst ht
    have hwf : WellFormed.owner o = true := ho ▸ valveOwner_wellFormed hv
    refine ⟨faultReport_rests ho.symm hset, fun h => ?_⟩
    rw [faultReport_fails ho.symm hset h]
    exact failOwner_leaves hwf

end Sys2Proof.Machine
end

