-- ==== Sys2Proof/Proofs/Derivation.lean ====
section
/-! The derivation of owners after an adoption: the start hold (R194), the course an owner is derived into (R28), NO_VALVES (R15). -/

namespace Sys2Proof.Machine

/-! ## What an owner reads of its valves -/

theorem valvesKnown_iff (s : State) (o : Owner) : s.valvesKnown o = true
    ↔ (s.valve o.supplyValve).st ≠ .unknown ∧ (s.valve o.returnValve).st ≠ .unknown := by
  simp [State.valvesKnown]

theorem anyValveFault_iff (s : State) (o : Owner) : s.anyValveFault o = true
    ↔ (s.valve o.supplyValve).st = .fault ∨ (s.valve o.returnValve).st = .fault := by
  simp [State.anyValveFault]

theorem bothAt_iff (s : State) (o : Owner) (p : Pos) : s.bothAt o p = true
    ↔ (s.valve o.supplyValve).st = p.idle ∧ (s.valve o.returnValve).st = p.idle := by
  simp [State.bothAt]

theorem foundClosed_iff (s : State) (v : Nat) : s.foundClosed v = true
    ↔ (s.valve v).st = .closed ∨ (s.valve v).st = .closing ∨ s.reading v = some .closed := by
  simp [State.foundClosed, or_assoc]

theorem foundClosed_eq_false_iff (s : State) (v : Nat) : s.foundClosed v = false
    ↔ (s.valve v).st ≠ .closed ∧ (s.valve v).st ≠ .closing ∧ s.reading v ≠ some .closed := by
  rw [← Bool.not_eq_true, foundClosed_iff]
  push Not
  rfl

/-! ## The start hold (R194) -/

/-- R194: an owner that takes a start hold: an activated branch, a segment or the main with its valves. -/
def State.startHoldable (s : State) (o : Owner) : Bool :=
  match o with
  | .branch b => (s.tables.branch b).activated
  | _ => s.tables.hasValves o

theorem startHoldDue_eq (s : State) (o : Owner) : s.startHoldDue o =
    ((s.owner o).startPending && !(s.owner o).hostHold && (s.owner o).holds == 0 && s.startHoldable o
      && (s.foundClosed o.supplyValve || s.foundClosed o.returnValve)) := by
  cases o <;> rfl

theorem startHoldDue_of {s : State} {o : Owner} (hp : (s.owner o).startPending = true) (hh : (s.owner o).hostHold = false)
    (hz : (s.owner o).holds = 0) (hb : ∀ b, o = .branch b → (s.tables.branch b).activated = true)
    (hw : (∀ b, o ≠ .branch b) → s.tables.hasValves o = true)
    (hc : ∃ v, (v = o.supplyValve ∨ v = o.returnValve)
      ∧ ((s.valve v).st = .closed ∨ (s.valve v).st = .closing ∨ s.reading v = some .closed)) : s.startHoldDue o = true := by
  have hable : s.startHoldable o = true := by
    cases o with
    | branch b => exact hb b rfl
    | segment g => exact hw nofun
    | main => exact hw nofun
  have hfound : (s.foundClosed o.supplyValve || s.foundClosed o.returnValve) = true := by
    obtain ⟨v, hv, hv'⟩ := hc
    rw [Bool.or_eq_true]
    rcases hv with rfl | rfl
    · exact .inl ((foundClosed_iff s _).2 hv')
    · exact .inr ((foundClosed_iff s _).2 hv')
  rw [startHoldDue_eq, hp, hh, hz, hable, hfound]
  rfl

theorem startHoldDue_not {s : State} {o : Owner} (h : (s.owner o).startPending = false ∨ (s.owner o).hostHold = true ∨ (s.owner o).holds ≠ 0
    ∨ (∃ b, o = .branch b ∧ (s.tables.branch b).activated = false) ∨ ((∀ b, o ≠ .branch b) ∧ s.tables.hasValves o = false)
    ∨ (∀ v, v = o.supplyValve ∨ v = o.returnValve → (s.valve v).st ≠ .closed ∧ (s.valve v).st ≠ .closing ∧ s.reading v ≠ some .closed)) :
    s.startHoldDue o = false := by
  rw [startHoldDue_eq]
  rcases h with h | h | h | ⟨b, rfl, h⟩ | ⟨hb, h⟩ | h
  · simp [h]
  · simp [h]
  · simp [h]
  · have hable : s.startHoldable (.branch b) = false := h
    simp [hable]
  · have hable : s.startHoldable o = false := by
      cases o with
      | branch b => exact absurd rfl (hb b)
      | segment g => exact h
      | main => exact h
    simp [hable]
  · have hs := (foundClosed_eq_false_iff s _).2 (h _ (.inl rfl))
    have hr := (foundClosed_eq_false_iff s _).2 (h _ (.inr rfl))
    simp [hs, hr]

/-- The owner's record after the start hold, where due. -/
def State.startHeld (s : State) (o : Owner) : OwnerRec :=
  if s.startHoldDue o then { s.owner o with hostHold := true, holds := 1, startPending := false } else { s.owner o with startPending := false }

theorem applyStartHold_eq (s : State) (o : Owner) : s.applyStartHold o = s.setOwner o (s.startHeld o) := by
  unfold State.applyStartHold State.startHeld
  dsimp only
  split <;> rfl

theorem startHeld_mode (s : State) (o : Owner) : (s.startHeld o).mode = (s.owner o).mode := by
  unfold State.startHeld
  split <;> rfl

theorem startHeld_pending (s : State) (o : Owner) : (s.startHeld o).startPending = false := by
  unfold State.startHeld
  split <;> rfl

/-! ## The course an owner is derived into (R28) -/

/-- The owner held where a start hold is due, and marked derived. -/
def State.deriving (o : Owner) (s : State) : State :=
  (s.applyStartHold o).setOwner o { (s.applyStartHold o).owner o with settled := true }

theorem deriveOne_eq (o : Owner) (s : State) : s.deriveOne o = (s.deriving o).deriveCourse o := rfl

theorem deriving_stir (o : Owner) (s : State) : Stir s (s.deriving o) := (Stir.applyStartHold o s).trans (Stir.setOwner _ _ _)

theorem deriving_owner {o : Owner} (ho : WellFormed.owner o = true) (s : State) :
    (s.deriving o).owner o = { s.startHeld o with settled := true } := by
  rw [State.deriving, setOwner_self ho, applyStartHold_eq, setOwner_self ho]

theorem deriving_queue (o : Owner) (s : State) : (s.deriving o).sched = s.sched := by
  rw [State.deriving, setOwner_sched, applyStartHold_eq, setOwner_sched]

theorem deriving_others {o : Owner} (s : State) {n : Owner} (h : n.index ≠ o.index) : (s.deriving o).owner n = s.owner n := by
  rw [State.deriving, State.owner_setOwner, if_neg fun hc => h hc.1.symm, applyStartHold_eq, State.owner_setOwner,
    if_neg fun hc => h hc.1.symm]

/-- A branch's own derivation does not open or close its path. -/
theorem deriving_pathOpen {b : Nat} (hb : b < 48) (s : State) : (s.deriving (.branch b)).pathOpen b = s.pathOpen b := by
  have hseg : ∀ g, (s.deriving (.branch b)).owner (.segment g) = s.owner (.segment g) := fun g =>
    deriving_others s (by simp only [Owner.index]; omega)
  have hmain : (s.deriving (.branch b)).owner .main = s.owner .main := deriving_others s (by simp only [Owner.index]; omega)
  rw [State.pathOpen, State.pathOpen, hseg, hmain, (deriving_stir _ s).tables]

theorem restOwner_walks (o : Owner) (m : OwnerMode) (s : State) : Walks s (s.restOwner o m) := Walks.course s o m none false none

theorem beginCourse_walks (o : Owner) (s : State) : Walks s (s.beginCourse o) := by
  unfold State.beginCourse
  refine Walks.ite (restOwner_walks ..) (Walks.ite (Walks.ite (restOwner_walks ..) (Walks.beginSequence ..)) ?_)
  cases o with
  | branch b => exact Walks.ite (restOwner_walks ..) (Walks.ite (restOwner_walks ..) (Walks.beginSequence ..))
  | segment g => exact Walks.ite (restOwner_walks ..) (Walks.beginSequence ..)
  | main => exact Walks.ite (restOwner_walks ..) (Walks.beginSequence ..)

/-- The owner with no maintenance entries, where it leaves INACTIVE (R27, R145). -/
def State.unmaintained (o : Owner) (s : State) : State :=
  if (s.owner o).mode = .inactive then s.withdraw (MoveEntry.isMaintenanceOf o) else s

theorem unmaintained_walks (o : Owner) (s : State) : Walks s (s.unmaintained o) := Walks.ite (Walks.withdraw _ _) (Walks.refl s)

theorem unmaintained_owner (o n : Owner) (s : State) : (s.unmaintained o).owner n = s.owner n := by
  unfold State.unmaintained
  split
  · rw [State.owner_eq, State.withdraw_eq]
    rfl
  · rfl

theorem unmaintained_queue (o : Owner) (s : State) : (s.unmaintained o).sched.queue =
    s.sched.queue.filter fun e => !((s.owner o).mode == .inactive && e.isMaintenanceOf o) := by
  unfold State.unmaintained
  split
  next h =>
    rw [State.withdraw_eq, h]
    exact List.filter_congr fun e _ => rfl
  next h =>
    have hb : ((s.owner o).mode == .inactive) = false := beq_eq_false_iff_ne.2 h
    simp only [hb, Bool.false_and, Bool.not_false, List.filter_true]

theorem deriveCourse_stays {s : State} {o : Owner} (h : s.staysInactive o = true) : s.deriveCourse o = s.restOwner o .inactive := if_pos h

theorem deriveCourse_goes {s : State} {o : Owner} (h : s.staysInactive o = false) : s.deriveCourse o = (s.unmaintained o).beginCourse o := by
  unfold State.deriveCourse State.unmaintained
  rw [if_neg (by rw [h]; nofun)]
  split <;> rfl

theorem deriveCourse_walks (o : Owner) (s : State) : Walks s (s.deriveCourse o) := by
  cases h : s.staysInactive o with
  | true => rw [deriveCourse_stays h]; exact restOwner_walks ..
  | false => rw [deriveCourse_goes h]; exact (unmaintained_walks o s).trans (beginCourse_walks o _)

theorem restOwner_owner {o : Owner} (ho : WellFormed.owner o = true) (m : OwnerMode) (s : State) :
    (s.restOwner o m).owner o = { s.owner o with mode := m, step := none, phase := none, needed := false } := setOwner_self ho _ s

theorem restOwner_queue (o : Owner) (m : OwnerMode) (s : State) : (s.restOwner o m).sched.queue = s.sched.queue := by
  rw [State.restOwner, setOwner_sched]

/-! ## Coming to rest where both valves are in place -/

/-- The position a sequence asks of both valves. -/
theorem isolating_target (s : State) (o : Owner) : s.sequence o .isolating = (o.supplyValve, o.returnValve, .closeMove)
    ∧ ∀ fail, Dir.closeMove.target fail = .closed := ⟨rfl, fun _ => rfl⟩

theorem restoring_target (s : State) (o : Owner) : s.sequence o .restoring = (o.returnValve, o.supplyValve, .openMove)
    ∧ ∀ fail, Dir.openMove.target fail = .opened := ⟨rfl, fun _ => rfl⟩

/-- An owner at rest in the end state of a sequence, its second valve in place, is where step 3 leaves it. -/
theorem restOwner_taken {s : State} {o : Owner} (ho : WellFormed.owner o = true) {m : OwnerMode} {w : Nat} (d : Dir) {p : Pos}
    (hw : (s.valve w).st = p.idle) (q : List MoveEntry) : s.StepTaken (s.restOwner o (m.endMode o)) o m 3 w d p q := by
  obtain ⟨-, -, -, -, -, hnf⟩ := idle_ne p
  refine ⟨fun _ _ => ?_, fun hni => absurd hw hni, fun hf => absurd (hw.symm.trans hf) hnf, fun _ => ?_⟩
  · rw [restOwner_owner ho]
    exact ⟨rfl, rfl⟩
  · rw [restOwner_owner ho]

/-- R28: an owner whose two valves are to stand at `p` rests in the end state of the sequence, or begins it. -/
def State.courseOf (o : Owner) (m : OwnerMode) (p : Pos) (s : State) : State :=
  if s.bothAt o p then s.restOwner o (m.endMode o) else s.beginSequence o m

theorem courseOf_taken {s : State} {o : Owner} {m : OwnerMode} {v w : Nat} {d : Dir} {p : Pos} (ho : WellFormed.owner o = true)
    (hs : s.sequence o m = (v, w, d)) (hd : ∀ fail, d.target fail = p) :
    if (s.valve v).st = p.idle then s.StepTaken (s.courseOf o m p) o m 3 w d p s.sched.queue
    else s.StepTaken (s.courseOf o m p) o m 1 v d p s.sched.queue := by
  obtain ⟨hvalves, -⟩ := sequence_valves hs
  unfold State.courseOf
  by_cases hboth : s.bothAt o p = true
  · obtain ⟨hsup, hret⟩ := (bothAt_iff s o p).1 hboth
    have hv : (s.valve v).st = p.idle ∧ (s.valve w).st = p.idle := by
      rcases hvalves with ⟨rfl, rfl⟩ | ⟨rfl, rfl⟩
      · exact ⟨hsup, hret⟩
      · exact ⟨hret, hsup⟩
    obtain ⟨hv, hw⟩ := hv
    rw [if_pos hv, if_pos hboth]
    exact restOwner_taken ho d hw _
  · rw [if_neg hboth]
    exact beginSequence_taken ho hs (hd _).symm (hd _).symm

/-- The state an owner comes to on such a course, with no valve in FAULT. -/
theorem courseOf_mode {s : State} {o : Owner} {m : OwnerMode} {v w : Nat} {d : Dir} {p : Pos} (ho : WellFormed.owner o = true)
    (hs : s.sequence o m = (v, w, d)) (hd : ∀ fail, d.target fail = p) (hf : s.anyValveFault o = false) :
    ((s.courseOf o m p).owner o).mode = if s.bothAt o p = true then m.endMode o else m := by
  have htaken := courseOf_taken ho hs hd
  obtain ⟨hvalves, -⟩ := sequence_valves hs
  have hnf : (s.valve v).st ≠ .fault ∧ (s.valve w).st ≠ .fault := by
    have hno := (anyValveFault_iff s o).not.1 (by rw [hf]; nofun)
    push Not at hno
    obtain ⟨hsup, hret⟩ := hno
    rcases hvalves with ⟨rfl, rfl⟩ | ⟨rfl, rfl⟩
    · exact ⟨hsup, hret⟩
    · exact ⟨hret, hsup⟩
  obtain ⟨hvf, hwf⟩ := hnf
  have hboth : s.bothAt o p = true ↔ (s.valve v).st = p.idle ∧ (s.valve w).st = p.idle := by
    rw [bothAt_iff]
    rcases hvalves with ⟨rfl, rfl⟩ | ⟨rfl, rfl⟩
    · exact Iff.rfl
    · exact And.comm
  by_cases hv : (s.valve v).st = p.idle
  · rw [if_pos hv] at htaken
    by_cases hw : (s.valve w).st = p.idle
    · rw [if_pos (hboth.2 ⟨hv, hw⟩)]
      obtain ⟨hmode, -⟩ := htaken.inPlace hw rfl
      exact hmode
    · rw [if_neg fun h => hw (hboth.1 h).2]
      obtain ⟨hmode, -⟩ := htaken.goesOn hw hwf
      exact hmode
  · rw [if_neg hv] at htaken
    rw [if_neg fun h => hv (hboth.1 h).1]
    obtain ⟨hmode, -⟩ := htaken.goesOn hv hvf
    exact hmode

/-! ## The course, case by case (R28) -/

theorem beginCourse_faulty {s : State} {o : Owner} (h : s.anyValveFault o = true) : s.beginCourse o = s.restOwner o .failed := if_pos h

theorem beginCourse_held {s : State} {o : Owner} (hf : s.anyValveFault o = false) (hh : 0 < (s.owner o).holds) :
    s.beginCourse o = s.courseOf o .isolating .closed := by
  unfold State.beginCourse
  rw [if_neg (by rw [hf]; nofun), if_pos hh]
  rfl

theorem beginCourse_suspended {s : State} {b : Nat} (hf : s.anyValveFault (.branch b) = false) (hh : (s.owner (.branch b)).holds = 0)
    (hp : s.pathOpen b = false) : s.beginCourse (.branch b) = s.restOwner (.branch b) .suspended := by
  unfold State.beginCourse
  rw [if_neg (by rw [hf]; nofun), if_neg (by omega)]
  exact if_pos (by rw [hp]; rfl)

theorem beginCourse_restores {s : State} {o : Owner} (hf : s.anyValveFault o = false) (hh : (s.owner o).holds = 0)
    (hp : ∀ b, o = .branch b → s.pathOpen b = true) : s.beginCourse o = s.courseOf o .restoring .opened := by
  unfold State.beginCourse
  rw [if_neg (by rw [hf]; nofun), if_neg (by omega)]
  cases o with
  | branch b => exact if_neg (by rw [hp b rfl]; nofun)
  | segment g => rfl
  | main => rfl

theorem staysInactive_branch {s : State} {b : Nat} (hh : (s.owner (.branch b)).holds = 0) (ha : (s.tables.branch b).activated = false) :
    s.staysInactive (.branch b) = true := by
  simp [State.staysInactive, hh, ha]

theorem staysInactive_not {s : State} {o : Owner} (h : ∀ b, o = .branch b → 0 < (s.owner o).holds ∨ (s.tables.branch b).activated = true) :
    s.staysInactive o = false := by
  cases o with
  | branch b =>
    rcases h b rfl with h | h
    · simp only [State.staysInactive, Bool.and_eq_false_iff]
      exact .inl (beq_eq_false_iff_ne.2 (by omega))
    · simp [State.staysInactive, h]
  | segment g => rfl
  | main => rfl

end Sys2Proof.Machine
end

