-- ==== Sys2Proof/Proofs/Adoption.lean ====
section
/-! The accepted frames of an adoption (R11, R15, R28, R42, R66, R194), O47. -/

namespace Sys2Proof.Machine

/-! ## The valves at an adoption (R11) -/

/-- A derivation of one valve, where it is present. -/
def State.adoptValve (v : Nat) (s : State) : State := if (s.tables.valve v).present then s.setValve v (s.derivedValve v) else s

theorem adoptValve_others (v : Nat) (s : State) : (s.adoptValve v).tables = s.tables ∧ (s.adoptValve v).image = s.image
    ∧ (s.adoptValve v).clock = s.clock := by
  unfold State.adoptValve
  split
  · obtain ⟨-, -, htables, himage, hclock⟩ := setValve_others v (s.derivedValve v) s
    exact ⟨htables, himage, hclock⟩
  · exact ⟨rfl, rfl, rfl⟩

theorem adoptValve_ne {v w : Nat} (h : w ≠ v) (s : State) : (s.adoptValve v).valve w = s.valve w := by
  unfold State.adoptValve
  split
  · rw [State.valve_setValve, if_neg fun hc => h hc.1.symm]
  · rfl

/-- What a valve is derived to reads its record, the tables, the image and the time. -/
theorem derivedValve_congr {s t : State} {v : Nat} (hv : t.valve v = s.valve v) (ht : t.tables = s.tables) (hi : t.image = s.image)
    (hc : t.clock = s.clock) : t.derivedValve v = s.derivedValve v := by
  have hread : t.reading v = s.reading v := by
    unfold State.reading State.goodAt
    rw [ht, hi]
  have htarget : t.commandedTarget v = s.commandedTarget v := by
    unfold State.commandedTarget
    rw [ht, hi]
  have htimer : t.freshTimer v = s.freshTimer v := by
    unfold State.freshTimer
    rw [ht, hc]
  unfold State.derivedValve
  rw [hread, htarget, hv, ht, hc, htimer]

theorem adoptFold_valve (l : List Nat) (hl : l.Nodup) {v : Nat} (hv : v ≤ 105) (s : State) :
    (l.foldl (fun s v => s.adoptValve v) s).valve v = if v ∈ l ∧ (s.tables.valve v).present = true then s.derivedValve v else s.valve v := by
  induction l generalizing s with
  | nil => exact (if_neg fun h => absurd h.1 List.not_mem_nil).symm
  | cons w l ih =>
    obtain ⟨hw, hl⟩ := List.nodup_cons.1 hl
    obtain ⟨htables, himage, hclock⟩ := adoptValve_others w s
    rw [List.foldl_cons, ih hl, htables]
    by_cases hvw : v = w
    · subst hvw
      rw [if_neg fun h => hw h.1]
      unfold State.adoptValve
      by_cases hp : (s.tables.valve v).present = true
      · rw [if_pos hp, if_pos ⟨List.mem_cons_self .., hp⟩, setValve_valve_same hv]
      · rw [if_neg hp, if_neg fun h => hp h.2]
    · rw [derivedValve_congr (adoptValve_ne hvw s) htables himage hclock, adoptValve_ne hvw]
      exact if_congr (by simp [hvw]) rfl rfl

theorem adoptValves_valve {v : Nat} (hv : v ≤ 105) (s : State) :
    s.adoptValves.valve v = if (s.tables.valve v).present = true then s.derivedValve v else s.valve v := by
  have hfold := adoptFold_valve valveNumbers List.nodup_range hv s
  have hmem : v ∈ valveNumbers := List.mem_range.2 (by omega)
  exact hfold.trans (if_congr (and_iff_right hmem) rfl rfl)

/-- BOTH is a SWITCH_CONFLICT, whatever the target. -/
theorem derivedValve_both {x : State} {v : Nat} (hr : x.reading v = some .both) : x.derivedValve v =
    { x.valve v with target := (x.commandedTarget v).or (x.valve v).target, latest := some .both, st := .fault, cause := some .switchConflict,
                     mismatch := 0, timer := none } := by
  cases hc : x.commandedTarget v <;> simp [State.derivedValve, hr, hc]

/-- A valve with no drive mapped keeps what it reads. -/
theorem derivedValve_undriven_read {x : State} {v : Nat} {y : Reading} (hr : x.reading v = some y) (hy : y ≠ .both)
    (ht : x.commandedTarget v = none) : x.derivedValve v = { x.valve v with latest := some y } := by
  cases y with
  | both => exact absurd rfl hy
  | _ => simp [State.derivedValve, hr, ht]

theorem derivedValve_parts {x : State} {v : Nat} (ht : x.commandedTarget v = none) :
    (x.derivedValve v).latest = (x.reading v).or (x.valve v).latest ∧ (x.derivedValve v).target = (x.valve v).target
      ∧ (x.reading v = some .both → (x.derivedValve v).st = .fault ∧ (x.derivedValve v).cause = some .switchConflict)
      ∧ (x.reading v ≠ some .both → x.derivedValve v = { x.valve v with latest := (x.derivedValve v).latest }) := by
  cases hr : x.reading v with
  | none =>
    have hd : x.derivedValve v = x.valve v := derivedValve_undriven hr ht
    rw [hd]
    exact ⟨rfl, rfl, nofun, fun _ => rfl⟩
  | some y =>
    by_cases hy : y = .both
    · subst hy
      rw [derivedValve_both hr, ht]
      exact ⟨rfl, rfl, fun _ => ⟨rfl, rfl⟩, fun h => absurd rfl h⟩
    · rw [derivedValve_undriven_read hr hy ht]
      exact ⟨rfl, rfl, fun h => absurd (Option.some.inj h) hy, fun _ => rfl⟩

theorem derivedValve_driven {x : State} {v : Nat} {p : Pos} (ht : x.commandedTarget v = some p) : (x.derivedValve v).target = some p
    ∧ (x.tables.switchless v = true → (x.derivedValve v).st = p.idle)
    ∧ (x.tables.switchless v = false → (x.reading v = none → x.derivedValve v = { x.valve v with target := some p })
      ∧ (x.reading v = some .both → (x.derivedValve v).st = .fault ∧ (x.derivedValve v).cause = some .switchConflict)
      ∧ (x.reading v = some p.reading → (x.derivedValve v).st = p.idle ∧ (x.derivedValve v).latest = some p.reading)
      ∧ (x.reading v = some p.other.reading ∨ x.reading v = some .neither → (x.derivedValve v).st = p.moving
          ∧ (x.derivedValve v).driveSent = some x.clock ∧ (x.derivedValve v).timer = some ⟨0, some x.clock, (x.tables.valve v).stroke⟩)) := by
  have hpb : p.reading ≠ .both := by cases p <;> nofun
  have hmoves : ∀ y, x.reading v = some y → y ≠ .both → y ≠ p.reading → (x.derivedValve v).st = p.moving
      ∧ (x.derivedValve v).driveSent = some x.clock ∧ (x.derivedValve v).timer = some ⟨0, some x.clock, (x.tables.valve v).stroke⟩ := by
    intro y hy hyb hyp
    rw [derivedValve_read hy hyb ht, if_neg hyp]
    exact ⟨rfl, rfl, rfl⟩
  refine ⟨?_, fun hsw => ?_, fun hsw => ⟨fun hr => ?_, fun hr => ?_, fun hr => ?_, fun hr => ?_⟩⟩
  · cases hr : x.reading v with
    | none =>
      simp only [State.derivedValve, hr, ht]
      split <;> rfl
    | some y =>
      by_cases hyb : y = .both
      · subst hyb
        rw [derivedValve_both hr, ht]
        rfl
      · rw [derivedValve_read hr hyb ht]
        split <;> rfl
  · obtain ⟨ho, hc⟩ := (switchless_iff _ _).1 hsw
    rw [derivedValve_switchless (reading_none ho hc) hsw ht]
  · rw [derivedValve_unread hr hsw, ht]
    rfl
  · rw [derivedValve_both hr]
    exact ⟨rfl, rfl⟩
  · rw [derivedValve_read hr hpb ht, if_pos rfl]
    exact ⟨rfl, rfl⟩
  · rcases hr with hr | hr
    · exact hmoves _ hr (by cases p <;> nofun) (by cases p <;> nofun)
    · exact hmoves _ hr nofun (by cases p <;> nofun)

/-! ## One owner at the end of an adoption (R28) -/

theorem adoptOwner_undefined {s : State} {o : Owner} (h : (s.owner o).mode = .undefined) : s.adoptOwner o = s := if_pos h

theorem adoptOwner_noValves {s : State} {o : Owner} (h : (s.owner o).mode = .noValves) : s.adoptOwner o = s.checkNoValves o := by
  unfold State.adoptOwner
  dsimp only
  rw [if_neg (by rw [h]; nofun), if_pos h]

theorem adoptOwner_other {s : State} {o : Owner} (hu : (s.owner o).mode ≠ .undefined) (hn : (s.owner o).mode ≠ .noValves) :
    s.adoptOwner o = if (s.owner o).settled = false ∧ s.valvesKnown o = true then s.ownerOp o fun w => w.deriveOne o else s := by
  unfold State.adoptOwner
  dsimp only
  rw [if_neg hu, if_neg hn]
  exact if_congr (by simp) rfl rfl

/-- An owner derived on a course begins it from its valves (`Begins`), in no motion where both are in place. -/
theorem courseOf_begins {s x : State} {o : Owner} {out : Outcome} {p : Pos} (ho : WellFormed.owner o = true) (hne : out ≠ .suspend)
    (hv : x.valves = s.valves) (hc : x.clock = s.clock) (ht : x.tables = s.tables)
    (hd : ∀ v w d, x.sequence o out.course = (v, w, d) → ∀ fail, d.target fail = p) :
    s.Begins (x.courseOf o out.course p) o out x.sched.queue := by
  refine begins_of_sequence hne hv hc ht fun {v w d p' r} hs hp hr => ?_
  have hdir := hd v w d hs
  obtain rfl : p' = p := hp.trans (hdir _)
  obtain rfl : r = p' := hr.trans (hdir _)
  exact courseOf_taken ho hs hdir

/-- What the derivation of an owner keeps, its start hold apart. -/
theorem deriveOne_flags {x : State} {o : Owner} (ho : WellFormed.owner o = true) :
    ((x.deriveOne o).owner o).startPending = false ∧ ((x.deriveOne o).owner o).settled = true
      ∧ ((x.deriveOne o).owner o).holds = (x.startHeld o).holds ∧ ((x.deriveOne o).owner o).hostHold = (x.startHeld o).hostHold := by
  obtain ⟨hholds, hhost, hpending, hsettled⟩ := (deriveCourse_walks o (x.deriving o)).flags o
  rw [deriving_owner ho] at hholds hhost hpending hsettled
  rw [deriveOne_eq]
  exact ⟨hpending.trans (startHeld_pending x o), hsettled, hholds, hhost⟩

/-- The state in which an owner that leaves its start value begins its course. -/
def State.courseStart (o : Owner) (s : State) : State := (s.deriving o).unmaintained o

theorem courseStart_stir (o : Owner) (s : State) : Stir s (s.courseStart o) := (deriving_stir o s).trans (unmaintained_walks o _).toStir

theorem courseStart_owner {o : Owner} (ho : WellFormed.owner o = true) (s : State) :
    (s.courseStart o).owner o = { s.startHeld o with settled := true } := (unmaintained_owner o o _).trans (deriving_owner ho s)

theorem courseStart_queue {o : Owner} (ho : WellFormed.owner o = true) (s : State) : (s.courseStart o).sched.queue =
    s.sched.queue.filter fun e => !((s.owner o).mode == .inactive && e.isMaintenanceOf o) := by
  have hmode : ((s.deriving o).owner o).mode = (s.owner o).mode := by rw [deriving_owner ho]; exact startHeld_mode s o
  rw [State.courseStart, unmaintained_queue, deriving_queue, hmode]

theorem courseStart_pathOpen {b : Nat} (hb : b < 48) (s : State) : (s.courseStart (.branch b)).pathOpen b = s.pathOpen b := by
  refine Eq.trans ?_ (deriving_pathOpen hb s)
  unfold State.pathOpen State.courseStart
  rw [unmaintained_owner, unmaintained_owner, (unmaintained_walks _ _).toStir.tables]

theorem courseStart_faulty (o : Owner) (s : State) : (s.courseStart o).anyValveFault o = s.anyValveFault o := by
  unfold State.anyValveFault
  rw [(courseStart_stir o s).valve, (courseStart_stir o s).valve]

theorem courseStart_bothAt (o : Owner) (p : Pos) (s : State) : (s.courseStart o).bothAt o p = s.bothAt o p := by
  unfold State.bothAt
  rw [(courseStart_stir o s).valve, (courseStart_stir o s).valve]

section
variable {x : State} {o : Owner} (ho : WellFormed.owner o = true)
  (hgo : ∀ b, o = .branch b → 0 < (x.startHeld o).holds ∨ (x.tables.branch b).activated = true)
include ho hgo

theorem deriveOne_goes : x.deriveOne o = (x.courseStart o).beginCourse o := by
  rw [deriveOne_eq, deriveCourse_goes (staysInactive_not fun b hb => by
    rw [deriving_owner ho, (deriving_stir o x).tables]
    exact hgo b hb)]
  rfl

theorem deriveOne_faulty (hf : x.anyValveFault o = true) : ((x.deriveOne o).owner o).mode = .failed := by
  rw [deriveOne_goes ho hgo, beginCourse_faulty ((courseStart_faulty o x).trans hf), restOwner_owner ho]

variable (hf : x.anyValveFault o = false)
include hf

theorem deriveOne_held (hh : 0 < (x.startHeld o).holds) : x.deriveOne o = (x.courseStart o).courseOf o .isolating .closed := by
  rw [deriveOne_goes ho hgo, beginCourse_held ((courseStart_faulty o x).trans hf) (by rw [courseStart_owner ho]; exact hh)]

theorem deriveOne_suspended (hh : (x.startHeld o).holds = 0) {b : Nat} (hb : o = .branch b) (hp : x.pathOpen b = false) :
    x.deriveOne o = (x.courseStart o).restOwner o .suspended := by
  subst hb
  obtain ⟨hlt, -⟩ := owner_bounds ho
  rw [deriveOne_goes ho hgo, beginCourse_suspended ((courseStart_faulty _ x).trans hf) (by rw [courseStart_owner ho]; exact hh)
    ((courseStart_pathOpen (hlt b rfl) x).trans hp)]

theorem deriveOne_restores (hh : (x.startHeld o).holds = 0) (hp : ∀ b, o = .branch b → x.pathOpen b = true) :
    x.deriveOne o = (x.courseStart o).courseOf o .restoring .opened := by
  obtain ⟨hlt, -⟩ := owner_bounds ho
  rw [deriveOne_goes ho hgo, beginCourse_restores ((courseStart_faulty o x).trans hf) (by rw [courseStart_owner ho]; exact hh) ?_]
  rintro b rfl
  exact (courseStart_pathOpen (hlt b rfl) x).trans (hp b rfl)

end

/-- What the derivation of an owner comes to (R28). -/
theorem deriveOne_course {x : State} {o : Owner} (ho : WellFormed.owner o = true)
    (hgo : ∀ b, o = .branch b → 0 < (x.startHeld o).holds ∨ (x.tables.branch b).activated = true) :
    (x.anyValveFault o = true → ((x.deriveOne o).owner o).mode = .failed)
    ∧ (x.anyValveFault o = false → 0 < (x.startHeld o).holds →
        ((x.deriveOne o).owner o).mode = if x.bothAt o .closed = true then .isolated else .isolating)
    ∧ (∀ q out, q = x.sched.queue.filter (fun e => !((x.owner o).mode == .inactive && e.isMaintenanceOf o)) →
        (0 < (x.startHeld o).holds ∧ out = .isolate)
          ∨ ((x.startHeld o).holds = 0 ∧ (∃ b, o = .branch b ∧ x.pathOpen b = false) ∧ out = .suspend)
          ∨ ((x.startHeld o).holds = 0 ∧ (∀ b, o = .branch b → x.pathOpen b = true) ∧ out = .restore) →
        x.anyValveFault o = false → x.Begins (x.deriveOne o) o out q)
    ∧ (x.anyValveFault o = false → (x.startHeld o).holds = 0 →
      (∀ b, o = .branch b → x.pathOpen b = false → ((x.deriveOne o).owner o).mode = .suspended)
      ∧ ((∀ b, o = .branch b → x.pathOpen b = true) →
          ((x.deriveOne o).owner o).mode = if x.bothAt o .opened = true then OwnerMode.endMode o .restoring else .restoring)) := by
  have hstir := courseStart_stir o x
  have hqueue := courseStart_queue ho x
  have hfault := courseStart_faulty o x
  have hclosing : ∀ v w d, (x.courseStart o).sequence o .isolating = (v, w, d) → ∀ fail, d.target fail = .closed := fun v w d h fail => by
    cases h; rfl
  have hopening : ∀ v w d, (x.courseStart o).sequence o .restoring = (v, w, d) → ∀ fail, d.target fail = .opened := fun v w d h fail => by
    cases h; rfl
  refine ⟨fun hf => deriveOne_faulty ho hgo hf, fun hf hh => ?_, fun q out hq hout hf => ?_, fun hf hh => ⟨fun b hb hp => ?_, fun hp => ?_⟩⟩
  · rw [deriveOne_held ho hgo hf hh, courseOf_mode ho rfl (fun _ => rfl) (hfault.trans hf), courseStart_bothAt]
    rfl
  · subst hq
    rw [← hqueue]
    rcases hout with ⟨hh, rfl⟩ | ⟨hh, ⟨b, hb, hp⟩, rfl⟩ | ⟨hh, hp, rfl⟩
    · rw [deriveOne_held ho hgo hf hh]
      exact courseOf_begins (out := .isolate) ho nofun hstir.valves hstir.clock hstir.tables hclosing
    · rw [deriveOne_suspended ho hgo hf hh hb hp]
      refine ⟨fun _ => ?_, fun m v w d p r hm => absurd rfl (course_of_mem hm).2⟩
      rw [restOwner_owner ho, restOwner_queue]
      exact ⟨rfl, rfl, rfl, rfl⟩
    · rw [deriveOne_restores ho hgo hf hh hp]
      exact courseOf_begins (out := .restore) ho nofun hstir.valves hstir.clock hstir.tables hopening
  · rw [deriveOne_suspended ho hgo hf hh hb hp, restOwner_owner ho]
  · rw [deriveOne_restores ho hgo hf hh hp, courseOf_mode ho rfl (fun _ => rfl) (hfault.trans hf), courseStart_bothAt]

/-! ## NO_VALVES (R15) -/

/-- An owner with no step, in NO_VALVES. -/
def State.loseValves (o : Owner) (s : State) : State :=
  (s.withdraw (MoveEntry.isOf o)).setOwner o
    { (s.withdraw (MoveEntry.isOf o)).owner o with mode := .noValves, step := none, phase := none, needed := false, settled := true }

theorem checkNoValves_eq {o : Owner} (hb : ∀ b, o ≠ .branch b) (s : State) : s.checkNoValves o =
    if s.tables.hasValves o = true then (if (s.owner o).mode = .noValves ∧ s.valvesKnown o = true then s.ownerOp o fun w => w.deriveOne o else s)
    else if (s.owner o).mode = .noValves then s else s.ownerOp o (State.loseValves o) := by
  have hknown : ((decide ((s.owner o).mode = .noValves) && s.valvesKnown o) = true) = ((s.owner o).mode = .noValves ∧ s.valvesKnown o = true) := by
    simp
  unfold State.checkNoValves
  cases o with
  | branch b => exact absurd rfl (hb b)
  | segment g => simp only [hknown]; rfl
  | main => simp only [hknown]; rfl

theorem loseValves_leaves {o : Owner} (ho : WellFormed.owner o = true) (s : State) :
    ((s.loseValves o).owner o).mode = .noValves ∧ ((s.loseValves o).owner o).step = none ∧ ((s.loseValves o).owner o).phase = none
      ∧ ((s.loseValves o).owner o).holds = (s.owner o).holds ∧ ((s.loseValves o).owner o).hostHold = (s.owner o).hostHold
      ∧ (s.loseValves o).sched.queue = s.sched.queue.filter fun e => !e.isOf o := by
  have hown : (s.withdraw (MoveEntry.isOf o)).owner o = s.owner o := by rw [State.owner_eq, State.withdraw_eq]; rfl
  rw [State.loseValves, setOwner_self ho, setOwner_sched, hown, State.withdraw_eq]
  exact ⟨rfl, rfl, rfl, rfl, rfl, rfl⟩

/-- What an owner that loses its valves keeps and loses. -/
theorem checkNoValves_leaves {x : State} {o : Owner} (ho : WellFormed.owner o = true) (hb : ∀ b, o ≠ .branch b) :
    (x.tables.hasValves o = true → (x.owner o).mode = .noValves → x.valvesKnown o = true → x.checkNoValves o = x.ownerOp o fun w => w.deriveOne o)
    ∧ (x.tables.hasValves o = true → (x.owner o).mode ≠ .noValves ∨ x.valvesKnown o = false → x.checkNoValves o = x)
    ∧ (x.tables.hasValves o = false → (x.owner o).mode = .noValves → x.checkNoValves o = x)
    ∧ (x.tables.hasValves o = false → (x.owner o).mode ≠ .noValves → ((x.checkNoValves o).owner o).mode = .noValves
        ∧ ((x.checkNoValves o).owner o).step = none ∧ ((x.checkNoValves o).owner o).phase = none
        ∧ ((x.checkNoValves o).owner o).holds = (x.owner o).holds ∧ ((x.checkNoValves o).owner o).hostHold = (x.owner o).hostHold
        ∧ (x.checkNoValves o).valves = x.valves ∧ ∀ e ∈ (x.checkNoValves o).sched.queue, e.isOf o = false) := by
  have hvalves := (Stir.checkNoValves o x).valves
  rw [checkNoValves_eq hb] at hvalves ⊢
  refine ⟨fun hv hn hk => ?_, fun hv h => ?_, fun hv hn => ?_, fun hv hn => ?_⟩
  · rw [if_pos hv, if_pos ⟨hn, hk⟩]
  · rw [if_pos hv, if_neg fun ⟨hn, hk⟩ => h.elim (fun h => h hn) fun h => absurd (hk.symm.trans h) nofun]
  · rw [if_neg (by rw [hv]; nofun), if_pos hn]
  · rw [if_neg (by rw [hv]; nofun), if_neg hn] at hvalves ⊢
    obtain ⟨hown, hqueue⟩ := ownerOp_kept (s := x) ho (State.loseValves o)
    obtain ⟨hmode, hstep, hphase, hholds, hhost, hq⟩ := loseValves_leaves ho x
    rw [hown]
    refine ⟨hmode, hstep, hphase, hholds, hhost, hvalves, fun e he => ?_⟩
    by_contra hi
    rw [Bool.not_eq_false] at hi
    have hmem := hqueue e he hi
    rw [hq, List.mem_filter, hi] at hmem
    exact absurd hmem.2 nofun

end Sys2Proof.Machine
end

