-- ==== Sys2Proof/Proofs/AdoptionFrames.lean ====
section
/-! The accepted frames of an adoption (R42, R66), O47. -/

namespace Sys2Proof.Machine

theorem exec_adoptionServiceAccepted {s : State} {f : Frame} {cdi : List Bool} (h : s.Returns .adoptService f cdi true) :
    exec (.adoptionServiceAccepted cdi) s = .next ((s.frameAccepted f (f.returned cdi)).withChain
      { (s.frameAccepted f (f.returned cdi)).chain with echoNext := true }) :=
  congrArg Host.Outcome.next (atFrameEnd_frameAccepted h (allows := fun p => p == .adoptService) rfl
    fun _ _ s => s.withChain { s.chain with echoNext := true })

theorem exec_adoptionEchoAccepted {s : State} {f : Frame} {cdi : List Bool} (h : s.Returns .adoptEcho f cdi true) :
    exec (.adoptionEchoAccepted cdi) s = .next ((s.frameAccepted f (f.returned cdi)).adopt (f.returned cdi)) :=
  congrArg Host.Outcome.next (atFrameEnd_frameAccepted h (allows := fun p => p == .adoptEcho) rfl fun _ ret s => s.adopt ret)

/-! ## The image taken from the chain (R66) -/

theorem adoptedImage_length (s : State) (ret : List Bool) : (s.adoptedImage ret).length = s.tables.length := by
  simp [State.adoptedImage]

theorem adoptedImage_bit {s : State} {p : Nat} (hp : p < s.tables.length) (ret : List Bool) :
    bitAt (s.adoptedImage ret) p = (s.tables.isOutputPos p && bitAt ret p) := by
  unfold State.adoptedImage
  rw [bitAt, List.getD_eq_getElem?_getD, List.getElem?_map, List.getElem?_range hp]
  rfl

/-- R42, R66, R89: the adopted flag set, the image from the ECHO frame, flow history lost. -/
def State.adopting (ret : List Bool) (s : State) : State :=
  { s with
    chain := { s.chain with adopted := true, echoNext := false }
    image := ⟨s.adoptedImage ret, s.adoptedImage ret, ret, s.cardGoodOf ret, false, some s.clock⟩
    flow := Flow.start }

/-- R66: the image unit's share alone. -/
def State.adoptImaged (ret : List Bool) (s : State) : State :=
  { s with image := ⟨s.adoptedImage ret, s.adoptedImage ret, ret, s.cardGoodOf ret, false, some s.clock⟩ }

theorem adoptImage_fresh {s : State} (h : s.InputsFresh) (ret : List Bool) :
    s.adoptImage ret = (s.adoptImaged ret).withNotices (s.noticesWith .inputs) :=
  (joinInputsIfStale_fresh (s := s) (t := s.adoptImaged ret) rfl rfl h).trans (joinNotice_withNotices _ _)

theorem adoptImage_stale {s : State} (h : ¬ s.InputsFresh) (ret : List Bool) : s.adoptImage ret = s.adoptImaged ret :=
  joinInputsIfStale_stale (s := s) (t := s.adoptImaged ret) rfl rfl h

/-- The state from which the valves are derived. -/
def State.adoptStart (ret : List Bool) (s : State) : State :=
  if (((s.inputsRecord.zip (s.adopting ret).inputsRecord).any fun x => inputTurned x.1 x.2) = true) then
    (s.adopting ret).withNotices (s.noticesWith .inputs)
  else s.adopting ret

theorem adoptStart_same (ret : List Bool) (s : State) : State.SameButNotices (s.adopting ret) (s.adoptStart ret) := by
  unfold State.adoptStart
  split <;> rfl

theorem adoptStart_fresh {s : State} (h : s.InputsFresh) (ret : List Bool) : s.adoptStart ret = (s.adopting ret).withNotices (s.noticesWith .inputs) :=
  if_pos ((inputs_turned_cleared (s := s) (t := s.adopting ret) rfl rfl).2 h)

theorem adoptStart_stale {s : State} (h : ¬ s.InputsFresh) (ret : List Bool) : s.adoptStart ret = s.adopting ret :=
  if_neg (mt (inputs_turned_cleared (s := s) (t := s.adopting ret) rfl rfl).1 h)

/-- The chain RUNNING, a scan due and the look marked. -/
def State.setRunning (s : State) : State := ((s.setChainState .running).trigger).wantLook

theorem setRunning_due (s : State) : s.setRunning.scanDue = true := rfl

theorem setRunning_noticed (s : State) : s.setRunning.Noticed .chain := setChainState_noticed .running s

theorem setRunning_kept (s : State) : s.setRunning.tables = s.tables ∧ s.link.notices <+: s.setRunning.link.notices := by
  have hchain := joinNotice_withNotices (s.inChainState .running) .chain
  refine ⟨?_, State.joinNotice_prefix (s.inChainState .running) .chain⟩
  change ((s.inChainState .running).joinNotice .chain).tables = _
  rw [hchain]
  rfl

/-- The state after the derivations. -/
def State.adopted (ret : List Bool) (s : State) : State := (s.adoptStart ret).adoptValves.adoptOwners.setRunning

/-- An adoption is its image, its derivations and the end of the event. -/
theorem adopt_eq (ret : List Bool) (s : State) : s.adopt ret = (s.adopted ret).finish := by
  have himage : (State.loseFlow { s.adoptImage ret with chain := { (s.adoptImage ret).chain with adopted := true, echoNext := false } }) =
      s.adoptStart ret := by
    by_cases hf : s.InputsFresh
    · rw [adoptStart_fresh hf, adoptImage_fresh hf]
      rfl
    · rw [adoptStart_stale hf, adoptImage_stale hf]
      rfl
  unfold State.adopt State.adopted State.setRunning
  dsimp only
  rw [himage]

/-! ## What an adoption leaves -/

theorem derivations_ripple (ret : List Bool) (s : State) : Ripple (s.adoptStart ret) (s.adoptStart ret).adoptValves.adoptOwners :=
  (Ripple.adoptValves _).trans (Ripple.adoptOwners _)

theorem adopted_same {s : State} (hst : s.chain.st = .adopting) (ret : List Bool) :
    State.SameButNotices { (s.adoptStart ret).adoptValves.adoptOwners with
      chain := { (s.adoptStart ret).adoptValves.adoptOwners.chain with st := .running, streak := 0 }
      scanDue := true
      sched := { (s.adoptStart ret).adoptValves.adoptOwners.sched with lookDue := true } } (s.adopted ret) := by
  have hchain := (derivations_ripple ret s).chain
  have hstart : (s.adoptStart ret).chain.st = .adopting := by
    have h : (s.adoptStart ret).chain = (s.adopting ret).chain := (congrArg State.chain (adoptStart_same ret s) :)
    rw [h]
    exact hst
  unfold State.adopted
  generalize (s.adoptStart ret).adoptValves.adoptOwners = b at hchain
  have hne : ¬ b.chain.st = .running := by rw [hchain, hstart]; nofun
  rw [State.setRunning, setChainState_eq, State.inChainState, if_neg hne]
  rfl

/-- R42, R66: what the adoption sets, its consequences apart. -/
def State.adoptionSet (out ret : List Bool) (s : State) : State :=
  { s with
    chain := { s.chain with st := .running, streak := 0, adopted := true, echoNext := false }
    image := ⟨s.image.out, out, ret, s.cardGoodOf ret, false, some s.clock⟩
    flow := Flow.start }

/-- Two states with the same spared part. -/
theorem Spared.ofSpared {s t : State} (h : t.spared = s.spared) : Spared s t where
  clock := (congrArg State.clock h :)
  lastStart := (congrArg State.lastStart h :)
  power := (congrArg State.power h :)
  rateHigh := (congrArg State.rateHigh h :)
  tables := (congrArg State.tables h :)
  locks := (congrArg State.locks h :)
  stored := (congrArg State.stored h :)
  copyValid := (congrArg State.copyValid h :)
  commit := (congrArg State.commit h :)
  link := (congrArg (fun u : State => { u.link with notices := s.link.notices }) h :)
  chain := (congrArg State.chain h :)
  ring := (congrArg State.ring h :)
  image := (congrArg (fun u : State => { u.image with out := s.image.out }) h :)
  periodicFrom := (congrArg State.periodicFrom h :)
  flow := (congrArg State.flow h :)
  freeCount := (congrArg State.freeCount h :)
  pending := (congrArg State.pending h :)

theorem adopt_spared {s : State} (hst : s.chain.st = .adopting) (ret : List Bool) :
    Spared (s.adoptionSet (s.adoptedImage ret) ret) (s.adopt ret) := by
  have hstart : (s.adoptStart ret).spared = (s.adopting ret).spared := (congrArg State.spared (adoptStart_same ret s) :)
  have hripple := (derivations_ripple ret s).spared
  have hsame := adopted_same hst ret
  have hfin := (Ripple.finish (s.adopted ret)).spared
  rw [← adopt_eq] at hfin
  generalize s.adopt ret = t at hfin
  generalize s.adopted ret = c at hsame hfin
  generalize (s.adoptStart ret).adoptValves.adoptOwners = b at hripple hsame
  have hc : c.spared = { b.spared with chain := { b.chain with st := .running, streak := 0 } } := (congrArg State.spared hsame :)
  have hb : b.spared = (s.adopting ret).spared := hripple.trans hstart
  refine Spared.ofSpared (hfin.trans (hc.trans ?_))
  exact congrArg (fun u : State => { u with chain := { u.chain with st := .running, streak := 0 } }) hb

theorem adopt_noticed (ret : List Bool) (s : State) : (s.adopt ret).Noticed .chain ∧ (s.adopt ret).scanDue = true := by
  have hchain := setRunning_noticed (s.adoptStart ret).adoptValves.adoptOwners
  have hdue := setRunning_due (s.adoptStart ret).adoptValves.adoptOwners
  have hfin := Ripple.finish (s.adopted ret)
  rw [← adopt_eq] at hfin
  unfold State.adopted at hfin
  generalize (s.adoptStart ret).adoptValves.adoptOwners.setRunning = c at hchain hdue hfin
  exact ⟨hchain.mono (congrArg TableStore.mask hfin.tables) hfin.joins, hfin.due hdue⟩

/-- INPUTS joins where a mapped IN position turns stale (R69). -/
theorem adopt_inputs {s : State} (h : s.InputsFresh) (ret : List Bool) : (s.adopt ret).Noticed .inputs := by
  have hstart : (s.adoptStart ret).Noticed .inputs := by
    have hjoin := State.joinNotice_noticed (s.adopting ret) .inputs
    rw [joinNotice_withNotices] at hjoin
    rw [adoptStart_fresh h]
    exact hjoin
  have hripple := derivations_ripple ret s
  have hkept := setRunning_kept (s.adoptStart ret).adoptValves.adoptOwners
  have hfin := Ripple.finish (s.adopted ret)
  rw [← adopt_eq] at hfin
  unfold State.adopted at hfin
  generalize (s.adoptStart ret).adoptValves.adoptOwners = b at hripple hkept hfin
  obtain ⟨htables, hjoins⟩ := hkept
  generalize b.setRunning = c at htables hjoins hfin
  have hb := hstart.mono (congrArg TableStore.mask hripple.tables) hripple.joins
  have hc : c.Noticed .inputs := hb.mono (congrArg TableStore.mask htables) hjoins
  exact hc.mono (congrArg TableStore.mask hfin.tables) hfin.joins

/-- The service part of an adoption, at the end of its SERVICE frame. -/
theorem acceptedEnd_echoNext (s : State) (f : Frame) (ret : List Bool) : ∃ u : State, s.frameAccepted f ret = u
    ∧ u = s.acceptedEnd f (u.withChain { u.chain with echoNext := true }) := by
  have hend := frameAccepted_eq s f ret
  generalize s.frameAccepted f ret = u at hend
  exact ⟨u, rfl, hend.trans (acceptedEnd_congr s f rfl rfl)⟩

/-- The ECHO frame of an adoption. -/
theorem adoptionEcho {s : State} {f : Frame} {cdi : List Bool} {now : Nat} (h : s.Returns .adoptEcho f cdi true) (hst : s.chain.st = .adopting)
    (hnow : now = max s.clock f.clockEnd) : ∃ t u a : State, exec (.adoptionEchoAccepted cdi) s = .next t ∧ u = s.acceptedEnd f t
      ∧ State.SameButNotices { u with
          chain := { u.chain with adopted := true, echoNext := false }
          image := ⟨s.adoptedImage (f.returned cdi), s.adoptedImage (f.returned cdi), f.returned cdi, s.cardGoodOf (f.returned cdi), false, some now⟩
          flow := Flow.start } a
      ∧ (s.InputsFresh → a.link.notices = s.noticesWith .inputs ∧ t.Noticed .inputs)
      ∧ (¬ s.InputsFresh → a.link.notices = s.link.notices)
      ∧ State.SameButNotices { a.adoptValves.adoptOwners with
          chain := { a.adoptValves.adoptOwners.chain with st := .running, streak := 0 }
          scanDue := true
          sched := { a.adoptValves.adoptOwners.sched with lookDue := true } } a.adoptValves.adoptOwners.setRunning
      ∧ t = a.adoptValves.adoptOwners.setRunning.finish ∧ t.scanDue = true ∧ t.Noticed .chain
      ∧ Spared { u with
          chain := { u.chain with st := .running, streak := 0, adopted := true, echoNext := false }
          image := ⟨s.image.out, s.adoptedImage (f.returned cdi), f.returned cdi, s.cardGoodOf (f.returned cdi), false, some now⟩
          flow := Flow.start } t := by
  have hend := frameAccepted_eq s f (f.returned cdi)
  have hclock : (s.frameAccepted f (f.returned cdi)).clock = now := hnow.symm
  have himage : (s.frameAccepted f (f.returned cdi)).adoptedImage (f.returned cdi) = s.adoptedImage (f.returned cdi) := rfl
  have hgood : (s.frameAccepted f (f.returned cdi)).cardGoodOf (f.returned cdi) = s.cardGoodOf (f.returned cdi) := rfl
  obtain ⟨hout, -, -⟩ := frameAccepted_kept s f (f.returned cdi)
  have hfresh : (s.frameAccepted f (f.returned cdi)).InputsFresh ↔ s.InputsFresh := Iff.rfl
  have hlink : (s.frameAccepted f (f.returned cdi)).link.notices = s.link.notices := rfl
  have hwith : (s.frameAccepted f (f.returned cdi)).noticesWith .inputs = s.noticesWith .inputs := rfl
  have hchain : (s.frameAccepted f (f.returned cdi)).chain.st = .adopting := hst
  refine ⟨_, s.frameAccepted f (f.returned cdi), (s.frameAccepted f (f.returned cdi)).adoptStart (f.returned cdi),
    exec_adoptionEchoAccepted h, ?_⟩
  generalize s.frameAccepted f (f.returned cdi) = u at *
  obtain ⟨hnoticed, hdue⟩ := adopt_noticed (f.returned cdi) u
  have hspared := adopt_spared hchain (f.returned cdi)
  have hinputs := adopt_inputs (s := u) (ret := f.returned cdi)
  have hsame := adoptStart_same (f.returned cdi) u
  have hadopted := adopted_same hchain (f.returned cdi)
  have hfin := adopt_eq (f.returned cdi) u
  unfold State.adoptionSet at hspared
  unfold State.adopting at hsame
  rw [himage, hgood] at hsame hspared
  rw [hout] at hspared
  subst hclock
  refine ⟨?_, hsame, fun hf => ⟨?_, hinputs (hfresh.2 hf)⟩, fun hf => ?_, hadopted, hfin, hdue, hnoticed, hspared⟩
  · exact hend.trans (acceptedEnd_congr s f hspared.ring.symm hspared.freeCount.symm)
  · rw [adoptStart_fresh (hfresh.2 hf), ← hwith]
    rfl
  · rw [adoptStart_stale (mt hfresh.1 hf), ← hlink]
    rfl

/-- Settles O47, by the image and the chain at the ECHO frame, the valves one by one, and the owners one by one. -/
theorem adoptionAccepted : Obligations.AdoptionAccepted := by
  refine ⟨fun s f cdi now hnow => ⟨fun h => ?_, fun h hst => ?_⟩, fun x v r hv hr => ?_, fun x => rfl, fun x y z o ho hy hz => ?_,
    fun x t o ho ht => ?_⟩
  · obtain ⟨u, hu, hend⟩ := acceptedEnd_echoNext s f (f.returned cdi)
    have hex := exec_adoptionServiceAccepted h
    rw [hu] at hex
    exact ⟨u.withChain { u.chain with echoNext := true }, u, hex, hend, rfl⟩
  · obtain ⟨t, u, a, hex, hu, hsame, hfresh, hstale, hran, hfin, hdue, hnoticed, hspared⟩ := adoptionEcho h hst hnow
    exact ⟨t, u, a, _, _, _, hex, hu, rfl, adoptedImage_length s _, fun p hp => adoptedImage_bit hp _, hsame, hfresh, hstale, rfl, hran, hfin,
      hdue, hnoticed, hspared⟩
  · rw [adoptValves_valve hv] at hr
    subst hr
    refine ⟨fun hp => if_neg (by rw [hp]; nofun), fun hp ht => ?_, fun p hp ht => ?_⟩
    · rw [if_pos hp]
      exact derivedValve_parts ht
    · rw [if_pos hp]
      exact derivedValve_driven ht
  · subst hy hz
    have hheld : (x.applyStartHold o).owner o = x.startHeld o := by rw [applyStartHold_eq, setOwner_self ho]
    obtain ⟨hpending, hsettled, hholds, hhost⟩ := deriveOne_flags (x := x) ho
    rw [hheld]
    refine ⟨fun hs hm => ⟨fun hk => ?_, fun hk => ?_⟩, adoptOwner_noValves, fun h => ?_, valvesKnown_iff x o, anyValveFault_iff x o,
      bothAt_iff x o, hpending, hsettled, hholds, hhost, fun hp hh hz hb hw hc => ?_, fun h => ?_, fun b hb hz ha => ?_,
      fun hgo => deriveOne_course ho hgo⟩
    · simp only [List.mem_cons, List.not_mem_nil, or_false, not_or] at hm
      obtain ⟨hu, hn⟩ := hm
      rw [adoptOwner_other hu hn, if_pos ⟨hs, hk⟩]
    · simp only [List.mem_cons, List.not_mem_nil, or_false, not_or] at hm
      obtain ⟨hu, hn⟩ := hm
      rw [adoptOwner_other hu hn, if_neg fun h => absurd (h.2.symm.trans hk) nofun]
    · by_cases hu : (x.owner o).mode = .undefined
      · exact adoptOwner_undefined hu
      · obtain ⟨hs, hn⟩ := h.resolve_left hu
        rw [adoptOwner_other hu hn, if_neg fun h => absurd (h.1.symm.trans hs) nofun]
    · rw [State.startHeld, if_pos (startHoldDue_of hp hh hz hb hw hc)]
      exact ⟨rfl, rfl⟩
    · rw [State.startHeld, if_neg (by rw [startHoldDue_not h]; nofun)]
      exact ⟨rfl, rfl⟩
    · subst hb
      have hstays : (x.deriving (.branch b)).staysInactive (.branch b) = true :=
        staysInactive_branch (by rw [deriving_owner ho]; exact hz) (by rw [(deriving_stir _ x).tables]; exact ha)
      rw [deriveOne_eq, deriveCourse_stays hstays, restOwner_owner ho]
  · subst ht
    have hwide : WellFormed.owner o = true ∧ ∀ b, o ≠ .branch b := by
      rcases ho with rfl | ⟨g, hg, rfl⟩
      · exact ⟨rfl, nofun⟩
      · exact ⟨decide_eq_true hg, nofun⟩
    obtain ⟨hwf, hb⟩ := hwide
    exact checkNoValves_leaves hwf hb

end Sys2Proof.Machine
end

