-- ==== Sys2Proof/Proofs/StartLayer.lean ====
section
/-! The values every start gives (R13, R28, R54, R70, R86, R100, R161, R188), and the cold start (R193), O6. -/

namespace Sys2Proof.Machine

/-! ## Tables -/

theorem table_mapIdx_const {α β : Type} {n : Nat} (f : Nat → β) (s t : Table α n) : s.mapIdx (fun i _ => f i) = t.mapIdx fun i _ => f i := by
  have hs : s.toList.length = t.toList.length := by rw [Vector.length_toList, Vector.length_toList]
  refine Vector.toList_inj.1 ?_
  change s.toList.mapIdx (fun i _ => f i) = t.toList.mapIdx fun i _ => f i
  refine List.ext_getElem (by simp [hs]) fun i h1 h2 => ?_
  simp

theorem table_getD_beyond {α : Type} {n i : Nat} (h : n ≤ i) (t : Table α n) (d : α) : t.getD i d = d := by
  have hlen : t.toList.length = n := Vector.length_toList
  exact List.getD_eq_default _ _ (by omega)

/-! ## What a start cuts off (R54, R191) -/

/-- A frame in flight and a running COMMIT are cut off. -/
def State.cutOff (s : State) : State := s.cutFrame.cutCommit

theorem cutOff_eq (s : State) : s.cutOff = { s with
    ring := s.cutFrame.ring
    freeCount := s.cutFrame.freeCount
    commit := none
    stored := if s.commit.isSome then .spoiled none else s.stored
    copyValid := if s.commit.isSome then false else s.copyValid } := by
  have hcommit : s.cutFrame.commit = s.commit := by rw [State.cutFrame_eq]
  unfold State.cutOff State.cutCommit
  rw [hcommit]
  cases h : s.commit with
  | none =>
    rw [State.cutFrame_eq]
    simp [h]
  | some r =>
    rw [State.cutFrame_eq]
    simp

/-- What the cards make of a frame cut off does not depend on the rest of the part. -/
theorem cutFrame_cards {s t : State} (hf : s.chain.inFlight = t.chain.inFlight) (hr : s.ring = t.ring) (hc : s.freeCount = t.freeCount) :
    s.cutFrame.ring = t.cutFrame.ring ∧ s.cutFrame.freeCount = t.cutFrame.freeCount := by
  unfold State.cutFrame
  rw [hf]
  cases t.chain.inFlight with
  | none => exact ⟨hr, hc⟩
  | some f =>
    constructor
    · simp only [State.ringDisturbed, State.mapRing, State.cardAfterBad, hr, hc]
    · simp only [State.ringDisturbed, State.mapRing, hr, hc]

/-! ## The values a start gives -/

/-- Every block at its start values, the zones as given, the cards fitted to the card table. -/
def State.started (zones : Table ZoneRec 64) (s : State) : State := State.fitRing { s.startBlocks with zones := zones }

theorem ownerAt_index {o : Owner} (ho : WellFormed.owner o = true) : ownerAt o.index = o := by
  obtain ⟨hb, hg⟩ := owner_bounds ho
  cases o with
  | branch b => exact if_pos (hb b rfl)
  | segment g =>
    have := hg g rfl
    change ownerAt (48 + g) = _
    unfold ownerAt
    rw [if_neg (by omega), if_pos (by omega), Nat.add_sub_cancel_left]
  | main => rfl

theorem started_owner {o : Owner} (ho : WellFormed.owner o = true) (zones : Table ZoneRec 64) (s : State) :
    (s.started zones).owner o = s.tables.startOwner o (s.owner o) := by
  have hget := Table.getD_mapIdx (fun i r => s.tables.startOwner (ownerAt i) r) s.owners (OwnerRec.start .undefined true)
    (OwnerRec.start .undefined true) (owner_index_lt ho)
  rw [ownerAt_index ho] at hget
  exact hget

/-- A start keeps the flags and the hold count of every owner's place. -/
theorem started_flags (o : Owner) (zones : Table ZoneRec 64) (s : State) : ((s.started zones).owner o).hostHold = (s.owner o).hostHold
    ∧ ((s.started zones).owner o).holds = (s.owner o).holds ∧ ((s.started zones).owner o).startPending = (s.owner o).startPending := by
  change ((Table.getD (s.owners.mapIdx fun i r => s.tables.startOwner (ownerAt i) r) o.index (OwnerRec.start .undefined true)).hostHold) = _ ∧ _ ∧ _
  by_cases hi : o.index < 53
  · have hget := Table.getD_mapIdx (fun i r => s.tables.startOwner (ownerAt i) r) s.owners (OwnerRec.start .undefined true)
      (OwnerRec.start .undefined true) hi
    have howner : (s.started zones).owner o = s.tables.startOwner (ownerAt o.index) (s.owner o) := hget
    rw [hget, howner]
    exact ⟨rfl, rfl, rfl⟩
  · have hbeyond := table_getD_beyond (by omega : 53 ≤ o.index) (s.owners.mapIdx fun i r => s.tables.startOwner (ownerAt i) r)
      (OwnerRec.start .undefined true)
    have howner : (s.started zones).owner o = OwnerRec.start .undefined true := hbeyond
    have hbefore : s.owner o = OwnerRec.start .undefined true := table_getD_beyond (by omega) s.owners _
    rw [hbeyond, howner, hbefore]
    exact ⟨rfl, rfl, rfl⟩

theorem started_valve {v : Nat} (hv : v < 106) (zones : Table ZoneRec 64) (s : State) : (s.started zones).valve v = s.tables.startValve v :=
  Table.getD_mapIdx (fun v _ => s.tables.startValve v) s.valves (ValveRec.fresh .undefined) _ hv

theorem startMode_branch (t : TableStore) (b : Nat) : t.startMode (.branch b) = if (t.branch b).defined then .inactive else .undefined := rfl

theorem startMode_wide (t : TableStore) {o : Owner} (ho : o = .main ∨ ∃ g < 4, o = .segment g) :
    WellFormed.owner o = true ∧ t.startMode o = if t.hasValves o = true then .opened else .noValves := by
  rcases ho with rfl | ⟨g, hg, rfl⟩
  · exact ⟨rfl, rfl⟩
  · exact ⟨decide_eq_true hg, rfl⟩

theorem chainStart_cards (t : TableStore) : Chain.start (if t.cards.isEmpty then .unconfigured else .adopting) =
    Chain.start (if t.cards = [] then .unconfigured else .adopting) :=
  congrArg Chain.start (if_congr List.isEmpty_iff rfl rfl)

theorem started_startValues {s : State} (hc : s.commit = none) (zones : Table ZoneRec 64) : (s.started zones).StartValues where
  valves v hv := started_valve hv zones s
  branches b hb := by
    rw [started_owner (o := .branch b) (decide_eq_true hb)]
    rfl
  wide o ho := by
    obtain ⟨hwf, hmode⟩ := startMode_wide s.tables ho
    rw [started_owner hwf]
    exact hmode
  steps o ho := by
    rw [started_owner ho]
    exact ⟨rfl, rfl, (startOwner_startsIn s.tables o (s.owner o)).settled⟩
  image := rfl
  scans := ⟨rfl, rfl⟩
  chain := chainStart_cards s.tables
  sched := rfl
  flow := rfl
  link := rfl
  commit := hc

theorem eq_withNotices {s t : State} (h : State.SameButNotices s t) : t = s.withNotices t.link.notices := by
  have hs : s = { t with link := { t.link with notices := s.link.notices } } := Eq.symm h
  rw [hs]
  rfl

/-- The start values do not depend on the notice pending set. -/
theorem startValues_congr {s t : State} (h : State.SameButNotices s t) (hs : s.StartValues) : t.StartValues := by
  obtain ⟨hvalves, hbranches, hwide, hsteps, himage, hscans, hchain, hsched, hflow, hlink, hcommit⟩ := hs
  rw [eq_withNotices h]
  exact ⟨hvalves, hbranches, hwide, hsteps, himage, hscans, hchain, hsched, hflow,
    congrArg (fun l : Link => { l with notices := t.link.notices }) hlink, hcommit⟩

/-! ## The cold start (R193) -/

/-- R193, steps 1 to 3: the store as a cold start loads it, before the blocks take their start values. -/
def State.coldBase (rate : Bool) (s : State) : State := (s.cutOff.coldClear rate).coldLoad

/-- R116: the zones as their records start them. -/
def TableStore.startZones (t : TableStore) (zones : Table ZoneRec 64) : Table ZoneRec 64 := zones.mapIdx fun z _ => (t.zone z).startRec

theorem coldStart_eq (rate : Bool) (s : State) : s.coldStart rate =
    ((s.coldBase rate).started ((s.coldBase rate).tables.startZones (s.coldBase rate).zones)).joinInputsIfStale State.reset := rfl

theorem startZones_zone {s : State} {z : Nat} (hz : z < 64) (t : TableStore) (zones : Table ZoneRec 64) :
    (s.started (t.startZones zones)).zone z = (t.zone z).startRec :=
  Table.getD_mapIdx (fun z _ => (t.zone z).startRec) zones (ZoneRec.fresh .undefined) _ hz

theorem startRec_eq (d : ZoneDef) : d.startRec = ZoneRec.fresh (if d.defined then (if d.enabled then .dry else .off) else .undefined) := by
  unfold ZoneDef.startRec
  cases d.defined <;> rfl

/-- What a cold start loads depends on the stored copy, a running COMMIT and the cards alone. -/
theorem coldBase_started (rate : Bool) (s : State) : (s.coldBase rate).started ((s.coldBase rate).tables.startZones (s.coldBase rate).zones) =
    State.started ((s.coldBase rate).tables.startZones State.reset.zones)
      { State.reset with
        rateHigh := rate
        tables := (s.coldBase rate).tables
        stored := s.cutOff.stored
        copyValid := (s.coldBase rate).copyValid
        commit := s.cutOff.commit
        ring := s.cutOff.ring
        freeCount := s.cutOff.freeCount
        pending := s.pending } := by
  have hpending : s.cutOff.pending = s.pending := by rw [cutOff_eq]
  have hzones : (s.coldBase rate).tables.startZones (s.coldBase rate).zones = (s.coldBase rate).tables.startZones State.reset.zones :=
    table_mapIdx_const _ _ _
  have hvalves : (s.cutOff.valves.mapIdx fun v _ => (s.coldBase rate).tables.startValve v) =
      State.reset.valves.mapIdx fun v _ => (s.coldBase rate).tables.startValve v := table_mapIdx_const _ _ _
  rw [hzones, ← hpending]
  unfold State.started
  have hblocks : ∀ zones : Table ZoneRec 64, ({ (s.coldBase rate).startBlocks with zones := zones } : State) =
      { State.startBlocks { State.reset with
        rateHigh := rate
        tables := (s.coldBase rate).tables
        stored := s.cutOff.stored
        copyValid := (s.coldBase rate).copyValid
        commit := s.cutOff.commit
        ring := s.cutOff.ring
        freeCount := s.cutOff.freeCount
        pending := s.cutOff.pending } with zones := zones } := fun zones =>
    congrArg (fun valves : Table ValveRec 106 => ({ (s.coldBase rate).startBlocks with zones := zones, valves := valves } : State)) hvalves
  rw [hblocks]

theorem coldStart_congr (rate : Bool) {s t : State} (hs : s.stored = t.stored) (hc : s.commit.isSome = t.commit.isSome) (hr : s.ring = t.ring)
    (hf : s.freeCount = t.freeCount) (hi : s.chain.inFlight = t.chain.inFlight) (hp : s.pending = t.pending) :
    s.coldStart rate = t.coldStart rate := by
  obtain ⟨hring, hcount⟩ := cutFrame_cards hi hr hf
  have hs' := cutOff_eq s
  have ht' := cutOff_eq t
  have hstored : s.cutOff.stored = t.cutOff.stored := by rw [hs', ht', hs, hc]
  have hring' : s.cutOff.ring = t.cutOff.ring := by rw [hs', ht']; exact hring
  have hcount' : s.cutOff.freeCount = t.cutOff.freeCount := by rw [hs', ht']; exact hcount
  have hcommit' : s.cutOff.commit = t.cutOff.commit := by rw [hs', ht']
  have htables : (s.coldBase rate).tables = (t.coldBase rate).tables := by
    change s.cutOff.stored.load.getD TableStore.empty = t.cutOff.stored.load.getD TableStore.empty
    rw [hstored]
  have hvalid : (s.coldBase rate).copyValid = (t.coldBase rate).copyValid := by
    change s.cutOff.stored.load.isSome = t.cutOff.stored.load.isSome
    rw [hstored]
  rw [coldStart_eq, coldStart_eq, coldBase_started, coldBase_started, htables, hvalid, hstored, hring', hcount', hcommit', hp]

/-- The table store after a cold start (R193). -/
theorem coldBase_tables (rate : Bool) (s : State) : (∀ T, s.commit = none → s.stored.load = some T →
      (s.coldBase rate).tables = T ∧ (s.coldBase rate).copyValid = true)
    ∧ ((s.commit ≠ none ∨ s.stored.load = none) → (s.coldBase rate).tables = TableStore.empty ∧ (s.coldBase rate).copyValid = false) := by
  have htables : (s.coldBase rate).tables = s.cutOff.stored.load.getD TableStore.empty := rfl
  have hvalid : (s.coldBase rate).copyValid = s.cutOff.stored.load.isSome := rfl
  have hstored : s.cutOff.stored = if s.commit.isSome then .spoiled none else s.stored := by rw [cutOff_eq]
  rw [htables, hvalid, hstored]
  refine ⟨fun T hc hl => ?_, fun h => ?_⟩
  · rw [hc, if_neg (by nofun), hl]
    exact ⟨rfl, rfl⟩
  · cases hc : s.commit with
    | some r => exact ⟨rfl, rfl⟩
    | none =>
      rw [if_neg (by nofun), h.resolve_left fun h => h hc]
      exact ⟨rfl, rfl⟩

/-- What joins at a cold start (R69; log 21). -/
theorem reset_startChanges (t : State) : State.reset.StartChanges t .inputs ↔ ∃ n ≤ 31, ∃ p, t.tables.findPos (· == .inp n) = some p := by
  have hnone : ∀ n, State.reset.tables.findPos (· == .inp n) = none := fun _ => rfl
  constructor
  · rintro ⟨n, hn, a, b, rfl, rfl, h⟩
    rw [hnone] at h
    rcases h with h | ⟨p, q, hp, -⟩
    · refine ⟨n, hn, Option.isSome_iff_exists.1 ?_⟩
      exact Bool.eq_true_of_not_eq_false fun hc => h (Eq.symm hc)
    · cases hp
  · rintro ⟨n, hn, p, hp⟩
    exact ⟨n, hn, _, _, rfl, rfl, .inl (by rw [hnone, hp]; nofun)⟩

theorem coldBase_owner (rate : Bool) (s : State) (o : Owner) : (s.coldBase rate).owner o = OwnerRec.start .undefined true := by
  change Table.getD (Table.fill 53 (OwnerRec.start .undefined true)) o.index (OwnerRec.start .undefined true) = _
  by_cases hi : o.index < 53
  · exact Table.getD_fill _ _ hi
  · exact table_getD_beyond (by omega) _ _

/-- The blocks after a cold start, before INPUTS joins. -/
def State.coldBlocks (rate : Bool) (s : State) : State :=
  (s.coldBase rate).started ((s.coldBase rate).tables.startZones (s.coldBase rate).zones)

/-- The parts of a cold start that no notice touches. -/
structure ColdParts (rate : Bool) (t : State) : Prop where
  clock : t.clock = 0
  lastStart : t.lastStart = .cold
  rateHigh : t.rateHigh = rate
  power : t.power = ⟨false, false, false⟩
  locks : t.locks = ⟨false, false, false⟩
  jobs : ∀ k, t.job k = none
  waitList : t.waitList = []
  flags : ∀ o, (t.owner o).hostHold = false ∧ (t.owner o).holds = 0 ∧ (t.owner o).startPending = true
  zones : ∀ z < 64, t.zone z = ZoneRec.fresh (if (t.tables.zone z).defined then (if (t.tables.zone z).enabled then .dry else .off) else .undefined)
  values : t.StartValues
  active : t.activeJobs = 0
  queues : t.link.rxQueue = [] ∧ t.link.replies = []

theorem coldBlocks_parts (rate : Bool) (s : State) : ColdParts rate (s.coldBlocks rate) where
  clock := rfl
  lastStart := rfl
  rateHigh := rfl
  power := rfl
  locks := rfl
  jobs k := by
    change Table.getD (Table.fill 16 none) k none = none
    by_cases hk : k < 16
    · exact Table.getD_fill _ _ hk
    · exact table_getD_beyond (by omega) _ _
  waitList := rfl
  flags o := by
    obtain ⟨hhost, hholds, hpending⟩ := started_flags o ((s.coldBase rate).tables.startZones (s.coldBase rate).zones) (s.coldBase rate)
    rw [coldBase_owner] at hhost hholds hpending
    exact ⟨hhost, hholds, hpending⟩
  zones z hz := (startZones_zone (s := s.coldBase rate) hz (s.coldBase rate).tables (s.coldBase rate).zones).trans (startRec_eq _)
  values := started_startValues (by
    change s.cutOff.commit = none
    rw [cutOff_eq]) _
  active := rfl
  queues := ⟨rfl, rfl⟩

theorem coldParts_withNotices {rate : Bool} {t : State} (h : ColdParts rate t) (l : List Obj) : ColdParts rate (t.withNotices l) :=
  ⟨h.clock, h.lastStart, h.rateHigh, h.power, h.locks, h.jobs, h.waitList, h.flags, h.zones,
    startValues_congr (withNotices_same l t) h.values, h.active, h.queues⟩

/-- The notice pending set after a cold start (R69, R188; log 21). -/
theorem coldStart_notices (rate : Bool) (s : State) (o : Obj) : o ∈ (s.coldStart rate).link.notices ↔ (s.coldStart rate).tables.mask.on o = true
    ∧ (o = .chain ∨ (o = .inputs ∧ ∃ n ≤ 31, ∃ p, (s.coldStart rate).tables.findPos (· == .inp n) = some p)) := by
  have hjoin : Joined (s.coldBlocks rate) (s.coldStart rate) _ := Joined.join (s.coldBlocks rate)
    (((State.reset.inputsRecord.zip (s.coldBlocks rate).inputsRecord).any fun x => inputTurned x.1 x.2) = true) .inputs
  have hstart : (s.coldBlocks rate).link.notices = if (s.coldBlocks rate).tables.mask.chain then [.chain] else [] := rfl
  rw [hjoin.tables, hjoin.mem, inputs_turned, reset_startChanges, hstart]
  generalize (s.coldBlocks rate).tables = T
  cases hm : T.mask.chain
  · constructor
    · rintro (h | ⟨⟨hin, rfl⟩, hon⟩)
      · cases h
      · exact ⟨hon, .inr ⟨rfl, hin⟩⟩
    · rintro ⟨hon, rfl | ⟨rfl, hin⟩⟩
      · exact absurd (hm.symm.trans hon) nofun
      · exact .inr ⟨⟨hin, rfl⟩, hon⟩
  · constructor
    · rintro (h | ⟨⟨hin, rfl⟩, hon⟩)
      · obtain rfl := List.mem_singleton.1 h
        exact ⟨hm, .inl rfl⟩
      · exact ⟨hon, .inr ⟨rfl, hin⟩⟩
    · rintro ⟨hon, rfl | ⟨rfl, hin⟩⟩
      · exact .inl (List.mem_singleton.2 rfl)
      · exact .inr ⟨⟨hin, rfl⟩, hon⟩

/-- Settles O6, by the start values over the store a cold start loads. -/
theorem coldStartSequence : Obligations.ColdStartSequence := by
  refine ⟨fun rate s => ?_, fun rate s t hs hc hr hf hi hp => congrArg Host.Outcome.next (coldStart_congr rate hs hc hr hf hi hp), ?_, ?_, ?_,
    fun _ => rfl, fun _ => rfl, rfl, rfl, fun g hg => Table.getD_fill _ _ hg, rfl, rfl, fun m hm => Table.getD_fill _ _ hm⟩
  · have hsame : State.SameButNotices (s.coldBlocks rate) (s.coldStart rate) := joinInputsIfStale_same State.reset _
    have hnotices := coldStart_notices rate s
    obtain ⟨hload, hempty⟩ := coldBase_tables rate s
    have hparts := coldParts_withNotices (coldBlocks_parts rate s) (s.coldStart rate).link.notices
    have hstore : (s.coldStart rate).tables = (s.coldBase rate).tables ∧ (s.coldStart rate).copyValid = (s.coldBase rate).copyValid :=
      ⟨(congrArg State.tables hsame :), (congrArg State.copyValid hsame :)⟩
    rw [← eq_withNotices hsame] at hparts
    obtain ⟨htables, hvalid⟩ := hstore
    refine ⟨_, rfl, ?_⟩
    generalize s.coldStart rate = t at *
    generalize s.coldBase rate = b at *
    obtain ⟨hclock, hlast, hrate, hpower, hlocks, hjobs, hwait, hflags, hzones, hvalues, hactive, hrx, hreplies⟩ := hparts
    exact ⟨hclock, hlast, hrate, hpower, hlocks, hjobs, hwait, hflags, fun T hc hl => by rw [htables, hvalid]; exact hload T hc hl,
      fun h => by rw [htables, hvalid]; exact hempty h, hvalues.chain, hvalues.image, hvalues.valves, hzones, hrx, hreplies, hvalues.commit,
      hvalues.sched, hvalues.flow, hvalues, hactive, hnotices⟩
  · rintro st c rfl
    exact ⟨rfl, rfl, rfl, rfl, rfl, rfl, rfl, rfl, rfl, rfl, rfl, rfl, rfl⟩
  · rintro n k i rfl
    exact ⟨rfl, rfl, rfl, rfl, rfl, rfl⟩
  · rintro notices l rfl
    exact ⟨rfl, rfl, rfl, rfl, rfl, rfl, rfl, rfl, rfl, rfl⟩

end Sys2Proof.Machine
end

