-- ==== Sys2Proof/Proofs/RestingOwners.lean ====
section
/-! Owners before their derivation: no evaluation moves them, so jobs raise their hold counts alone (R28, R123). -/

namespace Sys2Proof.Machine

/-- No owner has been derived: none but the UNDEFINED and those in NO_VALVES is settled (R28, R123). -/
def State.Resting (s : State) : Prop := ∀ o, (s.owner o).settled = false ∨ (s.owner o).mode = .undefined ∨ (s.owner o).mode = .noValves

/-- From `s` to `t` hold counts alone change of the owners, where none has been derived. -/
structure Rests (s t : State) : Prop where
  owner : s.Resting → ∀ o, t.owner o = { s.owner o with holds := (t.owner o).holds }

theorem evaluateOne_resting {s : State} (h : s.Resting) (o : Owner) : s.evaluateOne o = s := by
  refine evaluateOne_stands ?_
  rcases h o with h | h | h
  · exact .inl h
  · exact .inr (.inl (by simp [h]))
  · exact .inr (.inl (by simp [h]))

theorem evaluate_resting {s : State} (h : s.Resting) (o : Owner) : s.evaluate o = s := by
  unfold State.evaluate State.ownerOp
  dsimp only
  rw [evaluateOne_resting h]
  exact if_pos rfl

namespace Rests

variable {s t u : State}

theorem refl (s : State) : Rests s s := ⟨fun _ _ => rfl⟩

theorem resting (h : Rests s t) (hs : s.Resting) : t.Resting := fun o => by
  rw [h.owner hs o]
  exact hs o

theorem trans (h : Rests s t) (k : Rests t u) : Rests s u := ⟨fun hs o => by rw [k.owner (h.resting hs) o, h.owner hs o]⟩

theorem ofOwners (h : t.owners = s.owners) : Rests s t := ⟨fun _ o => by
  have howner : t.owner o = s.owner o := by rw [State.owner_eq, State.owner_eq, h]
  rw [howner]⟩

theorem ite {c : Prop} [Decidable c] {a b : State} (h : Rests s a) (k : Rests s b) : Rests s (if c then a else b) := by
  split <;> assumption

theorem foldl {α : Type} {f : State → α → State} (hf : ∀ s a, Rests s (f s a)) (l : List α) : ∀ s : State, Rests s (l.foldl f s) := by
  induction l with
  | nil => exact refl
  | cons a l ih => exact fun s => (hf s a).trans (ih _)

theorem setHolds (s : State) (o : Owner) (n : Nat) : Rests s (s.setOwner o { s.owner o with holds := n }) := ⟨fun _ w => by
  rw [State.owner_setOwner]
  split
  next hw =>
    have hsame : s.owner w = s.owner o := by rw [State.owner_eq, State.owner_eq, hw.1]
    rw [hsame]
  next => rfl⟩

theorem raiseHold (o : Owner) (s : State) : Rests s (s.raiseHold o) := by
  have hset := setHolds s o ((s.owner o).holds + 1)
  refine ⟨fun hs => ?_⟩
  unfold State.raiseHold
  dsimp only
  rw [evaluate_resting (hset.resting hs), ite_self]
  exact hset.owner hs

theorem writeSlot (slot : Nat) (j : Option Job) (s : State) : Rests s ((s.setJob slot j).joinNotice (.job slot)) :=
  ofOwners (by rw [State.joinNotice_eq]; rfl)

theorem rederiveJobs (s : State) : Rests s s.rederiveJobs := by
  have hsame := rederiveJobs_same s
  generalize s.rederiveJobs = t at hsame ⊢
  exact ofOwners (congrArg State.owners hsame :)

theorem escalate (slot i : Nat) (s : State) : Rests s (s.escalate slot i) := by
  unfold State.escalate
  split
  · exact refl s
  · split
    · exact refl s
    · dsimp only
      split
      · exact writeSlot ..
      · split
        · exact writeSlot ..
        · exact (writeSlot ..).trans (raiseHold ..)

theorem escalateLoop (n : Nat) : ∀ s : State, Rests s (Machine.escalateLoop n s) := by
  induction n with
  | zero => exact refl
  | succ n ih =>
    intro s
    unfold Machine.escalateLoop
    split
    · exact refl s
    · exact ((escalate ..).trans (rederiveJobs _)).trans (ih _)

theorem finish (s : State) : Rests s s.finish := by
  obtain ⟨howners, -⟩ := finish_owners_jobs s
  exact ((rederiveJobs s).trans (escalateLoop 512 _)).trans (ofOwners howners)

theorem createJob (slot z : Nat) (s : State) : Rests s (s.createJob slot z) :=
  (writeSlot slot _ s).trans (foldl (fun s o => raiseHold o s) _ _)

theorem handOff (z : Nat) (s : State) : Rests s (s.handOff z) := by
  unfold State.handOff
  split
  · exact refl s
  · split
    · exact createJob ..
    · exact ite (refl s) (ofOwners rfl)

end Rests

theorem startValues_resting {s : State} (h : s.StartValues) : s.Resting := fun o => by
  by_cases hi : o.index < 53
  · have hwf : WellFormed.owner (ownerAt o.index) = true ∧ s.owner o = s.owner (ownerAt o.index) := by
      refine ⟨?_, ?_⟩
      · unfold ownerAt
        split
        next h1 => exact decide_eq_true h1
        next h1 =>
          split
          next h2 => exact decide_eq_true (by simp only [Config.numSegments]; omega)
          next => rfl
      · rw [State.owner_eq, State.owner_eq]
        refine congrArg (fun i => Table.getD s.owners i _) ?_
        unfold ownerAt
        split
        next => rfl
        next h1 =>
          split
          next h2 => simp only [Owner.index] at *; omega
          next h2 => simp only [Owner.index] at *; omega
    obtain ⟨hwf, howner⟩ := hwf
    obtain ⟨-, -, hsettled⟩ := h.steps _ hwf
    rw [howner]
    cases hset : (s.owner (ownerAt o.index)).settled with
    | false => exact .inl rfl
    | true => exact .inr (hsettled.1 hset)
  · have hbeyond : s.owner o = OwnerRec.start .undefined true := table_getD_beyond (by omega) s.owners _
    rw [hbeyond]
    exact .inr (.inl rfl)

end Sys2Proof.Machine
end

