-- ==== Sys2Proof/Proofs/WarmStarts.lean ====
section
/-! Starts that keep retained memory whole (R195, R196), O7. -/

namespace Sys2Proof.Machine

/-! ## The cards at a start (R31, R54) -/

theorem freeBits_length (count n : Nat) : (freeBits count n).length = n := by simp [freeBits]

theorem cardAfterBad_shift (s : State) (k : FrameKind) (c : Nat) (r : CardRegs) : (s.cardAfterBad k c r).shift.length = r.shift.length := by
  have htake : ∀ count : Nat, ((freeBits count (max r.shift.length r.latch.length)).take r.shift.length).length = r.shift.length := fun count => by
    rw [List.length_take, freeBits_length]
    omega
  cases k
  · exact htake _
  · rfl
  · exact htake _

/-- What a start makes of a card whose frame it cuts off. -/
theorem cutFrame_card {s : State} {c : Nat} {r : CardRegs} (h : s.ring[c]? = some r) : ∃ r', s.cutFrame.ring[c]? = some r'
    ∧ r'.shift.length = r.shift.length ∧ (s.chain.inFlight = none → r' = r)
    ∧ ((∀ f, s.chain.inFlight = some f → f.purpose.kind ≠ .scan) → r'.latch = r.latch) := by
  cases hf : s.chain.inFlight with
  | none =>
    rw [State.cutFrame_idle s hf]
    exact ⟨r, h, rfl, fun _ => rfl, fun _ => rfl⟩
  | some f =>
    refine ⟨s.cardAfterBad f.purpose.kind c r, ?_, cardAfterBad_shift .., nofun, fun hk => State.cardAfterBad_latch _ _ _ _ (hk f rfl)⟩
    have hcut : s.cutFrame = s.ringDisturbed f.purpose.kind := by
      unfold State.cutFrame
      rw [hf]
    rw [hcut, State.ringDisturbed, State.mapRing_getElem?, h]
    rfl

theorem cutOff_ring (s : State) : s.cutOff.ring = s.cutFrame.ring := by rw [cutOff_eq]

/-- A card of the table at a start from `s` (R31, R54). -/
theorem started_card {s b : State} (hb : b.ring = s.cutFrame.ring) {c : Nat} {r : CardRegs} (h : s.ring[c]? = some r)
    (hw : b.tables.cards[c]? = some r.shift.length) (zones : Table ZoneRec 64) : ∃ r', (b.started zones).ring[c]? = some r'
      ∧ (s.chain.inFlight = none → r' = r) ∧ ((∀ f, s.chain.inFlight = some f → f.purpose.kind ≠ .scan) → r'.latch = r.latch) := by
  obtain ⟨r', hr', hlen, hidle, hlatch⟩ := cutFrame_card h
  refine ⟨r', ?_, hidle, hlatch⟩
  exact State.fitRing_kept { b.startBlocks with zones := zones } c r' ((congrArg (·[c]?) hb).trans hr') (by rw [hlen]; exact hw)

/-- The latches at a start from `s` that cuts no SCAN off (R31). -/
theorem started_latches {s b : State} (hb : b.ring = s.cutFrame.ring) (hk : ∀ f, s.chain.inFlight = some f → f.purpose.kind ≠ .scan)
    (zones : Table ZoneRec 64) : s.LatchesHeld (b.started zones) := by
  intro c r h
  obtain ⟨r', hr', -, -, hlatch⟩ := cutFrame_card h
  obtain ⟨r'', hr'', hbits⟩ := State.fitRing_latch { b.startBlocks with zones := zones } c r' ((congrArg (·[c]?) hb).trans hr')
  rw [hlatch hk] at hbits
  exact ⟨r'', hr'', hbits⟩

/-! ## The zones (R117) -/

theorem warmZones_zone (b : State) (z : Nat) : (b.started (b.zones.mapIdx fun _ r => r.warm)).zone z = (b.zone z).warm := by
  by_cases hz : z < 64
  · exact Table.getD_mapIdx (fun _ r => r.warm) b.zones (ZoneRec.fresh .undefined) _ hz
  · have hbefore : b.zone z = ZoneRec.fresh .undefined := table_getD_beyond (by omega) b.zones _
    rw [hbefore]
    exact table_getD_beyond (by omega) _ _

theorem warm_kept {r : ZoneRec} (h : r.st = .wet ∨ r.st = .acked) : r.warm = { r with wet := 0, dry := 0 } := by
  unfold ZoneRec.warm
  rcases h with h | h <;> rw [h]

theorem warm_suspect {r : ZoneRec} (h : r.st = .suspect) : r.warm = ZoneRec.fresh .dry := by
  unfold ZoneRec.warm
  rw [h]

theorem warm_quiet {r : ZoneRec} (h : r.st = .dry ∨ r.st = .off ∨ r.st = .undefined) : r.warm = ZoneRec.fresh r.st := by
  unfold ZoneRec.warm
  rcases h with h | h | h <;> rw [h]

/-! ## A start with retained memory kept whole -/

/-- Retained memory at the start, a frame and a COMMIT cut off. -/
def State.warmBase (kind : StartKind) (rate : Bool) (s : State) : State := { s.cutOff with lastStart := kind, rateHigh := rate }

/-- The blocks after the start, before what it changed joins. -/
def State.warmBlocks (kind : StartKind) (rate : Bool) (s : State) : State :=
  (s.warmBase kind rate).started ((s.warmBase kind rate).zones.mapIdx fun _ r => r.warm)

/-- The state a start leaves, before its consequences. -/
def State.warmed (kind : StartKind) (rate : Bool) (s : State) : State := (s.warmBlocks kind rate).joinStartNotices s

theorem warmStart_eq (kind : StartKind) (rate : Bool) (s : State) : s.warmStart kind rate = (s.warmed kind rate).finish := rfl

/-- What a start keeps of retained memory, and what it gives the rest. -/
structure WarmParts (kind : StartKind) (rate : Bool) (s u : State) : Prop where
  power : u.power = s.power
  lastStart : u.lastStart = kind
  rateHigh : u.rateHigh = rate
  clock : u.clock = s.clock
  tables : u.tables = s.tables
  locks : u.locks = s.locks
  jobs : u.jobs = s.jobs
  waitList : u.waitList = s.waitList
  flags : ∀ o, (u.owner o).hostHold = (s.owner o).hostHold ∧ (u.owner o).holds = (s.owner o).holds
    ∧ (u.owner o).startPending = (s.owner o).startPending
  values : u.StartValues
  restart : u.link.restart = .none
  copyKept : s.commit = none → u.copyValid = s.copyValid ∧ u.stored = s.stored
  copySpoilt : s.commit ≠ none → u.copyValid = false ∧ u.stored.load = none
  zones : ∀ z, u.zone z = (s.zone z).warm
  cards : ∀ (c : Nat) (r : CardRegs), s.ring[c]? = some r → s.tables.cards[c]? = some r.shift.length → ∃ r', u.ring[c]? = some r'
    ∧ (s.chain.inFlight = none → r' = r) ∧ ((∀ f, s.chain.inFlight = some f → f.purpose.kind ≠ .scan) → r'.latch = r.latch)
  latches : (∀ f, s.chain.inFlight = some f → f.purpose.kind ≠ .scan) → s.LatchesHeld u

/-- The copy after a COMMIT that a start cuts off (R191). -/
theorem cutOff_copy (s : State) : (s.commit = none → s.cutOff.copyValid = s.copyValid ∧ s.cutOff.stored = s.stored)
    ∧ (s.commit ≠ none → s.cutOff.copyValid = false ∧ s.cutOff.stored.load = none) := by
  rw [cutOff_eq]
  refine ⟨fun h => ?_, fun h => ?_⟩
  · rw [h]
    exact ⟨rfl, rfl⟩
  · obtain ⟨r, hr⟩ := Option.ne_none_iff_exists'.1 h
    rw [hr]
    exact ⟨rfl, rfl⟩

theorem warmBlocks_parts (kind : StartKind) (rate : Bool) (s : State) : WarmParts kind rate s (s.warmBlocks kind rate) := by
  have hcut := cutOff_eq s
  have hcopy := cutOff_copy s
  have hring := cutOff_ring s
  have hpower : s.cutOff.power = s.power := by rw [hcut]
  have hclock : s.cutOff.clock = s.clock := by rw [hcut]
  have htables : s.cutOff.tables = s.tables := by rw [hcut]
  have hlocks : s.cutOff.locks = s.locks := by rw [hcut]
  have hjobs : s.cutOff.jobs = s.jobs := by rw [hcut]
  have hwait : s.cutOff.waitList = s.waitList := by rw [hcut]
  have howner : ∀ o, s.cutOff.owner o = s.owner o := fun o => by rw [hcut]; rfl
  have hcommit : s.cutOff.commit = none := by rw [hcut]
  have hzone : ∀ z, s.cutOff.zone z = s.zone z := fun z => by rw [hcut]; rfl
  have hwarm := warmZones_zone (s.warmBase kind rate)
  have hflags := fun o => started_flags o ((s.warmBase kind rate).zones.mapIdx fun _ r => r.warm) (s.warmBase kind rate)
  have hvalues := started_startValues (s := s.warmBase kind rate) hcommit ((s.warmBase kind rate).zones.mapIdx fun _ r => r.warm)
  exact {
    power := hpower
    lastStart := rfl
    rateHigh := rfl
    clock := hclock
    tables := htables
    locks := hlocks
    jobs := hjobs
    waitList := hwait
    flags := fun o => by
      rw [← howner o]
      exact hflags o
    values := hvalues
    restart := rfl
    copyKept := hcopy.1
    copySpoilt := hcopy.2
    zones := fun z => by
      rw [← hzone z]
      exact hwarm z
    cards := fun c r h hw => started_card (b := s.warmBase kind rate) hring h (by rw [← hw]; exact congrArg (·.cards[c]?) htables) _
    latches := fun hk => started_latches (b := s.warmBase kind rate) hring hk _ }

theorem warmParts_withNotices {kind : StartKind} {rate : Bool} {s u : State} (h : WarmParts kind rate s u) (l : List Obj) :
    WarmParts kind rate s (u.withNotices l) :=
  ⟨h.power, h.lastStart, h.rateHigh, h.clock, h.tables, h.locks, h.jobs, h.waitList, h.flags, startValues_congr (withNotices_same l u) h.values,
    h.restart, h.copyKept, h.copySpoilt, h.zones, h.cards, h.latches⟩

theorem warmed_parts (kind : StartKind) (rate : Bool) (s : State) : WarmParts kind rate s (s.warmed kind rate)
    ∧ ∀ o, o ∈ (s.warmed kind rate).link.notices ↔ s.tables.mask.on o = true ∧ s.StartChanges (s.warmed kind rate) o := by
  have hblocks := warmBlocks_parts kind rate s
  have hsame := (joinStartNotices_joined s (s.warmBlocks kind rate)).same
  have hparts := warmParts_withNotices hblocks ((s.warmBlocks kind rate).joinStartNotices s).link.notices
  rw [← eq_withNotices hsame] at hparts
  refine ⟨hparts, fun o => ?_⟩
  have hnotices := mem_startNotices (s := s) (t := s.warmBlocks kind rate) rfl o
  rw [hblocks.tables] at hnotices
  exact hnotices

/-! ## WARM_START -/

theorem haltedBy_exec {cause : WarmCause} {s : State} (hh : s.power.haltedBy cause = true) (hr : (s.power.after cause).running = true)
    (rate : Bool) : exec (.warmStart cause rate) s = .next (State.warmStart .warm rate { s with power := s.power.after cause }) := by
  have hexec : exec (.warmStart cause rate) s = .next (if s.power.haltedBy cause then
      (if (s.power.after cause).running then State.warmStart .warm rate { s with power := s.power.after cause }
        else { s with power := s.power.after cause }) else s) := rfl
  rw [hexec, if_pos hh, if_pos hr]

/-- Settles O7, by the start values over retained memory. -/
theorem warmStartKeepsRetained : Obligations.WarmStartKeepsRetained := by
  intro cause rate s hh hr
  obtain ⟨hparts, hnotices⟩ := warmed_parts .warm rate { s with power := s.power.after cause }
  have hfin := Settles.finish (State.warmed .warm rate { s with power := s.power.after cause })
  have hexec := haltedBy_exec hh hr rate
  rw [warmStart_eq] at hexec
  refine ⟨_, _, hexec, rfl, ?_⟩
  generalize State.warmed .warm rate { s with power := s.power.after cause } = u at hparts hnotices hfin ⊢
  generalize u.finish = t at hfin
  obtain ⟨hpower, hlast, hrate, hclock, htables, hlocks, hjobs, hwait, hflags, hvalues, -, hkept, hspoilt, hzones, hcards, -⟩ := hparts
  refine ⟨hpower, hlast, hrate, hclock, htables, hlocks, hjobs, hwait, fun o ho => ?_, ?_, ?_, ?_, ?_, hvalues.scans.1, hvalues.scans.2,
    hvalues.sched, hvalues.flow, hvalues.commit, hvalues.link, hnotices, ?_, hkept, hspoilt, fun z hz => ?_, fun z hz => ?_, hcards,
    hfin.toSpared, hfin.zones, hfin.waitList.trans hwait, fun k => ?_, fun o => ?_⟩
  · obtain ⟨hhost, hholds, hpending⟩ := hflags o
    obtain ⟨hstep, hphase, -⟩ := hvalues.steps o ho
    exact ⟨hholds, hhost, hpending, hstep, hphase⟩
  · rw [← show u.tables = s.tables from htables]
    exact hvalues.branches
  · rw [← show u.tables = s.tables from htables]
    exact hvalues.wide
  · rw [← show u.tables = s.tables from htables]
    exact hvalues.valves
  · rw [← show u.tables = s.tables from htables]
    exact hvalues.image
  · rw [← show u.tables = s.tables from htables]
    exact hvalues.chain
  · rw [hzones z]
    exact warm_kept hz
  · rw [hzones z]
    exact warm_suspect hz
  · have hjob : u.job k = s.job k := by rw [State.job, hjobs]; rfl
    rw [hfin.jobs k, hjob]
  · obtain ⟨-, hhost, hpending, -⟩ := hfin.flags o
    exact ⟨hhost, hpending⟩

end Sys2Proof.Machine
end

