-- ==== Sys2Proof/Proofs/SoftStarts.lean ====
section
/-! The soft start by its scope (R118, R196), O8. -/

namespace Sys2Proof.Machine

/-! ## Scope RUNTIME -/

theorem startValues_still {u : State} (h : u.StartValues) : u.chain.st ≠ .running := by
  rw [h.chain]
  intro hc
  have hst : (if u.tables.cards = [] then ChainState.unconfigured else .adopting) = .running := hc
  split at hst <;> cases hst

/-- The consequences of a start leave the valves and the course of every owner (R28, R54). -/
structure StartSettles (u t : State) : Prop extends Settles u t where
  valves : t.valves = u.valves
  mode : ∀ o, (t.owner o).mode = (u.owner o).mode

theorem finish_startSettles {u : State} (hrest : u.Resting) (hst : u.chain.st ≠ .running) : StartSettles u u.finish where
  toSettles := Settles.finish u
  valves := finish_valves hst
  mode o := by rw [(Rests.finish u).owner hrest o]

theorem latchesHeld_congr {s t u : State} (h : s.LatchesHeld t) (hr : u.ring = t.ring) : s.LatchesHeld u := fun c r hc => by
  rw [hr]
  exact h c r hc

theorem exec_softStart {s : State} (hr : s.power.running = true) (rate : Bool) :
    (s.link.restart = .sending .runtime →
      exec (.softStart rate) s = .next (State.warmStart .restartRuntime rate (s.advanceTo s.txEnd)))
    ∧ (s.link.restart = .sending .tables → exec (.softStart rate) s = .next (State.tablesStart rate (s.advanceTo s.txEnd))) := by
  constructor
  · intro h
    change Host.Outcome.next (s.whenRunning _) = _
    rw [whenRunning_of hr, h]
  · intro h
    change Host.Outcome.next (s.whenRunning _) = _
    rw [whenRunning_of hr, h]

/-! ## Scope TABLES: the state before the zones kept WET are handed over -/

/-- Retained memory with the table store reloaded, and the holds of the branches the reload leaves UNDEFINED taken off. -/
def State.reloadBase (rate : Bool) (s : State) : State :=
  let t0 := State.reloadTables { s.cutOff with lastStart := .restartTables, rateHigh := rate }
  { t0 with owners := t0.owners.mapIdx fun i r => t0.tables.keptHolds (ownerAt i) r }

/-- The zones by their records before and after the reload (R118). -/
def State.reloadZones (before : TableStore) (b : State) : Table ZoneRec 64 :=
  b.zones.mapIdx fun z r => r.reloaded (before.zone z) (b.tables.zone z)

/-- The state before the hand-offs. -/
def State.reloadedBlocks (rate : Bool) (s : State) : State :=
  (s.reloadBase rate).started ((s.reloadBase rate).reloadZones s.tables)

def State.reloadStart (rate : Bool) (s : State) : State := (s.reloadedBlocks rate).joinStartNotices s

theorem tablesStart_eq (rate : Bool) (s : State) : s.tablesStart rate =
    (zoneNumbers.foldl (fun t z => State.handKept z s t) (s.reloadStart rate)).finish := rfl

theorem reloadBase_owner {o : Owner} (ho : WellFormed.owner o = true) (rate : Bool) (s : State) :
    (s.reloadBase rate).owner o = (s.reloadBase rate).tables.keptHolds o (s.cutOff.owner o) := by
  have hget := Table.getD_mapIdx (fun i r => (s.reloadBase rate).tables.keptHolds (ownerAt i) r) s.cutOff.owners
    (OwnerRec.start .undefined true) (OwnerRec.start .undefined true) (owner_index_lt ho)
  rw [ownerAt_index ho] at hget
  exact hget

theorem keptHolds_kept (t : TableStore) {o : Owner} (h : ∀ b, o = .branch b → (t.branch b).defined = true) (r : OwnerRec) : t.keptHolds o r = r := by
  cases o with
  | branch b => exact if_pos (h b rfl)
  | segment g => rfl
  | main => rfl

theorem keptHolds_dropped {t : TableStore} {b : Nat} (h : (t.branch b).defined = false) (r : OwnerRec) :
    t.keptHolds (.branch b) r = { r with hostHold := false, holds := 0 } := if_neg (by rw [h]; nofun)

theorem keptHolds_pending (t : TableStore) (o : Owner) (r : OwnerRec) : (t.keptHolds o r).startPending = r.startPending := by
  unfold TableStore.keptHolds
  cases o with
  | branch b => dsimp only; split <;> rfl
  | segment g => rfl
  | main => rfl

theorem reloaded_eq (before after : ZoneDef) (r : ZoneRec) : r.reloaded before after =
    if (r.st = .wet ∨ r.st = .acked) ∧ after.defined = true ∧ after.enabled = true ∧ after.kind = before.kind then { r with wet := 0, dry := 0 }
    else ZoneRec.fresh (if after.defined then (if after.enabled then .dry else .off) else .undefined) := by
  unfold ZoneRec.reloaded
  rw [startRec_eq]

/-- What a reload keeps of retained memory, and what it gives the rest. -/
structure ReloadParts (rate : Bool) (s x : State) : Prop where
  lastStart : x.lastStart = .restartTables
  rateHigh : x.rateHigh = rate
  clock : x.clock = s.clock
  locks : x.locks = s.locks
  jobs : x.jobs = s.jobs
  waitList : x.waitList = s.waitList
  loaded : ∀ T, s.commit = none → s.stored.load = some T → x.tables = T ∧ x.copyValid = true
  retained : s.commit ≠ none ∨ s.stored.load = none → x.tables = s.tables ∧ x.copyValid = false
  owners : ∀ o, WellFormed.owner o = true →
    ((∀ b, o = .branch b → (x.tables.branch b).defined = true) →
      (x.owner o).holds = (s.owner o).holds ∧ (x.owner o).hostHold = (s.owner o).hostHold)
    ∧ (∀ b, o = .branch b → (x.tables.branch b).defined = false → (x.owner o).holds = 0 ∧ (x.owner o).hostHold = false)
    ∧ (x.owner o).startPending = (s.owner o).startPending
  values : x.StartValues
  restart : x.link.restart = .none
  zones : ∀ z ≤ 63, x.zone z = (s.zone z).reloaded (s.tables.zone z) (x.tables.zone z)
  latches : (∀ f, s.chain.inFlight = some f → f.purpose.kind ≠ .scan) → s.LatchesHeld x

/-- The table store after a reload (R191, R196). -/
theorem reloadBase_tables (rate : Bool) (s : State) : (∀ T, s.commit = none → s.stored.load = some T →
      (s.reloadBase rate).tables = T ∧ (s.reloadBase rate).copyValid = true)
    ∧ ((s.commit ≠ none ∨ s.stored.load = none) → (s.reloadBase rate).tables = s.tables ∧ (s.reloadBase rate).copyValid = false) := by
  have htables : (s.reloadBase rate).tables = s.cutOff.stored.load.getD s.cutOff.tables := rfl
  have hvalid : (s.reloadBase rate).copyValid = s.cutOff.stored.load.isSome := rfl
  have hstored : s.cutOff.stored = if s.commit.isSome then .spoiled none else s.stored := by rw [cutOff_eq]
  have hbefore : s.cutOff.tables = s.tables := by rw [cutOff_eq]
  rw [htables, hvalid, hstored, hbefore]
  refine ⟨fun T hc hl => ?_, fun h => ?_⟩
  · rw [hc, if_neg (by nofun), hl]
    exact ⟨rfl, rfl⟩
  · cases hc : s.commit with
    | some r => exact ⟨rfl, rfl⟩
    | none =>
      rw [if_neg (by nofun), h.resolve_left fun h => h hc]
      exact ⟨rfl, rfl⟩

theorem reloadedBlocks_parts (rate : Bool) (s : State) : ReloadParts rate s (s.reloadedBlocks rate) := by
  have hcut := cutOff_eq s
  have hring := cutOff_ring s
  have hclock : s.cutOff.clock = s.clock := by rw [hcut]
  have hlocks : s.cutOff.locks = s.locks := by rw [hcut]
  have hjobs : s.cutOff.jobs = s.jobs := by rw [hcut]
  have hwait : s.cutOff.waitList = s.waitList := by rw [hcut]
  have howner : ∀ o, s.cutOff.owner o = s.owner o := fun o => by rw [hcut]; rfl
  have hcommit : s.cutOff.commit = none := by rw [hcut]
  have hzone : ∀ z, s.cutOff.zone z = s.zone z := fun z => by rw [hcut]; rfl
  have hbase := fun o (ho : WellFormed.owner o = true) => reloadBase_owner ho rate s
  have hflags := fun o => started_flags o ((s.reloadBase rate).reloadZones s.tables) (s.reloadBase rate)
  have hvalues := started_startValues (s := s.reloadBase rate) hcommit ((s.reloadBase rate).reloadZones s.tables)
  obtain ⟨hload, hkeep⟩ := reloadBase_tables rate s
  exact {
    lastStart := rfl
    rateHigh := rfl
    clock := hclock
    locks := hlocks
    jobs := hjobs
    waitList := hwait
    loaded := hload
    retained := hkeep
    owners := fun o ho => by
      obtain ⟨hhost, hholds, hpending⟩ := hflags o
      rw [hbase o ho, howner o] at hhost hholds hpending
      refine ⟨fun hdef => ?_, fun b hb hdef => ?_, hpending.trans (keptHolds_pending ..)⟩
      · rw [keptHolds_kept (s.reloadBase rate).tables hdef] at hhost hholds
        exact ⟨hholds, hhost⟩
      · subst hb
        rw [keptHolds_dropped (t := (s.reloadBase rate).tables) hdef] at hhost hholds
        exact ⟨hholds, hhost⟩
    values := hvalues
    restart := rfl
    zones := fun z hz => by
      have hlt : z < 64 := by omega
      rw [← hzone z]
      exact Table.getD_mapIdx (fun z r => r.reloaded (s.tables.zone z) ((s.reloadBase rate).tables.zone z)) s.cutOff.zones
        (ZoneRec.fresh .undefined) _ hlt
    latches := fun hk => started_latches (b := s.reloadBase rate) hring hk _ }

theorem reloadParts_withNotices {rate : Bool} {s x : State} (h : ReloadParts rate s x) (l : List Obj) : ReloadParts rate s (x.withNotices l) :=
  ⟨h.lastStart, h.rateHigh, h.clock, h.locks, h.jobs, h.waitList, h.loaded, h.retained, h.owners,
    startValues_congr (withNotices_same l x) h.values, h.restart, h.zones, h.latches⟩

theorem reloadStart_parts (rate : Bool) (s : State) : ReloadParts rate s (s.reloadStart rate)
    ∧ ∀ o, o ∈ (s.reloadStart rate).link.notices ↔ (s.reloadStart rate).tables.mask.on o = true ∧ s.StartChanges (s.reloadStart rate) o := by
  have hjoined := joinStartNotices_joined s (s.reloadedBlocks rate)
  have hparts := reloadParts_withNotices (reloadedBlocks_parts rate s) ((s.reloadedBlocks rate).joinStartNotices s).link.notices
  rw [← eq_withNotices hjoined.same] at hparts
  refine ⟨hparts, fun o => ?_⟩
  have hnotices := mem_startNotices (s := s) (t := s.reloadedBlocks rate) rfl o
  have htables : (s.reloadStart rate).tables = (s.reloadedBlocks rate).tables := hjoined.tables
  rw [htables]
  exact hnotices

/-! ## The zones kept WET are handed over (R118) -/

/-- R118: a zone kept WET that is to be handed over. -/
def State.keptWet (before x : State) (z : Nat) : Prop :=
  (before.zone z).st = .wet ∧ (x.zone z).st = .wet ∧ (x.tables.zone z).auto = true ∧ x.tables.plan z ≠ []

theorem handKept_eq (z : Nat) (before s : State) : State.handKept z before s =
    if (before.zone z).st = .wet ∧ (s.zone z).st = .wet ∧ (s.tables.zone z).auto = true ∧ s.tables.plan z ≠ [] then s.handOff z else s := rfl

/-- From `x` to `y` the zones of `l` that were kept WET have been handed over. -/
structure HandedOver (before x y : State) (l : List Nat) : Prop extends Ripple x y where
  valves : y.valves = x.valves
  zones : y.zones = x.zones
  rests : Rests x y
  kept : ∀ k j, x.job k = some j → y.job k = some j
  waits : ∀ z ∈ x.waitList, z ∈ y.waitList
  created : ∀ k j, x.job k = none → y.job k = some j → State.keptWet before x j.zone ∧ j.created = x.ms
  handed : ∀ z ∈ l, State.keptWet before x z → (∃ k j, y.job k = some j ∧ j.zone = z) ∨ z ∈ y.waitList

theorem keptWet_congr {before x y : State} (hz : y.zones = x.zones) (ht : y.tables = x.tables) (z : Nat) :
    State.keptWet before y z ↔ State.keptWet before x z := by
  have hzone : y.zone z = x.zone z := by rw [State.zone, hz]; rfl
  unfold State.keptWet
  rw [hzone, ht]

namespace HandedOver

variable {before x y w : State}

theorem nothing (before x : State) : HandedOver before x x [] where
  toRipple := Ripple.refl x
  valves := rfl
  zones := rfl
  rests := Rests.refl x
  kept _ _ h := h
  waits _ h := h
  created k j h h' := by rw [h] at h'; cases h'
  handed _ h := absurd h List.not_mem_nil

theorem trans {l m : List Nat} (h : HandedOver before x y l) (k : HandedOver before y w m) : HandedOver before x w (l ++ m) where
  toRipple := h.toRipple.trans k.toRipple
  valves := k.valves.trans h.valves
  zones := k.zones.trans h.zones
  rests := h.rests.trans k.rests
  kept i j hj := k.kept i j (h.kept i j hj)
  waits z hz := k.waits z (h.waits z hz)
  created i j hx hw := by
    cases hy : y.job i with
    | none =>
      obtain ⟨hwet, hcr⟩ := k.created i j hy hw
      exact ⟨(keptWet_congr h.zones h.tables _).1 hwet, hcr.trans h.ms⟩
    | some j' =>
      have hsame := (k.kept i j' hy).symm.trans hw
      obtain rfl := Option.some.inj hsame
      exact h.created i j' hx hy
  handed z hz hwet := by
    rcases List.mem_append.1 hz with hz | hz
    · rcases h.handed z hz hwet with ⟨i, j, hj, hjz⟩ | hwait
      · exact .inl ⟨i, j, k.kept i j hj, hjz⟩
      · exact .inr (k.waits z hwait)
    · exact k.handed z hz ((keptWet_congr h.zones h.tables z).2 hwet)

/-- One zone's turn. -/
theorem turn (before : State) (z : Nat) (x : State) : HandedOver before x (State.handKept z before x) [z] := by
  rw [handKept_eq]
  by_cases hwet : State.keptWet before x z
  · have hwet' := hwet
    unfold State.keptWet at hwet'
    rw [if_pos hwet']
    have hripple := Ripple.handOff z x
    have hrests := Rests.handOff z x
    have hvalves := handOff_valves z x
    have hzones := handOff_zones z x
    have hkw : ∀ y ∈ [z], y = z := fun y hy => List.mem_singleton.1 hy
    cases hs : x.jobSlotOf z with
    | some k =>
      rw [handOff_kept hs] at hripple hrests hvalves hzones ⊢
      obtain ⟨-, j, hj, hjz⟩ := jobSlotOf_some hs
      exact ⟨hripple, hvalves, hzones, hrests, fun _ _ h => h, fun _ h => h, fun i j h h' => absurd (h.symm.trans h') nofun,
        fun y hy _ => .inl ⟨k, j, hj, hjz.trans (hkw y hy).symm⟩⟩
    | none =>
      cases hf : x.freeSlot with
      | some k =>
        obtain ⟨hk, hfree, -⟩ := freeSlot_some hf
        rw [handOff_created hs hf] at hripple hrests hvalves hzones ⊢
        have hjobs := createJob_jobs k z x
        have hwait := createJob_waitList k z x
        have hjob : ∀ i, (x.createJob k z).job i = if k = i ∧ k < 16 then some ⟨z, x.ms, (x.tables.plan z).map fun o =>
            ⟨o, none, .absent, .waiting⟩, .active⟩ else x.job i := fun i => by
          rw [State.job, hjobs]
          exact Table.getD_put ..
        generalize x.createJob k z = y at *
        refine ⟨hripple, hvalves, hzones, hrests, fun i j h => ?_, fun w hw => by rw [hwait]; exact hw, fun i j h h' => ?_, fun w hw _ => ?_⟩
        · rw [hjob i, if_neg fun hc => by rw [← hc.1, hfree] at h; cases h]
          exact h
        · rw [hjob i] at h'
          split at h'
          next hc =>
            obtain rfl := Option.some.inj h'
            exact ⟨hwet, rfl⟩
          next => exact absurd (h.symm.trans h') nofun
        · exact .inl ⟨k, _, (hjob k).trans (if_pos ⟨rfl, by omega⟩), (hkw w hw).symm⟩
      | none =>
        rw [handOff_waits hs hf] at hripple hrests hvalves hzones ⊢
        refine ⟨hripple, hvalves, hzones, hrests, fun _ _ h => h, fun w hw => ?_, fun i j h h' => absurd (Eq.trans (Eq.symm h) h') nofun,
          fun w hw _ => .inr ?_⟩
        · dsimp only
          split
          next => exact hw
          next => exact List.mem_append_left _ hw
        · rw [hkw w hw]
          dsimp only
          split
          next h => exact h
          next => exact List.mem_append_right _ (List.mem_singleton.2 rfl)
  · have hwet' := hwet
    unfold State.keptWet at hwet'
    rw [if_neg hwet']
    have h := nothing before x
    exact ⟨h.toRipple, h.valves, h.zones, h.rests, h.kept, h.waits, h.created, fun y hy hy' => by
      rw [List.mem_singleton.1 hy] at hy'
      exact absurd hy' hwet⟩

theorem all (before : State) (l : List Nat) : ∀ x : State, HandedOver before x (l.foldl (fun t z => State.handKept z before t) x) l := by
  induction l with
  | nil => exact nothing before
  | cons z l ih => exact fun x => (turn before z x).trans (ih _)

end HandedOver

/-! ## The soft start -/

theorem softStart_runtime {rate : Bool} {s : State} (hr : s.power.running = true) (h : s.link.restart = .sending .runtime) :
    ∃ u : State, exec (.softStart rate) s = .next u.finish ∧ WarmParts .restartRuntime rate (s.advanceTo s.txEnd) u
      ∧ (∀ o, o ∈ u.link.notices ↔ s.tables.mask.on o = true ∧ (s.advanceTo s.txEnd).StartChanges u o) ∧ StartSettles u u.finish := by
  obtain ⟨hexec, -⟩ := exec_softStart hr rate
  obtain ⟨hparts, hnotices⟩ := warmed_parts .restartRuntime rate (s.advanceTo s.txEnd)
  exact ⟨_, hexec h, hparts, hnotices, finish_startSettles (startValues_resting hparts.values) (startValues_still hparts.values)⟩

theorem softStart_tables {rate : Bool} {s : State} (hr : s.power.running = true) (h : s.link.restart = .sending .tables) :
    ∃ u x : State, exec (.softStart rate) s = .next u.finish ∧ u = zoneNumbers.foldl (fun t z => State.handKept z (s.advanceTo s.txEnd) t) x
      ∧ ReloadParts rate (s.advanceTo s.txEnd) x
      ∧ (∀ o, o ∈ x.link.notices ↔ x.tables.mask.on o = true ∧ (s.advanceTo s.txEnd).StartChanges x o)
      ∧ HandedOver (s.advanceTo s.txEnd) x u zoneNumbers ∧ StartSettles u u.finish := by
  obtain ⟨-, hexec⟩ := exec_softStart hr rate
  obtain ⟨hparts, hnotices⟩ := reloadStart_parts rate (s.advanceTo s.txEnd)
  have hhanded := HandedOver.all (s.advanceTo s.txEnd) zoneNumbers ((s.advanceTo s.txEnd).reloadStart rate)
  have hexec' := (hexec h).trans (congrArg Host.Outcome.next (tablesStart_eq rate (s.advanceTo s.txEnd)))
  refine ⟨_, _, hexec', rfl, hparts, hnotices, hhanded, finish_startSettles ?_ ?_⟩
  · exact hhanded.rests.resting (startValues_resting hparts.values)
  · rw [hhanded.chain]
    exact startValues_still hparts.values

/-- Settles O8, by the start values over the store each scope leaves, and the zones handed over in turn. -/
theorem softStartByScope : Obligations.SoftStartByScope := by
  intro rate s hr
  refine ⟨fun h => ?_, fun h => ?_⟩
  · obtain ⟨u, hexec, hparts, hnotices, hset⟩ := softStart_runtime (rate := rate) hr h
    refine ⟨_, u, hexec, rfl, ?_⟩
    generalize u.finish = t at hset
    obtain ⟨-, hlast, hrate, hclock, htables, hlocks, hjobs, hwait, hflags, hvalues, hrestart, hkept, hspoilt, hzones, -, hlatches⟩ := hparts
    obtain ⟨hsettles, hvalves, hmodes⟩ := hset
    have hspared := hsettles.toSpared
    have hlink : t.link.restart = u.link.restart := (congrArg Link.restart hspared.link :)
    have hzone : ∀ z, t.zone z = (s.zone z).warm := fun z => (hsettles.zone z).trans (hzones z)
    refine ⟨hspared.lastStart.trans hlast, hspared.tables.trans htables, hspared.locks.trans hlocks, hspared.clock.trans hclock,
      hlink.trans hrestart, ?_, hspared.rateHigh.trans hrate, hvalues, hspared, hvalves, hnotices, fun hc => ?_, fun hc => ?_, hjobs,
      hsettles.waitList.trans hwait, fun k => ?_, fun o ho => ?_, fun z => ?_, fun hk => ?_⟩
    · rw [hspared.chain, hvalues.chain, htables]
      rfl
    · rw [hspared.copyValid, hspared.stored]
      exact hkept hc
    · rw [hspared.copyValid, hspared.stored]
      exact hspoilt hc
    · have hjob : u.job k = s.job k := by rw [State.job, hjobs]; rfl
      rw [hsettles.jobs k, hjob]
    · obtain ⟨hhost, hholds, hpending⟩ := hflags o
      obtain ⟨-, hhost', hpending', -⟩ := hsettles.flags o
      exact ⟨hholds, hhost'.trans hhost, hpending'.trans hpending, hmodes o⟩
    · exact ⟨fun hz => (hzone z).trans (warm_kept hz), fun hz => (hzone z).trans (warm_suspect hz), fun hz => (hzone z).trans (warm_quiet hz)⟩
    · exact latchesHeld_congr (hlatches hk) hspared.ring
  · obtain ⟨u, x, hexec, hu, hparts, hnotices, hhanded, hset⟩ := softStart_tables (rate := rate) hr h
    refine ⟨_, u, x, hexec, rfl, ?_⟩
    generalize u.finish = t at hset
    obtain ⟨hlast, hrate, hclock, hlocks, hjobs, hwait, hload, hretained, howners, hvalues, hrestart, hzones, hlatches⟩ := hparts
    obtain ⟨hsettles, hvalves, hmodes⟩ := hset
    obtain ⟨hripple, hvalves', hzones', hrests, hkept, hwaits, hcreated, hhandedz⟩ := hhanded
    have hspared := (hripple.trans hsettles.toRipple).toSpared
    have hlink : t.link.restart = x.link.restart := (congrArg Link.restart hspared.link :)
    have htz : t.zones = x.zones := hsettles.zones.trans hzones'
    have hzone : ∀ z, t.zone z = x.zone z := fun z => by rw [State.zone, htz]; rfl
    have hjob : ∀ k, x.job k = s.job k := fun k => by rw [State.job, hjobs]; rfl
    have hms : t.ms = x.ms := by rw [State.ms, hspared.clock]; rfl
    have hrest := startValues_resting hvalues
    have hturned : ∀ k j, t.job k = some j → ∃ j', u.job k = some j' ∧ j'.zone = j.zone ∧ j'.created = j.created := fun k j hj => by
      have hmap := hsettles.jobs k
      rw [hj] at hmap
      cases hu' : u.job k with
      | none => rw [hu'] at hmap; cases hmap
      | some j' =>
        rw [hu'] at hmap
        have hpair := Option.some.inj hmap
        exact ⟨j', rfl, (congrArg Prod.fst hpair).symm, (congrArg Prod.snd hpair).symm⟩
    have hturned' : ∀ k j, u.job k = some j → ∃ j', t.job k = some j' ∧ j'.zone = j.zone ∧ j'.created = j.created := fun k j hj => by
      have hmap := hsettles.jobs k
      rw [hj] at hmap
      cases ht' : t.job k with
      | none => rw [ht'] at hmap; cases hmap
      | some j' =>
        rw [ht'] at hmap
        have hpair := Option.some.inj hmap
        exact ⟨j', rfl, congrArg Prod.fst hpair, congrArg Prod.snd hpair⟩
    refine ⟨hspared.lastStart.trans hlast, hspared.locks.trans hlocks, hspared.clock.trans hclock, hlink.trans hrestart,
      hspared.rateHigh.trans hrate, ?_, fun T hc hl => ?_, fun hc => ?_, hu, hnotices, hripple.joins, hvalues, hspared,
      hvalves.trans hvalves', htz, hjobs, hwait, fun o ho => ?_, fun z hz => ?_, fun z hz hws hwt hauto hplan => ?_, fun k j hj => ?_,
      fun k j hn hj => ?_, fun hk => latchesHeld_congr (hlatches hk) hspared.ring⟩
    · rw [hspared.chain, hvalues.chain, hspared.tables]
    · rw [hspared.tables, hspared.copyValid]
      exact hload T hc hl
    · rw [hspared.tables, hspared.copyValid]
      exact hretained hc
    · obtain ⟨hdef, hund, hpending⟩ := howners o ho
      obtain ⟨-, hhost', hpending', -⟩ := hsettles.flags o
      have hux := hrests.owner hrest o
      have hhost : (t.owner o).hostHold = (x.owner o).hostHold := by rw [hhost', hux]
      refine ⟨fun hd => ?_, fun b hb hd => ?_, ?_, ?_⟩
      · obtain ⟨hholds, hhx⟩ := hdef hd
        exact ⟨hholds, hhost.trans hhx⟩
      · obtain ⟨hholds, hhx⟩ := hund b hb hd
        exact ⟨hholds, hhost.trans hhx⟩
      · rw [hpending', hux]
        exact hpending
      · rw [hmodes o, hux]
    · rw [hzones z hz]
      exact reloaded_eq ..
    · rw [hzone z] at hwt
      rw [hspared.tables] at hauto hplan
      rcases hhandedz z (List.mem_range.2 (by omega)) ⟨hws, hwt, hauto, hplan⟩ with ⟨k, j, hj, hjz⟩ | hw
      · obtain ⟨j', hj', hjz', -⟩ := hturned' k j hj
        refine .inl (Option.isSome_iff_ne_none.2 fun hnone => ?_)
        exact (jobSlotOf_none_iff t z).1 hnone k j' hj' (hjz'.trans hjz)
      · exact .inr (by rw [hsettles.waitList]; exact hw)
    · obtain ⟨j', hj', hjz, hjc⟩ := hturned' k j (hkept k j ((hjob k).trans hj))
      exact ⟨j', hj', hjz, hjc⟩
    · obtain ⟨j', hj', hjz, hjc⟩ := hturned k j hj
      obtain ⟨⟨hws, hwx, hauto, hplan⟩, hcr⟩ := hcreated k j' ((hjob k).trans hn) hj'
      rw [hjz] at hws hwx hauto hplan
      rw [hzone, hspared.tables, hms, ← hjc]
      exact ⟨hws, hwx, hauto, hplan, hcr⟩

end Sys2Proof.Machine
end

