-- ==== Sys2Proof/Proofs/JobRelease.lean ====
section
/-! RELEASE_JOB: the slot offered to the wait list, the holds of the released job taken off (R136 to R138), O35. -/

namespace Sys2Proof.Machine

/-! ## Holds placed in list order (R127) -/

/-- A hold placed lowers no count, and counts for its own owner. -/
theorem raiseHold_count {o : Owner} (ho : WellFormed.owner o = true) (x : Owner) (s : State) :
    (s.owner o).holds + (if x = o then 1 else 0) ≤ ((s.raiseHold x).owner o).holds := by
  by_cases h : x = o
  · subst h
    have hraise := (owner_raiseHold x x s (owner_index_lt ho)).1
    rw [if_pos rfl] at hraise ⊢
    exact hraise.ge
  · rw [if_neg h]
    exact ((Settles.raiseHold x s).flags o).1

theorem raiseHolds_count {o : Owner} (ho : WellFormed.owner o = true) (l : List Owner) : ∀ s : State,
    (s.owner o).holds + l.count o ≤ ((l.foldl (fun s o => s.raiseHold o) s).owner o).holds := by
  induction l with
  | nil => exact fun _ => le_refl _
  | cons x l ih =>
    intro s
    have hhead := raiseHold_count ho x s
    have htail := ih (s.raiseHold x)
    rw [List.count_cons, List.foldl_cons]
    simp only [beq_iff_eq]
    omega

/-! ## The holds of a job come off (R137) -/

theorem dropHolds_stir (l : List JobEntry) (s : State) : Stir s (s.dropHolds l) :=
  Stir.foldl (fun s (e : JobEntry) => Stir.lowerHold e.target s) l s

/-- R137: each owner of a target list that names none twice loses one hold. -/
theorem dropHolds_holds {l : List JobEntry} (hn : (l.map (·.target)).Nodup) (hw : ∀ e ∈ l, WellFormed.owner e.target = true) :
    ∀ (s : State) {o : Owner}, WellFormed.owner o = true →
      ((s.dropHolds l).owner o).holds = (s.owner o).holds - (if o ∈ l.map (·.target) then 1 else 0)
      ∧ ((s.dropHolds l).owner o).hostHold = (s.owner o).hostHold := by
  induction l with
  | nil => exact fun _ _ _ => ⟨rfl, rfl⟩
  | cons e l ih =>
    intro s o ho
    rw [List.map_cons, List.nodup_cons] at hn
    have hew := hw e List.mem_cons_self
    obtain ⟨hlower, hhost, -, -⟩ := owner_lowerHold e.target o s (owner_index_lt hew)
    obtain ⟨hdrop, hdropHost⟩ := ih hn.2 (fun x hx => hw x (List.mem_cons_of_mem _ hx)) (s.lowerHold e.target) ho
    refine ⟨hdrop.trans ?_, hdropHost.trans hhost⟩
    rw [hlower, List.map_cons]
    by_cases heo : e.target = o
    · subst heo
      simp [hn.1]
    · have hne : e.target.index ≠ o.index := (owners_apart ho hew heo).1
      have hoe : o ≠ e.target := fun h => heo h.symm
      simp [hne, hoe]

/-! ## A slot offered to the wait list (R138) -/

theorem offerSlot_nil {s : State} (h : s.waitList = []) (slot : Nat) : s.offerSlot slot = s := by
  rw [State.offerSlot, h]

theorem offerSlot_cons {s : State} {w : Nat} {rest : List Nat} (h : s.waitList = w :: rest) (slot : Nat) :
    Settles (State.createJob slot w { s with waitList := rest }) (s.offerSlot slot) := by
  rw [State.offerSlot, h]
  exact Settles.followJobs _

/-- The holds of a new job, placed with a settled mark and a hold of the host that stand. -/
theorem createJob_settles (slot z : Nat) (s : State) : Settles (s.jobPlaced slot z) (s.createJob slot z) :=
  Settles.foldl (fun s o => Settles.raiseHold o s) _ _

theorem jobPlaced_owners (slot z : Nat) (s : State) : (s.jobPlaced slot z).owners = s.owners := by
  rw [State.jobPlaced, joinNotice_withNotices]
  rfl

/-- R138: a slot offered moves no hold of the host and lowers no count. -/
theorem offerSlot_flags (slot : Nat) (s : State) (o : Owner) :
    ((s.offerSlot slot).owner o).hostHold = (s.owner o).hostHold ∧ (s.owner o).holds ≤ ((s.offerSlot slot).owner o).holds := by
  cases h : s.waitList with
  | nil =>
    rw [offerSlot_nil h]
    exact ⟨rfl, le_refl _⟩
  | cons w rest =>
    have hplaced : (State.jobPlaced slot w { s with waitList := rest }).owner o = s.owner o := by
      rw [State.owner_eq, jobPlaced_owners, State.owner_eq]
    obtain ⟨hholds, hhost, -, -⟩ := ((createJob_settles slot w { s with waitList := rest }).trans (offerSlot_cons h slot)).flags o
    rw [hplaced] at hholds hhost
    exact ⟨hhost, hholds⟩

/-- R138: each owner of the new job's plan gains a hold for each time the plan names it. -/
theorem offerSlot_count {s : State} {w : Nat} {rest : List Nat} (h : s.waitList = w :: rest) (slot : Nat) {o : Owner}
    (ho : WellFormed.owner o = true) : (s.owner o).holds + (s.tables.plan w).count o ≤ ((s.offerSlot slot).owner o).holds := by
  have hplaced : (State.jobPlaced slot w { s with waitList := rest }).owner o = s.owner o := by
    rw [State.owner_eq, jobPlaced_owners, State.owner_eq]
  have hcount := raiseHolds_count ho (s.tables.plan w) (State.jobPlaced slot w { s with waitList := rest })
  rw [hplaced] at hcount
  exact hcount.trans ((offerSlot_cons h slot).flags o).1

theorem offerSlot_zones (slot : Nat) (s : State) : (s.offerSlot slot).zones = s.zones := by
  cases h : s.waitList with
  | nil => rw [offerSlot_nil h]
  | cons w rest => exact (offerSlot_cons h slot).zones.trans (createJob_zones slot w _)

theorem offerSlot_waitList (slot : Nat) (s : State) : (s.offerSlot slot).waitList = s.waitList.tail := by
  cases h : s.waitList with
  | nil => rw [offerSlot_nil h, h]; rfl
  | cons w rest => exact (offerSlot_cons h slot).waitList.trans (createJob_waitList slot w _)

/-- R138: the zone at the head of the wait list has a job in the slot. -/
theorem offerSlot_job {s : State} {w : Nat} {rest : List Nat} (h : s.waitList = w :: rest) {slot : Nat} (hs : slot ≤ 15) :
    ((s.offerSlot slot).job slot).map (fun j => (j.zone, j.created)) = some (w, s.ms) := by
  rw [(offerSlot_cons h slot).jobs slot, State.job, createJob_jobs]
  exact congrArg _ (Table.getD_put_self _ _ _ (by omega))

theorem offerSlot_otherJobs {slot k : Nat} (h : k ≠ slot) (s : State) : ((s.offerSlot slot).job k).isSome = (s.job k).isSome := by
  cases hw : s.waitList with
  | nil => rw [offerSlot_nil hw]
  | cons w rest =>
    rw [(offerSlot_cons hw slot).isSome k, State.job, createJob_jobs]
    exact congrArg _ (Table.getD_put_ne _ _ _ h.symm)

/-! ## A job released from its slot (R137, R138) -/

/-- The slot of a job that is released freed, and offered. -/
def State.slotOffered (slot : Nat) (s : State) : State := (s.setJob slot none).offerSlot slot

/-- The end of the request's own effect. -/
def State.jobReleased (slot : Nat) (j : Job) (s : State) : State := (s.releaseSlot slot j).2

theorem lookMarked_same (due : Prop) [Decidable due] (x : State) (o : Obj) :
    State.SameButNotices { x with sched := { x.sched with lookDue := ((if due then x.wantLook else x).joinNotice o).sched.lookDue } }
      ((if due then x.wantLook else x).joinNotice o) := by
  rw [joinNotice_withNotices]
  split
  · rfl
  · rfl

theorem jobReleased_same (slot : Nat) (j : Job) (s x : State) (hx : x = (s.slotOffered slot).dropHolds j.entries) :
    State.SameButNotices { x with sched := { x.sched with lookDue := (s.jobReleased slot j).sched.lookDue } } (s.jobReleased slot j) := by
  subst hx
  exact lookMarked_same _ _ _

theorem jobReleased_look {slot : Nat} {j : Job} {s : State}
    (h : (((s.setJob slot none).dropHolds j.entries).offerSlot slot).sched.lookDue = true) : (s.jobReleased slot j).sched.lookDue = true := by
  unfold State.jobReleased State.releaseSlot
  dsimp only
  rw [if_pos h]
  exact (LookKept.joinNotice _ _).due rfl

theorem jobReleased_noticed (slot : Nat) (j : Job) (s : State) : (s.jobReleased slot j).Noticed (.job slot) :=
  State.joinNotice_noticed _ _

/-- What the release leaves of the state once the slot is offered: the holds come off, a look may become due. -/
theorem jobReleased_parts (slot : Nat) (j : Job) (s : State) :
    (s.jobReleased slot j).owners = ((s.slotOffered slot).dropHolds j.entries).owners
    ∧ (s.jobReleased slot j).jobs = (s.slotOffered slot).jobs ∧ (s.jobReleased slot j).zones = s.zones
    ∧ (s.jobReleased slot j).waitList = s.waitList.tail := by
  have hsame := jobReleased_same slot j s _ rfl
  have hstir := dropHolds_stir j.entries (s.slotOffered slot)
  have howners := congrArg State.owners hsame
  have hjobs := congrArg State.jobs hsame
  have hzones := congrArg State.zones hsame
  have hwaits := congrArg State.waitList hsame
  exact ⟨howners, Eq.trans hjobs hstir.jobs, Eq.trans hzones (hstir.zones.trans (offerSlot_zones slot _)),
    Eq.trans hwaits (hstir.waitList.trans (offerSlot_waitList slot _))⟩

/-- The released job's slot after the end of the event: free, or taken by the zone at the head of the wait list. -/
theorem jobReleased_slots (slot : Nat) (j : Job) (s : State) (hslot : slot ≤ 15) :
    (s.waitList = [] → ((s.jobReleased slot j).finish.job slot) = none)
    ∧ (∀ w rest, s.waitList = w :: rest →
        ∃ j', (s.jobReleased slot j).finish.job slot = some j' ∧ j'.zone = w ∧ j'.created = s.ms)
    ∧ (∀ k, k ≠ slot → ((s.jobReleased slot j).finish.job k).isSome = (s.job k).isSome) := by
  obtain ⟨-, hjobs, -, -⟩ := jobReleased_parts slot j s
  have hjob : ∀ k, (s.jobReleased slot j).job k = (s.slotOffered slot).job k := fun k => by rw [State.job, hjobs, State.job]
  have hend := Settles.finish (s.jobReleased slot j)
  refine ⟨fun h => ?_, fun w rest h => ?_, fun k hk => ?_⟩
  · have hfree : (s.slotOffered slot).job slot = none := by
      rw [State.slotOffered, offerSlot_nil (s := s.setJob slot none) h, State.job_setJob, if_pos ⟨rfl, by omega⟩]
    have hnone := hend.isSome slot
    rw [hjob, hfree] at hnone
    simpa using hnone
  · have hkept := hend.jobs slot
    rw [hjob, State.slotOffered, offerSlot_job (s := s.setJob slot none) h hslot, Option.map_eq_some_iff] at hkept
    obtain ⟨j', hj', heq⟩ := hkept
    exact ⟨j', hj', congrArg Prod.fst heq, congrArg Prod.snd heq⟩
  · rw [hend.isSome k, hjob, State.slotOffered, offerSlot_otherJobs hk, State.job_setJob, if_neg fun h => hk h.1.symm]

/-- What the request does to a job found in its slot. -/
theorem releaseJob_answer {s : State} {z slot : Nat} {j : Job} (hz : z ≤ 63) (hslot : s.jobSlotOf z = some slot) (hj : s.job slot = some j)
    (tag : Byte) : answerReleaseJob tag z s = if ((s.zone z).st == .undefined) = true then s.refuse 0x25 tag .notDefined
      else if ((s.zone z).st != .dry) = true then s.refuse 0x25 tag .notAcked
      else (s.jobReleased slot j).finish.reply 0x25 tag .ok (u8 (s.lastHolds j.entries) ++ u8 slot) := by
  have hlt : ¬ Config.numZones ≤ z := by simp only [Config.numZones]; omega
  unfold answerReleaseJob
  rw [if_neg hlt]
  simp only [hslot, hj, checked_cons, checked_nil]
  rfl

/-- Settles O35, by the two steps of a release: the slot is offered, then the holds of the job come off. -/
theorem releaseJobTaken : Obligations.ReleaseJobTaken := by
  intro s tag z slot hs hz hslot hdef
  obtain ⟨hle, j, hj, hjz⟩ := jobSlotOf_some hslot
  have hexec : exec (.releaseJob tag z) s = .next (answerReleaseJob tag z s) := exec_answer rfl hs
  rw [hexec, releaseJob_answer hz hslot hj tag, if_neg (by simpa using hdef)]
  refine ⟨fun hdry => ?_, fun hdry => by rw [if_pos (by simpa using hdry)]⟩
  rw [if_neg (by simp [hdry])]
  obtain ⟨howners, -, hzones, hwaits⟩ := jobReleased_parts slot j s
  obtain ⟨hnil, hcons, hothers⟩ := jobReleased_slots slot j s hle
  have hend := Settles.finish (s.jobReleased slot j)
  have hripple : Ripple s (s.jobReleased slot j).finish := (Ripple.releaseSlot slot j s).trans hend.toRipple
  have hnoticed : (s.jobReleased slot j).finish.Noticed (.job slot) :=
    (jobReleased_noticed slot j s).mono (congrArg TableStore.mask hend.tables) hend.joins
  have hkept := hripple.toSpared.reply 0x25 tag .ok (u8 (s.lastHolds j.entries) ++ u8 slot)
  have hendZones := hend.zones.trans hzones
  have hendWaits := hend.waitList.trans hwaits
  clear hend hripple
  refine ⟨_, s.jobReleased slot j, s.slotOffered slot, j, _, rfl, hj, hjz, rfl, rfl, rfl, fun h => offerSlot_nil (s := s.setJob slot none) h slot,
    fun w rest h => ?_, dropHolds_move _ _, jobReleased_same slot j s, jobReleased_look, fun o ho => ?_, fun hnd hw o ho => ?_,
    fun hseg hplan hw o ho hi hh => releaseSlot_kept ho slot j s hseg hplan hw hi hh, ?_⟩
  · obtain ⟨x, y, hsame, hmove, hesc⟩ := offerSlot_move (s := s.setJob slot none) h slot
    have hput : (s.jobs.put slot none).put slot
        (some ⟨w, s.ms, (s.tables.plan w).map fun o => ⟨o, none, .absent, .waiting⟩, .active⟩) = s.jobs.put slot _ := table_put_put ..
    refine ⟨x, y, ?_, hmove, hesc⟩
    rw [← hput]
    exact hsame
  · obtain ⟨hhost, hholds⟩ := offerSlot_flags slot (s.setJob slot none) o
    exact ⟨hhost, hholds, fun w rest h => offerSlot_count (s := s.setJob slot none) h slot ho⟩
  · have howner : (s.jobReleased slot j).owner o = ((s.slotOffered slot).dropHolds j.entries).owner o := by
      rw [State.owner_eq, howners, State.owner_eq]
    rw [howner]
    exact dropHolds_holds hnd hw _ ho
  · generalize (s.jobReleased slot j).finish = t at *
    exact ⟨hkept, hendZones, hendWaits, hnil, hcons, hothers, hnoticed⟩

end Sys2Proof.Machine
end

