-- ==== Sys2Proof/Proofs/MapFunctions.lean ====
section
/-! The functions of the position map, their codes, places and conflicts (R55 to R58), for O22. -/

namespace Sys2Proof.Machine

/-! ## The functions by code (section 3.1) -/

theorem yesNo_eq (l : Nat) : yesNo l = if l ≤ 1 then some (l == 1) else none := by
  match l with
  | 0 => rfl
  | 1 => rfl
  | l + 2 => rw [if_neg (by omega)]; rfl

/-- A function with a level takes a number in range and a level of 0 or 1. -/
theorem levelled_eq {k n : Nat} (l : Nat) (f : Bool → MapFn) : (if n < k + 1 then (yesNo l).map fun b => some (f b) else none) =
    if n ≤ k ∧ l ≤ 1 then some (some (f (l == 1))) else none := by
  rw [yesNo_eq]
  by_cases hn : n ≤ k
  · rw [if_pos (by omega)]
    by_cases hl : l ≤ 1
    · rw [if_pos hl, if_pos ⟨hn, hl⟩]; rfl
    · rw [if_neg hl, if_neg fun h => hl h.2]; rfl
  · rw [if_neg (by omega), if_neg fun h => hn h.1]

theorem numbered_eq {k n : Nat} (f : MapFn) : (if n < k + 1 then some (some f) else none) = if n ≤ k then some (some f) else none :=
  if_congr Nat.lt_succ_iff rfl rfl

theorem mapFnOfCode_table (n l : Nat) : mapFnOfCode 0 n l = some none
    ∧ mapFnOfCode 1 n l = (if n ≤ 105 then some (some (.drive n)) else none)
    ∧ mapFnOfCode 2 n l = (if n ≤ 105 then some (some (.openSw n)) else none)
    ∧ mapFnOfCode 3 n l = (if n ≤ 105 then some (some (.closedSw n)) else none)
    ∧ mapFnOfCode 4 n l = (if n ≤ 63 ∧ l ≤ 1 then some (some (.drip n (l == 1))) else none)
    ∧ mapFnOfCode 5 n l = (if n ≤ 96 then some (some (.flow n)) else none)
    ∧ mapFnOfCode 6 n l = (if n ≤ 15 ∧ l ≤ 1 then some (some (.cardOk n (l == 1))) else none)
    ∧ mapFnOfCode 7 n l = (if n ≤ 31 then some (some (.out n)) else none)
    ∧ mapFnOfCode 8 n l = (if n ≤ 31 then some (some (.inp n)) else none)
    ∧ (∀ function, 8 < function → mapFnOfCode function n l = none) := by
  refine ⟨rfl, numbered_eq (.drive n), numbered_eq (.openSw n), numbered_eq (.closedSw n), levelled_eq l (.drip n), numbered_eq (.flow n),
    levelled_eq l (.cardOk n), numbered_eq (.out n), numbered_eq (.inp n), fun function h => ?_⟩
  match function, h with
  | _ + 9, _ => rfl

theorem taken_function {p : Prop} [Decidable p] {f fn : MapFn} (h : (if p then some (some f) else none) = some (some fn)) : p ∧ f = fn := by
  split at h
  next hp => exact ⟨hp, Option.some.inj (Option.some.inj h)⟩
  next => cases h

/-- The code of the function a request names is the one it named, and a FLOW function's meter is in range. -/
theorem mapFnOfCode_some {function number level : Nat} {fn : MapFn} (h : mapFnOfCode function number level = some (some fn)) :
    fn.code = function ∧ ∀ m, fn = .flow m → m ≤ 96 := by
  obtain ⟨h0, h1, h2, h3, h4, h5, h6, h7, h8, h9⟩ := mapFnOfCode_table number level
  match function with
  | 0 => exact absurd (h.symm.trans h0) nofun
  | 1 => obtain ⟨-, rfl⟩ := taken_function (h1.symm.trans h); exact ⟨rfl, nofun⟩
  | 2 => obtain ⟨-, rfl⟩ := taken_function (h2.symm.trans h); exact ⟨rfl, nofun⟩
  | 3 => obtain ⟨-, rfl⟩ := taken_function (h3.symm.trans h); exact ⟨rfl, nofun⟩
  | 4 => obtain ⟨-, rfl⟩ := taken_function (h4.symm.trans h); exact ⟨rfl, nofun⟩
  | 5 =>
    obtain ⟨hn, rfl⟩ := taken_function (h5.symm.trans h)
    exact ⟨rfl, fun m hm => by cases hm; exact hn⟩
  | 6 => obtain ⟨-, rfl⟩ := taken_function (h6.symm.trans h); exact ⟨rfl, nofun⟩
  | 7 => obtain ⟨-, rfl⟩ := taken_function (h7.symm.trans h); exact ⟨rfl, nofun⟩
  | 8 => obtain ⟨-, rfl⟩ := taken_function (h8.symm.trans h); exact ⟨rfl, nofun⟩
  | k + 9 => exact absurd (h.symm.trans (h9 (k + 9) (by omega))) nofun

/-! ## The places of entries (R55) -/

theorem locateFrom_beyond (cards : List Nat) : ∀ (c0 : Nat) {p : Nat}, cards.sum ≤ p → locateFrom c0 cards p = none := by
  induction cards with
  | nil => exact fun _ _ _ => rfl
  | cons w cards ih =>
    intro c0 p h
    rw [List.sum_cons] at h
    rw [locateFrom, if_neg (by omega)]
    exact ih _ (by omega)

theorem entryAtPos_posOf {t : TableStore} {card offset w : Nat} (hw : t.cards[card]? = some w) (ho : offset < w) :
    t.entryAtPos (t.posOf card offset) = t.entryAt card offset := by
  have hlocate := locateFrom_posOf 0 t.cards hw ho
  rw [Nat.zero_add] at hlocate
  have hlocated : t.locate (t.posOf card offset) = some (card, offset) := hlocate
  rw [TableStore.entryAtPos, hlocated]
  rfl

theorem entryAtPos_beyond {t : TableStore} {p : Nat} (h : t.length ≤ p) : t.entryAtPos p = none := by
  have hlocated : t.locate p = none := locateFrom_beyond t.cards 0 h
  rw [TableStore.entryAtPos, hlocated]
  rfl

theorem isOutput_iff (fn : MapFn) : fn.isOutput = true ↔ ∃ n, fn = .drive n ∨ fn = .out n := by
  cases fn <;> simp [MapFn.isOutput]

theorem isOutputPos_iff (t : TableStore) (p : Nat) :
    t.isOutputPos p = true ↔ ∃ x, t.entryAtPos p = some x ∧ ∃ n, x.fn = .drive n ∨ x.fn = .out n := by
  unfold TableStore.isOutputPos
  cases t.entryAtPos p with
  | none => simp
  | some x => simpa using isOutput_iff x.fn

theorem findPos_none {t : TableStore} {fn : MapFn} (h : ∀ x ∈ t.map, x.fn ≠ fn) : t.findPos (· == fn) = none := by
  rw [TableStore.findPos, Option.map_eq_none_iff]
  exact List.find?_eq_none.2 fun x hx => by simpa using h x hx

/-- A position found is that of an entry with the function. -/
theorem findPos_some {t : TableStore} {fn : MapFn} {p : Nat} (h : t.findPos (· == fn) = some p) :
    ∃ x ∈ t.map, x.fn = fn ∧ p = t.posOf x.card x.offset := by
  obtain ⟨x, hx, rfl⟩ := Option.map_eq_some_iff.1 h
  have hfn : (x.fn == fn) = true := List.find?_some (p := fun e : MapEntry => e.fn == fn) hx
  exact ⟨x, List.mem_of_find?_eq_some (p := fun e : MapEntry => e.fn == fn) hx, eq_of_beq hfn, rfl⟩

theorem findPos_isSome_iff (t : TableStore) (fn : MapFn) : (t.findPos (· == fn)).isSome = true ↔ ∃ x ∈ t.map, x.fn = fn := by
  rw [TableStore.findPos, Option.isSome_map, TableStore.entryOf, List.find?_isSome]
  simp

theorem findPos_only {t : TableStore} {e : MapEntry} (he : e ∈ t.map) (h : ∀ x ∈ t.map, x.fn = e.fn → x = e) :
    t.findPos (· == e.fn) = some (t.posOf e.card e.offset) := by
  obtain ⟨p, hp⟩ := Option.isSome_iff_exists.1 ((findPos_isSome_iff t e.fn).2 ⟨e, he, rfl⟩)
  obtain ⟨x, hx, hf, rfl⟩ := findPos_some hp
  rw [hp, h x hx hf]

theorem complete_iff (t : TableStore) (v : Nat) : t.complete v = true ↔ (t.valve v).present = true ∧ ∃ x ∈ t.map, x.fn = .drive v := by
  rw [TableStore.complete, Bool.and_eq_true]
  exact and_congr_right fun _ => findPos_isSome_iff t (.drive v)

theorem hasValves_iff (t : TableStore) (o : Owner) : t.hasValves o = true ↔ ∀ v, v = o.supplyValve ∨ v = o.returnValve →
    (t.valve v).present = true ∧ ∃ x ∈ t.map, x.fn = .drive v := by
  rw [TableStore.hasValves, Bool.and_eq_true]
  simp only [complete_iff]
  exact ⟨fun h v hv => by rcases hv with rfl | rfl; exacts [h.1, h.2], fun h => ⟨h _ (.inl rfl), h _ (.inr rfl)⟩⟩

/-! ## Conflicts (R57) -/

theorem sameObject_iff (a b : MapFn) : a.sameObject b = true ↔
    (a = b ∧ ∀ z l, a ≠ .drip z l) ∨ ∃ c l m, a = .cardOk c l ∧ b = .cardOk c m := by
  cases a with
  | drip z l => simp [MapFn.sameObject]
  | cardOk c l =>
    cases b with
    | cardOk d m =>
      simp only [MapFn.sameObject, beq_iff_eq, MapFn.cardOk.injEq]
      constructor
      · rintro rfl
        exact .inr ⟨c, l, m, ⟨rfl, rfl⟩, rfl, rfl⟩
      · rintro (⟨⟨rfl, -⟩, -⟩ | ⟨_, _, _, ⟨rfl, -⟩, rfl, -⟩)
        · rfl
        · rfl
    | _ => simp [MapFn.sameObject]
  | _ n => cases b <;> simp [MapFn.sameObject]

/-- R57: an entry that meets a conflict. -/
def TableStore.Conflicts (t : TableStore) (e : MapEntry) : Prop :=
  (∃ x ∈ t.map, ∃ i < e.fn.width, x.covers e.card (e.offset + i) = true)
  ∨ (∃ x ∈ t.map, x.fn.sameObject e.fn = true) ∨ (∃ c l, e.fn = .cardOk c l ∧ c ≠ e.card)

/-- R57: a DRIP entry of a zone that has 4. -/
def TableStore.Full (t : TableStore) (e : MapEntry) : Prop := ∃ z l, e.fn = .drip z l ∧ 4 ≤ (t.dripEntries z).length

theorem covered_iff (t : TableStore) (e : MapEntry) :
    ((List.range e.fn.width).any fun i => (t.entryAt e.card (e.offset + i)).isSome) = true
    ↔ ∃ x ∈ t.map, ∃ i < e.fn.width, x.covers e.card (e.offset + i) = true := by
  simp only [List.any_eq_true, List.mem_range, TableStore.entryAt, List.find?_isSome]
  exact ⟨fun ⟨i, hi, x, hx, hc⟩ => ⟨x, hx, i, hi, hc⟩, fun ⟨x, hx, i, hi, hc⟩ => ⟨i, hi, x, hx, hc⟩⟩

/-- R57: the card a CARD_OK names is its own. -/
def MapEntry.strayCardOk (e : MapEntry) : Bool := match e.fn with | .cardOk c _ => c != e.card | _ => false

theorem strayCardOk_iff (e : MapEntry) : e.strayCardOk = true ↔ ∃ c l, e.fn = .cardOk c l ∧ c ≠ e.card := by
  unfold MapEntry.strayCardOk
  cases e.fn with
  | cardOk c l =>
    rw [bne_iff_ne]
    refine ⟨fun h => ⟨c, l, rfl, h⟩, ?_⟩
    rintro ⟨_, _, h, hne⟩
    cases h
    exact hne
  | _ => exact ⟨nofun, nofun⟩

/-- R57: the zone of a DRIP entry has 4 of them. -/
def TableStore.overfull (t : TableStore) (e : MapEntry) : Bool := match e.fn with | .drip z _ => 4 ≤ (t.dripEntries z).length | _ => false

theorem overfull_iff (t : TableStore) (e : MapEntry) : t.overfull e = true ↔ t.Full e := by
  unfold TableStore.overfull TableStore.Full
  cases e.fn with
  | drip z l =>
    rw [decide_eq_true_eq]
    refine ⟨fun h => ⟨z, l, rfl, h⟩, ?_⟩
    rintro ⟨_, _, h, hle⟩
    cases h
    exact hle
  | _ => exact ⟨nofun, nofun⟩

theorem mapConflicts_eq (t : TableStore) (e : MapEntry) : t.mapConflicts e =
    [((List.range e.fn.width).any fun i => (t.entryAt e.card (e.offset + i)).isSome, .conflict),
      (t.map.any fun x => x.fn.sameObject e.fn, .conflict), (e.strayCardOk, .conflict), (t.overfull e, .full)] := rfl

theorem sameObjects_iff (t : TableStore) (e : MapEntry) :
    (t.map.any fun x => x.fn.sameObject e.fn) = true ↔ ∃ x ∈ t.map, x.fn.sameObject e.fn = true := List.any_eq_true

/-- R57: no check of a new entry fails where it meets no conflict and its zone is not full. -/
theorem mapConflicts_iff (t : TableStore) (e : MapEntry) : (∀ c ∈ t.mapConflicts e, c.1 = false) ↔ ¬ t.Conflicts e ∧ ¬ t.Full e := by
  simp only [mapConflicts_eq, List.forall_mem_cons, List.not_mem_nil, false_implies, implies_true, and_true, ← Bool.not_eq_true,
    covered_iff, sameObjects_iff, strayCardOk_iff, overfull_iff, TableStore.Conflicts,
    not_or, and_assoc]

theorem noConflict_iff (t : TableStore) (e : MapEntry) : ¬ t.Conflicts e ↔
    (∀ x ∈ t.map, ∀ i < e.fn.width, x.covers e.card (e.offset + i) = false) ∧ (∀ x ∈ t.map, x.fn.sameObject e.fn = false)
    ∧ ∀ c l, e.fn = .cardOk c l → c = e.card := by
  simp only [TableStore.Conflicts, not_or, not_exists, not_and, Bool.not_eq_true, not_not]

theorem notFull_iff (t : TableStore) (e : MapEntry) : ¬ t.Full e ↔ ∀ z l, e.fn = .drip z l → (t.dripEntries z).length < 4 := by
  simp only [TableStore.Full, not_exists, not_and, not_le]

/-! ## What forbids a change of the map (R58) -/

theorem mapBusy_drip (s : State) (removal : Bool) (z : Nat) (l : Bool) :
    s.mapBusy (.drip z l) removal = true ↔ (s.zone z).st ≠ .off ∧ (s.zone z).st ≠ .undefined := by
  simp [State.mapBusy]

theorem mapBusy_valve (s : State) (removal : Bool) {v : Nat} {fn : MapFn} (h : fn.valve = some v) : s.mapBusy fn removal = true ↔
    (s.tables.valve v).present = true ∧ (s.valveBusy v false = true ∨ (removal = true ∧ fn = .drive v)) := by
  cases fn with
  | drive w => cases h; simp [State.mapBusy, MapFn.valve, MapFn.isDrive]
  | openSw w => cases h; simp [State.mapBusy, MapFn.valve, MapFn.isDrive]
  | closedSw w => cases h; simp [State.mapBusy, MapFn.valve, MapFn.isDrive]
  | _ => cases h

/-- R58: a present valve that may be mapped has no queue entry. -/
theorem mapBusy_free {s : State} {removal : Bool} {fn : MapFn} {v : Nat} (h : s.mapBusy fn removal = false) (hv : fn.valve = some v)
    (hp : (s.tables.valve v).present = true) : s.hasEntry v = false := by
  have hbusy : ¬ s.valveBusy v false = true := fun hb => by
    rw [(mapBusy_valve s removal hv).2 ⟨hp, .inl hb⟩] at h
    cases h
  rw [State.valveBusy, Bool.or_eq_true, not_or] at hbusy
  exact Bool.eq_false_iff.2 hbusy.2

end Sys2Proof.Machine
end

