-- ==== Sys2Proof/Proofs/MapChanges.lean ====
section
/-! What follows a change of the position map (R59), for O22. -/

namespace Sys2Proof.Machine

/-! ## The image bits of a field cleared -/

/-- Bits of the output image written, and the flow values given. -/
def State.fieldCleared (out : List Bool) (due : Bool) (f : Flow) (s : State) : State :=
  { s with image := { s.image with out := out }, scanDue := due, flow := f }

theorem bitAt_set_false {l : List Bool} {p q : Nat} (h : q = p ∨ bitAt l q = false) : bitAt (l.set p false) q = false := by
  rw [bitAt, List.getD_eq_getElem?_getD, List.getElem?_set]
  by_cases hpq : p = q
  · rw [if_pos hpq]
    split <;> rfl
  · rw [if_neg hpq, ← List.getD_eq_getElem?_getD]
    exact h.resolve_left (Ne.symm hpq)

/-- Bits cleared one after the other: each is 0, and none that was 0 is set. -/
theorem clearBits (card offset : Nat) (l : List Nat) : ∀ s : State, ∃ (out : List Bool) (due : Bool),
    l.foldl (fun s i => s.writeImageBit (s.tables.posOf card offset + i) false) s = s.fieldCleared out due s.flow
    ∧ ∀ p, (p ∈ l.map (s.tables.posOf card offset + ·) ∨ bitAt s.image.out p = false) → bitAt out p = false := by
  induction l with
  | nil =>
    intro s
    exact ⟨s.image.out, s.scanDue, rfl, fun p hp => hp.resolve_left List.not_mem_nil⟩
  | cons i l ih =>
    intro s
    rw [List.foldl_cons, writeImageBit_eq]
    obtain ⟨out, due, heq, hout⟩ := ih { s with
      image := { s.image with out := s.image.out.set (s.tables.posOf card offset + i) false }
      scanDue := s.scanDue || (bitAt s.image.out (s.tables.posOf card offset + i) != false
        && s.image.out.set (s.tables.posOf card offset + i) false != s.image.copy && s.tables.scan.image) }
    refine ⟨out, due, heq, fun p hp => hout p ?_⟩
    rw [List.map_cons, List.mem_cons] at hp
    rcases hp with (hp | hp) | hp
    · exact .inr (bitAt_set_false (.inl hp))
    · exact .inl hp
    · exact .inr (bitAt_set_false (.inr hp))

theorem clearField_eq (e : MapEntry) (s : State) : ∃ (out : List Bool) (due : Bool), s.clearField e = s.fieldCleared out due s.flow
    ∧ ∀ i < e.fn.width, bitAt out (s.tables.posOf e.card e.offset + i) = false := by
  obtain ⟨out, due, heq, hout⟩ := clearBits e.card e.offset (List.range e.fn.width) s
  exact ⟨out, due, heq, fun i hi => hout _ (.inl (List.mem_map_of_mem (List.mem_range.2 hi)))⟩

/-! ## What follows, by function -/

/-- R59: a valve one of whose functions is mapped or removed. -/
def State.valveRemapped (v : Nat) (s : State) : State :=
  ((if (s.tables.valve v).present then s.valveToUnknown v else s).joinNotice (.valve v)).checkNoValves (valveOwner v)

theorem afterMap_flow {e : MapEntry} {m : Nat} (h : e.fn = .flow m) (s : State) : s.afterMap e = (s.clearField e).loseMeter m := by
  unfold State.afterMap
  rw [h]

theorem afterMap_inp {e : MapEntry} {n : Nat} (h : e.fn = .inp n) (s : State) : s.afterMap e = (s.clearField e).joinNotice .inputs := by
  unfold State.afterMap
  rw [h]

theorem afterMap_valve {e : MapEntry} {v : Nat} (h : e.fn.valve = some v) (s : State) : s.afterMap e = (s.clearField e).valveRemapped v := by
  unfold State.afterMap
  cases hf : e.fn with
  | drive w => rw [hf] at h; cases h; rfl
  | openSw w => rw [hf] at h; cases h; rfl
  | closedSw w => rw [hf] at h; cases h; rfl
  | _ => rw [hf] at h; cases h

theorem afterMap_other {e : MapEntry} (hm : ∀ m, e.fn ≠ .flow m) (hn : ∀ n, e.fn ≠ .inp n) (hv : e.fn.valve = none) (s : State) :
    s.afterMap e = s.clearField e := by
  unfold State.afterMap
  cases hf : e.fn with
  | flow m => exact absurd hf (hm m)
  | inp n => exact absurd hf (hn n)
  | drip z l => rfl
  | cardOk c l => rfl
  | out n => rfl
  | drive w => rw [hf] at hv; cases hv
  | openSw w => rw [hf] at hv; cases hv
  | closedSw w => rw [hf] at hv; cases hv

/-! ## A valve remapped -/

theorem valveRemapped_ripple (v : Nat) (s : State) : Ripple s (s.valveRemapped v) :=
  ((Ripple.ite (Ripple.valveToUnknown v s) (Ripple.refl s)).trans (Ripple.joinNotice _ _)).trans (Ripple.checkNoValves _ _)

theorem valveRemapped_noticed (v : Nat) (s : State) : (s.valveRemapped v).Noticed (.valve v) := by
  have hcheck := Ripple.checkNoValves (valveOwner v) ((if (s.tables.valve v).present then s.valveToUnknown v else s).joinNotice (.valve v))
  exact (State.joinNotice_noticed _ _).mono (congrArg TableStore.mask hcheck.tables) hcheck.joins

/-- R59: a present valve becomes UNKNOWN, and joins. -/
def State.valveUnknown (v : Nat) (s : State) : State := (s.valveToUnknown v).joinNotice (.valve v)

/-- The record of a valve that becomes UNKNOWN. -/
def State.unknownRec (s : State) (v : Nat) : ValveRec :=
  { s.valve v with st := .unknown, cause := none, target := s.commandedTarget v, mismatch := 0, timer := none }

theorem valveUnknown_eq (v : Nat) (s : State) :
    ∃ l, s.valveUnknown v = State.withNotices l { s with valves := s.valves.put v (s.unknownRec v) } := by
  rw [State.valveUnknown, joinNotice_withNotices, State.valveToUnknown, State.setValve_eq]
  exact ⟨_, rfl⟩

theorem valveUnknown_hasEntry (v w : Nat) (s : State) : (s.valveUnknown v).hasEntry w = s.hasEntry w := by
  obtain ⟨l, h⟩ := valveUnknown_eq v s
  rw [h]
  rfl

theorem valveUnknown_self {v : Nat} (h : v < 106) (s : State) : ((s.valveUnknown v).valve v).st = .unknown := by
  obtain ⟨l, heq⟩ := valveUnknown_eq v s
  rw [State.valve_put s v v _ _ (congrArg State.valves heq), if_pos ⟨rfl, h⟩]
  rfl

theorem valveUnknown_other {v w : Nat} (h : v ≠ w) (s : State) : (s.valveUnknown v).valve w = s.valve w := by
  obtain ⟨l, heq⟩ := valveUnknown_eq v s
  rw [State.valve_put s v w _ _ (congrArg State.valves heq), if_neg fun hvw => h hvw.1]

/-- A valve without a queue entry that becomes UNKNOWN is stuck, and one that is stuck stays so. -/
theorem valveUnknown_stuck {v w : Nat} (hlt : v < 106) {s : State} (h : s.Stuck w ∨ (v = w ∧ s.hasEntry v = false)) :
    (s.valveUnknown v).Stuck w := by
  have hentry : s.hasEntry w = false := by
    rcases h with h | ⟨rfl, h⟩
    · exact h.2
    · exact h
  refine ⟨?_, (valveUnknown_hasEntry v w s).trans hentry⟩
  by_cases hvw : v = w
  · subst hvw
    exact .inr (.inl (valveUnknown_self hlt s))
  · rw [valveUnknown_other hvw]
    exact (h.resolve_right fun hr => hvw hr.1).1

/-- A valve the table has present has a number below 106. -/
theorem present_lt {t : TableStore} {v : Nat} (h : (t.valve v).present = true) : v < 106 := by
  by_contra hge
  rw [TableStore.valve, table_getD_beyond (by omega)] at h
  cases h

theorem valveRemapped_present {v : Nat} {s : State} (h : (s.tables.valve v).present = true) :
    s.valveRemapped v = (s.valveUnknown v).checkNoValves (valveOwner v) := by
  rw [State.valveRemapped, if_pos h]
  rfl

theorem valveRemapped_absent {v : Nat} {s : State} (h : ¬ (s.tables.valve v).present = true) :
    s.valveRemapped v = (s.joinNotice (.valve v)).checkNoValves (valveOwner v) := by
  rw [State.valveRemapped, if_neg h]

theorem valveRemapped_stuck {v w : Nat} {s : State}
    (h : s.Stuck w ∨ (v = w ∧ (s.tables.valve v).present = true ∧ s.hasEntry v = false)) : (s.valveRemapped v).Stuck w := by
  by_cases hp : (s.tables.valve v).present = true
  · rw [valveRemapped_present hp]
    have hunknown := valveUnknown_stuck (present_lt hp) (h.imp_right fun ⟨hvw, _, he⟩ => ⟨hvw, he⟩)
    exact (Stir.checkNoValves (valveOwner v) _).stuck w hunknown
  · rw [valveRemapped_absent hp]
    have hstuck := h.resolve_right fun ⟨_, hr, _⟩ => hp hr
    exact ((Stir.joinNotice s (.valve v)).trans (Stir.checkNoValves (valveOwner v) _)).stuck w hstuck

theorem valveRemapped_unknown {v : Nat} {s : State} (hp : (s.tables.valve v).present = true) :
    ((s.valveRemapped v).valve v).st = .unknown := by
  rw [valveRemapped_present hp, (Stir.checkNoValves (valveOwner v) _).valve v]
  exact valveUnknown_self (present_lt hp) s

theorem valveRemapped_rest (v : Nat) (s : State) : (s.valveRemapped v).zones = s.zones ∧ (s.valveRemapped v).image = s.image := by
  have hstir := Stir.checkNoValves (valveOwner v) ((if (s.tables.valve v).present then s.valveToUnknown v else s).joinNotice (.valve v))
  rw [State.valveRemapped, hstir.zones, hstir.image, joinNotice_withNotices]
  split
  · rw [State.valveToUnknown, State.setValve_eq]; exact ⟨rfl, rfl⟩
  · exact ⟨rfl, rfl⟩

end Sys2Proof.Machine
end

