-- ==== Sys2Proof/Proofs/MapRequests.lean ====
section
/-! MAP_POSITION: a function mapped, removed, or turned away (R56 to R60), O22. -/

namespace Sys2Proof.Machine

/-! ## What follows a change of the map, in every case (R59) -/

/-- From `s` to `u` what R59 has follow a change of the map at entry `e`. -/
structure State.MapFollows (s u : State) (e : MapEntry) : Prop where
  ripple : ∃ (out : List Bool) (due : Bool), Ripple (s.fieldCleared out due u.flow) u
  zones : u.zones = s.zones
  kept : ∀ m, e.fn ≠ .flow m → u.meter m = s.meter m
  lost : ∀ m ≤ 96, e.fn = .flow m → u.meter m = MeterHist.lost
  stuck : ∀ v, s.Stuck v ∨ (e.fn.valve = some v ∧ (s.tables.valve v).present = true ∧ s.hasEntry v = false) → u.Stuck v
  unknown : ∀ v, e.fn.valve = some v → (s.tables.valve v).present = true → (u.valve v).st = .unknown
  out : ∀ i < e.fn.width, bitAt u.image.out (s.tables.posOf e.card e.offset + i) = false
  valve : ∀ v, e.fn.valve = some v → u.Noticed (.valve v)
  inputs : ∀ n, e.fn = .inp n → u.Noticed .inputs

theorem afterMap_follows_flow {e : MapEntry} {m : Nat} (h : e.fn = .flow m) (s : State) : s.MapFollows (s.afterMap e) e := by
  obtain ⟨out, due, heq, hout⟩ := clearField_eq e s
  have hvalve : e.fn.valve = none := by rw [h]; rfl
  rw [afterMap_flow h, heq]
  refine ⟨⟨out, due, Ripple.refl _⟩, rfl, fun n hn => Table.getD_put_ne _ _ _ fun hmn => hn (hmn ▸ h), fun n hn hf => ?_,
    fun v hv => hv.resolve_right fun ⟨hr, _⟩ => (nomatch hvalve.symm.trans hr), fun v hv => (nomatch hvalve.symm.trans hv), hout,
    fun v hv => (nomatch hvalve.symm.trans hv), fun n hn => (nomatch h.symm.trans hn)⟩
  rw [h] at hf
  cases hf
  exact Table.getD_put_self _ _ _ (by omega)

theorem afterMap_follows_valve {e : MapEntry} {v : Nat} (h : e.fn.valve = some v) (s : State) : s.MapFollows (s.afterMap e) e := by
  obtain ⟨out, due, heq, hout⟩ := clearField_eq e s
  have hnot : (∀ m, e.fn ≠ .flow m) ∧ ∀ n, e.fn ≠ .inp n := by
    constructor
    · intro m hm; rw [hm] at h; cases h
    · intro n hn; rw [hn] at h; cases h
  rw [afterMap_valve h, heq]
  have hripple := valveRemapped_ripple v (s.fieldCleared out due s.flow)
  have hstuck := fun w => valveRemapped_stuck (v := v) (w := w) (s := s.fieldCleared out due s.flow)
  have hunknown := valveRemapped_unknown (v := v) (s := s.fieldCleared out due s.flow)
  have hnoticed := valveRemapped_noticed v (s.fieldCleared out due s.flow)
  obtain ⟨hzones, himage⟩ := valveRemapped_rest v (s.fieldCleared out due s.flow)
  generalize (s.fieldCleared out due s.flow).valveRemapped v = u at hripple hstuck hunknown hnoticed hzones himage ⊢
  have hflow : u.flow = s.flow := hripple.flow
  have own : ∀ w, e.fn.valve = some w → v = w := fun w hw => Option.some.inj (h.symm.trans hw)
  refine ⟨⟨out, due, by rw [hflow]; exact hripple⟩, hzones, fun m _ => by rw [State.meter, hflow, State.meter], fun m _ hm => absurd hm (hnot.1 m),
    fun w hw => hstuck w ?_, fun w hw hp => ?_, fun i hi => by rw [himage]; exact hout i hi,
    fun w hw => own w hw ▸ hnoticed, fun n hn => absurd hn (hnot.2 n)⟩
  · rcases hw with hw | ⟨hv, hp, he⟩
    · exact .inl hw
    · exact .inr ⟨own w hv, own w hv ▸ hp, own w hv ▸ he⟩
  · obtain rfl := own w hw
    exact hunknown hp

/-- A function that is neither FLOW nor a valve's: an IN joins INPUTS, nothing follows for the others. -/
theorem afterMap_follows_plain {e : MapEntry} (hm : ∀ m, e.fn ≠ .flow m) (hv : e.fn.valve = none) (s : State) :
    s.MapFollows (s.afterMap e) e := by
  obtain ⟨out, due, heq, hout⟩ := clearField_eq e s
  have plain : ∀ l, (∀ n, e.fn = .inp n → (State.withNotices l (s.fieldCleared out due s.flow)).Noticed .inputs) →
      Ripple (s.fieldCleared out due s.flow) (State.withNotices l (s.fieldCleared out due s.flow)) →
      s.MapFollows (State.withNotices l (s.fieldCleared out due s.flow)) e := fun l hn hr =>
    ⟨⟨out, due, hr⟩, rfl, fun _ _ => rfl, fun m _ hf => absurd hf (hm m), fun v h => h.resolve_right fun ⟨hr, _⟩ => (nomatch hv.symm.trans hr),
      fun v h => (nomatch hv.symm.trans h), hout, fun v h => (nomatch hv.symm.trans h), hn⟩
  by_cases hinp : ∃ n, e.fn = .inp n
  · obtain ⟨n, hn⟩ := hinp
    have hnoticed := State.joinNotice_noticed (s.fieldCleared out due s.flow) .inputs
    have hripple := Ripple.joinNotice (s.fieldCleared out due s.flow) .inputs
    rw [joinNotice_withNotices] at hnoticed hripple
    rw [afterMap_inp hn, heq, joinNotice_withNotices]
    exact plain _ (fun _ _ => hnoticed) hripple
  · have hno : ∀ n, e.fn ≠ .inp n := fun n hn => hinp ⟨n, hn⟩
    rw [afterMap_other hm hno hv, heq]
    exact plain s.link.notices (fun n hn => absurd hn (hno n)) (Ripple.refl _)

theorem afterMap_follows (e : MapEntry) (s : State) : s.MapFollows (s.afterMap e) e := by
  by_cases hm : ∃ m, e.fn = .flow m
  · obtain ⟨m, hm⟩ := hm
    exact afterMap_follows_flow hm s
  · cases hv : e.fn.valve with
    | some v => exact afterMap_follows_valve hv s
    | none => exact afterMap_follows_plain (fun m h => hm ⟨m, h⟩) hv s

/-! ## The end of the event -/

/-- From `s` to `t` what the change of the map at entry `e` and the end of the event do. -/
structure State.MapChanged (s t : State) (e : MapEntry) : Prop where
  spared : Spared { s with flow := t.flow } t
  zones : t.zones = s.zones
  kept : ∀ m, e.fn ≠ .flow m → t.meter m = s.meter m
  lost : ∀ m ≤ 96, e.fn = .flow m → t.meter m = MeterHist.lost
  unknown : ∀ v, e.fn.valve = some v → (s.tables.valve v).present = true → s.hasEntry v = false → (t.valve v).st = .unknown
  out : ∀ i < e.fn.width, (∀ v, s.tables.drivePos v = some (s.tables.posOf e.card e.offset + i) → s.Stuck v
    ∨ (e.fn.valve = some v ∧ (s.tables.valve v).present = true ∧ s.hasEntry v = false)) →
    bitAt t.image.out (s.tables.posOf e.card e.offset + i) = false
  valve : ∀ v, e.fn.valve = some v → t.Noticed (.valve v)
  inputs : ∀ n, e.fn = .inp n → t.Noticed .inputs

theorem Spared.ofFieldCleared {s t : State} {out : List Bool} {due : Bool} {f : Flow} (h : Spared (s.fieldCleared out due f) t) :
    Spared { s with flow := t.flow } t where
  clock := h.clock
  lastStart := h.lastStart
  power := h.power
  rateHigh := h.rateHigh
  tables := h.tables
  locks := h.locks
  stored := h.stored
  copyValid := h.copyValid
  commit := h.commit
  link := h.link
  chain := h.chain
  ring := h.ring
  image := congrArg (fun i : Image => { i with out := s.image.out }) h.image
  periodicFrom := h.periodicFrom
  flow := rfl
  freeCount := h.freeCount
  pending := h.pending

theorem mapFinished_changed (e : MapEntry) (s : State) : s.MapChanged (s.afterMap e).finish e := by
  obtain ⟨⟨out, due, hripple⟩, hzones, hkept, hlost, hstuck, hunknown, hout, hvalve, hinputs⟩ := afterMap_follows e s
  have hend := Settles.finish (s.afterMap e)
  have htables : (s.afterMap e).tables = s.tables := hripple.tables
  have hmeter : ∀ m, (s.afterMap e).finish.meter m = (s.afterMap e).meter m := fun m => by rw [State.meter, hend.flow, State.meter]
  generalize s.afterMap e = u at *
  generalize u.finish = t at *
  refine ⟨Spared.ofFieldCleared (hripple.trans hend.toRipple).toSpared, hend.zones.trans hzones, fun m hm => (hmeter m).trans (hkept m hm),
    fun m hm hf => (hmeter m).trans (hlost m hm hf), fun v hv hp he => ?_, fun i hi hdriven => ?_,
    fun v hv => (hvalve v hv).mono (congrArg TableStore.mask hend.tables) hend.joins,
    fun n hn => (hinputs n hn).mono (congrArg TableStore.mask hend.tables) hend.joins⟩
  · rw [(hend.stuck v (hstuck v (.inr ⟨hv, hp, he⟩))).2]
    exact hunknown v hv hp
  · exact (hend.out _ fun v hv => hstuck v (hdriven v ((congrArg (TableStore.drivePos · v) htables).symm.trans hv))).trans (hout i hi)

/-! ## The entry at a position of a sound map -/

theorem MapDisjoint.eq_of_covers {m : List MapEntry} (h : MapDisjoint m) {a b : MapEntry} (ha : a ∈ m) (hb : b ∈ m) {card offset : Nat}
    (hac : a.covers card offset = true) (hbc : b.covers card offset = true) : a = b := by
  by_contra hne
  have hsymm : Std.Symm fun a b : MapEntry => ∀ card offset, ¬ (a.covers card offset = true ∧ b.covers card offset = true) :=
    ⟨fun _ _ h c o hc => h c o hc.symm⟩
  exact List.Pairwise.forall h ha hb hne card offset ⟨hac, hbc⟩

theorem covers_own (e : MapEntry) {i : Nat} (hi : i < e.fn.width) : e.covers e.card (e.offset + i) = true :=
  (covers_iff e _ _).2 ⟨rfl, by omega, by omega⟩

theorem MapDisjoint.nodup {m : List MapEntry} (h : MapDisjoint m) : m.Nodup := by
  refine h.imp fun {a b} hab heq => ?_
  subst heq
  have hown := covers_own a (mapFn_width_pos a.fn)
  exact hab _ _ ⟨hown, hown⟩

theorem MapInside.card {cards : List Nat} {m : List MapEntry} (h : MapInside cards m) {e : MapEntry} (he : e ∈ m) :
    ∃ w, cards[e.card]? = some w ∧ e.offset + e.fn.width ≤ w := by
  have hin := h e he
  have hpos := mapFn_width_pos e.fn
  rw [List.getD_eq_getElem?_getD] at hin
  cases hw : cards[e.card]? with
  | none => rw [hw, Option.getD_none] at hin; omega
  | some w => exact ⟨w, rfl, by rwa [hw] at hin⟩

/-- The entry that starts at a place of another is that other. -/
theorem TableStore.Sound.entry_at {t : TableStore} (h : t.Sound) {x e : MapEntry} (hx : x ∈ t.map) (he : e ∈ t.map) {i : Nat}
    (hi : i < e.fn.width) (hp : t.posOf x.card x.offset = t.posOf e.card e.offset + i) : x = e := by
  obtain ⟨-, -, -, hdisjoint, hinside⟩ := h
  obtain ⟨w, hw, hxw⟩ := hinside.card hx
  obtain ⟨w', hw', hew⟩ := hinside.card he
  have hpos := mapFn_width_pos x.fn
  have hlocx := locateFrom_posOf 0 t.cards hw (show x.offset < w by omega)
  have hloce := locateFrom_posOf 0 t.cards hw' (show e.offset + i < w' by omega)
  have hsame : (t.cards.take x.card).sum + x.offset = (t.cards.take e.card).sum + (e.offset + i) := by
    rw [← Nat.add_assoc]; exact hp
  rw [hsame, hloce] at hlocx
  have hplace := Option.some.inj hlocx
  have hcard : e.card = x.card := by simpa using congrArg Prod.fst hplace
  have hoffset : e.offset + i = x.offset := congrArg Prod.snd hplace
  have hown := covers_own x hpos
  rw [Nat.add_zero, ← hcard, ← hoffset] at hown
  exact hdisjoint.eq_of_covers hx he hown (covers_own e hi)

/-! ## The requests (R56, R57, R60) -/

theorem mapReply_eq (tag : Byte) (st : Status) (card offset : Nat) (s : State) : State.mapReply tag st card offset s =
    s.reply 0x11 tag st (u8 card ++ u8 offset ++ u8 (s.tables.posOf card offset)
      ++ u8 (((s.tables.entryAt card offset).map fun x => x.fn.code).getD 0)) := by
  unfold State.mapReply
  cases s.tables.entryAt card offset with
  | none => rfl
  | some e => rfl

/-- The map with an entry added, or removed, and what follows. -/
def State.remapped (map : List MapEntry) (e : MapEntry) (s : State) : State :=
  ((s.withTables { s.tables with map := map }).afterMap e).finish

theorem remapped_changed (map : List MapEntry) (e : MapEntry) (s : State) :
    (s.withTables { s.tables with map := map }).MapChanged (s.remapped map e) e := mapFinished_changed e _

theorem mapEntry_stands {s : State} {e : MapEntry} (h : e ∈ s.tables.map) (tag : Byte) (st : Status) :
    s.mapEntry tag e st = s.mapReply tag .ok e.card e.offset := by
  rw [State.mapEntry, if_pos (List.contains_iff_mem.2 h)]

theorem mapEntry_checks {s : State} {e : MapEntry} (h : e ∉ s.tables.map) (tag : Byte) (st : Status) : s.mapEntry tag e st =
    if ((List.range e.fn.width).any fun i => (s.tables.entryAt e.card (e.offset + i)).isSome) = true then s.refuse 0x11 tag .conflict
    else if (s.tables.map.any fun x => x.fn.sameObject e.fn) = true then s.refuse 0x11 tag .conflict
    else if e.strayCardOk = true then s.refuse 0x11 tag .conflict
    else if s.tables.overfull e = true then s.refuse 0x11 tag .full
    else if s.mapBusy e.fn false = true then s.refuse 0x11 tag .busy
    else (s.remapped (s.tables.map ++ [e]) e).mapReply tag st e.card e.offset := by
  rw [State.mapEntry, if_neg (mt List.contains_iff_mem.1 h), mapConflicts_eq]
  simp only [List.cons_append, List.nil_append, checked_cons, checked_nil]
  rfl

theorem mapEntry_conflict {s : State} {e : MapEntry} (h : e ∉ s.tables.map) (hc : s.tables.Conflicts e) (tag : Byte) (st : Status) :
    s.mapEntry tag e st = s.refuse 0x11 tag .conflict := by
  rw [mapEntry_checks h]
  by_cases hcov : ∃ x ∈ s.tables.map, ∃ i < e.fn.width, x.covers e.card (e.offset + i) = true
  · rw [if_pos ((covered_iff _ e).2 hcov)]
  · by_cases hsame : ∃ x ∈ s.tables.map, x.fn.sameObject e.fn = true
    · rw [if_neg (mt (covered_iff _ e).1 hcov), if_pos ((sameObjects_iff _ e).2 hsame)]
    · rw [if_neg (mt (covered_iff _ e).1 hcov), if_neg (mt (sameObjects_iff _ e).1 hsame),
        if_pos ((strayCardOk_iff e).2 ((hc.resolve_left hcov).resolve_left hsame))]

/-- Past the conflicts. -/
theorem mapEntry_clear {s : State} {e : MapEntry} (h : e ∉ s.tables.map) (hc : ¬ s.tables.Conflicts e) (tag : Byte) (st : Status) :
    s.mapEntry tag e st = if s.tables.overfull e = true then s.refuse 0x11 tag .full
      else if s.mapBusy e.fn false = true then s.refuse 0x11 tag .busy
      else (s.remapped (s.tables.map ++ [e]) e).mapReply tag st e.card e.offset := by
  simp only [TableStore.Conflicts, not_or] at hc
  obtain ⟨hcov, hsame, hstray⟩ := hc
  rw [mapEntry_checks h, if_neg (mt (covered_iff _ e).1 hcov), if_neg (mt (sameObjects_iff _ e).1 hsame), if_neg (mt (strayCardOk_iff e).1 hstray)]

section
variable {s : State} (hunlocked : s.Unlocked s.locks.tables) {card offset function number level : Nat} (hcard : card ≤ 15)
  (hoffset : offset < s.tables.cards.getD card 0) (tag : Byte)
include hunlocked hcard hoffset

theorem answerMapPosition_some {fn : MapFn} (hf : mapFnOfCode function number level = some (some fn)) :
    answerMapPosition tag card offset function number level s =
      s.mapEntry tag ⟨card, fn.offsetTaken offset, fn⟩ (takenStatus (fn.offsetTaken offset != offset)) := by
  rw [answerMapPosition, hf]
  dsimp only
  rw [List.cons_append, List.cons_append, List.nil_append, checked_pass (decide_eq_false (by simp only [Config.maxCards]; omega)),
    checked_pass (decide_eq_false (by omega)), ← List.append_nil (s.lockChecks _), checked_unlocked hunlocked]
  rfl

theorem answerMapPosition_none (hf : function = 0) :
    answerMapPosition tag card offset function number level s = s.unmapAt tag card offset := by
  subst hf
  rw [answerMapPosition, (mapFnOfCode_table number level).1]
  dsimp only
  rw [List.cons_append, List.cons_append, List.nil_append, checked_pass (decide_eq_false (by simp only [Config.maxCards]; omega)),
    checked_pass (decide_eq_false (by omega)), ← List.append_nil (s.lockChecks _), checked_unlocked hunlocked]
  rfl

end

theorem unmapAt_none {s : State} {card offset : Nat} (h : s.tables.entryAt card offset = none) (tag : Byte) :
    s.unmapAt tag card offset = s.reply 0x11 tag .ok (u8 card ++ u8 offset ++ u8 (s.tables.posOf card offset) ++ u8 0) := by
  rw [State.unmapAt, h]
  dsimp only
  rw [mapReply_eq, h]
  rfl

theorem unmapAt_some {s : State} {card offset : Nat} {e : MapEntry} (h : s.tables.entryAt card offset = some e) (tag : Byte) :
    s.unmapAt tag card offset = if s.mapBusy e.fn true = true then s.refuse 0x11 tag .busy
      else (s.remapped (s.tables.map.erase e) e).mapReply tag .ok e.card e.offset := by
  rw [State.unmapAt, h]
  simp only [checked_cons, checked_nil]
  rfl

theorem answerMapPosition_badField {s : State} {card function number level : Nat} (h : 15 < card ∨ mapFnOfCode function number level = none)
    (offset : Nat) (tag : Byte) : answerMapPosition tag card offset function number level s = s.refuse 0x11 tag .badField := by
  cases hf : mapFnOfCode function number level with
  | none => rw [answerMapPosition, hf]
  | some fn =>
    have hcard : 15 < card := h.resolve_right (by rw [hf]; nofun)
    rw [answerMapPosition, hf]
    exact checked_fail (decide_eq_true (by simp only [Config.maxCards]; omega)) ..

theorem answerMapPosition_notDefined {s : State} {card offset function number level : Nat} (hcard : card ≤ 15)
    (hf : mapFnOfCode function number level ≠ none) (ho : s.tables.cards.getD card 0 ≤ offset) (tag : Byte) :
    answerMapPosition tag card offset function number level s = s.refuse 0x11 tag .notDefined := by
  obtain ⟨fn, hfn⟩ := Option.ne_none_iff_exists'.1 hf
  rw [answerMapPosition, hfn]
  exact (checked_pass (decide_eq_false (by simp only [Config.maxCards]; omega)) ..).trans (checked_fail (decide_eq_true ho) ..)

end Sys2Proof.Machine
end

