-- ==== Sys2Proof/Proofs/MapPosition.lean ====
section
/-! MAP_POSITION as a whole (R55 to R60), O22. -/

namespace Sys2Proof.Machine

/-! ## The entry a request names -/

theorem entryAt_covers {t : TableStore} {card offset : Nat} {e : MapEntry} (h : t.entryAt card offset = some e) :
    e ∈ t.map ∧ e.card = card := by
  have hcovers : e.covers card offset = true := List.find?_some (p := fun x : MapEntry => x.covers card offset) h
  exact ⟨List.mem_of_find?_eq_some (p := fun x : MapEntry => x.covers card offset) h, ((covers_iff e card offset).1 hcovers).1⟩

/-- An entry added where none covers its first place stands there. -/
theorem entryAt_added {t : TableStore} {e : MapEntry} (h : ¬ t.Conflicts e) :
    TableStore.entryAt { t with map := t.map ++ [e] } e.card e.offset = some e := by
  obtain ⟨hfree, -, -⟩ := (noConflict_iff t e).1 h
  have hnone : t.map.find? (fun x => x.covers e.card e.offset) = none :=
    List.find?_eq_none.2 fun x hx => by simpa using hfree x hx 0 (mapFn_width_pos e.fn)
  have hown : e.covers e.card e.offset = true := by simpa using covers_own e (mapFn_width_pos e.fn)
  rw [TableStore.entryAt, List.find?_append, hnone, Option.none_or]
  exact List.find?_cons_of_pos (p := fun x : MapEntry => x.covers e.card e.offset) hown

theorem mapReply_added {s u : State} {e : MapEntry} (hu : u.tables = { s.tables with map := s.tables.map ++ [e] })
    (h : ¬ s.tables.Conflicts e) (tag : Byte) (st : Status) : u.mapReply tag st e.card e.offset =
      u.reply 0x11 tag st (u8 e.card ++ u8 e.offset ++ u8 (s.tables.posOf e.card e.offset) ++ u8 e.fn.code) := by
  rw [mapReply_eq, hu, entryAt_added h]
  rfl

/-! ## The drive bits of a field that changes (R59) -/

/-- The valve a position of a new entry drives is the entry's, and is stuck or about to be. -/
theorem added_driven {s : State} {e : MapEntry} (hsound : TableStore.Sound { s.tables with map := s.tables.map ++ [e] })
    (hbusy : s.mapBusy e.fn false = false)
    (hdrive : ∀ v, e.fn = .drive v → (s.tables.valve v).present = true ∨ (s.valve v).st = .undefined ∧ s.hasEntry v = false)
    {i v : Nat} (hi : i < e.fn.width) (hp : TableStore.drivePos { s.tables with map := s.tables.map ++ [e] } v = some (s.tables.posOf e.card e.offset + i)) :
    s.Stuck v ∨ (e.fn.valve = some v ∧ (s.tables.valve v).present = true ∧ s.hasEntry v = false) := by
  obtain ⟨x, hx, hfn, hpos⟩ := findPos_some hp
  obtain rfl := hsound.entry_at hx (List.mem_append_right _ (List.mem_singleton_self e)) hi hpos.symm
  have hvalve : x.fn.valve = some v := by rw [hfn]; rfl
  rcases hdrive v hfn with hpresent | ⟨hundef, hentry⟩
  · exact .inr ⟨hvalve, hpresent, mapBusy_free hbusy hvalve hpresent⟩
  · exact .inl ⟨.inr (.inr hundef), hentry⟩

/-- No position of a removed entry drives a valve. -/
theorem removed_driven {t : TableStore} (hsound : t.Sound) {e : MapEntry} (he : e ∈ t.map) {i v : Nat} (hi : i < e.fn.width) :
    TableStore.drivePos { t with map := t.map.erase e } v ≠ some (t.posOf e.card e.offset + i) := by
  intro hp
  obtain ⟨x, hx, -, hpos⟩ := findPos_some hp
  obtain rfl := hsound.entry_at (List.mem_of_mem_erase hx) he hi hpos.symm
  obtain ⟨-, -, -, hdisjoint, -⟩ := hsound
  exact hdisjoint.nodup.not_mem_erase hx

/-! ## The two changes -/

/-- What a function mapped leaves. -/
theorem mapPosition_added {s : State} {e : MapEntry} {card offset : Nat} {fn : MapFn} (he : e = ⟨card, fn.offsetTaken offset, fn⟩)
    (ho : offset < s.tables.cards.getD card 0) (hfree : ∀ c ∈ s.tables.mapConflicts e, c.1 = false) (hbusy : s.mapBusy fn false = false)
    (tag : Byte) (st : Status) {t : State} (ht : t = (s.remapped (s.tables.map ++ [e]) e).mapReply tag st e.card e.offset) :
    Spared (State.reply 0x11 tag st (u8 card ++ u8 e.offset ++ u8 (s.tables.posOf card e.offset) ++ u8 fn.code)
      { s with tables := { s.tables with map := s.tables.map ++ [e] }, flow := t.flow }) t
    ∧ t.zones = s.zones ∧ (∀ m, fn ≠ .flow m → t.meter m = s.meter m)
    ∧ (∀ m ≤ 96, fn = .flow m → t.meter m = MeterHist.lost)
    ∧ (∀ v ≤ 105, fn.valve = some v → (s.tables.valve v).present = true → (t.valve v).st = .unknown)
    ∧ (s.tables.Sound → (∀ v, fn = .drive v → (s.tables.valve v).present = true ∨ (s.valve v).st = .undefined ∧ s.hasEntry v = false) →
        ∀ i < fn.width, bitAt t.image.out (s.tables.posOf card e.offset + i) = false)
    ∧ (∀ v, fn.valve = some v → t.Noticed (.valve v)) ∧ (∀ n, fn = .inp n → t.Noticed .inputs) := by
  have hsoundAfter : s.tables.Sound → TableStore.Sound { s.tables with map := s.tables.map ++ [e] } := fun h => by
    rw [he] at hfree ⊢
    exact h.mapped ho hfree
  obtain ⟨hspared, hzones, hkept, hlost, hunknown, hout, hvalve, hinputs⟩ := remapped_changed (s.tables.map ++ [e]) e s
  generalize s.remapped (s.tables.map ++ [e]) e = u at *
  rw [mapReply_added hspared.tables ((mapConflicts_iff _ e).1 hfree).1] at ht
  obtain rfl : fn = e.fn := by rw [he]
  obtain rfl : card = e.card := by rw [he]
  subst ht
  exact ⟨hspared.reply _ _ _ _, hzones, hkept, hlost, fun v _ hv hp => hunknown v hv hp (mapBusy_free hbusy hv hp),
    fun hsound hdrive i hi => hout i hi fun v hv => added_driven (hsoundAfter hsound) hbusy hdrive hi hv, hvalve, hinputs⟩

/-- What a function removed leaves. -/
theorem mapPosition_removed {s : State} {e : MapEntry} {card offset : Nat} (he : s.tables.entryAt card offset = some e)
    (hbusy : s.mapBusy e.fn true = false) (tag : Byte) {t : State}
    (ht : t = (s.remapped (s.tables.map.erase e) e).mapReply tag .ok e.card e.offset) :
    Spared (State.reply 0x11 tag .ok
      (u8 card ++ u8 e.offset ++ u8 (s.tables.posOf card e.offset) ++ u8 (((t.tables.entryAt card e.offset).map fun x => x.fn.code).getD 0))
      { s with tables := { s.tables with map := s.tables.map.erase e }, flow := t.flow }) t
    ∧ t.zones = s.zones ∧ (∀ m ≤ 96, e.fn = .flow m → t.meter m = MeterHist.lost)
    ∧ (∀ v ≤ 105, e.fn.valve = some v → (s.tables.valve v).present = true → (t.valve v).st = .unknown)
    ∧ (s.tables.Sound → ∀ i < e.fn.width, bitAt t.image.out (s.tables.posOf card e.offset + i) = false)
    ∧ (∀ v, e.fn.valve = some v → t.Noticed (.valve v)) ∧ (∀ n, e.fn = .inp n → t.Noticed .inputs) := by
  obtain ⟨hmem, rfl⟩ := entryAt_covers he
  obtain ⟨hspared, hzones, -, hlost, hunknown, hout, hvalve, hinputs⟩ := remapped_changed (s.tables.map.erase e) e s
  generalize s.remapped (s.tables.map.erase e) e = u at *
  have hpos : u.tables.posOf e.card e.offset = s.tables.posOf e.card e.offset := by rw [hspared.tables]; rfl
  rw [mapReply_eq, hpos] at ht
  subst ht
  exact ⟨hspared.reply _ _ _ _, hzones, hlost, fun v _ hv hp => hunknown v hv hp (mapBusy_free hbusy hv hp),
    fun hsound i hi => hout i hi fun v hv => absurd hv (removed_driven hsound hmem hi), hvalve, hinputs⟩

/-! ## The obligation -/

/-- The requests that a lock does not turn away. -/
theorem mapPosition_taken {s : State} (tag : Byte) {card offset : Nat} (function number level : Nat) (hs : s.Ready)
    (hunlocked : s.Unlocked s.locks.tables) (hcard : card ≤ 15) (ho : offset < s.tables.cards.getD card 0) :
    (∀ fn, mapFnOfCode function number level = some (some fn) → exec (.mapPosition tag card offset function number level) s =
      .next (s.mapEntry tag ⟨card, fn.offsetTaken offset, fn⟩ (if fn.offsetTaken offset = offset then .ok else .adjusted)))
    ∧ (function = 0 → exec (.mapPosition tag card offset function number level) s = .next (s.unmapAt tag card offset)) := by
  have hexec : exec (.mapPosition tag card offset function number level) s =
      .next (answerMapPosition tag card offset function number level s) := exec_answer rfl hs
  refine ⟨fun fn hf => ?_, fun hf => ?_⟩
  · rw [hexec, answerMapPosition_some hunlocked hcard ho tag hf, takenStatus_eq bne_eq_false_iff_eq]
  · rw [hexec, answerMapPosition_none hunlocked hcard ho tag hf]

/-- The requests that a field out of range, or a place no card has, turns away before the lock is looked at. -/
theorem mapPosition_outOfRange {s : State} (tag : Byte) (card offset function number level : Nat) (hs : s.Ready) :
    (15 < card ∨ mapFnOfCode function number level = none →
      exec (.mapPosition tag card offset function number level) s = .next (s.refuse 0x11 tag .badField))
    ∧ (card ≤ 15 → mapFnOfCode function number level ≠ none → s.tables.cards.getD card 0 ≤ offset →
      exec (.mapPosition tag card offset function number level) s = .next (s.refuse 0x11 tag .notDefined)) := by
  have hexec : exec (.mapPosition tag card offset function number level) s =
      .next (answerMapPosition tag card offset function number level s) := exec_answer rfl hs
  rw [hexec]
  exact ⟨fun h => congrArg _ (answerMapPosition_badField h offset tag), fun hc hf h => congrArg _ (answerMapPosition_notDefined hc hf h tag)⟩

/-- Settles O22, by what the request names: a function new or standing, NONE at a mapped or a free place. -/
theorem mapPositionTaken : Obligations.MapPositionTaken := by
  refine ⟨fun s tag card offset function number level hs hunlocked hcard ho => ?_, fun s tag card offset function number level hs =>
    mapPosition_outOfRange tag card offset function number level hs, mapFnOfCode_table, fun t e card offset => ?_, fun s removal => ?_⟩
  · obtain ⟨hmap, hnone⟩ := mapPosition_taken tag function number level hs hunlocked hcard ho
    refine ⟨fun fn e hf he hnew hfree hbusy => ?_, fun fn e hf he hmem => ?_, fun e hf he hbusy => ?_, fun hf he => ?_,
      fun fn e conflict full hf he hnew hconflict hfull => ?_, fun e hf he hbusy => ?_⟩
    · obtain rfl : fn.code = function := (mapFnOfCode_some hf).1
      obtain ⟨hc, hfl⟩ := (mapConflicts_iff _ e).1 hfree
      have hoff : e.offset = fn.offsetTaken offset := by rw [he]
      have hfn : e.fn = fn := by rw [he]
      refine ⟨_, ?_, mapPosition_added he ho hfree hbusy tag _ rfl⟩
      rw [hmap fn hf, ← he, ← hoff, mapEntry_clear hnew hc, if_neg (mt (overfull_iff _ e).1 hfl), if_neg (by rw [hfn, hbusy]; nofun)]
    · have hc : e.card = card := by rw [he]
      rw [hmap fn hf, ← he, mapEntry_stands hmem, mapReply_eq, hc]
    · refine ⟨_, ?_, mapPosition_removed he hbusy tag rfl⟩
      rw [hnone hf, unmapAt_some he, if_neg (by rw [hbusy]; nofun)]
    · rw [hnone hf, unmapAt_none he]
    · have hconflicts : s.tables.Conflicts e = conflict := by
        rw [hconflict, he]
        rfl
      have hfulls : s.tables.Full e = full := by
        rw [hfull, he]
        rfl
      rw [hmap fn hf, ← he, ← hconflicts, ← hfulls]
      refine ⟨fun h => by rw [mapEntry_conflict hnew h], fun hc h => ?_, fun hc hfl hbusy => ?_⟩
      · rw [mapEntry_clear hnew hc, if_pos ((overfull_iff _ e).2 h)]
      · have hfn : e.fn = fn := by rw [he]
        rw [mapEntry_clear hnew hc, if_neg (mt (overfull_iff _ e).1 hfl), if_pos (by rw [hfn]; exact hbusy)]
    · rw [hnone hf, unmapAt_some he, if_pos hbusy]
  · refine ⟨by cases e.fn <;> rfl, by cases e.fn <;> rfl, covers_iff e card offset, rfl, rfl, fun w hw h => entryAtPos_posOf hw h,
      fun p => entryAtPos_beyond, rfl, isOutputPos_iff t, fun fn => findPos_none, findPos_only, fun v => ⟨rfl, rfl, rfl⟩, hasValves_iff t, ?_,
      sameObject_iff⟩
    rw [mapConflicts_iff, noConflict_iff, notFull_iff, and_assoc, and_assoc]
    rfl
  · refine ⟨mapBusy_drip s removal, fun v fn hfn => ?_, fun n l fn hfn => ?_⟩
    · simp only [List.mem_cons, List.not_mem_nil, or_false] at hfn
      refine mapBusy_valve s removal ?_
      rcases hfn with rfl | rfl | rfl
      · rfl
      · rfl
      · rfl
    · simp only [List.mem_cons, List.not_mem_nil, or_false] at hfn
      rcases hfn with rfl | rfl | rfl | rfl
      · rfl
      · rfl
      · rfl
      · rfl

end Sys2Proof.Machine
end
